-- ==== Sys2Proof/Word.lean ====
section
/-! DEFINITION. The two widths of the engine (00_scope.md R7, 20_memory.md R31): a data-memory byte and a
32-bit register word. -/

namespace Sys2Proof

/-- One byte of data memory, of a block, of a key. -/
abbrev Byte := BitVec 8

/-- One 32-bit register of the window, or one word of the SP network. -/
abbrev Word := BitVec 32

end Sys2Proof
end

