-- ==== Sys2Proof/Config.lean ====
section
/-! DEFINITION. What the spec leaves OPEN (00_scope.md R6) and what it calls a draw (93_implementation_defined.md
section 1). Every constant here has no body: nothing can evaluate it and no proof can see a value of it. State holds
a copy of each open parameter and a list of placed answers for each kind of draw (Machine/State.lean), so a statement
about every state is a statement about every value. -/

namespace Sys2Proof.Config

/-- `LANES` less one (R6: `LANES` is OPEN, an integer at least 1). That it is below 2^32, so that the
register LANES can show it, is the model's choice (log 5, DESIGN CHOICE): R6 gives no upper bound. -/
opaque lanesLessOne : Fin 4294967295

/-- `MEM_SIZE` less one (R6: `MEM_SIZE` is OPEN, an integer 1..2^32). -/
opaque memSizeLessOne : Fin 4294967296

/-- `REG_BASE` (R6, R40): the platform address of the register window. -/
opaque regBase : Nat

/-- How many steps the reset-time initialisation takes before its last one (R152, 93 I6: finite, unspecified). -/
opaque initSteps : Nat

/-- `BUS_OK` (R6, R32, 93 I2): whether the platform completes the engine's data-memory access, when State holds no
placed answer. The argument is the number of free values taken so far. -/
opaque busOk : Nat → Bool

/-- A free byte (93 I1: `RNG` of ISO 10126; 93 I3: a raced byte), when State holds no placed one. -/
opaque freeByte : Nat → Byte

/-- A free choice (93 I4: the lane; I5: the set in flight; I6: the number of steps; I3, log 11: one of two
outcomes), when State holds no placed one. -/
opaque freeChoice : Nat → Nat

end Sys2Proof.Config
end

