-- ==== Sys2Proof/Machine/Bytes.lean ====
section
/-! DEFINITION. Byte strings, byte order and the packing of the window's byte arrays (00_scope.md R8, R9; 10_state.md
R16; 20_memory.md R34). -/

namespace Sys2Proof.Machine

/-- `zeros(n)` (R8). -/
def zeros (n : Nat) : List Byte := List.replicate n 0

/-- `b[i:j)` (R8). -/
def sub (b : List Byte) (i j : Nat) : List Byte := (b.drop i).take (j - i)

/-- `xor(a, b)` of two strings of equal length (R8). -/
def xorBytes (a b : List Byte) : List Byte := List.zipWith (· ^^^ ·) a b

/-- `be(b)`: b[0] most significant (R8). -/
def be (b : List Byte) : Nat := b.foldl (fun v x => v * 256 + x.toNat) 0

/-- `be_n(v)`: the n-byte big-endian string of v mod 2^(8n) (R8). -/
def beBytes (n v : Nat) : List Byte :=
  (List.range n).map fun k => BitVec.ofNat 8 (v / 256 ^ (n - 1 - k))

/-- `le32(b)` of a 4-byte string (R8). -/
def le32 (b : List Byte) : Word :=
  b.getD 3 0 ++ b.getD 2 0 ++ b.getD 1 0 ++ b.getD 0 0

/-- `le32bytes(w)` (R8). -/
def le32bytes (w : Word) : List Byte :=
  [w.extractLsb' 0 8, w.extractLsb' 8 8, w.extractLsb' 16 8, w.extractLsb' 24 8]

/-- A 2-byte string read little-endian, a rule entry of PERMUTE (20_memory.md R34). -/
def le16 (b : List Byte) : Nat := (b.getD 0 0).toNat + 256 * (b.getD 1 0).toNat

/-- `rol32(w, n)` (R9). -/
def rol32 (w : Word) (n : Nat) : Word := (w <<< n) ||| (w >>> (32 - n))

/-- `ror32(w, n)` (R9). -/
def ror32 (w : Word) (n : Nat) : Word := (w >>> n) ||| (w <<< (32 - n))

/-- `shl32(w, n)` (R9). -/
def shl32 (w : Word) (n : Nat) : Word := w <<< n

/-- Byte k of a packed array of the window: bits [8k+7:8k] (R16). -/
def arrByte {n : Nat} (v : BitVec n) (k : Nat) : Byte := v.extractLsb' (8 * k) 8

/-- The first `len` bytes of a packed array, in index order (R16). -/
def arrBytes {n : Nat} (len : Nat) (v : BitVec n) : List Byte := (List.range len).map (arrByte v)

/-- The 32-bit word at array offset 4j, as the host reads it (R16). -/
def arrWord {n : Nat} (v : BitVec n) (j : Nat) : Word := v.extractLsb' (32 * j) 32

/-- The array after the host writes the word at array offset 4j (R16). -/
def setArrWord {n : Nat} (v : BitVec n) (j : Nat) (w : Word) : BitVec n :=
  (v &&& ~~~((0xFFFFFFFF#32).setWidth n <<< (32 * j))) ||| (w.setWidth n <<< (32 * j))

/-- The packed array that holds a byte string from index 0 (R16). -/
def packBytes (n : Nat) (b : List Byte) : BitVec n :=
  b.foldr (fun x acc => (acc <<< 8) ||| x.setWidth n) 0

end Sys2Proof.Machine
end

