-- ==== Sys2Proof/Syntax.lean ====
section
/-! DEFINITION. The commands of the engine (30_encoding.md R51, R53, R57): one constructor of `Instr` per row of
spec/opcode_table.json. -/

namespace Sys2Proof

/-- A bit numbering (40_bit_addressing.md R63), named by the NUM field of a command word (R57). -/
inductive Numbering where
  | lsb0 | lsb1 | msb0 | msb1
  deriving DecidableEq, Repr

/-- The 18 commands of R53. Every other operand of a command is a register of the window, so only NUM is written in
the command word. -/
inductive Instr where
  /-- NOP, 0x00 (R133). -/
  | nop
  /-- CONFIGURE, 0x01 (R121). -/
  | configure
  /-- REKEY, 0x02 (R90). -/
  | rekey
  /-- ACK, 0x03 (R132). -/
  | ack
  /-- CANCEL, 0x04 (R131). -/
  | cancel
  /-- BLK_ENC, 0x10 (R104). -/
  | blkEnc
  /-- BLK_DEC, 0x11 (R105). -/
  | blkDec
  /-- MSG_ENC, 0x20 (R129). -/
  | msgEnc
  /-- MSG_DEC, 0x21 (R130). -/
  | msgDec
  /-- BIT_GET, 0x30 (R66). -/
  | bitGet (num : Numbering)
  /-- BIT_SET, 0x31 (R67). -/
  | bitSet (num : Numbering)
  /-- BIT_CLR, 0x32 (R68). -/
  | bitClr (num : Numbering)
  /-- BIT_TGL, 0x33 (R69). -/
  | bitTgl (num : Numbering)
  /-- PERMUTE, 0x34 (R71). -/
  | permute (num : Numbering)
  /-- GF_MUL, 0x40 (R76). -/
  | gfMul
  /-- GF_IRRED, 0x41 (R77). -/
  | gfIrred
  /-- PAD_SET, 0x50 (R118). -/
  | padSet
  /-- PAD_CLR, 0x51 (R119). -/
  | padClr
  deriving DecidableEq, Repr

/-- The three fields of a command word (R51), before it is known whether the word is legal. -/
structure CmdFields where
  /-- Bits [7:0]. -/
  op  : BitVec 8
  /-- Bits [9:8]. -/
  num : BitVec 2
  /-- Bits [31:10]. -/
  res : BitVec 22
  deriving DecidableEq, Repr

end Sys2Proof
end

