-- ==== Sys2Proof/Machine/Bits.lean ====
section
/-! DEFINITION. The bit-addressing and permutation unit (40_bit_addressing.md R63, R64, R65, R70). `none` stands for the
bounds or structure error that the engine reports as INCONSISTENT_ARGUMENTS. -/

namespace Sys2Proof.Machine

/-- The origin of a numbering (R63). -/
def origin : Numbering → Nat
  | .lsb0 | .msb0 => 0
  | .lsb1 | .msb1 => 1

/-- Whether a numbering's direction is LSB-first (R63). -/
def lsbFirst : Numbering → Bool
  | .lsb0 | .lsb1 => true
  | .msb0 | .msb1 => false

/-- The (byte, shift) pair of a logical index (R63, R65). -/
def locate (len idx : Nat) (num : Numbering) : Option (Nat × Nat) :=
  if origin num ≤ idx ∧ idx - origin num < 8 * len then
    let j := idx - origin num
    if lsbFirst num then some (len - 1 - j / 8, j % 8) else some (j / 8, 7 - j % 8)
  else none

/-- A byte with one bit replaced (R64). -/
def putBit (b : Byte) (shift : Nat) (v : Bool) : Byte :=
  if v then b ||| (1#8 <<< shift) else b &&& ~~~(1#8 <<< shift)

/-- A byte with one bit inverted (R69). -/
def flipBit (b : Byte) (shift : Nat) : Byte := b ^^^ (1#8 <<< shift)

/-- `getbit(buf, idx, num)` (R64). -/
def getbit (buf : List Byte) (idx : Nat) (num : Numbering) : Option Bool :=
  (locate buf.length idx num).map fun p => (buf.getD p.1 0).getLsbD p.2

/-- `setbit(buf, idx, num, v)` (R64). -/
def setbit (buf : List Byte) (idx : Nat) (num : Numbering) (v : Bool) : Option (List Byte) :=
  (locate buf.length idx num).map fun p => buf.set p.1 (putBit (buf.getD p.1 0) p.2 v)

/-- The numbering of the result of `permute`: origin 1, the direction kept (R70). -/
def targetNum (num : Numbering) : Numbering := if lsbFirst num then .lsb1 else .msb1

/-- The loop of `permute` from target bit `i + 1` on (R70). -/
def permuteFrom (data : List Byte) (num : Numbering) : Nat → List Nat → List Byte → Option (List Byte)
  | _, [], out => some out
  | i, idx :: rest, out =>
    match getbit data idx num with
    | none => none
    | some v =>
      match setbit out (i + 1) (targetNum num) v with
      | none => none
      | some out' => permuteFrom data num (i + 1) rest out'

/-- `permute(data, rule, num)` (R70). -/
def permute (data : List Byte) (rule : List Nat) (num : Numbering) : Option (List Byte) :=
  if rule.length % 8 = 0 then permuteFrom data num 0 rule (zeros (rule.length / 8)) else none

/-- A fixed permutation of a cipher, in MSB-1 numbering (R70). The tables never fail on a block of their own length. -/
def permuteTable (data : List Byte) (table : List Nat) : List Byte := (permute data table .msb1).getD []

end Sys2Proof.Machine
end

