-- ==== Sys2Proof/WellFormed.lean ====
section
/-! DEFINITION. Which fields make a legal command word (30_encoding.md R58). Every term of `Instr` is a legal command
(its type admits no other), so well-formedness is a property of the fields of a word. -/

namespace Sys2Proof.CmdFields

/-- The opcodes of R53 that use NUM. -/
def numOpcodes : List (BitVec 8) := [0x30, 0x31, 0x32, 0x33, 0x34]

/-- The opcodes of R53 that do not use NUM. -/
def plainOpcodes : List (BitVec 8) :=
  [0x00, 0x01, 0x02, 0x03, 0x04, 0x10, 0x11, 0x20, 0x21, 0x40, 0x41, 0x50, 0x51]

/-- OP is listed in R53. -/
def opListed (f : CmdFields) : Bool := f.op ∈ numOpcodes ∨ f.op ∈ plainOpcodes

/-- RES is zero (R51). -/
def resZero (f : CmdFields) : Bool := f.res = 0

/-- NUM is zero unless the opcode uses it (R51). -/
def numAllowed (f : CmdFields) : Bool := f.num = 0 ∨ f.op ∈ numOpcodes

/-- The word is legal: the negation of R58's "illegal". -/
def wellFormed (f : CmdFields) : Bool := f.opListed && f.resZero && f.numAllowed

end Sys2Proof.CmdFields
end

