-- ==== Sys2Proof/Decode.lean ====
section
/-! DEFINITION. The command decoder and the encoder (30_encoding.md R51, R53, R57, R58). -/

namespace Sys2Proof

/-- Why a word is no command (R58). The engine itself reports all three as ILLEGAL_COMMAND. -/
inductive DecodeError where
  /-- OP is not in R53. -/
  | unknownOpcode
  /-- RES, bits [31:10], is not 0. -/
  | reservedBits
  /-- NUM is not 0 for an opcode that does not use it. -/
  | numNotUsed
  deriving DecidableEq, Repr

/-- The fields of a command word (R51). -/
def fieldsOf (w : Word) : CmdFields :=
  { op := w.extractLsb' 0 8, num := w.extractLsb' 8 2, res := w.extractLsb' 10 22 }

/-- The command word with given fields (R51). -/
def wordOf (f : CmdFields) : Word := f.res ++ f.num ++ f.op

/-- The numbering a NUM code names (R57). -/
def numberingOf (n : BitVec 2) : Numbering :=
  if n = 0 then .lsb0 else if n = 1 then .lsb1 else if n = 2 then .msb0 else .msb1

/-- The NUM code of a numbering (R57). -/
def numCode : Numbering → BitVec 2
  | .lsb0 => 0
  | .lsb1 => 1
  | .msb0 => 2
  | .msb1 => 3

/-- The command an opcode names (R53), NUM already checked. -/
def instrOf (op : BitVec 8) (num : Numbering) : Option Instr :=
  match op.toNat with
  | 0x00 => some .nop
  | 0x01 => some .configure
  | 0x02 => some .rekey
  | 0x03 => some .ack
  | 0x04 => some .cancel
  | 0x10 => some .blkEnc
  | 0x11 => some .blkDec
  | 0x20 => some .msgEnc
  | 0x21 => some .msgDec
  | 0x30 => some (.bitGet num)
  | 0x31 => some (.bitSet num)
  | 0x32 => some (.bitClr num)
  | 0x33 => some (.bitTgl num)
  | 0x34 => some (.permute num)
  | 0x40 => some .gfMul
  | 0x41 => some .gfIrred
  | 0x50 => some .padSet
  | 0x51 => some .padClr
  | _ => none

/-- Decoding a word written to CMD (R53, R58): total, rejecting by name. -/
def decode (w : Word) : Except DecodeError Instr :=
  let f := fieldsOf w
  if f.resZero = false then .error .reservedBits
  else if f.opListed = false then .error .unknownOpcode
  else if f.numAllowed = false then .error .numNotUsed
  else
    match instrOf f.op (numberingOf f.num) with
    | some i => .ok i
    | none => .error .unknownOpcode

/-- The opcode of a command (R53). -/
def opcode : Instr → BitVec 8
  | .nop => 0x00
  | .configure => 0x01
  | .rekey => 0x02
  | .ack => 0x03
  | .cancel => 0x04
  | .blkEnc => 0x10
  | .blkDec => 0x11
  | .msgEnc => 0x20
  | .msgDec => 0x21
  | .bitGet _ => 0x30
  | .bitSet _ => 0x31
  | .bitClr _ => 0x32
  | .bitTgl _ => 0x33
  | .permute _ => 0x34
  | .gfMul => 0x40
  | .gfIrred => 0x41
  | .padSet => 0x50
  | .padClr => 0x51

/-- The NUM field of a command: zero where it is not used (R51). -/
def numField : Instr → BitVec 2
  | .bitGet n | .bitSet n | .bitClr n | .bitTgl n | .permute n => numCode n
  | .nop | .configure | .rekey | .ack | .cancel | .blkEnc | .blkDec | .msgEnc | .msgDec
  | .gfMul | .gfIrred | .padSet | .padClr => 0

/-- The fields of a command's word (R51). -/
def encodeFields (i : Instr) : CmdFields := { op := opcode i, num := numField i, res := 0 }

/-- The word of a command: `0x00000000 | NUM<<8 | OP` (R53). -/
def encode (i : Instr) : Word := wordOf (encodeFields i)

/-- What the decoder reads from a row of spec/opcode_table.json given as `nbits` bits of `w`, the bits above zero. A
command word is written to CMD as one 32-bit word, so it has no byte order of its own. -/
def decodeTableWord (nbits w : Nat) : Option Instr :=
  match decode (BitVec.ofNat 32 (w % 2 ^ nbits)) with
  | .ok i => some i
  | .error _ => none

end Sys2Proof
end

