-- ==== Sys2Proof/Machine/State.lean ====
section
/-! DEFINITION. The engine's state as plain data (10_state.md, 70_reset_and_hazards.md R151), the reasons a step stops,
and the state after reset. -/

namespace Sys2Proof.Machine

/-! ### Codes -/

/-- A block cipher (00_scope.md R2; codes 0..3 of 30_encoding.md R54). -/
inductive Cipher where
  | des | deal | magenta | serpent
  deriving DecidableEq, Repr

/-- A mode of operation (00_scope.md R3; codes 0..6 of 30_encoding.md R55). -/
inductive Mode where
  | ecb | cbc | pcbc | cfb | ofb | ctr | rd
  deriving DecidableEq, Repr

/-- A padding scheme (00_scope.md R3; codes 0..4 of 30_encoding.md R56). -/
inductive Padding where
  | noPadding | zeros | ansiX923 | pkcs7 | iso10126
  deriving DecidableEq, Repr

/-- Which message command runs: MSG_ENC or MSG_DEC. -/
inductive Direction where
  | encrypt | decrypt
  deriving DecidableEq, Repr

/-- STATUS.STATE (10_state.md R17); the values 5..7 never occur. -/
inductive EngineState where
  | idle | busy | done | cancelled | failed
  deriving DecidableEq, Repr

/-- The errors of 60_exceptions.md R134; no other code occurs. -/
inductive ErrorCode where
  | unknownAlgorithm | unknownMode | unknownPadding | keyTooShort | ivMissing | ivWrongLength | ivForbidden
  | deltaMissing | deltaUnsafe | notConfigured | notKeyed
  | unalignedNoPadding | ciphertextLength | overlap | padUsedRange
  | addrRange | tooLarge | busError
  | inconsistentArguments
  | illegalCommand
  deriving DecidableEq, Repr

/-- A register of the window (10_state.md R15). `key`, `iv`, `delta`, `blkIn` and `blkOut` carry the index of the
array word. -/
inductive Reg where
  | id | cmd | status | error | ctrl | irqStatus | alg | mode | padding | keyLen | ivLen | deltaCtl
  | src | dst | len | outLen | doneBlocks | totalBlocks | bitIdx | ruleAddr | ruleLen | gfArg | padUsed
  | result | blkLen | lanes
  | key (j : Nat) | iv (j : Nat) | delta (j : Nat) | blkIn (j : Nat) | blkOut (j : Nat)
  | reserved
  deriving DecidableEq, Repr

/-! ### Parameters -/

/-- The parameters of 00_scope.md R6 that an engine is built with. No step changes them. -/
structure Params where
  /-- `LANES` (P), at least 1. -/
  lanes       : Nat
  /-- `MEM_SIZE`, 1..2^32. -/
  memSize     : Nat
  /-- `DEAL_KS_KEY`, a parameter with a default. -/
  dealKsKey   : BitVec 64
  /-- `MAGENTA_F255`, a parameter with a default. -/
  magentaF255 : Byte
  deriving DecidableEq, Repr

/-! ### The register window -/

/-- STATUS (10_state.md R17), bit by bit. -/
structure Status where
  engine        : EngineState
  keyed         : Bool
  configured    : Bool
  padWarn       : Bool
  cancelPending : Bool
  initDone      : Bool
  cmdDropped    : Bool
  deriving DecidableEq, Repr

/-- ERROR when it is not zero (10_state.md R18): CODE and OP; KIND is a function of CODE (60_exceptions.md R134). -/
structure ErrorRecord where
  code : ErrorCode
  op   : Byte
  deriving DecidableEq, Repr

/-- The host-written operand registers (10_state.md R15), each as wide as its field that is not hardwired to zero. The
byte arrays are packed as the window shows them (R16). The latched copies of R20 have the same shape. -/
structure Operands where
  alg        : Byte
  mode       : Byte
  padding    : Byte
  keyLen     : Byte
  ivLen      : Byte
  deltaValid : Bool
  src        : Word
  dst        : Word
  len        : Word
  bitIdx     : Word
  ruleAddr   : Word
  ruleLen    : Word
  gfArg      : BitVec 24
  padUsed    : Byte
  key        : BitVec 256
  iv         : BitVec 128
  delta      : BitVec 128
  blkIn      : BitVec 128
  deriving DecidableEq, Repr

/-- The registers that only the engine writes (10_state.md R15). BLKLEN and LANES are computed from the context and the
parameters, not stored a second time. -/
structure Outputs where
  outLen      : Word
  doneBlocks  : Word
  totalBlocks : Word
  result      : Word
  blkOut      : BitVec 128
  deriving DecidableEq, Repr

/-! ### Internal state -/

/-- Four 32-bit words, X0..X3 of the SP network (10_state.md R23). -/
structure Quad where
  x0 : Word
  x1 : Word
  x2 : Word
  x3 : Word
  deriving DecidableEq, Repr

/-- One DEAL round key with the DES round keys it expands to (10_state.md R22). -/
structure DealKey where
  rk  : List Byte
  des : List (List Byte)
  deriving DecidableEq, Repr

/-- The round-key table (10_state.md R22). -/
inductive RoundKeys where
  /-- 16 round keys of 48 bits. -/
  | des (ks : List (List Byte))
  /-- 6 or 8 round keys of 64 bits. -/
  | deal (ks : List DealKey)
  /-- 6 or 8 round keys of 64 bits. -/
  | magenta (ks : List (List Byte))
  /-- 33 round keys of 128 bits. -/
  | serpent (ks : List Quad)
  deriving DecidableEq, Repr

/-- The context (10_state.md R21). `ctx.B` is `blockSize ctx.alg`. -/
structure Context where
  alg   : Cipher
  key   : List Byte
  rkt   : RoundKeys
  mode  : Mode
  pad   : Padding
  /-- B bytes, or absent (mode ECB). -/
  iv    : Option (List Byte)
  /-- 0 <= delta < 2^(8B), or absent (a mode other than CTR and RD). -/
  delta : Option Nat
  deriving DecidableEq, Repr

/-- The registers of one block lane (10_state.md R23, 60_exceptions.md R148): its block input and output, the Feistel
halves and the SP words of the last block it processed. -/
structure LaneRegs where
  input  : List Byte
  output : List Byte
  fl     : List Byte
  fr     : List Byte
  x      : Quad
  deriving DecidableEq, Repr

/-- The datapath registers (10_state.md R23). A lane that `lanes` does not list holds `LaneRegs.reset`. -/
structure Datapath where
  chain   : List Byte
  chainP  : List Byte
  ctrBase : Nat
  lanes   : List (Nat × LaneRegs)
  deriving DecidableEq, Repr

/-- The sequencer of a running message command (10_state.md R24). -/
structure MsgRun where
  dir      : Direction
  /-- The block count n. -/
  n        : Nat
  /-- How many blocks each lane has completed; a lane that is not listed has completed none. Lane s owns blocks s, s+P,
  s+2P, ..., so this gives its next block, and the set `pending` of blocks not yet started. -/
  counts   : List (Nat × Nat)
  /-- The lanes whose next block is in flight after a CANCEL (46_modes.md R131); none while no CANCEL is accepted. -/
  inFlight : Option (List Nat)
  deriving DecidableEq, Repr

/-- The commands that can take further sequencer steps after the accepting one: those of a finite, unspecified number of
steps (93 I6), and a bit command between its read and its result, which is one step away (20_memory.md R48; log 25). -/
inductive SlowCmd where
  | configure
  | rekey
  | permute (num : Numbering)
  /-- BIT_GET after its read: `v` is the bit, on its way to RESULT (40_bit_addressing.md R66). -/
  | bitGet (num : Numbering) (v : Bool)
  /-- BIT_SET, BIT_CLR or BIT_TGL, `i`, after its read: `y` is the byte on its way back to address `a` (R67..R69). -/
  | bitPut (i : Instr) (a : Nat) (y : Byte)
  deriving DecidableEq, Repr

/-- What the sequencer is doing (10_state.md R24, 70_reset_and_hazards.md R151). -/
inductive Sequencer where
  /-- No command. -/
  | idle
  /-- The reset-time initialisation, `left` steps before its last one (R152). -/
  | init (left : Nat)
  /-- A slow command, `left` steps before its last one. -/
  | slow (cmd : SlowCmd) (left : Nat)
  /-- A message command. -/
  | msg (run : MsgRun)
  deriving DecidableEq, Repr

/-- Data memory: (address, byte) pairs, addresses strictly rising, none holding what an unlisted address reads as. -/
abbrev Memory := List Host.Cell

/-! ### The outside world -/

/-- The width of a host access to the window (20_memory.md R36). -/
inductive AccessWidth where
  | bits8 | bits16 | bits32
  deriving DecidableEq, Repr

/-- Where a host access to the window goes. -/
inductive WindowAddr where
  /-- A byte offset from REG_BASE, as 10_state.md R13 counts. -/
  | offset (o : Nat)
  /-- A platform address; the platform places the window at REG_BASE (20_memory.md R40). -/
  | platform (a : Nat)
  deriving DecidableEq, Repr

/-- One thing the outside world does between two steps of the engine. The list of them in State is the order in which
the host agents' accesses are serialised (60_exceptions.md R148); `idle` lets the engine take a step, so that every
interleaving of host and engine is some list. -/
inductive HostOp where
  | regWrite (at_ : WindowAddr) (width : AccessWidth) (v : Word)
  | regRead (at_ : WindowAddr) (width : AccessWidth)
  | memWrite (a : Nat) (bytes : List Byte)
  | memRead (a n : Nat)
  | idle
  | reset
  deriving DecidableEq, Repr

/-- What the last host read returned. -/
inductive HostResponse where
  | word (w : Word)
  | bytes (b : List Byte)
  deriving DecidableEq, Repr

/-- The MODEL's own field: answers placed for the coming draws of 93_implementation_defined.md section 1, first answer
first. Where a list is empty the draw is an opaque constant of Config applied to `taken`, which counts the draws so
answered. -/
structure Env where
  /-- `BUS_OK`, one per data-memory access of the engine (93 I2). -/
  bus     : List Bool
  /-- Bytes of `RNG` and of raced reads and outputs (93 I1, I3). -/
  bytes   : List Byte
  /-- Lane choices, sets in flight and step counts (93 I4, I5, I6; log 25), what a host reads of a byte being
  written (20_memory.md R46). -/
  choices : List Nat
  taken   : Nat
  deriving DecidableEq, Repr

/-! ### The state -/

/-- The whole machine. -/
structure State where
  params      : Params
  status      : Status
  error       : Option ErrorRecord
  irqEn       : Bool
  irqTerminal : Bool
  ops         : Operands
  out         : Outputs
  latched     : Operands
  ctx         : Context
  ftab        : List Byte
  dp          : Datapath
  seq         : Sequencer
  /-- The MODEL's own field: source and rule bytes of the running command that the host has written (R46). -/
  raced       : List Nat
  mem         : Memory
  /-- What the outside world does next, first first. -/
  host        : List HostOp
  /-- The MODEL's own field: what the last host read returned. -/
  response    : Option HostResponse
  env         : Env
  deriving DecidableEq, Repr

/-! ### Stops -/

/-- Why the machine stops. -/
inductive Fault where
  /-- Raised by a host access to data memory at an address that the spec says does not exist (20_memory.md R31:
  addresses 0..MEM_SIZE-1). Safe: the engine's own accesses report ADDR_RANGE instead and go on. -/
  | noSuchAddress
  /-- Raised by a host access at an offset past the 256-byte window (10_state.md R13). Safe. -/
  | outsideWindow
  deriving DecidableEq, Repr

/-- Why a step has no meaning. -/
inductive Refusal where
  /-- A command that has no meaning yet. Safe. No command is in this case. -/
  | notModelled (mnemonic : String)
  /-- Raised by a host access to the window that is not an aligned 32-bit one (20_memory.md R36: "a model refuses it").
  Safe. -/
  | notAlignedWord
  /-- Raised by a host access to a byte of the destination of a running message or PERMUTE (20_memory.md R46: a model
  "may refuse the others"). Safe. -/
  | destinationRace
  deriving DecidableEq, Repr

/-! ### Reset -/

/-- Operand registers after reset: all zero (70_reset_and_hazards.md R151). The latched copies have the same shape; R151
leaves them unspecified, and zeros there are a DESIGN CHOICE (log 3), unsafe. -/
def Operands.reset : Operands :=
  { alg := 0, mode := 0, padding := 0, keyLen := 0, ivLen := 0, deltaValid := false, src := 0, dst := 0, len := 0,
    bitIdx := 0, ruleAddr := 0, ruleLen := 0, gfArg := 0, padUsed := 0, key := 0, iv := 0, delta := 0, blkIn := 0 }

/-- Engine-written registers after reset: all zero (R151). -/
def Outputs.reset : Outputs := { outLen := 0, doneBlocks := 0, totalBlocks := 0, result := 0, blkOut := 0 }

/-- STATUS after reset: BUSY, INIT_DONE = 0, the rest 0 (R151, R152). -/
def Status.reset : Status :=
  { engine := .busy, keyed := false, configured := false, padWarn := false, cancelPending := false, initDone := false,
    cmdDropped := false }

/-- The context after reset: code 0 of each choice, a zero key and zero round keys. DESIGN CHOICE (log 3), unsafe: R151
leaves it unspecified; it is unreadable while KEYED = CONFIGURED = 0. -/
def Context.reset : Context :=
  { alg := .des, key := List.replicate 8 0, rkt := .des (List.replicate 16 (List.replicate 6 0)), mode := .ecb,
    pad := .noPadding, iv := none, delta := none }

/-- A lane's registers after reset: zeros of the widths of the cipher with code 0. DESIGN CHOICE (log 3), unsafe: R151
leaves them unspecified. -/
def LaneRegs.reset : LaneRegs :=
  { input := List.replicate 8 0, output := List.replicate 8 0, fl := List.replicate 4 0, fr := List.replicate 4 0,
    x := ⟨0, 0, 0, 0⟩ }

/-- The datapath after reset: zeros. DESIGN CHOICE (log 3), unsafe: R151 leaves it unspecified. -/
def Datapath.reset : Datapath :=
  { chain := List.replicate 8 0, chainP := List.replicate 8 0, ctrBase := 0, lanes := [] }

/-- No placed answer: every draw is Config's (log 4). -/
def Env.reset : Env := { bus := [], bytes := [], choices := [], taken := 0 }

/-- The parameters, the open ones as opaque constants (00_scope.md R6). -/
def Params.reset : Params :=
  { lanes := Config.lanesLessOne.val + 1, memSize := Config.memSizeLessOne.val + 1, dealKsKey := dealKsKeyDefault,
    magentaF255 := magentaF255Default }

/-- The machine right after reset (R151, R152): initialisation is about to run. Data memory lists nothing (log 1), and
no host access is placed. FTAB is unspecified before initialisation writes it; DESIGN CHOICE (log 3), unsafe: zeros. -/
def State.reset : State :=
  { params := Params.reset, status := Status.reset, error := none, irqEn := false, irqTerminal := false,
    ops := Operands.reset, out := Outputs.reset, latched := Operands.reset, ctx := Context.reset,
    ftab := List.replicate 256 0, dp := Datapath.reset, seq := .init Config.initSteps, raced := [], mem := [],
    host := [], response := none, env := Env.reset }

end Sys2Proof.Machine
end

