-- ==== Sys2Proof/Machine/Memory.lean ====
section
/-! DEFINITION. Data memory (20_memory.md R31, R32): a list of (address, byte) pairs in one canonical form. -/

namespace Sys2Proof.Machine

/-- What an address that is not listed reads as. DESIGN CHOICE (log 1), unsafe: R151 says that the content of data
memory after reset is the platform's. -/
def powerOnByte : Byte := 0

/-- One byte of memory. -/
def readByte : Memory → Nat → Byte
  | [], _ => powerOnByte
  | (k, v) :: rest, a => if a = k then v else readByte rest a

/-- Memory with one byte written; the canonical form is kept (Laws/Memory.lean, `memoryWf_writeByte`). -/
def writeByte : Memory → Nat → Byte → Memory
  | [], a, v => if v = powerOnByte then [] else [(a, v)]
  | (k, w) :: rest, a, v =>
    if a < k then (if v = powerOnByte then (k, w) :: rest else (a, v) :: (k, w) :: rest)
    else if a = k then (if v = powerOnByte then rest else (k, v) :: rest)
    else (k, w) :: writeByte rest a v

/-- `MemRead(a, n)`: the n bytes from address a on (R32). -/
def readBytes (m : Memory) (a n : Nat) : List Byte := (List.range n).map fun k => readByte m (a + k)

/-- `MemWrite(a, |b|, b)`: byte b[k] at address a + k (R32). -/
def writeBytes : Memory → Nat → List Byte → Memory
  | m, _, [] => m
  | m, a, v :: rest => writeBytes (writeByte m a v) (a + 1) rest

/-- The canonical form: addresses strictly rising, and no entry that holds the power-on byte. -/
def memoryWf : Memory → Bool
  | [] => true
  | [(_, v)] => v != powerOnByte
  | (k, v) :: (k', v') :: rest => k < k' && v != powerOnByte && memoryWf ((k', v') :: rest)

end Sys2Proof.Machine
end

