-- ==== Sys2Proof/Machine/Feistel.lean ====
section
/-! DEFINITION. The Feistel round engine (43_feistel.md R91..R102). -/

namespace Sys2Proof.Machine

/-- One round of the core on (L, R) (R91). -/
def feistelRound {κ : Type} (f : List Byte → κ → List Byte) (lr : List Byte × List Byte) (k : κ) :
    List Byte × List Byte :=
  (lr.2, xorBytes lr.1 (f lr.2 k))

/-- The halves (L, R) after the rounds of the core on a block of 2h bytes (R91). -/
def coreHalves {κ : Type} (h : Nat) (f : List Byte → κ → List Byte) (keys : List κ) (x : List Byte) :
    List Byte × List Byte :=
  keys.foldl (feistelRound f) (x.take h, x.drop h)

/-- The recombination R || L (R91). -/
def recombine (lr : List Byte × List Byte) : List Byte := lr.2 ++ lr.1

/-- `core(x, keys, F)` (R91); decryption passes the keys reversed (R92). -/
def core {κ : Type} (h : Nat) (f : List Byte → κ → List Byte) (keys : List κ) (x : List Byte) : List Byte :=
  recombine (coreHalves h f keys x)

/-- The half-swap `V` of a 2h-byte block (R93). -/
def swapHalves (h : Nat) (x : List Byte) : List Byte := x.drop h ++ x.take h

/-! ### DES -/

/-- S-box t, 0-based, on six bits (R96). -/
def desSbox (t six : Nat) : Nat :=
  let row := 2 * (six / 32 % 2) + six % 2
  let col := six / 2 % 16
  ((desSboxes.getD t []).getD row []).getD col 0

/-- The S-box layer of the round function on 48 bits (R97). -/
def desSubstitute (x : Nat) : Nat :=
  (List.range 8).foldl (fun s t => s * 16 + desSbox t (x / 2 ^ (42 - 6 * t) % 64)) 0

/-- `des_f(R, K)` (R97). -/
def desF (r k : List Byte) : List Byte :=
  permuteTable (beBytes 4 (desSubstitute (be (xorBytes (permuteTable r desE) k)))) desP

/-- The halves after the 16 rounds on IP(x), under round keys in the order used (R98). -/
def desHalves (ks : List (List Byte)) (x : List Byte) : List Byte × List Byte :=
  coreHalves 4 desF ks (permuteTable x desIP)

/-- DES under round keys in the order used: K1..K16 to encrypt, K16..K1 to decrypt (R98). -/
def desCrypt (ks : List (List Byte)) (x : List Byte) : List Byte := permuteTable (recombine (desHalves ks x)) desFP

/-! ### DEAL -/

/-- `deal_f(R, RK)`: a DES encryption under the round keys that RK expands to (R99). -/
def dealF (r : List Byte) (k : DealKey) : List Byte := desCrypt k.des r

/-- The halves after the rounds of DEAL encryption (R100). -/
def dealEncHalves (ks : List DealKey) (x : List Byte) : List Byte × List Byte :=
  coreHalves 8 dealF ks (swapHalves 8 x)

/-- The halves after the rounds of DEAL decryption (R100). -/
def dealDecHalves (ks : List DealKey) (y : List Byte) : List Byte × List Byte := coreHalves 8 dealF ks.reverse y

/-- `DEAL_E` (R100). -/
def dealEnc (ks : List DealKey) (x : List Byte) : List Byte := recombine (dealEncHalves ks x)

/-- `DEAL_D` (R100). -/
def dealDec (ks : List DealKey) (y : List Byte) : List Byte := swapHalves 8 (recombine (dealDecHalves ks y))

/-! ### MAGENTA -/

/-- `f(x) = FTAB[x]` (R101). -/
def magF (ftab : List Byte) (x : Byte) : Byte := ftab.getD x.toNat 0

/-- `A(x, y)` (R101). -/
def magA (ftab : List Byte) (x y : Byte) : Byte := magF ftab (x ^^^ magF ftab y)

/-- `Pi` on 16 bytes: the pairs PE(X[i], X[i+8]) in order (R101). -/
def magPi (ftab : List Byte) (x : List Byte) : List Byte :=
  (List.range 8).flatMap fun i =>
    [magA ftab (x.getD i 0) (x.getD (i + 8) 0), magA ftab (x.getD (i + 8) 0) (x.getD i 0)]

/-- `T`: four applications of Pi (R101). -/
def magT (ftab : List Byte) (x : List Byte) : List Byte := magPi ftab (magPi ftab (magPi ftab (magPi ftab x)))

/-- `S`: even bytes, then odd bytes (R101). -/
def magS (x : List Byte) : List Byte :=
  ((List.range 8).map fun i => x.getD (2 * i) 0) ++ ((List.range 8).map fun i => x.getD (2 * i + 1) 0)

/-- `C(j + 1, X)` (R101). -/
def magC (ftab : List Byte) (x : List Byte) : Nat → List Byte
  | 0 => magT ftab x
  | j + 1 => magT ftab (xorBytes x (magS (magC ftab x j)))

/-- `magenta_f(R, SK)` (R101): `C(3, ·)` is `magC _ _ 2`. -/
def magentaF (ftab : List Byte) (r k : List Byte) : List Byte := (magS (magC ftab (r ++ k) 2)).take 8

/-- The halves after the rounds of MAGENTA encryption (R102). -/
def magentaEncHalves (ftab : List Byte) (ks : List (List Byte)) (x : List Byte) : List Byte × List Byte :=
  coreHalves 8 (magentaF ftab) ks x

/-- The halves after the rounds of MAGENTA decryption (R102). -/
def magentaDecHalves (ftab : List Byte) (ks : List (List Byte)) (y : List Byte) : List Byte × List Byte :=
  coreHalves 8 (magentaF ftab) ks.reverse (swapHalves 8 y)

/-- `MAGENTA_E` (R102). -/
def magentaEnc (ftab : List Byte) (ks : List (List Byte)) (x : List Byte) : List Byte :=
  swapHalves 8 (recombine (magentaEncHalves ftab ks x))

/-- `MAGENTA_D` (R102). -/
def magentaDec (ftab : List Byte) (ks : List (List Byte)) (y : List Byte) : List Byte :=
  recombine (magentaDecHalves ftab ks y)

end Sys2Proof.Machine
end

