-- ==== Sys2Proof/Machine/Serpent.lean ====
section
/-! DEFINITION. The substitution-permutation round engine (44_serpent.md R106..R113). -/

namespace Sys2Proof.Machine

/-- The four words of a 16-byte block (R106). -/
def wordsOf (b : List Byte) : Quad :=
  ⟨le32 (sub b 0 4), le32 (sub b 4 8), le32 (sub b 8 12), le32 (sub b 12 16)⟩

/-- The block of four words (R106). -/
def bytesOf (x : Quad) : List Byte := le32bytes x.x0 ++ le32bytes x.x1 ++ le32bytes x.x2 ++ le32bytes x.x3

/-- XOR of all four words (R112). -/
def xorQuad (a b : Quad) : Quad := ⟨a.x0 ^^^ b.x0, a.x1 ^^^ b.x1, a.x2 ^^^ b.x2, a.x3 ^^^ b.x3⟩

/-- The nibble at bit position i: word j supplies nibble bit j (R109). -/
def nibbleAt (x : Quad) (i : Nat) : Nat :=
  (x.x0.getLsbD i).toNat + 2 * (x.x1.getLsbD i).toNat + 4 * (x.x2.getLsbD i).toNat + 8 * (x.x3.getLsbD i).toNat

/-- The word whose bit i is bit j of the table's answer at position i (R109). -/
def sliceWord (s : List Nat) (x : Quad) (j : Nat) : Word :=
  (List.range 32).foldl (fun y i => if (s.getD (nibbleAt x i) 0).testBit j then y ||| (1#32 <<< i) else y) 0

/-- `slice(S, X)` (R109). -/
def slice (s : List Nat) (x : Quad) : Quad := ⟨sliceWord s x 0, sliceWord s x 1, sliceWord s x 2, sliceWord s x 3⟩

/-- `LT` (R110). -/
def linear (x : Quad) : Quad :=
  let x0 := rol32 x.x0 13
  let x2 := rol32 x.x2 3
  let x1 := x.x1 ^^^ x0 ^^^ x2
  let x3 := x.x3 ^^^ x2 ^^^ shl32 x0 3
  let x1 := rol32 x1 1
  let x3 := rol32 x3 7
  let x0 := x0 ^^^ x1 ^^^ x3
  let x2 := x2 ^^^ x3 ^^^ shl32 x1 7
  let x0 := rol32 x0 5
  let x2 := rol32 x2 22
  ⟨x0, x1, x2, x3⟩

/-- `ILT` (R111). -/
def invLinear (x : Quad) : Quad :=
  let x2 := ror32 x.x2 22
  let x0 := ror32 x.x0 5
  let x2 := x2 ^^^ x.x3 ^^^ shl32 x.x1 7
  let x0 := x0 ^^^ x.x1 ^^^ x.x3
  let x3 := ror32 x.x3 7
  let x1 := ror32 x.x1 1
  let x3 := x3 ^^^ x2 ^^^ shl32 x0 3
  let x1 := x1 ^^^ x0 ^^^ x2
  let x2 := ror32 x2 3
  let x0 := ror32 x0 13
  ⟨x0, x1, x2, x3⟩

/-- S-box k (R107). -/
def sbox (k : Nat) : List Nat := serpentSboxes.getD k []

/-- Inverse S-box k (R108). -/
def invSbox (k : Nat) : List Nat := serpentInvSboxes.getD k []

/-- Round key r of a table. -/
def roundKey (ks : List Quad) (r : Nat) : Quad := ks.getD r ⟨0, 0, 0, 0⟩

/-- Round r of encryption (R112). -/
def serpentRound (ks : List Quad) (x : Quad) (r : Nat) : Quad :=
  let y := slice (sbox (r % 8)) (xorQuad x (roundKey ks r))
  if r < 31 then linear y else xorQuad y (roundKey ks 32)

/-- Round r of decryption (R113). -/
def serpentInvRound (ks : List Quad) (x : Quad) (r : Nat) : Quad :=
  let y := if r = 31 then xorQuad x (roundKey ks 32) else invLinear x
  xorQuad (slice (invSbox (r % 8)) y) (roundKey ks r)

/-- The words after the 32 rounds of encryption (R112). -/
def serpentEncWords (ks : List Quad) (x : List Byte) : Quad := (List.range 32).foldl (serpentRound ks) (wordsOf x)

/-- The words after the 32 rounds of decryption (R113). -/
def serpentDecWords (ks : List Quad) (y : List Byte) : Quad :=
  (List.range 32).reverse.foldl (serpentInvRound ks) (wordsOf y)

/-- `SERPENT_E` under a round-key table (R112). -/
def serpentEnc (ks : List Quad) (x : List Byte) : List Byte := bytesOf (serpentEncWords ks x)

/-- `SERPENT_D` under a round-key table (R113). -/
def serpentDec (ks : List Quad) (y : List Byte) : List Byte := bytesOf (serpentDecWords ks y)

end Sys2Proof.Machine
end

