-- ==== Sys2Proof/Machine/KeySchedule.lean ====
section
/-! DEFINITION. Block sizes, key adjustment and the key-schedule generators (42_key_schedules.md R80..R89). -/

namespace Sys2Proof.Machine

/-- `BLOCK_SIZE(alg)` in bytes (R80). -/
def blockSize : Cipher → Nat
  | .des => 8
  | .deal | .magenta | .serpent => 16

/-- `KEY_SIZES(alg)` in bytes, rising (R81). -/
def keySizes : Cipher → List Nat
  | .des => [8]
  | .deal | .magenta | .serpent => [16, 24, 32]

/-- The key with the top bit of its first byte set, the marker of a truncated key (R82). -/
def markKey : List Byte → List Byte
  | [] => []
  | b :: rest => (b ||| 0x80) :: rest

/-- `adjust(alg, L, KEY)` (R82); `none` is KEY_TOO_SHORT. -/
def adjust (alg : Cipher) (l : Nat) (key : List Byte) : Option (List Byte) :=
  if l ∈ keySizes alg then some (key.take l)
  else
    match ((keySizes alg).filter (· < l)).getLast? with
    | none => none
    | some s => some (markKey (key.take s))

/-! ### DES -/

/-- Rotation left by n within 28 bits (R83). -/
def rotl28 (v n : Nat) : Nat := (v * 2 ^ n + v / 2 ^ (28 - n)) % 2 ^ 28

/-- The round keys from halves C and D on, one per rotation (R83). -/
def desKeysFrom : List Nat → Nat → Nat → List (List Byte)
  | [], _, _ => []
  | n :: rest, c, d =>
    permuteTable (beBytes 7 (rotl28 c n * 2 ^ 28 + rotl28 d n)) desPC2 :: desKeysFrom rest (rotl28 c n) (rotl28 d n)

/-- `des_ks(k)`: K1..K16 (R83). -/
def desKs (k : List Byte) : List (List Byte) :=
  let cd := be (permuteTable k desPC1)
  desKeysFrom desShift (cd / 2 ^ 28) (cd % 2 ^ 28)

/-- `DES_E(k, x)` (43_feistel.md R98). -/
def desEncrypt (k x : List Byte) : List Byte := desCrypt (desKs k) x

/-- `DES_D(k, y)` (43_feistel.md R98). -/
def desDecrypt (k y : List Byte) : List Byte := desCrypt (desKs k).reverse y

/-! ### DEAL -/

/-- Part j, 0-based, of a key of 8-byte parts (R84, R85). -/
def keyPart (k : List Byte) (j : Nat) : List Byte := sub k (8 * j) (8 * j + 8)

/-- The constant of round i, 1-based, for s key parts: c_(i-s), or zeros for the first s rounds (R84). -/
def dealConst (s i : Nat) : List Byte :=
  if s < i then beBytes 8 (2 ^ dealConstBits.getD (i - s - 1) 0) else zeros 8

/-- The chain RK_i, RK_(i+1), ... of `n` rounds, before the parity bits are stripped (R84). `ks` holds the DES round
keys of DEAL_KS_KEY. -/
def dealChain (ks : List (List Byte)) (k : List Byte) (s : Nat) : Nat → Nat → List Byte → List (List Byte)
  | 0, _, _ => []
  | n + 1, i, prev =>
    let rk := desCrypt ks (xorBytes (xorBytes (keyPart k ((i - 1) % s)) (dealConst s i)) prev)
    rk :: dealChain ks k s n (i + 1) rk

/-- The parity bit, bit 0, of every byte cleared (R84). -/
def stripParity (rk : List Byte) : List Byte := rk.map (· &&& 0xFE)

/-- The number of rounds for s key parts, of DEAL (R84) and of MAGENTA (R85). -/
def partRounds (s : Nat) : Nat := if s = 4 then 8 else 6

/-- `deal_ks(k)`: the round keys RK1..RKr with their DES expansions (R84, R89). -/
def dealKs (ksKey : BitVec 64) (k : List Byte) : List DealKey :=
  let s := k.length / 8
  (dealChain (desKs (beBytes 8 ksKey.toNat)) k s (partRounds s) 1 (zeros 8)).map fun rk =>
    { rk := stripParity rk, des := desKs (stripParity rk) }

/-! ### MAGENTA -/

/-- The parts, 0-based, in the order the rounds use them (R85). -/
def magentaOrder (s : Nat) : List Nat :=
  if s = 2 then [0, 0, 1, 1, 0, 0] else if s = 3 then [0, 1, 2, 2, 1, 0] else [0, 1, 2, 3, 3, 2, 1, 0]

/-- `magenta_ks(k)` (R85). -/
def magentaKs (k : List Byte) : List (List Byte) := (magentaOrder (k.length / 8)).map (keyPart k)

/-! ### SERPENT -/

/-- The eight pre-key words w_-8..w_-1 (R86). -/
def preKeyWords (k : List Byte) : List Word :=
  let q := k.length / 4
  (List.range 8).map fun t => if t < q then le32 (sub k (4 * t) (4 * t + 4)) else if t = q then 1 else 0

/-- The next prekey word w_i from the eight before it (R87). -/
def nextPreKey (i : Nat) (w : List Word) : Word :=
  rol32 (w.getD 0 0 ^^^ w.getD 3 0 ^^^ w.getD 5 0 ^^^ w.getD 7 0 ^^^ serpentPhi ^^^ BitVec.ofNat 32 i) 11

/-- `n` prekey words from w_i on, given the eight before w_i (R87). -/
def preKeysFrom : Nat → Nat → List Word → List Word
  | 0, _, _ => []
  | n + 1, i, w =>
    let x := nextPreKey i w
    x :: preKeysFrom n (i + 1) (w.tail ++ [x])

/-- The 132 prekey words w_0..w_131 (R87). -/
def preKeys (k : List Byte) : List Word := preKeysFrom 132 0 (preKeyWords k)

/-- Words 4i..4i+3 of a list of words. -/
def quadAt (w : List Word) (i : Nat) : Quad :=
  ⟨w.getD (4 * i) 0, w.getD (4 * i + 1) 0, w.getD (4 * i + 2) 0, w.getD (4 * i + 3) 0⟩

/-- `serp_ks(k)`: K_0..K_32, K_i through S-box (3 - i) mod 8 (R88). -/
def serpentKs (k : List Byte) : List Quad :=
  let w := preKeys k
  (List.range 33).map fun i => slice (sbox ((35 - i) % 8)) (quadAt w i)

/-! ### The round-key table -/

/-- `schedule(alg, k)` (R89). -/
def schedule (p : Params) (alg : Cipher) (k : List Byte) : RoundKeys :=
  match alg with
  | .des => .des (desKs k)
  | .deal => .deal (dealKs p.dealKsKey k)
  | .magenta => .magenta (magentaKs k)
  | .serpent => .serpent (serpentKs k)

/-- `E(x)` through a round-key table (43_feistel.md R103). -/
def encryptBlock (ftab : List Byte) (rkt : RoundKeys) (x : List Byte) : List Byte :=
  match rkt with
  | .des ks => desCrypt ks x
  | .deal ks => dealEnc ks x
  | .magenta ks => magentaEnc ftab ks x
  | .serpent ks => serpentEnc ks x

/-- `D(y)` through a round-key table (43_feistel.md R103). -/
def decryptBlock (ftab : List Byte) (rkt : RoundKeys) (y : List Byte) : List Byte :=
  match rkt with
  | .des ks => desCrypt ks.reverse y
  | .deal ks => dealDec ks y
  | .magenta ks => magentaDec ftab ks y
  | .serpent ks => serpentDec ks y

/-- FL and FR, or X0..X3, as the rounds of one block evaluation leave them (10_state.md R23): `dir` says whether it was
an E or a D. A cipher leaves the other engine's registers alone. For DEAL these are the 64-bit halves of the outer
rounds: the DES that each round runs inside leaves FL and FR alone, a DESIGN CHOICE (log 9), since R91 holds L and R of
every core in them and no rule says what the inner one leaves; no host can observe them. -/
def roundRegs (ftab : List Byte) (rkt : RoundKeys) (dir : Direction) (x : List Byte) (l : LaneRegs) : LaneRegs :=
  let halves (lr : List Byte × List Byte) : LaneRegs := { l with fl := lr.1, fr := lr.2 }
  match rkt, dir with
  | .des ks, .encrypt => halves (desHalves ks x)
  | .des ks, .decrypt => halves (desHalves ks.reverse x)
  | .deal ks, .encrypt => halves (dealEncHalves ks x)
  | .deal ks, .decrypt => halves (dealDecHalves ks x)
  | .magenta ks, .encrypt => halves (magentaEncHalves ftab ks x)
  | .magenta ks, .decrypt => halves (magentaDecHalves ftab ks x)
  | .serpent ks, .encrypt => { l with x := serpentEncWords ks x }
  | .serpent ks, .decrypt => { l with x := serpentDecWords ks x }

end Sys2Proof.Machine
end

