-- ==== Sys2Proof/Machine/Flags.lean ====
section
/-! DEFINITION. The flag and status words of the engine (10_state.md R17, R18, R19, R29; 60_exceptions.md R134, R139). -/

namespace Sys2Proof.Machine

/-- The STATE code (R17). -/
def stateCode : EngineState → BitVec 3
  | .idle => 0
  | .busy => 1
  | .done => 2
  | .cancelled => 3
  | .failed => 4

/-- A flag as one bit. -/
def bit (b : Bool) : BitVec 1 := BitVec.ofBool b

/-- The word STATUS reads (R17); bits [31:9] are hardwired to 0. -/
def statusWord (s : Status) : Word :=
  0#23 ++ bit s.cmdDropped ++ bit s.initDone ++ bit s.cancelPending ++ bit s.padWarn ++ bit s.configured ++ bit s.keyed
    ++ stateCode s.engine

/-- ERROR.CODE of an error (R134). -/
def errorCode : ErrorCode → Byte
  | .unknownAlgorithm => 0x01
  | .unknownMode => 0x02
  | .unknownPadding => 0x03
  | .keyTooShort => 0x04
  | .ivMissing => 0x05
  | .ivWrongLength => 0x06
  | .ivForbidden => 0x07
  | .deltaMissing => 0x08
  | .deltaUnsafe => 0x09
  | .notConfigured => 0x0A
  | .notKeyed => 0x0B
  | .unalignedNoPadding => 0x20
  | .ciphertextLength => 0x21
  | .overlap => 0x22
  | .padUsedRange => 0x23
  | .addrRange => 0x30
  | .tooLarge => 0x31
  | .busError => 0x32
  | .inconsistentArguments => 0x40
  | .illegalCommand => 0x50

/-- ERROR.KIND of an error (R134): 1 configuration, 2 input, 3 resource, 4 structural, 5 command. -/
def errorKind : ErrorCode → BitVec 3
  | .unknownAlgorithm | .unknownMode | .unknownPadding | .keyTooShort | .ivMissing | .ivWrongLength | .ivForbidden
  | .deltaMissing | .deltaUnsafe | .notConfigured | .notKeyed => 1
  | .unalignedNoPadding | .ciphertextLength | .overlap | .padUsedRange => 2
  | .addrRange | .tooLarge | .busError => 3
  | .inconsistentArguments => 4
  | .illegalCommand => 5

/-- The word ERROR reads (R18): 0 when no error is recorded. -/
def errorWord : Option ErrorRecord → Word
  | none => 0
  | some e => 0#8 ++ e.op ++ 0#5 ++ errorKind e.code ++ errorCode e.code

/-- The interrupt output, `IRQ = CTRL.IRQ_EN & IRQ_STATUS.TERMINAL` (R139). -/
def irqLine (s : State) : Bool := s.irqEn && s.irqTerminal

/-- `P`, the number of lanes: the parameter LANES, at least 1 (00_scope.md R6). -/
def laneCount (s : State) : Nat := max 1 s.params.lanes

/-- `ctx.B` (10_state.md R21). -/
def ctxB (s : State) : Nat := blockSize s.ctx.alg

/-- The word BLKLEN reads: `ctx.B` when KEYED = 1, else 0 (R21). -/
def blkLenWord (s : State) : Word := if s.status.keyed then BitVec.ofNat 32 (ctxB s) else 0

end Sys2Proof.Machine
end

