-- ==== Sys2Proof/Machine/Operands.lean ====
section
/-! DEFINITION. The operand forms of the commands: the latched registers, the byte arrays, the byte ranges of data
memory and the codes (10_state.md R16, R20; 30_encoding.md R52, R54..R56; 20_memory.md R33). -/

namespace Sys2Proof.Machine

/-- The registers every accepted command copies (R20). -/
def latchCommon (ops old : Operands) : Operands :=
  { old with
    src := ops.src, dst := ops.dst, len := ops.len, bitIdx := ops.bitIdx, ruleAddr := ops.ruleAddr,
    ruleLen := ops.ruleLen, gfArg := ops.gfArg, padUsed := ops.padUsed, blkIn := ops.blkIn }

/-- The copy a command makes when it is accepted: CONFIGURE copies the configuration registers too, REKEY only KEYLEN
and KEY of them (R20). -/
def latch (i : Instr) (ops old : Operands) : Operands :=
  match i with
  | .configure =>
    { latchCommon ops old with
      alg := ops.alg, mode := ops.mode, padding := ops.padding, keyLen := ops.keyLen, ivLen := ops.ivLen,
      deltaValid := ops.deltaValid, key := ops.key, iv := ops.iv, delta := ops.delta }
  | .rekey => { latchCommon ops old with keyLen := ops.keyLen, key := ops.key }
  | .nop | .ack | .cancel | .blkEnc | .blkDec | .msgEnc | .msgDec | .bitGet _ | .bitSet _ | .bitClr _ | .bitTgl _
  | .permute _ | .gfMul | .gfIrred | .padSet | .padClr => latchCommon ops old

/-- KEY[0..31] (R16). -/
def keyBytes (o : Operands) : List Byte := arrBytes 32 o.key

/-- IV[0:B) (R16). -/
def ivBytes (o : Operands) (b : Nat) : List Byte := arrBytes b o.iv

/-- DELTA[0:16) (R16). -/
def deltaBytes (o : Operands) : List Byte := arrBytes 16 o.delta

/-- BLK_IN[0:B) (R16). -/
def blkInBytes (o : Operands) (b : Nat) : List Byte := arrBytes b o.blkIn

/-- GFARG.A, bits [7:0] (41_gf256.md R76). -/
def gfA (o : Operands) : Byte := o.gfArg.extractLsb' 0 8

/-- GFARG.B, bits [15:8]. -/
def gfB (o : Operands) : Byte := o.gfArg.extractLsb' 8 8

/-- GFARG.POLY, bits [23:16]. -/
def gfPoly (o : Operands) : Byte := o.gfArg.extractLsb' 16 8

/-- The cipher an ALG code names (R54). -/
def cipherOf (c : Byte) : Option Cipher :=
  match c.toNat with
  | 0 => some .des
  | 1 => some .deal
  | 2 => some .magenta
  | 3 => some .serpent
  | _ => none

/-- The mode a MODE code names (R55). -/
def modeOf (c : Byte) : Option Mode :=
  match c.toNat with
  | 0 => some .ecb
  | 1 => some .cbc
  | 2 => some .pcbc
  | 3 => some .cfb
  | 4 => some .ofb
  | 5 => some .ctr
  | 6 => some .rd
  | _ => none

/-- The padding a PADDING code names (R56). -/
def paddingOf (c : Byte) : Option Padding :=
  match c.toNat with
  | 0 => some .noPadding
  | 1 => some .zeros
  | 2 => some .ansiX923
  | 3 => some .pkcs7
  | 4 => some .iso10126
  | _ => none

/-- Whether a range [a, a+n) may be accessed: it ends within MEM_SIZE as an unbounded integer, or it is empty
(20_memory.md R33). -/
def rangeOk (s : State) (a n : Nat) : Bool := n = 0 ∨ a + n ≤ s.params.memSize

/-- Whether two byte ranges share a byte. -/
def intersect (a n b m : Nat) : Bool := 0 < n ∧ 0 < m ∧ a < b + m ∧ b < a + n

/-- The latched source range [SRC, SRC+LEN) (R33). -/
def srcOk (s : State) : Bool := rangeOk s s.latched.src.toNat s.latched.len.toNat

/-- The latched rule range [RULE_ADDR, RULE_ADDR+2*RULE_LEN) (R33). -/
def ruleOk (s : State) : Bool := rangeOk s s.latched.ruleAddr.toNat (2 * s.latched.ruleLen.toNat)

/-- The latched destination range of `n` bytes (R33). -/
def dstOk (s : State) (n : Nat) : Bool := rangeOk s s.latched.dst.toNat n

end Sys2Proof.Machine
end

