-- ==== Sys2Proof/Machine/Ops.lean ====
section
/-! DEFINITION. The shared operations: draws, data-memory accesses, issuing a command, raising an error and its return
(20_memory.md R32; 30_encoding.md R60, R61; 60_exceptions.md R135, R136, R140, R141). -/

namespace Sys2Proof.Machine

/-! ### Draws (93_implementation_defined.md section 1) -/

/-- The state with other placed answers. -/
def setEnv (e : Env) (s : State) : State := { s with env := e }

/-- The state with other data memory. -/
def setMem (m : Memory) (s : State) : State := { s with mem := m }

/-- The state after a draw that Config answered. -/
def took (s : State) : State := setEnv { s.env with taken := s.env.taken + 1 } s

/-- One answer of `BUS_OK` (I2). -/
def drawBus (s : State) : Bool × State :=
  match s.env.bus with
  | b :: rest => (b, setEnv { s.env with bus := rest } s)
  | [] => (Config.busOk s.env.taken, took s)

/-- One free byte (I1, I3). -/
def drawByte (s : State) : Byte × State :=
  match s.env.bytes with
  | b :: rest => (b, setEnv { s.env with bytes := rest } s)
  | [] => (Config.freeByte s.env.taken, took s)

/-- `n` free bytes. -/
def drawBytes : Nat → State → List Byte × State
  | 0, s => ([], s)
  | n + 1, s =>
    let (b, s1) := drawByte s
    let (bs, s2) := drawBytes n s1
    (b :: bs, s2)

/-- One free choice (I4, I5, I6). -/
def drawChoice (s : State) : Nat × State :=
  match s.env.choices with
  | c :: rest => (c, setEnv { s.env with choices := rest } s)
  | [] => (Config.freeChoice s.env.taken, took s)

/-- A free choice of one of the given lanes (46_modes.md R126); nothing is drawn where there is no choice. -/
def drawLane (lanes : List Nat) (s : State) : Nat × State :=
  match lanes with
  | [] => (0, s)
  | [l] => (l, s)
  | l :: rest =>
    let (c, s1) := drawChoice s
    ((l :: rest).getD (c % (rest.length + 1)) l, s1)

/-! ### Data memory (20_memory.md R32, R46) -/

/-- The bytes at some addresses, each byte the host has raced replaced by a free one (R46). -/
def readRaced : List Nat → State → List Byte × State
  | [], s => ([], s)
  | a :: rest, s =>
    let (b, s1) := if a ∈ s.raced then drawByte s else (readByte s.mem a, s)
    let (bs, s2) := readRaced rest s1
    (b :: bs, s2)

/-- The engine's `MemRead(a, n)`: first `BUS_OK` is drawn; `none` is an access the platform did not complete (R32). A
read of no byte is no access. -/
def busRead (a n : Nat) (s : State) : Option (List Byte) × State :=
  if n = 0 then (some [], s)
  else
    let (ok, s1) := drawBus s
    if ok then
      if s1.raced = [] then (some (readBytes s1.mem a n), s1)
      else
        let (bs, s2) := readRaced ((List.range n).map (a + ·)) s1
        (some bs, s2)
    else (none, s1)

/-- The engine's `MemWrite(a, |b|, b)`: `false` is an access the platform did not complete; it stores nothing (R32). -/
def busWrite (a : Nat) (b : List Byte) (s : State) : Bool × State :=
  if b = [] then (true, s)
  else
    let (ok, s1) := drawBus s
    if ok then (true, setMem (writeBytes s1.mem a b) s1) else (false, s1)

/-- The output a command is about to write: any bytes of the right length once the host has raced its input (R46). -/
def racedOutput (y : List Byte) (s : State) : List Byte × State :=
  if s.raced = [] then (y, s) else drawBytes y.length s

/-! ### The end of a command -/

/-- `terminal(st)` (60_exceptions.md R136); the sequencer has no command any more. -/
def terminal (st : EngineState) (s : State) : State :=
  { s with
    status := { s.status with engine := st, cancelPending := false }
    irqTerminal := true
    seq := .idle }

/-- `raise Error(code)` in the command with opcode `op` (R135): the only exception the engine takes. It saves nothing
and jumps nowhere (R140). -/
def raise (code : ErrorCode) (op : Byte) (s : State) : State :=
  terminal .failed { s with error := some { code := code, op := op } }

/-- A command's scalar result, then DONE. -/
def finishResult (v : Word) (s : State) : State := terminal .done { s with out := { s.out with result := v } }

/-- The return from an error is ACK (60_exceptions.md R141, 46_modes.md R132). -/
def acknowledge (s : State) : State :=
  { s with
    status := { s.status with engine := .idle, padWarn := false, cmdDropped := false }
    error := none }

/-! ### Issue (30_encoding.md R60) -/

/-- A word that cannot be accepted is dropped (R61). -/
def drop (s : State) : State := { s with status := { s.status with cmdDropped := true } }

/-- Acceptance: ERROR is cleared, the registers are latched, STATE becomes BUSY (R60); no input is raced yet. -/
def accept (i : Instr) (s : State) : State :=
  { s with
    error := none
    latched := latch i s.ops s.latched
    status := { s.status with engine := .busy }
    raced := [] }

/-- The part of R60 shared by all commands but NOP and CANCEL: dropped before INIT_DONE and while BUSY, else performed. -/
def guarded (perform : State → State) (s : State) : State :=
  if s.status.initDone = false then drop s
  else if s.status.engine = .busy then drop s
  else perform s

/-- R60 for a command other than NOP, ACK and CANCEL: accepted, then performed by its own rule. -/
def issue (i : Instr) (perform : State → State) (s : State) : State := guarded (fun s => perform (accept i s)) s

/-- R60 for a word that is no command (R58). -/
def issueIllegal (w : Word) (s : State) : State := guarded (raise .illegalCommand (w.extractLsb' 0 8)) s

/-- A command whose last part `finish` runs `k` engine steps from now, in this very step when `k` is 0; `cmd` stands for
it until then. -/
def launch (cmd : SlowCmd) (finish : State → State) (k : Nat) (s : State) : State :=
  match k with
  | 0 => finish s
  | k + 1 => { s with seq := .slow cmd k }

/-! ### Lane registers -/

/-- The value of a key in a list of pairs, or a default. -/
def lookupD {α : Type} (d : α) : List (Nat × α) → Nat → α
  | [], _ => d
  | (k, v) :: rest, a => if a = k then v else lookupD d rest a

/-- A list of pairs, keys rising, with one key set. -/
def setKey {α : Type} : List (Nat × α) → Nat → α → List (Nat × α)
  | [], a, v => [(a, v)]
  | (k, w) :: rest, a, v =>
    if a < k then (a, v) :: (k, w) :: rest
    else if a = k then (k, v) :: rest
    else (k, w) :: setKey rest a v

/-- The registers of a lane (10_state.md R23). -/
def laneRegs (s : State) (l : Nat) : LaneRegs := lookupD LaneRegs.reset s.dp.lanes l

/-- The state with a lane's registers set. -/
def setLane (l : Nat) (r : LaneRegs) (s : State) : State :=
  { s with dp := { s.dp with lanes := setKey s.dp.lanes l r } }

end Sys2Proof.Machine
end

