-- ==== Sys2Proof/Machine/BitUnit.lean ====
section
/-! DEFINITION. The bit commands and the work of PERMUTE once accepted (40_bit_addressing.md R66..R71). -/

namespace Sys2Proof.Machine

/-- What the four bit commands share (R66): the range check, then the index check, then the rest at (byte, shift). -/
def atBit (i : Instr) (num : Numbering) (rest : Nat → Nat → State → State) (s : State) : State :=
  if srcOk s = false then raise .addrRange (opcode i) s
  else
    match locate s.latched.len.toNat s.latched.bitIdx.toNat num with
    | none => raise .inconsistentArguments (opcode i) s
    | some (byte, shift) => rest (s.latched.src.toNat + byte) shift s

/-- The last part of BIT_GET: the bit read goes to RESULT, any bit once the host has raced the buffer (R66; 20_memory.md
R46). -/
def finishBitGet (v : Bool) (s : State) : State :=
  let (y, s1) := racedOutput [(bit v).setWidth 8] s
  finishResult ((bit ((y.getD 0 0).getLsbD 0)).setWidth 32) s1

/-- The last part of BIT_SET, BIT_CLR and BIT_TGL: the byte is written back, any byte once the host has raced the buffer
(R67, R68, R69; 20_memory.md R46). -/
def finishBitPut (i : Instr) (a : Nat) (y : Byte) (s : State) : State :=
  let (out, s1) := racedOutput [y] s
  match busWrite a out s1 with
  | (false, s2) => raise .busError (opcode i) s2
  | (true, s2) => terminal .done s2

/-- The end of a bit command whose read is over: in the accepting step or in the one engine step after it, so that host
accesses may fall between (20_memory.md R48; 10_state.md R24; log 25). -/
def endBit (cmd : SlowCmd) (finish : State → State) (s : State) : State :=
  let (c, s1) := drawChoice s
  launch cmd finish (c % 2) s1

/-- The rest of BIT_GET at byte address `a` (R66): the read, and RESULT in this step or the next. -/
def getBitAt (num : Numbering) (a shift : Nat) (s : State) : State :=
  match busRead a 1 s with
  | (none, s1) => raise .busError (opcode (.bitGet num)) s1
  | (some v, s1) =>
    let got := (v.getD 0 0).getLsbD shift
    endBit (.bitGet num got) (finishBitGet got) s1

/-- The rest of BIT_SET, BIT_CLR and BIT_TGL at byte address `a` (R67, R68, R69): the read, and the write back in this
step or the next. -/
def updateBitAt (i : Instr) (change : Byte → Nat → Byte) (a shift : Nat) (s : State) : State :=
  match busRead a 1 s with
  | (none, s1) => raise .busError (opcode i) s1
  | (some v, s1) =>
    let y := change (v.getD 0 0) shift
    endBit (.bitPut i a y) (finishBitPut i a y) s1

/-- BIT_GET (R66). -/
def execBitGet (num : Numbering) (s : State) : Host.Outcome State Fault Refusal :=
  .next (issue (.bitGet num) (atBit (.bitGet num) num (getBitAt num)) s)

/-- BIT_SET (R67). -/
def execBitSet (num : Numbering) (s : State) : Host.Outcome State Fault Refusal :=
  .next (issue (.bitSet num) (atBit (.bitSet num) num (updateBitAt (.bitSet num) fun v sh => putBit v sh true)) s)

/-- BIT_CLR (R68). -/
def execBitClr (num : Numbering) (s : State) : Host.Outcome State Fault Refusal :=
  .next (issue (.bitClr num) (atBit (.bitClr num) num (updateBitAt (.bitClr num) fun v sh => putBit v sh false)) s)

/-- BIT_TGL (R69). -/
def execBitTgl (num : Numbering) (s : State) : Host.Outcome State Fault Refusal :=
  .next (issue (.bitTgl num) (atBit (.bitTgl num) num (updateBitAt (.bitTgl num) flipBit)) s)

/-- `n` rule entries as they stand in data memory from address `a` on, raced bytes free; no access is made. -/
def peekRule : Nat → Nat → State → List Nat × State
  | 0, _, s => ([], s)
  | n + 1, a, s =>
    let (e, s1) := readRaced [a, a + 1] s
    let (es, s2) := peekRule n (a + 2) s1
    (le16 e :: es, s2)

/-- `n` rule entries from address `a` on, all of them read before any is checked (R71). Where an access fails, `error`
holds the entries read, and from the failed access on the entries as they stand. -/
def readRule : Nat → Nat → State → Except (List Nat) (List Nat) × State
  | 0, _, s => (.ok [], s)
  | n + 1, a, s =>
    match busRead a 2 s with
    | (none, s1) =>
      let (es, s2) := peekRule (n + 1) a s1
      (.error es, s2)
    | (some e, s1) =>
      match readRule n (a + 2) s1 with
      | (.error es, s2) => (.error (le16 e :: es), s2)
      | (.ok es, s2) => (.ok (le16 e :: es), s2)

/-- PERMUTE when a read fails, `rule` being its entries: BUS_ERROR, but an entry out of range comes before it in
60_exceptions.md R138 (DEDUCED, log 8). -/
def permuteReadFailed (num : Numbering) (rule : List Nat) (s : State) : State :=
  let inRange := rule.all fun e => (locate s.latched.len.toNat e num).isSome
  raise (if inRange then .busError else .inconsistentArguments) (opcode (.permute num)) s

/-- The last part of PERMUTE: the result is written (R71). -/
def writePermuted (num : Numbering) (out : List Byte) (s : State) : State :=
  let (y, s1) := racedOutput out s
  match busWrite s.latched.dst.toNat y s1 with
  | (false, s2) => raise .busError (opcode (.permute num)) s2
  | (true, s2) => terminal .done s2

/-- PERMUTE once accepted (R71): all reads, then all index checks, then the write; of several errors the one that
60_exceptions.md R138 puts first. -/
def permuteBody (num : Numbering) (s : State) : State :=
  let l := s.latched
  let op := opcode (.permute num)
  if l.ruleLen.toNat % 8 ≠ 0 then raise .inconsistentArguments op s
  else if (srcOk s && ruleOk s && dstOk s (l.ruleLen.toNat / 8)) = false then raise .addrRange op s
  else
    match busRead l.src.toNat l.len.toNat s with
    | (none, s1) =>
      let (rule, s2) := peekRule l.ruleLen.toNat l.ruleAddr.toNat s1
      permuteReadFailed num rule s2
    | (some data, s1) =>
      match readRule l.ruleLen.toNat l.ruleAddr.toNat s1 with
      | (.error rule, s2) => permuteReadFailed num rule s2
      | (.ok rule, s2) =>
        match permute data rule num with
        | none => raise .inconsistentArguments op s2
        | some out => writePermuted num out s2

end Sys2Proof.Machine
end

