-- ==== Sys2Proof/Machine/Context.lean ====
section
/-! DEFINITION. Context construction and rekeying: the work of CONFIGURE and REKEY once accepted (46_modes.md R120, R121;
42_key_schedules.md R90). -/

namespace Sys2Proof.Machine

/-- The IV clause of `cfg_check` (R120). -/
def cfgIv (mode : Mode) (o : Operands) (b : Nat) : Except ErrorCode (Option (List Byte)) :=
  if mode = .ecb then
    if o.ivLen ≠ 0 then .error .ivForbidden else .ok none
  else if o.ivLen = 0 then .error .ivMissing
  else if o.ivLen.toNat ≠ b then .error .ivWrongLength
  else .ok (some (ivBytes o b))

/-- Whether a masked delta has a zero high or low byte as a B-byte big-endian value (R120). -/
def deltaUnsafe (b delta : Nat) : Bool :=
  (beBytes b delta).getD 0 0 = 0 ∨ (beBytes b delta).getD (b - 1) 0 = 0

/-- The delta clause of `cfg_check` (R120). -/
def cfgDelta (mode : Mode) (o : Operands) (b : Nat) : Except ErrorCode (Option Nat) :=
  if mode = .ctr then .ok (some 1)
  else if mode = .rd then
    if o.deltaValid = false then .error .deltaMissing
    else
      let delta := be (deltaBytes o) % 2 ^ (8 * b)
      if deltaUnsafe b delta then .error .deltaUnsafe else .ok (some delta)
  else .ok none

/-- `cfg_check()` with the context it leads to (R120, R121), the checks in their order. -/
def cfgCheck (p : Params) (o : Operands) : Except ErrorCode Context :=
  match cipherOf o.alg with
  | none => .error .unknownAlgorithm
  | some alg =>
    match modeOf o.mode with
    | none => .error .unknownMode
    | some mode =>
      match paddingOf o.padding with
      | none => .error .unknownPadding
      | some pad =>
        match adjust alg o.keyLen.toNat (keyBytes o) with
        | none => .error .keyTooShort
        | some k =>
          match cfgIv mode o (blockSize alg) with
          | .error e => .error e
          | .ok iv =>
            match cfgDelta mode o (blockSize alg) with
            | .error e => .error e
            | .ok delta =>
              .ok { alg := alg, key := k, rkt := schedule p alg k, mode := mode, pad := pad, iv := iv, delta := delta }

/-- The first line of CONFIGURE: the previous context is gone (R121). -/
def dropContext (s : State) : State := { s with status := { s.status with keyed := false, configured := false } }

/-- The rest of CONFIGURE (R121). Its key schedule leaves the datapath registers alone, FL and FR under the DES of DEAL's
schedule among them: DESIGN CHOICE (log 9), no rule says; no host can observe them. -/
def configureBody (s : State) : State :=
  match cfgCheck s.params s.latched with
  | .error e => raise e (opcode .configure) s
  | .ok c => terminal .done { s with ctx := c, status := { s.status with keyed := true, configured := true } }

/-- REKEY (42_key_schedules.md R90). Its key schedule leaves the datapath registers alone, as that of CONFIGURE does
(DESIGN CHOICE, log 9). -/
def rekeyBody (s : State) : State :=
  if s.status.keyed = false then raise .notKeyed (opcode .rekey) s
  else
    match adjust s.ctx.alg s.latched.keyLen.toNat (keyBytes s.latched) with
    | none => raise .keyTooShort (opcode .rekey) s
    | some k => terminal .done { s with ctx := { s.ctx with key := k, rkt := schedule s.params s.ctx.alg k } }

end Sys2Proof.Machine
end

