-- ==== Sys2Proof/Machine/Gf.lean ====
section
/-! DEFINITION. The GF(2^8) unit and the generator of the substitution table (41_gf256.md R72, R73, R74, R78). A
polynomial over GF(2) is a Nat whose bit k is the coefficient of x^k (R72). -/

namespace Sys2Proof.Machine

/-- The degree-8 polynomial that a value names: the x^8 term is implicit (R72). -/
def polyOf (p : Byte) : Nat := 0x100 + p.toNat

/-- The loop of `pmod`, with `fuel` for its iterations: each lowers the degree of `a` (R73). -/
def pmodLoop : Nat → Nat → Nat → Nat
  | 0, a, _ => a
  | fuel + 1, a, d =>
    if a ≠ 0 ∧ d.log2 ≤ a.log2 then pmodLoop fuel (a ^^^ (d <<< (a.log2 - d.log2))) d else a

/-- The remainder of `a` by `d` over GF(2), for `a` of degree below 16 (R73). -/
def pmod (a d : Nat) : Nat := pmodLoop 16 a d

/-- `irreducible(p)`: no divisor among the integers 2..31 (R73). -/
def irreducible (p : Byte) : Bool := (List.range 30).all fun k => pmod (polyOf p) (k + 2) != 0

/-- The carry-less product of two bytes (R74). -/
def clmul (a b : Byte) : Nat :=
  (List.range 8).foldl (fun r k => if b.getLsbD k then r ^^^ (a.toNat <<< k) else r) 0

/-- Reduction of a product of degree at most 14, from bit 14 down to bit 8 (R74). -/
def gfReduce (p : Byte) (r : Nat) : Nat :=
  [14, 13, 12, 11, 10, 9, 8].foldl (fun r k => if r.testBit k then r ^^^ (polyOf p <<< (k - 8)) else r) r

/-- The product of R74, the polynomial already known to be irreducible. -/
def gfProduct (a b p : Byte) : Byte := BitVec.ofNat 8 (gfReduce p (clmul a b))

/-- `gfmul(a, b, p)` (R74); `none` is INCONSISTENT_ARGUMENTS. -/
def gfmul (a b p : Byte) : Option Byte := if irreducible p then some (gfProduct a b p) else none

/-- `k` further powers after the entry `x` (R78). MAGENTA_POLY is irreducible, so the multiplication is `gfProduct`
(Laws/Gf.lean, `gfmul_magentaPoly`). -/
def powersFrom : Nat → Byte → List Byte
  | 0, x => [x]
  | k + 1, x => x :: powersFrom k (gfProduct x magentaAlpha magentaPoly)

/-- What the reset-time generator writes to FTAB[0..255] (R78). -/
def ftabGenerated (f255 : Byte) : List Byte := powersFrom 254 0x01 ++ [f255]

end Sys2Proof.Machine
end

