-- ==== Sys2Proof/Machine/GfUnit.lean ====
section
/-! DEFINITION. GF_MUL, GF_IRRED and the reset-time generator (41_gf256.md R76, R77, R78; 70_reset_and_hazards.md
R152). -/

namespace Sys2Proof.Machine

/-- GF_MUL once accepted (R76). -/
def gfMulBody (s : State) : State :=
  match gfmul (gfA s.latched) (gfB s.latched) (gfPoly s.latched) with
  | none => raise .inconsistentArguments (opcode .gfMul) s
  | some v => finishResult (v.setWidth 32) s

/-- GF_IRRED once accepted (R77). -/
def gfIrredBody (s : State) : State := finishResult (if irreducible (gfPoly s.latched) then 1 else 0) s

/-- GF_MUL (R76). -/
def execGfMul (s : State) : Host.Outcome State Fault Refusal := .next (issue .gfMul gfMulBody s)

/-- GF_IRRED (R77). -/
def execGfIrred (s : State) : Host.Outcome State Fault Refusal := .next (issue .gfIrred gfIrredBody s)

/-- The last step of initialisation: FTAB is written, STATE becomes IDLE and INIT_DONE 1 (R152). DESIGN CHOICE (log 26):
all 256 bytes are written in this one step. R152 runs the generator before the step that sets IDLE and INIT_DONE,
and does not say in which steps, so that here FTAB is never the generated table while INIT_DONE = 0. -/
def finishInit (s : State) : State :=
  { s with
    ftab := ftabGenerated s.params.magentaF255
    status := { s.status with engine := .idle, initDone := true }
    seq := .idle }

/-- One step of initialisation (R152). -/
def initStep (left : Nat) (s : State) : State :=
  match left with
  | 0 => finishInit s
  | k + 1 => { s with seq := .init k }

/-- A reset in operation: every field as R151 says, data memory, the parameters and the outside world kept; `steps` is
how long the initialisation takes. -/
def resetEngine (steps : Nat) (s : State) : State :=
  { State.reset with
    params := s.params, mem := s.mem, host := s.host, response := s.response, env := s.env, seq := .init steps }

end Sys2Proof.Machine
end

