-- ==== Sys2Proof/Machine/Pad.lean ====
section
/-! DEFINITION. The padding unit (45_padding.md R115, R116). -/

namespace Sys2Proof.Machine

/-- How many bytes of `RNG` a fill of a B-byte block with u data bytes draws (R115). -/
def randomCount (pad : Padding) (b u : Nat) : Nat := if pad = .iso10126 then b - u - 1 else 0

/-- `fill(pad, blk, u)` (R115); `random` holds the drawn tail bytes of ISO 10126. -/
def fill (pad : Padding) (blk : List Byte) (u : Nat) (random : List Byte) : List Byte :=
  if u = blk.length then blk
  else
    let c := blk.length - u
    match pad with
    | .noPadding => blk
    | .zeros => blk.take u ++ zeros c
    | .ansiX923 => blk.take u ++ zeros (c - 1) ++ [BitVec.ofNat 8 c]
    | .pkcs7 => blk.take u ++ List.replicate c (BitVec.ofNat 8 c)
    | .iso10126 => blk.take u ++ random ++ [BitVec.ofNat 8 c]

/-- The number of trailing zero bytes (R116). -/
def trailingZeros (blk : List Byte) : Nat := (blk.reverse.takeWhile (· = 0)).length

/-- `scan(pad, blk)`: the bytes to strip and the warning (R116). -/
def scan (pad : Padding) (blk : List Byte) : Nat × Bool :=
  match pad with
  | .noPadding => (0, false)
  | .zeros => (trailingZeros blk, false)
  | .ansiX923 | .pkcs7 | .iso10126 =>
    let c := (blk.getD (blk.length - 1) 0).toNat
    if blk.length < c then (blk.length, true) else (c, false)

end Sys2Proof.Machine
end

