-- ==== Sys2Proof/Machine/PadUnit.lean ====
section
/-! DEFINITION. PAD_SET and PAD_CLR (45_padding.md R118, R119). -/

namespace Sys2Proof.Machine

/-- BLK_OUT set to a byte string followed by zeros, then DONE (10_state.md R16). -/
def finishBlkOut (y : List Byte) (s : State) : State :=
  terminal .done { s with out := { s.out with blkOut := packBytes 128 (y ++ zeros (16 - y.length)) } }

/-- PAD_SET once accepted (R118). -/
def padSetBody (s : State) : State :=
  let b := ctxB s
  let u := s.latched.padUsed.toNat
  if s.status.configured = false then raise .notConfigured (opcode .padSet) s
  else if b < u then raise .padUsedRange (opcode .padSet) s
  else
    let (random, s1) := drawBytes (randomCount s.ctx.pad b u) s
    finishBlkOut (fill s.ctx.pad (blkInBytes s.latched b) u random) s1

/-- PAD_CLR once accepted (R119). -/
def padClrBody (s : State) : State :=
  let b := ctxB s
  if s.status.configured = false then raise .notConfigured (opcode .padClr) s
  else
    let (n, warn) := scan s.ctx.pad (blkInBytes s.latched b)
    finishBlkOut ((blkInBytes s.latched b).take (b - n))
      { s with
        out := { s.out with result := BitVec.ofNat 32 (b - n) }
        status := { s.status with padWarn := s.status.padWarn || warn } }

/-- PAD_SET (R118). -/
def execPadSet (s : State) : Host.Outcome State Fault Refusal := .next (issue .padSet padSetBody s)

/-- PAD_CLR (R119). -/
def execPadClr (s : State) : Host.Outcome State Fault Refusal := .next (issue .padClr padClrBody s)

end Sys2Proof.Machine
end

