-- ==== Sys2Proof/Machine/Block.lean ====
section
/-! DEFINITION. BLK_ENC and BLK_DEC (43_feistel.md R103, R104, R105). -/

namespace Sys2Proof.Machine

/-- `E(x)` or `D(x)` of the keyed context (R103). -/
def crypt (s : State) (dir : Direction) (x : List Byte) : List Byte :=
  match dir with
  | .encrypt => encryptBlock s.ftab s.ctx.rkt x
  | .decrypt => decryptBlock s.ftab s.ctx.rkt x

/-- What a block command shares (R104): lane 0 evaluates the block (log 9). -/
def blockCommand (i : Instr) (dir : Direction) (s : State) : State :=
  if s.status.keyed = false then raise .notKeyed (opcode i) s
  else
    let x := blkInBytes s.latched (ctxB s)
    let y := crypt s dir x
    finishBlkOut y
      (setLane 0 (roundRegs s.ftab s.ctx.rkt dir x { laneRegs s 0 with input := x, output := y }) s)

/-- BLK_ENC (R104). -/
def execBlkEnc (s : State) : Host.Outcome State Fault Refusal :=
  .next (issue .blkEnc (blockCommand .blkEnc .encrypt) s)

/-- BLK_DEC (R105). -/
def execBlkDec (s : State) : Host.Outcome State Fault Refusal :=
  .next (issue .blkDec (blockCommand .blkDec .decrypt) s)

end Sys2Proof.Machine
end

