-- ==== Sys2Proof/Machine/Modes.lean ====
section
/-! DEFINITION. The mode equations (46_modes.md R122, R124, R125). -/

namespace Sys2Proof.Machine

/-- Whether a (mode, direction) pair is parallel (R125). -/
def parallel : Mode → Direction → Bool
  | .ecb, _ | .ctr, _ | .rd, _ => true
  | .cbc, .decrypt | .cfb, .decrypt => true
  | .cbc, .encrypt | .cfb, .encrypt => false
  | .pcbc, _ | .ofb, _ => false

/-- Whether a block's equation reads the input block before it from data memory: the parallel pairs with a predecessor
term (R124, R125). -/
def readsPrevious : Mode → Direction → Bool
  | .cbc, .decrypt | .cfb, .decrypt => true
  | .cbc, .encrypt | .cfb, .encrypt => false
  | .ecb, _ | .pcbc, _ | .ofb, _ | .ctr, _ | .rd, _ => false

/-- `ctr_i = be_B((be(IV) + i * delta) mod 2^(8B))` (R124). -/
def counterBlock (b ctrBase delta i : Nat) : List Byte := beBytes b ((ctrBase + i * delta) % 2 ^ (8 * b))

/-- Whether a mode's equation applies E or D to a block (R124): D only to decrypt ECB, CBC and PCBC. -/
def cipherUse : Mode → Direction → Direction
  | .ecb, .decrypt | .cbc, .decrypt | .pcbc, .decrypt => .decrypt
  | .ecb, .encrypt | .cbc, .encrypt | .pcbc, .encrypt => .encrypt
  | .cfb, _ | .ofb, _ | .ctr, _ | .rd, _ => .encrypt

/-- What E or D is applied to (R124): `x` is the input block, `c` the carried or preceding block (C_(i-1) or O_(i-1)), `p`
is P_(i-1) and `ctr` the counter block. -/
def cipherInput : Mode → Direction → (x c p ctr : List Byte) → List Byte
  | .ecb, _, x, _, _, _ => x
  | .cbc, .encrypt, x, c, _, _ => xorBytes x c
  | .cbc, .decrypt, x, _, _, _ => x
  | .pcbc, .encrypt, x, c, p, _ => xorBytes (xorBytes x p) c
  | .pcbc, .decrypt, x, _, _, _ => x
  | .cfb, _, _, c, _, _ => c
  | .ofb, _, _, c, _, _ => c
  | .ctr, _, _, _, _, ctr => ctr
  | .rd, _, _, _, _, ctr => ctr

/-- The output block (R124), `v` being the cipher's answer on `cipherInput`. -/
def blockOutput : Mode → Direction → (x c p v : List Byte) → List Byte
  | .ecb, _, _, _, _, v => v
  | .cbc, .encrypt, _, _, _, v => v
  | .cbc, .decrypt, _, c, _, v => xorBytes v c
  | .pcbc, .encrypt, _, _, _, v => v
  | .pcbc, .decrypt, _, c, p, v => xorBytes (xorBytes v p) c
  | .cfb, _, x, _, _, v => xorBytes x v
  | .ofb, _, x, _, _, v => xorBytes x v
  | .ctr, _, x, _, _, v => xorBytes x v
  | .rd, _, x, _, _, v => xorBytes x v

/-- CHAIN after a block of a sequential pair: C_i, or O_i for OFB (R124); `y` is the output block. -/
def nextChain : Mode → Direction → (x c v y : List Byte) → List Byte
  | .cbc, .encrypt, _, _, _, y => y
  | .pcbc, .encrypt, _, _, _, y => y
  | .pcbc, .decrypt, x, _, _, _ => x
  | .cfb, .encrypt, _, _, _, y => y
  | .ofb, _, _, _, v, _ => v
  | .ecb, _, _, c, _, _ | .ctr, _, _, c, _, _ | .rd, _, _, c, _, _ => c
  | .cbc, .decrypt, _, c, _, _ | .cfb, .decrypt, _, c, _, _ => c

/-- CHAINP after a block: P_i of PCBC (R124). -/
def nextChainP : Mode → Direction → (x p y : List Byte) → List Byte
  | .pcbc, .encrypt, x, _, _ => x
  | .pcbc, .decrypt, _, _, y => y
  | .ecb, _, _, p, _ | .cbc, _, _, p, _ | .cfb, _, _, p, _ | .ofb, _, _, p, _ | .ctr, _, _, p, _ | .rd, _, _, p, _ => p

/-- The block count n of a message command on `l` bytes (R122). -/
def blockCount (dir : Direction) (pad : Padding) (b l : Nat) : Except ErrorCode Nat :=
  match dir with
  | .encrypt =>
    match pad with
    | .noPadding => if l % b ≠ 0 then .error .unalignedNoPadding else .ok (l / b)
    | .zeros => if l % b ≠ 0 then .ok (l / b + 1) else .ok (l / b)
    | .ansiX923 | .pkcs7 | .iso10126 => .ok (l / b + 1)
  | .decrypt => if l % b ≠ 0 then .error .ciphertextLength else .ok (l / b)

end Sys2Proof.Machine
end

