-- ==== Sys2Proof/Machine/Message.lean ====
section
/-! DEFINITION. MSG_ENC, MSG_DEC, the block-mode sequencer and the cancelling of a message (46_modes.md R122..R131). -/

namespace Sys2Proof.Machine

/-- The command a message run executes. -/
def msgInstr : Direction → Instr
  | .encrypt => .msgEnc
  | .decrypt => .msgDec

/-! ### Lanes (R126) -/

/-- How many lanes run: P for a parallel pair, one for a sequential pair (R126). -/
def runWidth (s : State) (m : MsgRun) : Nat := if parallel s.ctx.mode m.dir then laneCount s else 1

/-- How many blocks a lane has completed. -/
def laneDone (m : MsgRun) (l : Nat) : Nat := lookupD 0 m.counts l

/-- The next block of a lane: lane l owns blocks l, l+P, l+2P, ... (R126). -/
def nextBlock (s : State) (m : MsgRun) (l : Nat) : Nat := l + runWidth s m * laneDone m l

/-- The lanes with a block left (R126). -/
def eligible (s : State) (m : MsgRun) : List Nat :=
  (List.range (min (runWidth s m) m.n)).filter fun l => nextBlock s m l < m.n

/-- The lanes that may complete a block: after a CANCEL only those in flight (R131). -/
def readyLanes (s : State) (m : MsgRun) : List Nat :=
  match m.inFlight with
  | none => eligible s m
  | some f => f

/-! ### One block (R123, R124) -/

/-- The input block X_i (R123). -/
def readBlock (m : MsgRun) (i : Nat) (s : State) : Option (List Byte) × State :=
  let b := ctxB s
  let src := s.latched.src.toNat
  let q := s.latched.len.toNat / b
  let r := s.latched.len.toNat % b
  match m.dir with
  | .decrypt => busRead (src + i * b) b s
  | .encrypt =>
    if i < q then busRead (src + i * b) b s
    else
      match busRead (src + q * b) r s with
      | (none, s1) => (none, s1)
      | (some d, s1) =>
        let (random, s2) := drawBytes (randomCount s.ctx.pad b r) s1
        (some (fill s.ctx.pad (d ++ zeros (b - r)) r random), s2)

/-- C_(i-1) or O_(i-1): CHAIN for a sequential pair, the IV or the input block before for a parallel one (R124). -/
def readCarried (m : MsgRun) (i : Nat) (s : State) : Option (List Byte) × State :=
  if readsPrevious s.ctx.mode m.dir then
    if i = 0 then (some (s.ctx.iv.getD []), s)
    else busRead (s.latched.src.toNat + (i - 1) * ctxB s) (ctxB s) s
  else (some s.dp.chain, s)

/-- What E or D is applied to for block i (R124). -/
def msgCipherInput (s : State) (m : MsgRun) (i : Nat) (x c : List Byte) : List Byte :=
  cipherInput s.ctx.mode m.dir x c s.dp.chainP (counterBlock (ctxB s) s.dp.ctrBase (s.ctx.delta.getD 0) i)

/-- The output block Y_i of input X_i (R124). -/
def msgOutput (s : State) (m : MsgRun) (i : Nat) (x c : List Byte) : List Byte :=
  blockOutput s.ctx.mode m.dir x c s.dp.chainP
    (crypt s (cipherUse s.ctx.mode m.dir) (msgCipherInput s m i x c))

/-- The sequencer after lane `l` completed a block (R126, R131). -/
def advanceRun (m : MsgRun) (l : Nat) : MsgRun :=
  { m with
    counts := setKey m.counts l (laneDone m l + 1)
    inFlight := m.inFlight.map fun f => f.erase l }

/-- Registers after lane `l` completed block i with output `y`, written to memory already (R124, R126, R127). Once the
host has raced the source, `y` is free (20_memory.md R46) and CHAIN and CHAINP still carry the block computed from what
was read: DESIGN CHOICE (log 11), no rule says what they hold then; all later output is free too, so that no host can
observe them. -/
def completeBlock (m : MsgRun) (l i : Nat) (x c y : List Byte) (s : State) : State :=
  let use := cipherUse s.ctx.mode m.dir
  let v := crypt s use (msgCipherInput s m i x c)
  let regs :=
    roundRegs s.ftab s.ctx.rkt use (msgCipherInput s m i x c) { laneRegs s l with input := x, output := y }
  let s1 := setLane l regs s
  { s1 with
    dp :=
      { s1.dp with
        chain := nextChain s.ctx.mode m.dir x s.dp.chain v (msgOutput s m i x c)
        chainP := nextChainP s.ctx.mode m.dir x s.dp.chainP (msgOutput s m i x c) }
    out := { s.out with doneBlocks := s.out.doneBlocks + 1 }
    seq := .msg (advanceRun m l) }

/-- Block i of lane `l`: read, compute, write, count (R126); a failed access ends the command (R135). After a failed
MemWrite the lane's registers, X0..X3 of SERPENT among them, hold the lane's block before: DESIGN CHOICE (log 9), since
R106 makes them scratch of one block's evaluation and no rule says what one whose write failed leaves in them; no host can
observe them. -/
def blockStep (m : MsgRun) (l : Nat) (s : State) : State :=
  let i := nextBlock s m l
  let op := opcode (msgInstr m.dir)
  match readBlock m i s with
  | (none, s1) => raise .busError op s1
  | (some x, s1) =>
    match readCarried m i s1 with
    | (none, s2) => raise .busError op s2
    | (some c, s2) =>
      let (y, s3) := racedOutput (msgOutput s2 m i x c) s2
      match busWrite (s3.latched.dst.toNat + i * ctxB s3) y s3 with
      | (false, s4) => raise .busError op s4
      | (true, s4) => completeBlock m l i x c y s4

/-! ### Races (20_memory.md R46) -/

/-- Block `i` of lane `l`, written already, becomes free bytes: in data memory and in the lane's output register. -/
def freeBlock (l i : Nat) (s : State) : State :=
  let (y, s1) := drawBytes (ctxB s) s
  setLane l { laneRegs s l with output := y } (setMem (writeBytes s.mem (s.latched.dst.toNat + i * ctxB s) y) s1)

/-- The first `k` blocks of lane `l` of `w` become free bytes. -/
def freeLane (w l : Nat) : Nat → State → State
  | 0, s => s
  | k + 1, s => freeBlock l (l + w * k) (freeLane w l k s)

/-- Every block that a message has written becomes free bytes: the host raced its source, and R46 makes the command's
output any value of the right length. -/
def freeWritten (m : MsgRun) (s : State) : State :=
  m.counts.foldl (fun t c => freeLane (runWidth s m) c.1 c.2 t) s

/-! ### The end of a message (R128, R131) -/

/-- OUTLEN, written at the end. -/
def setOutLen (n : Nat) (s : State) : State := { s with out := { s.out with outLen := BitVec.ofNat 32 n } }

/-- The last output block Y_(n-1), held in the output register of the lane that owns it (R128). -/
def lastOutput (s : State) (m : MsgRun) : List Byte := (laneRegs s ((m.n - 1) % runWidth s m)).output

/-- The barrier join: OUTLEN and DONE (R128). -/
def joinMsg (m : MsgRun) (s : State) : State :=
  match m.dir with
  | .encrypt => terminal .done (setOutLen (m.n * ctxB s) s)
  | .decrypt =>
    let (n, warn) := if m.n = 0 then (0, false) else scan s.ctx.pad (lastOutput s m)
    terminal .done
      (setOutLen (m.n * ctxB s - n) { s with status := { s.status with padWarn := s.status.padWarn || warn } })

/-- No block is left: the join, or the end of a cancelled message with OUTLEN = 0 (R131). -/
def finishMsg (m : MsgRun) (s : State) : State :=
  match m.inFlight with
  | none => joinMsg m s
  | some _ => terminal .cancelled (setOutLen 0 s)

/-- One sequencer step of a message command (R126). -/
def msgStep (m : MsgRun) (s : State) : State :=
  match readyLanes s m with
  | [] => finishMsg m s
  | l :: rest =>
    let (c, s1) := drawLane (l :: rest) s
    blockStep m c s1

/-! ### Issue (R127, R129, R130) -/

/-- A message command that passed its checks starts: the counters, the chain from the IV, no block done (R124, R127).
R124 gives P_(-1) = zeros(B) for PCBC; that CHAINP is zeroed for every other mode too is a DESIGN CHOICE (log 9): no
equation of another mode reads it and no host can observe it. -/
def loadMsg (dir : Direction) (n : Nat) (s : State) : State :=
  { s with
    out := { s.out with totalBlocks := BitVec.ofNat 32 n, doneBlocks := 0, outLen := 0 }
    dp :=
      { s.dp with
        chain := s.ctx.iv.getD s.dp.chain
        chainP := zeros (ctxB s)
        ctrBase := match s.ctx.iv with | some iv => be iv | none => s.dp.ctrBase }
    seq := .msg { dir := dir, n := n, counts := [], inFlight := none } }

/-- A message command once accepted: its checks in the order of 60_exceptions.md R138, then the start. -/
def startMsg (dir : Direction) (s : State) : State :=
  let op := opcode (msgInstr dir)
  let b := ctxB s
  let l := s.latched
  if s.status.configured = false then raise .notConfigured op s
  else
    match blockCount dir s.ctx.pad b l.len.toNat with
    | .error e => raise e op s
    | .ok n =>
      if maxBlocks < n then raise .tooLarge op s
      else if (srcOk s && dstOk s (n * b)) = false then raise .addrRange op s
      else if intersect l.src.toNat l.len.toNat l.dst.toNat (n * b) then raise .overlap op s
      else loadMsg dir n s

/-- MSG_ENC (R129). -/
def execMsgEnc (s : State) : Host.Outcome State Fault Refusal := .next (issue .msgEnc (startMsg .encrypt) s)

/-- MSG_DEC (R130). -/
def execMsgDec (s : State) : Host.Outcome State Fault Refusal := .next (issue .msgDec (startMsg .decrypt) s)

/-! ### CANCEL (R131) -/

/-- The lanes of a drawn set that have a block left: those in flight when CANCEL is accepted (R131, 93 I5). The draw is
read as the set of its one bits. -/
def inFlightSet (s : State) (m : MsgRun) (c : Nat) : List Nat := (eligible s m).filter fun l => c.testBit l

/-- CANCEL accepted while BUSY (R131): a message starts no new block; any other command goes on. -/
def cancelRunning (s : State) : State :=
  if s.status.cancelPending then s
  else
    let s1 := { s with status := { s.status with cancelPending := true } }
    match s.seq with
    | .msg m =>
      let (c, s2) := drawChoice s1
      { s2 with seq := .msg { m with inFlight := some (inFlightSet s m c) } }
    | .idle | .init _ | .slow _ _ => s1

end Sys2Proof.Machine
end

