-- ==== Sys2Proof/Machine/System.lean ====
section
/-! DEFINITION. The system commands (60_exceptions.md R145), PERMUTE, and the engine's own steps (10_state.md R24). -/

namespace Sys2Proof.Machine

/-! ### Commands of an unspecified number of steps (93 I6) -/

/-- The last step of a command that runs on after its accepting step. -/
def finishSlow : SlowCmd → State → State
  | .configure, s => configureBody s
  | .rekey, s => rekeyBody s
  | .permute num, s => permuteBody num s
  | .bitGet _ v, s => finishBitGet v s
  | .bitPut i a y, s => finishBitPut i a y s

/-- One step of a slow command. -/
def slowStep (cmd : SlowCmd) (left : Nat) (s : State) : State :=
  match left with
  | 0 => finishSlow cmd s
  | k + 1 => { s with seq := .slow cmd k }

/-- CONFIGURE, REKEY or PERMUTE starts: it ends in this very step, or after the drawn number of further ones (93 I6). -/
def startSlow (cmd : SlowCmd) (s : State) : State :=
  let (k, s1) := drawChoice s
  launch cmd (finishSlow cmd) k s1

/-- CONFIGURE (46_modes.md R121). -/
def execConfigure (s : State) : Host.Outcome State Fault Refusal :=
  .next (issue .configure (fun s => startSlow .configure (dropContext s)) s)

/-- REKEY (42_key_schedules.md R90). -/
def execRekey (s : State) : Host.Outcome State Fault Refusal := .next (issue .rekey (startSlow .rekey) s)

/-- PERMUTE (40_bit_addressing.md R71). -/
def execPermute (num : Numbering) (s : State) : Host.Outcome State Fault Refusal :=
  .next (issue (.permute num) (startSlow (.permute num)) s)

/-! ### NOP, ACK, CANCEL -/

/-- NOP has no effect in any state (46_modes.md R133, 30_encoding.md R59). -/
def execNop (s : State) : Host.Outcome State Fault Refusal := .next s

/-- ACK (46_modes.md R132). -/
def execAck (s : State) : Host.Outcome State Fault Refusal := .next (guarded acknowledge s)

/-- CANCEL (46_modes.md R131; 30_encoding.md R60): dropped before INIT_DONE, no effect when nothing runs. -/
def execCancel (s : State) : Host.Outcome State Fault Refusal :=
  .next
    (if s.status.initDone = false then drop s
     else if s.status.engine = .busy then cancelRunning s
     else s)

/-! ### The engine's own step -/

/-- One sequencer step (10_state.md R24); with no command the engine keeps all state (60_exceptions.md R150). -/
def engineStep (s : State) : State :=
  match s.seq with
  | .idle => s
  | .init left => initStep left s
  | .slow cmd left => slowStep cmd left s
  | .msg m => msgStep m s

end Sys2Proof.Machine
end

