-- ==== Sys2Proof/Machine/Dispatch.lean ====
section
/-! DEFINITION. What each command does when its word is written to CMD: the meaning of every constructor of `Instr`. -/

namespace Sys2Proof.Machine

def exec (i : Instr) (s : State) : Host.Outcome State Fault Refusal :=
  match i with
  | .nop => Sys2Proof.Machine.execNop s
  | .configure => Sys2Proof.Machine.execConfigure s
  | .rekey => Sys2Proof.Machine.execRekey s
  | .ack => Sys2Proof.Machine.execAck s
  | .cancel => Sys2Proof.Machine.execCancel s
  | .blkEnc => Sys2Proof.Machine.execBlkEnc s
  | .blkDec => Sys2Proof.Machine.execBlkDec s
  | .msgEnc => Sys2Proof.Machine.execMsgEnc s
  | .msgDec => Sys2Proof.Machine.execMsgDec s
  | .bitGet num => Sys2Proof.Machine.execBitGet num s
  | .bitSet num => Sys2Proof.Machine.execBitSet num s
  | .bitClr num => Sys2Proof.Machine.execBitClr num s
  | .bitTgl num => Sys2Proof.Machine.execBitTgl num s
  | .permute num => Sys2Proof.Machine.execPermute num s
  | .gfMul => Sys2Proof.Machine.execGfMul s
  | .gfIrred => Sys2Proof.Machine.execGfIrred s
  | .padSet => Sys2Proof.Machine.execPadSet s
  | .padClr => Sys2Proof.Machine.execPadClr s

end Sys2Proof.Machine
end

