-- ==== Sys2Proof/Machine/Window.lean ====
section
/-! DEFINITION. The register window as the host reads and writes it (10_state.md R13..R19; 20_memory.md R39). -/

namespace Sys2Proof.Machine

/-- The register at a word-aligned offset below 0x100 (R15). -/
def regAt (o : Nat) : Reg :=
  match o with
  | 0x000 => .id
  | 0x004 => .cmd
  | 0x008 => .status
  | 0x00C => .error
  | 0x010 => .ctrl
  | 0x014 => .irqStatus
  | 0x018 => .alg
  | 0x01C => .mode
  | 0x020 => .padding
  | 0x024 => .keyLen
  | 0x028 => .ivLen
  | 0x02C => .deltaCtl
  | 0x030 => .src
  | 0x034 => .dst
  | 0x038 => .len
  | 0x03C => .outLen
  | 0x040 => .doneBlocks
  | 0x044 => .totalBlocks
  | 0x048 => .bitIdx
  | 0x04C => .ruleAddr
  | 0x050 => .ruleLen
  | 0x054 => .gfArg
  | 0x058 => .padUsed
  | 0x05C => .result
  | 0x060 => .blkLen
  | 0x064 => .lanes
  | o =>
    if 0x080 ≤ o ∧ o < 0x0A0 then .key ((o - 0x080) / 4)
    else if 0x0A0 ≤ o ∧ o < 0x0B0 then .iv ((o - 0x0A0) / 4)
    else if 0x0B0 ≤ o ∧ o < 0x0C0 then .delta ((o - 0x0B0) / 4)
    else if 0x0C0 ≤ o ∧ o < 0x0D0 then .blkIn ((o - 0x0C0) / 4)
    else if 0x0D0 ≤ o ∧ o < 0x0E0 then .blkOut ((o - 0x0D0) / 4)
    else .reserved

/-- The word a read returns (R14, R15); a read changes nothing (20_memory.md R39). -/
def readReg (s : State) : Reg → Word
  | .id => idValue
  | .cmd => 0
  | .status => statusWord s.status
  | .error => errorWord s.error
  | .ctrl => (bit s.irqEn).setWidth 32
  | .irqStatus => (bit s.irqTerminal).setWidth 32
  | .alg => s.ops.alg.setWidth 32
  | .mode => s.ops.mode.setWidth 32
  | .padding => s.ops.padding.setWidth 32
  | .keyLen => s.ops.keyLen.setWidth 32
  | .ivLen => s.ops.ivLen.setWidth 32
  | .deltaCtl => (bit s.ops.deltaValid).setWidth 32
  | .src => s.ops.src
  | .dst => s.ops.dst
  | .len => s.ops.len
  | .outLen => s.out.outLen
  | .doneBlocks => s.out.doneBlocks
  | .totalBlocks => s.out.totalBlocks
  | .bitIdx => s.ops.bitIdx
  | .ruleAddr => s.ops.ruleAddr
  | .ruleLen => s.ops.ruleLen
  | .gfArg => s.ops.gfArg.setWidth 32
  | .padUsed => s.ops.padUsed.setWidth 32
  | .result => s.out.result
  | .blkLen => blkLenWord s
  | .lanes => BitVec.ofNat 32 (laneCount s)
  | .key j => arrWord s.ops.key j
  | .iv j => arrWord s.ops.iv j
  | .delta j => arrWord s.ops.delta j
  | .blkIn j => arrWord s.ops.blkIn j
  | .blkOut j => arrWord s.out.blkOut j
  | .reserved => 0

/-- A write to a register other than CMD (R14, R15): a read-only or reserved register ignores it, a hardwired bit
ignores it, IRQ_STATUS is write 1 to clear (R19). -/
def writeReg (r : Reg) (v : Word) (s : State) : State :=
  match r with
  | .ctrl => { s with irqEn := v.getLsbD 0 }
  | .irqStatus => { s with irqTerminal := s.irqTerminal && !v.getLsbD 0 }
  | .alg => { s with ops := { s.ops with alg := v.setWidth 8 } }
  | .mode => { s with ops := { s.ops with mode := v.setWidth 8 } }
  | .padding => { s with ops := { s.ops with padding := v.setWidth 8 } }
  | .keyLen => { s with ops := { s.ops with keyLen := v.setWidth 8 } }
  | .ivLen => { s with ops := { s.ops with ivLen := v.setWidth 8 } }
  | .deltaCtl => { s with ops := { s.ops with deltaValid := v.getLsbD 0 } }
  | .src => { s with ops := { s.ops with src := v } }
  | .dst => { s with ops := { s.ops with dst := v } }
  | .len => { s with ops := { s.ops with len := v } }
  | .bitIdx => { s with ops := { s.ops with bitIdx := v } }
  | .ruleAddr => { s with ops := { s.ops with ruleAddr := v } }
  | .ruleLen => { s with ops := { s.ops with ruleLen := v } }
  | .gfArg => { s with ops := { s.ops with gfArg := v.setWidth 24 } }
  | .padUsed => { s with ops := { s.ops with padUsed := v.setWidth 8 } }
  | .key j => { s with ops := { s.ops with key := setArrWord s.ops.key j v } }
  | .iv j => { s with ops := { s.ops with iv := setArrWord s.ops.iv j v } }
  | .delta j => { s with ops := { s.ops with delta := setArrWord s.ops.delta j v } }
  | .blkIn j => { s with ops := { s.ops with blkIn := setArrWord s.ops.blkIn j v } }
  | .id | .cmd | .status | .error | .outLen | .doneBlocks | .totalBlocks | .result | .blkLen | .lanes | .blkOut _
  | .reserved => s

end Sys2Proof.Machine
end

