-- ==== Sys2Proof/Machine/HostAccess.lean ====
section
/-! DEFINITION. What the outside world does to the engine: window accesses, accesses to data memory, reset
(10_state.md R13; 20_memory.md R31, R36, R46; 30_encoding.md R60; 70_reset_and_hazards.md R151). -/

namespace Sys2Proof.Machine

/-! ### The window -/

/-- The window offset an access goes to; `none` is a platform address outside the window, no access to this engine. -/
def windowOffset : WindowAddr → Option Nat
  | .offset o => some o
  | .platform a => if Config.regBase ≤ a ∧ a < Config.regBase + 256 then some (a - Config.regBase) else none

/-- A write of word `w` to CMD: what the engine fetches and runs (30_encoding.md R60). -/
def cmdWrite (w : Word) (s : State) : Host.Outcome State Fault Refusal :=
  match decode w with
  | .ok i => exec i s
  | .error _ => .next (issueIllegal w s)

/-- A host access at a window offset: refused unless it is an aligned 32-bit one (20_memory.md R36). -/
def atOffset (o : Nat) (width : AccessWidth) (access : Reg → Host.Outcome State Fault Refusal) :
    Host.Outcome State Fault Refusal :=
  if width ≠ .bits32 ∨ o % 4 ≠ 0 then .refused .notAlignedWord
  else if 256 ≤ o then .fault .outsideWindow
  else access (regAt o)

/-- A host write to the window. -/
def hostRegWrite (at_ : WindowAddr) (width : AccessWidth) (v : Word) (s : State) : Host.Outcome State Fault Refusal :=
  match windowOffset at_ with
  | none => .next s
  | some o => atOffset o width fun r => if r = .cmd then cmdWrite v s else .next (writeReg r v s)

/-- A host read of the window: it changes nothing but what the host has read (20_memory.md R39). -/
def hostRegRead (at_ : WindowAddr) (width : AccessWidth) (s : State) : Host.Outcome State Fault Refusal :=
  match windowOffset at_ with
  | none => .next s
  | some o => atOffset o width fun r => .next { s with response := some (.word (readReg s r)) }

/-! ### Data memory, shared with the engine -/

/-- The destination range of the running command, (0, 0) when it has none (20_memory.md R46). -/
def destRange (s : State) : Nat × Nat :=
  match s.seq with
  | .msg m => (s.latched.dst.toNat, m.n * ctxB s)
  | .slow (.permute _) _ => (s.latched.dst.toNat, s.latched.ruleLen.toNat / 8)
  | .slow (.bitPut _ a _) _ => (a, 1)
  | .slow (.bitGet _ _) _ | .slow .configure _ | .slow .rekey _ | .init _ | .idle => (0, 0)

/-- The destination range the host is refused (R46: "may refuse the others"). The byte of a bit command is not among
them: it lies in the command's source too, which R46 makes a draw, and R48 is about accesses of just that byte.
DESIGN CHOICE (log 11, safe): a byte in both PERMUTE's destination and its source or rule range, an overlap that R71
allows, is among them. R46 makes a host write of such a byte a draw as a source byte, and lets it be refused as a
destination byte; the model refuses it, and a host read of it too. -/
def closedRange (s : State) : Nat × Nat :=
  match s.seq with
  | .msg _ | .slow (.permute _) _ => destRange s
  | .slow (.bitPut _ _ _) _ | .slow (.bitGet _ _) _ | .slow .configure _ | .slow .rekey _ | .init _ | .idle => (0, 0)

/-- The source and rule ranges of the running command (20_memory.md R46). -/
def inputRanges (s : State) : List (Nat × Nat) :=
  match s.seq with
  | .msg _ => [(s.latched.src.toNat, s.latched.len.toNat)]
  | .slow (.permute _) _ =>
    [(s.latched.src.toNat, s.latched.len.toNat), (s.latched.ruleAddr.toNat, 2 * s.latched.ruleLen.toNat)]
  | .slow (.bitGet _ _) _ | .slow (.bitPut _ _ _) _ => [(s.latched.src.toNat, s.latched.len.toNat)]
  | .slow .configure _ | .slow .rekey _ | .init _ | .idle => []

/-- Whether a byte lies in the source or rule range of the running command. -/
def isInput (s : State) (a : Nat) : Bool := (inputRanges s).any fun r => r.1 ≤ a && a < r.1 + r.2

/-- A host access to data memory: it must exist (20_memory.md R31) and must not touch the destination of a running
message or PERMUTE (R46, R154 item 3). A byte that is PERMUTE's destination and its source or rule as well is refused:
DESIGN CHOICE (log 11, `closedRange`). -/
def atMemory (a n : Nat) (s : State) (access : State) : Host.Outcome State Fault Refusal :=
  if rangeOk s a n = false then .fault .noSuchAddress
  else if intersect a n (closedRange s).1 (closedRange s).2 then .refused .destinationRace
  else .next access

/-- What a race makes of the output that the running command has written already: any value (R46). Output still to be
written is freed when it is written (`racedOutput`). -/
def freeOutput (s : State) : State :=
  match s.seq with
  | .msg m => freeWritten m s
  | .slow _ _ | .init _ | .idle => s

/-- The host has written the `n` bytes from `a` on: the running command's input bytes among them are raced (R46). -/
def raceInputs (a n : Nat) (s : State) : State :=
  match ((List.range n).map (a + ·)).filter (isInput s) with
  | [] => s
  | hit => freeOutput { s with raced := s.raced ++ hit }

/-- A host write to data memory. -/
def hostMemWrite (a : Nat) (b : List Byte) (s : State) : Host.Outcome State Fault Refusal :=
  atMemory a b.length s (raceInputs a b.length { s with mem := writeBytes s.mem a b })

/-- What a host read returns, memory holding `bytes` from `a` on: a byte that a bit command is about to write back reads
as it is or as the command's final value, by a free choice (R46). Once the host has raced the buffer that final
value is any byte, and a read may return one that is not the byte written back in the end: DESIGN CHOICE (log 11), since
R46 gives each race alone and not a read together with a write. -/
def observed (a : Nat) (bytes : List Byte) (s : State) : List Byte × State :=
  match s.seq with
  | .slow (.bitPut _ x y) _ =>
    if a ≤ x ∧ x < a + bytes.length then
      let (c, s1) := drawChoice s
      if c % 2 = 0 then (bytes, s1)
      else
        let (final, s2) := racedOutput [y] s1
        (bytes.set (x - a) (final.getD 0 0), s2)
    else (bytes, s)
  | .slow (.bitGet _ _) _ | .slow (.permute _) _ | .slow .configure _ | .slow .rekey _ | .msg _ | .init _ | .idle =>
    (bytes, s)

/-- A host read of data memory: it changes nothing but what the host has read (R39). -/
def hostMemRead (a n : Nat) (s : State) : Host.Outcome State Fault Refusal :=
  let (b, s1) := observed a (readBytes s.mem a n) s
  atMemory a n s { s1 with response := some (.bytes b) }

/-- A reset asserted by the platform: R151, with a drawn length of the initialisation (R152). -/
def hostReset (s : State) : State :=
  let (k, s1) := drawChoice s
  resetEngine k s1

/-- One action of the outside world; where it does nothing the engine takes a step. -/
def hostStep (op : HostOp) (s : State) : Host.Outcome State Fault Refusal :=
  match op with
  | .regWrite at_ width v => hostRegWrite at_ width v s
  | .regRead at_ width => hostRegRead at_ width s
  | .memWrite a b => hostMemWrite a b s
  | .memRead a n => hostMemRead a n s
  | .idle => .next (engineStep s)
  | .reset => .next (hostReset s)

/-! ### Fetching -/

/-- The offset of CMD (10_state.md R15): where a command word arrives. -/
def cmdOffset : Nat := 0x004

/-- A host that writes a command word to CMD next, and then goes on as before. -/
def placeCommand (w : Word) (s : State) : State :=
  { s with host := .regWrite (.offset cmdOffset) .bits32 w :: s.host }

/-- The engine after its initialisation, where that has not ended: before it every word but NOP is dropped (R152). -/
def ensureInit (s : State) : State := if s.status.initDone then s else finishInit s

end Sys2Proof.Machine
end

