-- ==== Sys2Proof/Machine/Step.lean ====
section
/-! DEFINITION. One step of the machine, and where it takes its next command from. -/

namespace Sys2Proof.Machine

/-- One step: the next action of the outside world, or a step of the engine where none is left. -/
def step (s : State) : Host.Outcome State Fault Refusal :=
  match s.host with
  | [] => .next (engineStep s)
  | op :: rest => hostStep op { s with host := rest }

/-- The state whose very next step runs the command in the low `nbits` bits of `w`: initialisation has ended, and the
host's next access writes the word to CMD (log 2). -/
def State.withFetchWord (s : State) (nbits w : Nat) : State :=
  placeCommand (BitVec.ofNat 32 (w % 2 ^ nbits)) (ensureInit s)

end Sys2Proof.Machine
end

