-- ==== Sys2Proof/Safety.lean ====
section
/-! DEFINITION. The terms that statements about the engine use: when a command is accepted, and the invariants of the
machine. -/

namespace Sys2Proof.Machine

/-- A command word written now is neither dropped nor handled as a CANCEL (30_encoding.md R60). -/
def CanAccept (s : State) : Prop := s.status.initDone = true ∧ s.status.engine ≠ .busy

/-- A terminal state (60_exceptions.md R136). -/
def isTerminal : EngineState → Bool
  | .done | .cancelled | .failed => true
  | .idle | .busy => false

/-- `k` sequencer steps of the engine with no host action between them. -/
def engineSteps : Nat → State → State
  | 0, s => s
  | k + 1, s => engineSteps k (engineStep s)

/-- Data memory is in its canonical form and lists no address at or above MEM_SIZE (20_memory.md R31). -/
def MemoryInv (s : State) : Prop := memoryWf s.mem = true ∧ ∀ c ∈ s.mem, c.1 < s.params.memSize

/-- What STATUS, ERROR and the sequencer say of each other (10_state.md R17, R18, R21, R25; 60_exceptions.md R135, R136;
46_modes.md R131). -/
structure ControlInv (s : State) : Prop where
  busy_iff_running : s.status.engine = .busy ↔ s.seq ≠ .idle
  init_iff : s.status.initDone = false ↔ ∃ k, s.seq = .init k
  error_iff_failed : s.error.isSome = true ↔ s.status.engine = .failed
  keyed_eq_configured : s.status.keyed = s.status.configured
  cancel_only_busy : s.status.cancelPending = true → s.status.engine = .busy ∧ s.status.initDone = true
  cancel_iff_inFlight : ∀ m, s.seq = .msg m → (s.status.cancelPending = true ↔ m.inFlight.isSome = true)
  msg_configured : ∀ m, s.seq = .msg m → s.status.configured = true
  configure_unkeyed : ∀ k, s.seq = .slow .configure k → s.status.keyed = false

/-- FTAB holds what the reset-time generator writes once INIT_DONE = 1 (10_state.md R27, 41_gf256.md R78). -/
def FtabInv (s : State) : Prop := s.status.initDone = true → s.ftab = ftabGenerated s.params.magentaF255

/-- A context that CONFIGURE can have built and REKEY changed (10_state.md R21, 46_modes.md R120). -/
structure ContextOk (p : Params) (c : Context) : Prop where
  key_size : c.key.length ∈ keySizes c.alg
  rkt_eq : c.rkt = schedule p c.alg c.key
  iv_absent : c.mode = .ecb → c.iv = none
  iv_present : c.mode ≠ .ecb → ∃ iv, c.iv = some iv ∧ iv.length = blockSize c.alg
  delta_ctr : c.mode = .ctr → c.delta = some 1
  delta_rd : c.mode = .rd →
    ∃ d, c.delta = some d ∧ d < 2 ^ (8 * blockSize c.alg) ∧ deltaUnsafe (blockSize c.alg) d = false
  delta_absent : c.mode ≠ .ctr → c.mode ≠ .rd → c.delta = none

/-- KEYED = 1 means that the context is valid (10_state.md R21). -/
def ContextInv (s : State) : Prop := s.status.keyed = true → ContextOk s.params s.ctx

/-- How many blocks all lanes have completed. -/
def blocksDone (m : MsgRun) : Nat := (m.counts.map (·.2)).sum

/-- A message run that its start and its steps can have led to: lanes listed once in rising order, each having completed
only blocks of its own below n, and in flight only lanes with a block left (46_modes.md R126, R131). -/
structure RunOk (s : State) (m : MsgRun) : Prop where
  keys_rising : (m.counts.map (·.1)).Pairwise (· < ·)
  lane_lt : ∀ c ∈ m.counts, c.1 < runWidth s m
  done_lt : ∀ c ∈ m.counts, 0 < c.2 ∧ c.1 + runWidth s m * (c.2 - 1) < m.n
  flight_nodup : ∀ f, m.inFlight = some f → f.Nodup
  flight_eligible : ∀ f, m.inFlight = some f → ∀ l ∈ f, l ∈ eligible s m

/-- The progress registers count what the sequencer did (46_modes.md R127, 20_memory.md R44): DONE_BLOCKS never passes
TOTAL_BLOCKS. -/
structure ProgressInv (s : State) : Prop where
  done_le_total : s.out.doneBlocks ≤ s.out.totalBlocks
  run_ok : ∀ m, s.seq = .msg m → RunOk s m
  total_eq : ∀ m, s.seq = .msg m → s.out.totalBlocks.toNat = m.n
  done_eq : ∀ m, s.seq = .msg m → s.out.doneBlocks.toNat = blocksDone m
  outLen_zero : ∀ m, s.seq = .msg m → s.out.outLen = 0

/-- What a running message command keeps of its issue-time checks and of its start (46_modes.md R122, R124, R129, R130;
20_memory.md R33): its ranges lie in data memory and do not overlap, and its chain holds whole blocks. -/
structure MessageInv (s : State) : Prop where
  src_fits : ∀ m, s.seq = .msg m → srcOk s = true
  dst_fits : ∀ m, s.seq = .msg m → dstOk s (m.n * ctxB s) = true
  count_eq : ∀ m, s.seq = .msg m → blockCount m.dir s.ctx.pad (ctxB s) s.latched.len.toNat = .ok m.n
  disjoint : ∀ m, s.seq = .msg m →
    intersect s.latched.src.toNat s.latched.len.toNat s.latched.dst.toNat (m.n * ctxB s) = false
  chain_block : ∀ m, s.seq = .msg m → s.ctx.mode ≠ .ecb → s.dp.chain.length = ctxB s
  chainP_block : ∀ m, s.seq = .msg m → s.dp.chainP.length = ctxB s
  ctrBase_eq : ∀ m iv, s.seq = .msg m → s.ctx.iv = some iv → s.dp.ctrBase = be iv

/-- A bit command that is about to write its byte back does so inside its buffer, and that lies in data memory
(40_bit_addressing.md R66; 20_memory.md R33). -/
structure BitInv (s : State) : Prop where
  buffer_fits : ∀ i a y k, s.seq = .slow (.bitPut i a y) k → srcOk s = true
  byte_inside : ∀ i a y k, s.seq = .slow (.bitPut i a y) k →
    s.latched.src.toNat ≤ a ∧ a < s.latched.src.toNat + s.latched.len.toNat

/-- What every step keeps, taken together. -/
structure MachineInv (s : State) : Prop where
  control : ControlInv s
  ftab : FtabInv s
  context : ContextInv s
  progress : ProgressInv s
  message : MessageInv s
  bits : BitInv s
  memory : MemoryInv s

end Sys2Proof.Machine
end

