-- ==== Sys2Proof/Certificates/Slice0/Obligations.lean ====
section
/-! DEFINITION. The statements about the engine, from the numbered rules of spec/. Terms that only statements use stand
first; each is written from the spec's own text and not from the meaning it is compared with. -/

open Sys2Proof Sys2Proof.Machine

namespace Sys2Proof.Claim

/-! ### Where a state goes -/

/-- The state `s` after command `i` was accepted and ended DONE, having written nothing else (30_encoding.md R60,
60_exceptions.md R136). -/
def finished (i : Instr) (s : State) : State :=
  { s with
    status := { s.status with engine := .done, cancelPending := false }
    error := none
    irqTerminal := true
    latched := latch i s.ops s.latched
    seq := .idle
    raced := [] }

/-- The state `s` after command `i` was accepted and ended FAILED with an error, having written nothing else
(60_exceptions.md R135, R137). -/
def failedWith (i : Instr) (c : ErrorCode) (s : State) : State :=
  { finished i s with
    status := { s.status with engine := .failed, cancelPending := false }
    error := some { code := c, op := opcode i } }

/-- The host does nothing in the next step, so that the engine takes it. -/
def engineTurn (s : State) : Prop := s.host.head? = none ∨ s.host.head? = some .idle

/-- The host's next access is an aligned 32-bit write of `w` to CMD. -/
def writesCommand (s : State) (w : Word) : Prop :=
  ∃ a, s.host.head? = some (.regWrite a .bits32 w) ∧ windowOffset a = some 0x004

/-! ### Bits (40_bit_addressing.md R63, R65) -/

/-- The weight of a logical index in the buffer read as a big-endian integer; `none` where the index is out of range. -/
def indexWeight (len idx : Nat) : Numbering → Option Nat
  | .lsb0 => if idx < 8 * len then some idx else none
  | .lsb1 => if 1 ≤ idx ∧ idx ≤ 8 * len then some (idx - 1) else none
  | .msb0 => if idx < 8 * len then some (8 * len - 1 - idx) else none
  | .msb1 => if 1 ≤ idx ∧ idx ≤ 8 * len then some (8 * len - idx) else none

/-- The four bit commands. -/
inductive BitCmd where
  | get | set | clr | tgl
  deriving DecidableEq, Repr

/-- Their words. -/
def BitCmd.instr (num : Numbering) : BitCmd → Instr
  | .get => .bitGet num
  | .set => .bitSet num
  | .clr => .bitClr num
  | .tgl => .bitTgl num

/-- What a bit command makes of the buffer as an integer, at weight `w`. -/
def BitCmd.apply (v w : Nat) : BitCmd → Nat
  | .get => v
  | .set => v ||| 2 ^ w
  | .clr => if v.testBit w then v - 2 ^ w else v
  | .tgl => v ^^^ 2 ^ w

/-- The source buffer [SRC, SRC+LEN) of a command issued now. -/
def source (s : State) : List Byte := readBytes s.mem s.ops.src.toNat s.ops.len.toNat

/-- Entry i of the rule of a PERMUTE issued now (R71): 16 bits, little-endian. -/
def ruleEntry (s : State) (i : Nat) : Nat :=
  (readByte s.mem (s.ops.ruleAddr.toNat + 2 * i)).toNat +
    256 * (readByte s.mem (s.ops.ruleAddr.toNat + 2 * i + 1)).toNat

/-! ### GF(2) polynomials (41_gf256.md R72) -/

/-- The polynomial over GF(2) whose coefficient of x^k is bit k. -/
noncomputable def toPoly (n : Nat) : Polynomial (ZMod 2) :=
  ∑ k ∈ Finset.range 16, if n.testBit k then Polynomial.X ^ k else 0

/-! ### Modes (46_modes.md R122, R123, R124) -/

/-- Input block i of a message (R123). `random` are the drawn bytes of an ISO 10126 tail. -/
def inputBlock (dir : Direction) (pad : Padding) (b : Nat) (data random : List Byte) (i : Nat) : List Byte :=
  match dir with
  | .decrypt => sub data (i * b) (i * b + b)
  | .encrypt =>
    if i < data.length / b then sub data (i * b) (i * b + b)
    else
      fill pad (sub data (data.length / b * b) data.length ++ zeros (b - data.length % b)) (data.length % b) random

/-- O_i of OFB (R124). -/
def keystream (e : List Byte → List Byte) (iv : List Byte) : Nat → List Byte
  | 0 => e iv
  | i + 1 => e (keystream e iv i)

/-- `ctr_i` of CTR and RD (R124). -/
def counter (b : Nat) (iv : List Byte) (delta i : Nat) : List Byte := beBytes b ((be iv + i * delta) % 2 ^ (8 * b))

/-- The encryption equations (R124): P_i, P_(i-1), C_(i-1), O_i and ctr_i to C_i. -/
def encEquation (e : List Byte → List Byte) (mode : Mode) (p p' c' o ctr : List Byte) : List Byte :=
  match mode with
  | .ecb => e p
  | .cbc => e (xorBytes p c')
  | .pcbc => e (xorBytes (xorBytes p p') c')
  | .cfb => xorBytes p (e c')
  | .ofb => xorBytes p o
  | .ctr | .rd => xorBytes p (e ctr)

/-- The decryption equations (R124): C_i, P_(i-1), C_(i-1), O_i and ctr_i to P_i. -/
def decEquation (e d : List Byte → List Byte) (mode : Mode) (c p' c' o ctr : List Byte) : List Byte :=
  match mode with
  | .ecb => d c
  | .cbc => xorBytes (d c) c'
  | .pcbc => xorBytes (xorBytes (d c) p') c'
  | .cfb => xorBytes c (e c')
  | .ofb => xorBytes c o
  | .ctr | .rd => xorBytes c (e ctr)

/-- Output block i of a message with input blocks `x` (R124): the recurrences from C_(-1) = IV, P_(-1) = zeros(B). -/
def outputBlock (dir : Direction) (e d : List Byte → List Byte) (mode : Mode) (b : Nat) (iv : List Byte) (delta : Nat)
    (x : Nat → List Byte) : Nat → List Byte
  | 0 =>
    match dir with
    | .encrypt => encEquation e mode (x 0) (zeros b) iv (keystream e iv 0) (counter b iv delta 0)
    | .decrypt => decEquation e d mode (x 0) (zeros b) iv (keystream e iv 0) (counter b iv delta 0)
  | i + 1 =>
    match dir with
    | .encrypt =>
      encEquation e mode (x (i + 1)) (x i) (outputBlock dir e d mode b iv delta x i) (keystream e iv (i + 1))
        (counter b iv delta (i + 1))
    | .decrypt =>
      decEquation e d mode (x (i + 1)) (outputBlock dir e d mode b iv delta x i) (x i) (keystream e iv (i + 1))
        (counter b iv delta (i + 1))

/-- Output block i of a message command issued now. -/
def messageOutput (s : State) (dir : Direction) (random : List Byte) (i : Nat) : List Byte :=
  outputBlock dir (encryptBlock s.ftab s.ctx.rkt) (decryptBlock s.ftab s.ctx.rkt) s.ctx.mode (ctxB s)
    (s.ctx.iv.getD []) (s.ctx.delta.getD 0) (inputBlock dir s.ctx.pad (ctxB s) (source s) random) i

/-- Output block i of the message that `s` runs, from the chain it holds: CHAIN is C_(i-1) or O_(i-1) and CHAINP is
P_(i-1) of the modes that carry them (R124), and a decryption of CBC or CFB takes C_(i-1) from its input. -/
def runningOutput (s : State) (m : MsgRun) (random : List Byte) (i : Nat) : List Byte :=
  let e := encryptBlock s.ftab s.ctx.rkt
  let x := inputBlock m.dir s.ctx.pad (ctxB s) (readBytes s.mem s.latched.src.toNat s.latched.len.toNat) random
  let c' :=
    if m.dir = .decrypt ∧ (s.ctx.mode = .cbc ∨ s.ctx.mode = .cfb) then
      if i = 0 then s.ctx.iv.getD [] else x (i - 1)
    else s.dp.chain
  let ctr := counter (ctxB s) (s.ctx.iv.getD []) (s.ctx.delta.getD 0) i
  match m.dir with
  | .encrypt => encEquation e s.ctx.mode (x i) s.dp.chainP c' (e s.dp.chain) ctr
  | .decrypt => decEquation e (decryptBlock s.ftab s.ctx.rkt) s.ctx.mode (x i) s.dp.chainP c' (e s.dp.chain) ctr

/-- The block count of a message of `l` bytes (R122). -/
def messageBlocks (dir : Direction) (pad : Padding) (b l : Nat) : Nat :=
  match dir, pad with
  | .encrypt, .ansiX923 | .encrypt, .pkcs7 | .encrypt, .iso10126 => l / b + 1
  | .encrypt, .zeros => if l % b = 0 then l / b else l / b + 1
  | .encrypt, .noPadding | .decrypt, _ => l / b

/-- The length a message command does not accept (R122). -/
def badLength (dir : Direction) (pad : Padding) (b l : Nat) : Prop :=
  l % b ≠ 0 ∧ (dir = .decrypt ∨ pad = .noPadding)

/-- A range that does not fit data memory (20_memory.md R33). -/
def outside (s : State) (a n : Nat) : Prop := n ≠ 0 ∧ s.params.memSize < a + n

/-- Two ranges that share a byte. -/
def overlapping (a n b m : Nat) : Prop := ∃ x, a ≤ x ∧ x < a + n ∧ b ≤ x ∧ x < b + m

/-- A message command issued now passes every issue-time check (R129, R130). -/
structure MessageReady (s : State) (dir : Direction) : Prop where
  accepted : CanAccept s
  configured : s.status.configured = true
  length_ok : ¬ badLength dir s.ctx.pad (ctxB s) s.ops.len.toNat
  src_ok : ¬ outside s s.ops.src.toNat s.ops.len.toNat
  dst_ok : ¬ outside s s.ops.dst.toNat (messageBlocks dir s.ctx.pad (ctxB s) s.ops.len.toNat * ctxB s)
  apart : ¬ overlapping s.ops.src.toNat s.ops.len.toNat s.ops.dst.toNat
    (messageBlocks dir s.ctx.pad (ctxB s) s.ops.len.toNat * ctxB s)

/-! ### Configuration (46_modes.md R120, 60_exceptions.md R138) -/

/-- The smallest supported key of an ALG code, and the block size. -/
def minKey (alg : Nat) : Nat := if alg = 0 then 8 else 16

/-- B of an ALG code. -/
def blockOf (alg : Nat) : Nat := if alg = 0 then 8 else 16

/-- The first configuration check that fails, in the order of R138. -/
def firstConfigError (o : Operands) : Option ErrorCode :=
  let b := blockOf o.alg.toNat
  if 3 < o.alg.toNat then some .unknownAlgorithm
  else if 6 < o.mode.toNat then some .unknownMode
  else if 4 < o.padding.toNat then some .unknownPadding
  else if o.keyLen.toNat < minKey o.alg.toNat then some .keyTooShort
  else if o.mode.toNat = 0 ∧ o.ivLen.toNat ≠ 0 then some .ivForbidden
  else if o.mode.toNat ≠ 0 ∧ o.ivLen.toNat = 0 then some .ivMissing
  else if o.mode.toNat ≠ 0 ∧ o.ivLen.toNat ≠ b then some .ivWrongLength
  else if o.mode.toNat = 6 ∧ o.deltaValid = false then some .deltaMissing
  else if o.mode.toNat = 6 ∧ (arrByte o.delta (16 - b) = 0 ∨ arrByte o.delta 15 = 0) then some .deltaUnsafe
  else none

/-! ### The window (10_state.md R14, R15) -/

/-- The bits of the register at an offset that a host write sets: all but the hardwired zeros of a RW register, none of
a read-only or reserved one. IRQ_STATUS (write 1 to clear) and CMD are not meant. -/
def writeMask (o : Nat) : Word :=
  if o = 0x010 ∨ o = 0x02C then 0x1
  else if o = 0x018 ∨ o = 0x01C ∨ o = 0x020 ∨ o = 0x024 ∨ o = 0x028 ∨ o = 0x058 then 0xFF
  else if o = 0x054 then 0xFFFFFF
  else if o = 0x030 ∨ o = 0x034 ∨ o = 0x038 ∨ o = 0x048 ∨ o = 0x04C ∨ o = 0x050 then 0xFFFFFFFF
  else if 0x080 ≤ o ∧ o < 0x0D0 then 0xFFFFFFFF
  else 0

end Sys2Proof.Claim

open Sys2Proof.Claim

/-! ## Command words -/

/-- Decoding and encoding agree: a word decodes to a command exactly when it is that command's word. -/
def Obligations.DecodeEncodeAgree : Prop := ∀ (w : Word) (i : Instr), decode w = .ok i ↔ w = encode i

/-- R58: which words are illegal, and what an illegal word does when it is accepted. -/
def Obligations.IllegalWordEndsFailed : Prop :=
  ∀ w : Word,
    ((∃ e, decode w = .error e) ↔
      (w.toNat / 1024 ≠ 0 ∨
        w.toNat % 256 ∉ [0x00, 0x01, 0x02, 0x03, 0x04, 0x10, 0x11, 0x20, 0x21, 0x30, 0x31, 0x32, 0x33, 0x34, 0x40,
          0x41, 0x50, 0x51] ∨
        (w.toNat / 256 % 4 ≠ 0 ∧ w.toNat % 256 ∉ [0x30, 0x31, 0x32, 0x33, 0x34]))) ∧
    ∀ s a rest, (∃ e, decode w = .error e) → CanAccept s → s.status.cancelPending = false → s.seq = .idle →
      windowOffset a = some 0x004 → s.host = .regWrite a .bits32 w :: rest →
      step s = .next
        { s with
          host := rest
          status := { s.status with engine := .failed }
          error := some { code := .illegalCommand, op := w.extractLsb' 0 8 }
          irqTerminal := true } ∧
      errorWord (some { code := .illegalCommand, op := w.extractLsb' 0 8 }) =
        BitVec.ofNat 32 (w.toNat % 256 * 65536 + 0x550)

/-- Sanity: the words of some commands, from the bit patterns of 30_encoding.md R53. -/
def Obligations.DecodesTableWords : Prop :=
  decode 0b00000000000000000000000000000000 = .ok .nop ∧
  decode 0b00000000000000000000000000000001 = .ok .configure ∧
  decode 0b00000000000000000000000000010001 = .ok .blkDec ∧
  decode 0b00000000000000000000000000100000 = .ok .msgEnc ∧
  decode 0b00000000000000000000001000110001 = .ok (.bitSet .msb0) ∧
  decode 0b00000000000000000000001100110100 = .ok (.permute .msb1) ∧
  decode 0b00000000000000000000000001000001 = .ok .gfIrred ∧
  decode 0b00000000000000000000000001010000 = .ok .padSet

/-- A step runs the decoded command: an aligned 32-bit host write to CMD of a word that decodes to `i` is `exec i`, and
the write is then behind the machine. The list of host accesses in State is the model's own (log 2, log 14). -/
def Obligations.StepRunsTheDecodedCommand : Prop :=
  ∀ s w i a rest, decode w = .ok i → windowOffset a = some 0x004 → s.host = .regWrite a .bits32 w :: rest →
    step s = exec i { s with host := rest }

/-! ## NOP, dropped words, ACK, CANCEL -/

/-- R59: NOP is the word 0 and has no effect in any state. -/
def Obligations.NopHasNoEffect : Prop :=
  (∀ s, exec .nop s = .next s) ∧
  ∀ s a rest, windowOffset a = some 0x004 → s.host = .regWrite a .bits32 0 :: rest →
    step s = .next { s with host := rest }

/-- R61: words that cannot be accepted are dropped, the running command undisturbed. -/
def Obligations.UnacceptableWordsAreDropped : Prop :=
  ∀ s w a rest, windowOffset a = some 0x004 → s.host = .regWrite a .bits32 w :: rest →
    (s.status.initDone = false ∧ w ≠ 0) ∨ (s.status.engine = .busy ∧ w ≠ 0 ∧ w ≠ 4) →
    step s = .next { s with host := rest, status := { s.status with cmdDropped := true } }

/-- R132: ACK in any state but BUSY returns to IDLE and clears ERROR and the sticky bits; while BUSY, or before
INIT_DONE, it is dropped. -/
def Obligations.AckReturnsToIdle : Prop :=
  encode .ack = 0x00000003 ∧
  ∀ s,
    (CanAccept s →
      exec .ack s = .next
        { s with
          status := { s.status with engine := .idle, padWarn := false, cmdDropped := false }
          error := none }) ∧
    (¬ CanAccept s → exec .ack s = .next { s with status := { s.status with cmdDropped := true } })

/-- R131 and R60: what CANCEL does at once, in every state after initialisation. How the set in flight is drawn is the
model's (log 4, log 13). -/
def Obligations.CancelEffect : Prop :=
  ∀ s, s.status.initDone = true →
    (s.status.engine ≠ .busy → exec .cancel s = .next s) ∧
    (s.status.engine = .busy → s.status.cancelPending = true → exec .cancel s = .next s) ∧
    (s.status.engine = .busy → s.status.cancelPending = false → (∀ m, s.seq ≠ .msg m) →
      exec .cancel s = .next { s with status := { s.status with cancelPending := true } }) ∧
    (∀ m, s.status.engine = .busy → s.status.cancelPending = false → s.seq = .msg m →
      ∃ f e, f.Sublist (eligible s m) ∧
        (∀ l ∈ f, l < runWidth s m ∧ nextBlock s m l < m.n) ∧
        exec .cancel s = .next
          { s with
            status := { s.status with cancelPending := true }
            env := e
            seq := .msg { m with inFlight := some f } })

/-- R131, R45: a cancelled message completes the blocks in flight, one a step, and ends CANCELLED with OUTLEN = 0 and no
new error, or FAILED where a block is in flight and the platform fails an access. On a platform that completes every
access, and with no input raced, the end is CANCELLED, each block in flight stands at its place in the destination, and
every other byte is as before. One step for each block and one for the end, and at most three answers of BUS_OK a block,
are the model's (log 6, log 7, log 13). -/
def Obligations.CancelledMessageEnds : Prop :=
  ∀ s m f, s.seq = .msg m → m.inFlight = some f →
    (∃ k, k ≤ f.length + 1 ∧
      let t := engineSteps k s
      t.seq = .idle ∧ t.status.cancelPending = false ∧ t.irqTerminal = true ∧
      ((t.status.engine = .cancelled ∧ t.out.outLen = 0 ∧ t.error = s.error ∧
          t.out.doneBlocks = s.out.doneBlocks + BitVec.ofNat 32 f.length) ∨
        (t.status.engine = .failed ∧ t.error = some { code := .busError, op := opcode (msgInstr m.dir) } ∧
          f ≠ [] ∧ ∀ rest, s.env.bus ≠ List.replicate (3 * f.length) true ++ rest))) ∧
    ∀ rest, MachineInv s → s.raced = [] → s.env.bus = List.replicate (3 * f.length) true ++ rest →
      ∃ random, random.length = randomCount s.ctx.pad (ctxB s) (s.latched.len.toNat % ctxB s) ∧
        let t := engineSteps (f.length + 1) s
        let place (l : Nat) : Nat := s.latched.dst.toNat + nextBlock s m l * ctxB s
        t.status.engine = .cancelled ∧ t.seq = .idle ∧ t.out.outLen = 0 ∧ t.error = s.error ∧
        t.out.doneBlocks = s.out.doneBlocks + BitVec.ofNat 32 f.length ∧
        (∀ l ∈ f, readBytes t.mem (place l) (ctxB s) = runningOutput s m random (nextBlock s m l)) ∧
        ∀ a, (∀ l ∈ f, a < place l ∨ place l + ctxB s ≤ a) → readByte t.mem a = readByte s.mem a

/-! ## Whole-machine rules -/

/-- R155: every accepted command ends after finitely many steps of the engine, a message of n blocks after at most
n + 1, and initialisation ends too. The last step of a message, its join, is the model's (log 13). -/
def Obligations.EveryCommandEnds : Prop :=
  ∀ s, ControlInv s → s.status.engine = .busy →
    ∃ k,
      k ≤ (match s.seq with
        | .idle => 0
        | .init left => left + 1
        | .slow _ left => left + 1
        | .msg m => match m.inFlight with | none => m.n + 1 | some f => f.length + 1) ∧
      (engineSteps k s).status.engine ≠ .busy ∧
      (s.status.initDone = true → isTerminal (engineSteps k s).status.engine = true)

/-- What no command writes: the host's registers, the interrupt enable, the parameters and FTAB; and no command clears
IRQ_STATUS.TERMINAL. -/
def Obligations.NoCommandWritesAHostRegister : Prop :=
  ∀ i s t, exec i s = .next t →
    t.ops = s.ops ∧ t.irqEn = s.irqEn ∧ t.params = s.params ∧ t.ftab = s.ftab ∧ t.host = s.host ∧
    t.response = s.response ∧ t.status.initDone = s.status.initDone ∧ (s.irqTerminal = true → t.irqTerminal = true)

/-- The context changes only in a step of CONFIGURE or REKEY, or by a reset. -/
def Obligations.OnlyConfigureAndRekeyChangeTheContext : Prop :=
  ∀ s t, step s = .next t → t.ctx ≠ s.ctx →
    s.host.head? = some .reset ∨
    (∃ w, writesCommand s w ∧ (w = 1 ∨ w = 2)) ∨
    (engineTurn s ∧ (s.seq = .slow .configure 0 ∨ s.seq = .slow .rekey 0))

/-- R25: STATUS.STATE changes only by a command word, by the end of a command or of initialisation, or by a reset; ACK
alone leads to IDLE after initialisation. -/
def Obligations.StateChangesOnlyAsStated : Prop :=
  ∀ s t, ControlInv s → step s = .next t → t.status.engine ≠ s.status.engine →
    (s.host.head? = some .reset ∧ t.status.engine = .busy) ∨
    (∃ w, writesCommand s w ∧ CanAccept s ∧ (t.status.engine = .idle ↔ w = 3) ∧ t.status.engine ≠ .cancelled) ∨
    (engineTurn s ∧ s.status.engine = .busy ∧
      (if s.status.initDone then isTerminal t.status.engine = true else t.status.engine = .idle))

/-- The sticky bits of R17 and R19: PAD_WARN and CMD_DROPPED are cleared only by ACK and by reset, IRQ_STATUS.TERMINAL
only by a host write of 1 to its bit and by reset. -/
def Obligations.StickyBitsAreClearedOnlyAsStated : Prop :=
  ∀ s t, step s = .next t → s.host.head? ≠ some .reset →
    (s.status.padWarn = true → t.status.padWarn = false → writesCommand s 3) ∧
    (s.status.cmdDropped = true → t.status.cmdDropped = false → writesCommand s 3) ∧
    (s.irqTerminal = true → t.irqTerminal = false →
      ∃ a v, s.host.head? = some (.regWrite a .bits32 v) ∧ windowOffset a = some 0x014 ∧ v.getLsbD 0 = true)

/-- R136: a command other than NOP, ACK and CANCEL, when accepted, is BUSY or has ended in a terminal state with
IRQ_STATUS.TERMINAL set; every end of a running command sets it too. -/
def Obligations.EveryEndRaisesTerminal : Prop :=
  (∀ i s, i ≠ .nop → i ≠ .ack → i ≠ .cancel → CanAccept s →
    ∃ t, exec i s = .next t ∧
      (t.status.engine = .busy ∨
        (isTerminal t.status.engine = true ∧ t.irqTerminal = true ∧ t.status.cancelPending = false))) ∧
  ∀ s, isTerminal (engineStep s).status.engine = true → s.status.engine = .busy →
    (engineStep s).irqTerminal = true ∧ (engineStep s).status.cancelPending = false

/-- R139: the interrupt output follows its two bits at once, through the window. -/
def Obligations.InterruptFollowsItsBits : Prop :=
  ∀ s a rest v,
    (windowOffset a = some 0x010 → s.host = .regWrite a .bits32 v :: rest →
      ∃ t, step s = .next t ∧ irqLine t = (v.getLsbD 0 && s.irqTerminal)) ∧
    (windowOffset a = some 0x014 → s.host = .regWrite a .bits32 v :: rest →
      ∃ t, step s = .next t ∧ irqLine t = (s.irqEn && s.irqTerminal && !v.getLsbD 0))

/-! ## The register window -/

/-- R14, R15: a host write sets exactly the writable bits of the register it names, and every other register reads as
before; the hardwired bits, the read-only and the reserved registers ignore it. R39: a host read returns the word of the
register and changes nothing else (where the word stands is the model's, log 14). -/
def Obligations.WindowWriteThenRead : Prop :=
  (∀ s a o v rest, windowOffset a = some o → o % 4 = 0 → o < 256 → o ≠ 0x004 → o ≠ 0x014 →
    s.host = .regWrite a .bits32 v :: rest →
    ∃ t, step s = .next t ∧ t.mem = s.mem ∧ t.ctx = s.ctx ∧ t.seq = s.seq ∧ t.latched = s.latched ∧
      ∀ q, q % 4 = 0 → q < 256 →
        readReg t (regAt q) =
          if q = o then (v &&& writeMask o) ||| (readReg s (regAt o) &&& ~~~ writeMask o) else readReg s (regAt q)) ∧
  ∀ s a o rest, windowOffset a = some o → o % 4 = 0 → o < 256 → s.host = .regRead a .bits32 :: rest →
    step s = .next { s with host := rest, response := some (.word (readReg s (regAt o))) }

/-- R151: what the window reads right after reset. R6: LANES is at least 1 and MEM_SIZE is 1..2^32. That LANES is below
2^32 is the model's choice (log 5, DESIGN CHOICE): R6 sets no upper bound. -/
def Obligations.WindowAfterReset : Prop :=
  (∀ o, o % 4 = 0 → o < 256 →
    readReg State.reset (regAt o) =
      if o = 0x000 then 0x5EC7A107
      else if o = 0x008 then 0x00000001
      else if o = 0x064 then BitVec.ofNat 32 State.reset.params.lanes
      else 0) ∧
  1 ≤ State.reset.params.lanes ∧ State.reset.params.lanes < 2 ^ 32 ∧
  1 ≤ State.reset.params.memSize ∧ State.reset.params.memSize ≤ 2 ^ 32

/-- R36: a host access to the window that is not an aligned 32-bit one is refused. That such an access past the window's
256 bytes is refused too, and not a fault, is the model's choice (log 16). -/
def Obligations.OtherAccessesAreRefused : Prop :=
  ∀ s a o width v rest, windowOffset a = some o → (width ≠ .bits32 ∨ o % 4 ≠ 0) →
    (s.host = .regWrite a width v :: rest ∨ s.host = .regRead a width :: rest) →
    step s = .refused .notAlignedWord

/-- R152, R78: initialisation ends with FTAB generated, STATE = IDLE and INIT_DONE = 1, and nothing else changed. When in
these steps FTAB is written is not said here; it is the model's choice (log 26). -/
def Obligations.InitialisationEnds : Prop :=
  (∀ s k, s.seq = .init k →
    engineSteps (k + 1) s =
      { s with
        ftab := ftabGenerated s.params.magentaF255
        status := { s.status with engine := .idle, initDone := true }
        seq := .idle }) ∧
  ∀ f255, (ftabGenerated f255).length = 256 ∧ (ftabGenerated f255).getD 0 0 = 0x01 ∧
    (∀ i, i < 254 →
      gfmul ((ftabGenerated f255).getD i 0) 0x02 0x65 = some ((ftabGenerated f255).getD (i + 1) 0)) ∧
    (ftabGenerated f255).getD 255 0 = f255

/-- R20, R49: a host write to any register but CMD and IRQ_STATUS changes nothing of what the engine's next step does to
the rest of the machine. -/
def Obligations.RunningCommandIgnoresRegisterWrites : Prop :=
  ∀ s o v, o ≠ 0x014 → engineStep (writeReg (regAt o) v s) = writeReg (regAt o) v (engineStep s)

/-- R151 (the values it leaves unspecified are the model's, log 3; the drawn length and what stays, log 14): a reset in
operation leaves every register of the window, the flags and the sequencer as State.reset has them,
and keeps data memory and the parameters; that a command which was running is gone is part of it. -/
def Obligations.ResetInOperation : Prop :=
  ∀ s rest, s.host = .reset :: rest →
    ∃ k e, step s = .next
      { State.reset with
        params := s.params, mem := s.mem, host := rest, response := s.response, env := e, seq := .init k }

/-! ## Data memory and the host -/

/-- R31, R42, R46: a host write to data memory stores exactly its bytes and changes nothing of the engine, where it meets
neither the input of the running command nor a destination closed to it. Where it meets the input, it also records the
bytes as raced (the model's own, log 11) and makes the blocks that a running message has written any value at all; every
byte outside the command's destination is still as before. -/
def Obligations.HostMemoryWrite : Prop :=
  ∀ s a bytes rest, s.host = .memWrite a bytes :: rest → ¬ outside s a bytes.length →
    ¬ overlapping a bytes.length (closedRange s).1 (closedRange s).2 →
    let written (x : Nat) : Prop := a ≤ x ∧ x < a + bytes.length
    (memoryWf s.mem = true → (∀ x, written x → isInput s x = false) →
      ∃ m, step s = .next { s with host := rest, mem := m } ∧ readBytes m a bytes.length = bytes ∧
        ∀ x, ¬ written x → readByte m x = readByte s.mem x) ∧
    (MachineInv s → (∃ x, written x ∧ isInput s x = true) →
      (∃ m r e ls,
        step s = .next { s with host := rest, mem := m, raced := r, env := e, dp := { s.dp with lanes := ls } } ∧
        readBytes m a bytes.length = bytes ∧
        (∀ x, x ∈ r ↔ x ∈ s.raced ∨ (written x ∧ isInput s x = true)) ∧
        ∀ x, ¬ written x → (x < (destRange s).1 ∨ (destRange s).1 + (destRange s).2 ≤ x) →
          readByte m x = readByte s.mem x) ∧
      ∀ m, s.seq = .msg m → ∀ out : Nat → List Byte, (∀ i, (out i).length = ctxB s) →
        ∃ placed t, step { s with env := { s.env with bytes := placed } } = .next t ∧
          ∀ c ∈ m.counts, ∀ j, j < c.2 →
            let i := c.1 + runWidth s m * j
            readBytes t.mem (s.latched.dst.toNat + i * ctxB s) (ctxB s) = out i)

/-- R31, R39, R46: a host access outside data memory stops the run (the model's choice, log 12), one that meets the
destination of a running message or PERMUTE is refused, and a host read returns the bytes and changes nothing else. The
byte a bit command is about to write back reads as it is or as the value written back, by a free choice (log 25). -/
def Obligations.HostMemoryStopsAndReads : Prop :=
  ∀ s a bytes n rest,
    (outside s a bytes.length → s.host = .memWrite a bytes :: rest → step s = .fault .noSuchAddress) ∧
    (outside s a n → s.host = .memRead a n :: rest → step s = .fault .noSuchAddress) ∧
    (¬ outside s a bytes.length → overlapping a bytes.length (closedRange s).1 (closedRange s).2 →
      s.host = .memWrite a bytes :: rest → step s = .refused .destinationRace) ∧
    (¬ outside s a n → overlapping a n (closedRange s).1 (closedRange s).2 →
      s.host = .memRead a n :: rest → step s = .refused .destinationRace) ∧
    (¬ outside s a n → ¬ overlapping a n (destRange s).1 (destRange s).2 →
      s.host = .memRead a n :: rest →
      step s = .next { s with host := rest, response := some (.bytes (readBytes s.mem a n)) }) ∧
    ∀ i x y k, s.seq = .slow (.bitPut i x y) k → ¬ outside s a n → a ≤ x → x < a + n →
      s.host = .memRead a n :: rest →
      ∃ e z, (s.raced = [] → z = y) ∧
        step s = .next
          { s with
            host := rest
            env := e
            response := some (.bytes
              (if (drawChoice s).1 % 2 = 0 then readBytes s.mem a n
               else readBytes s.mem a (x - a) ++ z :: readBytes s.mem (x + 1) (a + n - x - 1))) }

/-! ## GF(2^8) -/

/-- R76: GF_MUL in full. -/
def Obligations.GfMulEffect : Prop :=
  encode .gfMul = 0x00000040 ∧
  ∀ s, CanAccept s →
    let a := s.ops.gfArg.extractLsb' 0 8
    let b := s.ops.gfArg.extractLsb' 8 8
    let p := s.ops.gfArg.extractLsb' 16 8
    (∀ r, gfmul a b p = some r →
      exec .gfMul s = .next { finished .gfMul s with out := { s.out with result := BitVec.ofNat 32 r.toNat } }) ∧
    (irreducible p = true → ∃ r, gfmul a b p = some r) ∧
    (irreducible p = false → exec .gfMul s = .next (failedWith .gfMul .inconsistentArguments s))

/-- R77: GF_IRRED in full. -/
def Obligations.GfIrredEffect : Prop :=
  encode .gfIrred = 0x00000041 ∧
  ∀ s, CanAccept s →
    exec .gfIrred s = .next
      { finished .gfIrred s with
        out := { s.out with result := if irreducible (s.ops.gfArg.extractLsb' 16 8) = true then 1 else 0 } }

/-- R72, R74: the product is that of the polynomials over GF(2), reduced modulo x^8 + p(x). -/
def Obligations.GfmulIsThePolynomialProduct : Prop :=
  ∀ a b p r, gfmul a b p = some r →
    toPoly r.toNat = (toPoly a.toNat * toPoly b.toNat) %ₘ toPoly (0x100 + p.toNat)

/-- R73: the test of the unit decides irreducibility over GF(2). -/
def Obligations.IrreducibleDecidesIrreducibility : Prop :=
  ∀ p : Byte, irreducible p = true ↔ Irreducible (toPoly (0x100 + p.toNat))

/-- R75: the field laws, for every irreducible polynomial. -/
def Obligations.GfFieldLaws : Prop :=
  ∀ p, irreducible p = true →
    (∀ a b, gfmul a b p = gfmul b a p) ∧
    (∀ a b c ab bc, gfmul a b p = some ab → gfmul b c p = some bc → gfmul ab c p = gfmul a bc p) ∧
    (∀ a, gfmul a 0 p = some 0) ∧ (∀ a, gfmul a 1 p = some a) ∧
    (∀ a b c ab ac, gfmul a b p = some ab → gfmul a c p = some ac → gfmul a (b ^^^ c) p = some (ab ^^^ ac)) ∧
    (∀ a, a ≠ 0 → ∃! b, gfmul a b p = some 1)

/-! ## Bit addressing and permutation -/

/-- R64: `getbit` reads the bit at the located byte and shift; `setbit` replaces that bit and leaves every other bit of
the buffer, under every numbering. -/
def Obligations.SetbitReplacesOneBit : Prop :=
  (∀ buf idx num byte shift, locate buf.length idx num = some (byte, shift) →
    getbit buf idx num = some (decide ((buf.getD byte 0).toNat / 2 ^ shift % 2 = 1)) ∧
    ∀ v, ∃ buf', setbit buf idx num v = some buf') ∧
  ∀ buf idx num v buf', setbit buf idx num v = some buf' →
    buf'.length = buf.length ∧ getbit buf' idx num = some v ∧
    ∀ idx' num', indexWeight buf.length idx' num' ≠ indexWeight buf.length idx num →
      getbit buf' idx' num' = getbit buf idx' num'

/-- R63, R66: BIT_GET writes to RESULT the bit of the buffer, read as a big-endian integer, whose weight the index
names. That it ends in the accepting step or in the one engine step after it, by a free choice, is the model's reading
(log 25). -/
def Obligations.BitGetResult : Prop :=
  ∀ s num w, CanAccept s → ¬ outside s s.ops.src.toNat s.ops.len.toNat →
    indexWeight s.ops.len.toNat s.ops.bitIdx.toNat num = some w → (drawBus s).1 = true →
    let k := (drawChoice (drawBus s).2).1 % 2
    ∃ t, exec (.bitGet num) s = .next t ∧
      (0 < k → t.status.engine = .busy ∧ t.out = s.out) ∧
      engineSteps k t =
        { finished (.bitGet num) s with
          env := (drawChoice (drawBus s).2).2.env
          out := { s.out with result := if (be (source s)).testBit w then 1 else 0 } }

/-- R63, R67, R68, R69: BIT_SET, BIT_CLR and BIT_TGL change the buffer as an integer in the one bit the index names, and
no byte of memory but the one that holds it. R46, R48: they are not atomic to the host: a host write of that byte between
the read and the write back is stored and leaves the byte at any value in the end. That clause is the model's reading
(log 11): the byte lies in the command's source and is its destination too, and the model takes the write as the race of
a source byte, whose output is any value, where R46 also says either value for a destination byte. That the write back
comes in the accepting step or in the one engine step after it, by a free choice, is the model's reading (log 25). -/
def Obligations.BitUpdateEffect : Prop :=
  (∀ s num w, ∀ c : BitCmd, c ≠ .get → CanAccept s → memoryWf s.mem = true →
    ¬ outside s s.ops.src.toNat s.ops.len.toNat →
    indexWeight s.ops.len.toNat s.ops.bitIdx.toNat num = some w →
    let k := (drawChoice (drawBus s).2).1 % 2
    let s2 := (drawChoice (drawBus s).2).2
    (drawBus s).1 = true → (drawBus s2).1 = true →
    ∃ t m, exec (c.instr num) s = .next t ∧
      (0 < k → t.status.engine = .busy ∧ t.mem = s.mem) ∧
      engineSteps k t = { finished (c.instr num) s with env := (drawBus s2).2.env, mem := m } ∧
      be (readBytes m s.ops.src.toNat s.ops.len.toNat) = c.apply (be (source s)) w ∧
      ∀ a, a ≠ s.ops.src.toNat + (s.ops.len.toNat - 1 - w / 8) → readByte m a = readByte s.mem a) ∧
  ∀ s i a y k b rest bus, MachineInv s → s.seq = .slow (.bitPut i a y) k → s.host = .memWrite a [b] :: rest →
    s.env.bus = true :: bus →
    ∀ z, ∃ placed t, step { s with env := { s.env with bytes := placed } } = .next t ∧
      t.status.engine = .busy ∧ readByte t.mem a = b ∧
      (engineSteps (k + 1) t).status.engine = .done ∧ readByte (engineSteps (k + 1) t).mem a = z

/-- R65, R66..R69, R138: the errors of the four bit commands, in their order, each with nothing written. That a write
back the platform fails stores nothing is the model's reading of R32 (log 6), and when it is tried is that of R48
(log 25). -/
def Obligations.BitCommandErrors : Prop :=
  ∀ s num, ∀ c : BitCmd, CanAccept s →
    let range := outside s s.ops.src.toNat s.ops.len.toNat
    let w := indexWeight s.ops.len.toNat s.ops.bitIdx.toNat num
    let k := (drawChoice (drawBus s).2).1 % 2
    let s2 := (drawChoice (drawBus s).2).2
    (range → exec (c.instr num) s = .next (failedWith (c.instr num) .addrRange s)) ∧
    (¬ range → w = none → exec (c.instr num) s = .next (failedWith (c.instr num) .inconsistentArguments s)) ∧
    (¬ range → w ≠ none → (drawBus s).1 = false →
      exec (c.instr num) s = .next { failedWith (c.instr num) .busError s with env := (drawBus s).2.env }) ∧
    (¬ range → w ≠ none → c ≠ .get → (drawBus s).1 = true → (drawBus s2).1 = false →
      ∃ t, exec (c.instr num) s = .next t ∧
        engineSteps k t = { failedWith (c.instr num) .busError s with env := (drawBus s2).2.env })

/-- R70, R71: PERMUTE copies, into each target bit, the data bit its rule entry names, and writes no byte outside its
destination; it ends DONE after the drawn number of further steps (log 10). One answer of BUS_OK per access, at most
n + 2 of them, is the model's reading (log 6). -/
def Obligations.PermuteEffect : Prop :=
  ∀ s num rest, CanAccept s → memoryWf s.mem = true →
    let n := s.ops.ruleLen.toNat
    n % 8 = 0 →
    ¬ outside s s.ops.src.toNat s.ops.len.toNat → ¬ outside s s.ops.ruleAddr.toNat (2 * n) →
    ¬ outside s s.ops.dst.toNat (n / 8) →
    (∀ i, i < n → indexWeight s.ops.len.toNat (ruleEntry s i) num ≠ none) →
    s.env.bus = List.replicate (n + 2) true ++ rest →
    ∃ t m e, exec (.permute num) s = .next t ∧
      engineSteps (drawChoice s).1 t = { finished (.permute num) s with mem := m, env := e } ∧
      (∀ i, i < n →
        getbit (readBytes m s.ops.dst.toNat (n / 8)) (i + 1)
            (match num with | .lsb0 | .lsb1 => .lsb1 | .msb0 | .msb1 => .msb1) =
          getbit (source s) (ruleEntry s i) num) ∧
      ∀ a, (a < s.ops.dst.toNat ∨ s.ops.dst.toNat + n / 8 ≤ a) → readByte m a = readByte s.mem a

/-- R71, R138: the errors of PERMUTE, in their order, each with nothing written: rule length, ranges, an entry out of
range, and BUS_ERROR where the platform fails an access. An entry out of range comes first whatever the platform answers;
that this holds of an entry whose read failed or was not reached is the model's reading of R138 (log 8). One answer of
BUS_OK per access, and nothing written by a failed write, are the model's reading too (log 6). That each of these ends,
the errors of the checks at issue among them, shows exactly the drawn number of engine steps after the acceptance is the
model's reading of 93 I6 (log 10). -/
def Obligations.PermuteErrors : Prop :=
  ∀ s num rest, CanAccept s →
    let n := s.ops.ruleLen.toNat
    let bad :=
      outside s s.ops.src.toNat s.ops.len.toNat ∨ outside s s.ops.ruleAddr.toNat (2 * n) ∨
        outside s s.ops.dst.toNat (n / 8)
    let accesses := (if s.ops.len.toNat = 0 then 0 else 1) + n + (if n = 0 then 0 else 1)
    ∃ t, exec (.permute num) s = .next t ∧
      (n % 8 ≠ 0 →
        engineSteps (drawChoice s).1 t =
          { failedWith (.permute num) .inconsistentArguments s with env := (drawChoice s).2.env }) ∧
      (n % 8 = 0 → bad →
        engineSteps (drawChoice s).1 t =
          { failedWith (.permute num) .addrRange s with env := (drawChoice s).2.env }) ∧
      (n % 8 = 0 → ¬ bad → (∃ i, i < n ∧ indexWeight s.ops.len.toNat (ruleEntry s i) num = none) →
        ∃ e, engineSteps (drawChoice s).1 t =
          { failedWith (.permute num) .inconsistentArguments s with env := e }) ∧
      (n % 8 = 0 → ¬ bad → (∀ i, i < n → indexWeight s.ops.len.toNat (ruleEntry s i) num ≠ none) →
        ∀ j, j < accesses → s.env.bus = List.replicate j true ++ false :: rest →
        ∃ e, engineSteps (drawChoice s).1 t = { failedWith (.permute num) .busError s with env := e })

/-! ## Keys and ciphers -/

/-- R82: key adjustment. A supported length is taken as it is, a longer one truncated to the largest supported length
below it with the top bit of byte 0 set, a shorter one fails. -/
def Obligations.AdjustKeepsTheLeadingBytes : Prop :=
  ∀ alg l (key : List Byte), key.length = 32 →
    (adjust alg l key = none ↔ ∀ n ∈ keySizes alg, l < n) ∧
    ∀ k, adjust alg l key = some k →
      k.length ∈ keySizes alg ∧ k.length ≤ l ∧ (∀ n ∈ keySizes alg, n ≤ l → n ≤ k.length) ∧
      (∀ i, 1 ≤ i → i < k.length → k.getD i 0 = key.getD i 0) ∧
      (k.getD 0 0 = if l = k.length then key.getD 0 0 else key.getD 0 0 ||| 0x80)

/-- R83, R84: bit 0 of a DES key byte affects no round key. -/
def Obligations.DesIgnoresParity : Prop := ∀ k : List Byte, k.length = 8 → desKs (stripParity k) = desKs k

/-- R92: the core with its round keys reversed undoes the core, for any round function on halves. -/
def Obligations.CoreUndoneByReversedKeys : Prop :=
  ∀ (h : Nat) (f : List Byte → List Byte → List Byte) (keys : List (List Byte)) (x : List Byte),
    (∀ r k, r.length = h → (f r k).length = h) → x.length = 2 * h →
    core h f keys.reverse (core h f keys x) = x

/-- R110, R111: the inverse transform undoes the linear transform, and the linear transform it. -/
def Obligations.LinearTransformUndone : Prop := ∀ x, invLinear (linear x) = x ∧ linear (invLinear x) = x

/-- R107, R108, R109: slicing through an inverse S-box undoes slicing through its S-box. -/
def Obligations.SliceUndone : Prop :=
  ∀ k x, k < 8 → slice (invSbox k) (slice (sbox k) x) = x ∧ slice (sbox k) (slice (invSbox k) x) = x

/-- R103: E and D of every cipher, under every key of a supported size and every FTAB, map blocks to blocks and undo
each other. -/
def Obligations.CiphersAreBijections : Prop :=
  ∀ p ftab alg k x, k.length ∈ keySizes alg → x.length = blockSize alg →
    (encryptBlock ftab (schedule p alg k) x).length = blockSize alg ∧
    (decryptBlock ftab (schedule p alg k) x).length = blockSize alg ∧
    decryptBlock ftab (schedule p alg k) (encryptBlock ftab (schedule p alg k) x) = x ∧
    encryptBlock ftab (schedule p alg k) (decryptBlock ftab (schedule p alg k) x) = x

/-- R104, R105: BLK_ENC and BLK_DEC write E or D of BLK_IN[0:B) to BLK_OUT, zeros after it, and change nothing else but
the datapath; without a keyed cipher they fail. Which lane's registers they use is the model's (log 9). -/
def Obligations.BlockCommandEffect : Prop :=
  encode .blkEnc = 0x00000010 ∧ encode .blkDec = 0x00000011 ∧
  ∀ s (dir : Direction), CanAccept s →
    let i : Instr := match dir with | .encrypt => .blkEnc | .decrypt => .blkDec
    (s.status.keyed = false → exec i s = .next (failedWith i .notKeyed s)) ∧
    (s.status.keyed = true → ContextOk s.params s.ctx →
      ∃ dp blkOut,
        exec i s = .next { finished i s with dp := dp, out := { s.out with blkOut := blkOut } } ∧
        arrBytes 16 blkOut =
          (match dir with
            | .encrypt => encryptBlock s.ftab s.ctx.rkt (arrBytes (ctxB s) s.ops.blkIn)
            | .decrypt => decryptBlock s.ftab s.ctx.rkt (arrBytes (ctxB s) s.ops.blkIn)) ++ zeros (16 - ctxB s))

/-- R105: BLK_DEC of the BLK_OUT of a BLK_ENC under the same context returns the block. -/
def Obligations.BlkDecUndoesBlkEnc : Prop :=
  ∀ s, CanAccept s → s.status.keyed = true → ContextOk s.params s.ctx →
    ∃ t u, exec .blkEnc s = .next t ∧
      exec .blkDec { t with ops := { t.ops with blkIn := t.out.blkOut } } = .next u ∧
      arrBytes 16 u.out.blkOut = arrBytes (ctxB s) s.ops.blkIn ++ zeros (16 - ctxB s)

/-! ## The context -/

/-- R120, R121: CONFIGURE with registers that pass every check builds the context they name, after the drawn number of
further steps (93 I6, log 10). -/
def Obligations.ConfigureBuildsTheContext : Prop :=
  ∀ s, CanAccept s → firstConfigError s.ops = none →
    ∃ t c, exec .configure s = .next t ∧
      engineSteps (drawChoice s).1 t =
        { finished .configure s with
          status := { s.status with engine := .done, cancelPending := false, keyed := true, configured := true }
          ctx := c
          env := (drawChoice s).2.env } ∧
      ContextOk s.params c ∧
      cipherOf s.ops.alg = some c.alg ∧ modeOf s.ops.mode = some c.mode ∧ paddingOf s.ops.padding = some c.pad ∧
      adjust c.alg s.ops.keyLen.toNat (arrBytes 32 s.ops.key) = some c.key ∧
      (c.mode ≠ .ecb → c.iv = some (arrBytes (blockSize c.alg) s.ops.iv)) ∧
      (c.mode = .rd → c.delta = some (be (arrBytes 16 s.ops.delta) % 2 ^ (8 * blockSize c.alg)))

/-- R120, R121, R138: CONFIGURE reports the first check that fails, and leaves KEYED = CONFIGURED = 0. That the context,
unreadable now, still holds its old data is the model's choice (log 10). -/
def Obligations.ConfigureReportsTheFirstError : Prop :=
  ∀ s c, CanAccept s → firstConfigError s.ops = some c →
    ∃ t, exec .configure s = .next t ∧
      engineSteps (drawChoice s).1 t =
        { failedWith .configure c s with
          status := { s.status with engine := .failed, cancelPending := false, keyed := false, configured := false }
          env := (drawChoice s).2.env }

/-- R90: REKEY replaces the key and the round keys and nothing else of the context; its two errors change nothing. That
it ends exactly the drawn number of engine steps after its acceptance is the model's reading of 93 I6 (log 10). -/
def Obligations.RekeyReplacesTheKeyAlone : Prop :=
  encode .rekey = 0x00000002 ∧
  ∀ s, CanAccept s →
    ∃ t, exec .rekey s = .next t ∧
      let u := engineSteps (drawChoice s).1 t
      let e := (drawChoice s).2.env
      let size := minKey (match s.ctx.alg with | .des => 0 | .deal => 1 | .magenta => 2 | .serpent => 3)
      (s.status.keyed = false → u = { failedWith .rekey .notKeyed s with env := e }) ∧
      (s.status.keyed = true → s.ops.keyLen.toNat < size → u = { failedWith .rekey .keyTooShort s with env := e }) ∧
      (s.status.keyed = true → size ≤ s.ops.keyLen.toNat →
        ∃ k, adjust s.ctx.alg s.ops.keyLen.toNat (arrBytes 32 s.ops.key) = some k ∧
          u = { finished .rekey s with
                ctx := { s.ctx with key := k, rkt := schedule s.params s.ctx.alg k }
                env := e })

/-! ## Padding -/

/-- R115, R116, R117: the bytes of the tail that `fill` writes, what `scan` counts at the end of any block and where it
clamps and warns, and what `scan` strips of what `fill` made, for a block with u < B data bytes. -/
def Obligations.ScanUndoesFill : Prop :=
  (∀ pad (blk : List Byte), blk.length = 8 ∨ blk.length = 16 →
    (∀ random, fill pad blk blk.length random = blk) ∧
    (pad = .noPadding → scan pad blk = (0, false)) ∧
    (pad = .ansiX923 ∨ pad = .pkcs7 ∨ pad = .iso10126 →
      ∀ c, blk.getLast? = some c →
        (blk.length < c.toNat → scan pad blk = (blk.length, true)) ∧
        (c.toNat ≤ blk.length → scan pad blk = (c.toNat, false))) ∧
    (pad = .zeros → ∃ z, scan pad blk = (z, false) ∧ z ≤ blk.length ∧
      (∀ k, blk.length - z ≤ k → k < blk.length → blk.getD k 0 = 0) ∧
      (z < blk.length → blk.getD (blk.length - z - 1) 0 ≠ 0))) ∧
  ∀ pad (blk : List Byte) u random, blk.length = 8 ∨ blk.length = 16 → u < blk.length →
    random.length = randomCount pad blk.length u →
    (∀ k, u ≤ k → k < blk.length →
      (fill pad blk u random).getD k 0 =
        match pad with
        | .noPadding => blk.getD k 0
        | .zeros => 0
        | .ansiX923 => if k + 1 = blk.length then BitVec.ofNat 8 (blk.length - u) else 0
        | .pkcs7 => BitVec.ofNat 8 (blk.length - u)
        | .iso10126 => if k + 1 = blk.length then BitVec.ofNat 8 (blk.length - u) else random.getD (k - u) 0) ∧
    (fill pad blk u random).length = blk.length ∧ (fill pad blk u random).take u = blk.take u ∧
    (pad = .ansiX923 ∨ pad = .pkcs7 ∨ pad = .iso10126 →
      scan pad (fill pad blk u random) = (blk.length - u, false)) ∧
    (pad = .zeros →
      (scan pad (fill pad blk u random)).2 = false ∧
      blk.length - u ≤ (scan pad (fill pad blk u random)).1 ∧
      (u = 0 ∨ blk.getD (u - 1) 0 ≠ 0 → (scan pad (fill pad blk u random)).1 = blk.length - u))

/-- R118: PAD_SET in full. -/
def Obligations.PadSetEffect : Prop :=
  encode .padSet = 0x00000050 ∧
  ∀ s, CanAccept s →
    let b := ctxB s
    let u := s.ops.padUsed.toNat
    (s.status.configured = false → exec .padSet s = .next (failedWith .padSet .notConfigured s)) ∧
    (s.status.configured = true → b < u → exec .padSet s = .next (failedWith .padSet .padUsedRange s)) ∧
    (s.status.configured = true → u ≤ b →
      ∃ random blkOut e, random.length = randomCount s.ctx.pad b u ∧
        exec .padSet s = .next { finished .padSet s with env := e, out := { s.out with blkOut := blkOut } } ∧
        arrBytes 16 blkOut = fill s.ctx.pad (arrBytes b s.ops.blkIn) u random ++ zeros (16 - b))

/-- R119: PAD_CLR in full. -/
def Obligations.PadClrEffect : Prop :=
  encode .padClr = 0x00000051 ∧
  ∀ s, CanAccept s →
    let b := ctxB s
    let blk := arrBytes b s.ops.blkIn
    let n := (scan s.ctx.pad blk).1
    (s.status.configured = false → exec .padClr s = .next (failedWith .padClr .notConfigured s)) ∧
    (s.status.configured = true →
      n ≤ b ∧
      ∃ blkOut,
        exec .padClr s = .next
          { finished .padClr s with
            status :=
              { s.status with
                engine := .done
                cancelPending := false
                padWarn := s.status.padWarn || (scan s.ctx.pad blk).2 }
            out := { s.out with result := BitVec.ofNat 32 (b - n), blkOut := blkOut } } ∧
        arrBytes 16 blkOut = blk.take (b - n) ++ zeros (16 - b + n))

/-! ## Messages -/

/-- R127, R129, R130: a message command that passes its checks starts: the progress registers are set, no block is done,
the chain starts from the IV, no data is touched. That acceptance alone completes no block, and that a message of no block
is BUSY too until a step of its own ends it, where R129 gives DONE, is the model's choice (log 13); that CHAINP starts as
zeros in a mode other than PCBC is too (log 9). -/
def Obligations.MessageStarts : Prop :=
  ∀ s (dir : Direction), MessageReady s dir →
    let n := messageBlocks dir s.ctx.pad (ctxB s) s.ops.len.toNat
    let i : Instr := match dir with | .encrypt => .msgEnc | .decrypt => .msgDec
    ∃ dp,
      exec i s = .next
        { s with
          status := { s.status with engine := .busy }
          error := none
          latched := latch i s.ops s.latched
          raced := []
          out := { s.out with totalBlocks := BitVec.ofNat 32 n, doneBlocks := 0, outLen := 0 }
          dp := dp
          seq := .msg { dir := dir, n := n, counts := [], inFlight := none } } ∧
      n < 2 ^ 31 ∧
      (∀ iv, s.ctx.iv = some iv → dp.chain = iv ∧ dp.ctrBase = be iv) ∧ dp.chainP = zeros (ctxB s)

/-- R122, R129, R130, R138: the issue-time errors of a message command, in their order, each with nothing written; and
R129, R130, R135, R137: a running message, cancelled or not, whose next access the platform fails ends FAILED with
BUS_ERROR at once: the blocks written before stay and DONE_BLOCKS counts them, OUTLEN stays 0, and no further block is
written. That the failed access stores nothing of its block is the model's reading (log 6). -/
def Obligations.MessageErrors : Prop :=
  (∀ s (dir : Direction), CanAccept s →
    let b := ctxB s
    let l := s.ops.len.toNat
    let n := messageBlocks dir s.ctx.pad b l
    let i : Instr := match dir with | .encrypt => .msgEnc | .decrypt => .msgDec
    let range := outside s s.ops.src.toNat l ∨ outside s s.ops.dst.toNat (n * b)
    (s.status.configured = false → exec i s = .next (failedWith i .notConfigured s)) ∧
    (s.status.configured = true → badLength dir s.ctx.pad b l →
      exec i s = .next
        (failedWith i (match dir with | .encrypt => .unalignedNoPadding | .decrypt => .ciphertextLength) s)) ∧
    (s.status.configured = true → ¬ badLength dir s.ctx.pad b l → range →
      exec i s = .next (failedWith i .addrRange s)) ∧
    (s.status.configured = true → ¬ badLength dir s.ctx.pad b l → ¬ range →
      overlapping s.ops.src.toNat l s.ops.dst.toNat (n * b) → exec i s = .next (failedWith i .overlap s))) ∧
  ∀ s m, MachineInv s → s.seq = .msg m →
    (readyLanes s m ≠ [] → s.env.bus.head? = some false → (engineStep s).status.engine = .failed) ∧
    ((engineStep s).status.engine = .failed →
      (∃ e, engineStep s =
        { s with
          status := { s.status with engine := .failed, cancelPending := false }
          error := some { code := .busError, op := match m.dir with | .encrypt => 0x20 | .decrypt => 0x21 }
          irqTerminal := true
          seq := .idle
          env := e }) ∧
      s.out.outLen = 0 ∧ s.out.doneBlocks = BitVec.ofNat 32 (blocksDone m) ∧
      ∀ k, engineSteps k (engineStep s) = engineStep s)

/-- R122..R130: a message command on a platform that completes every access runs one block a step, for any choice of
lanes, and ends DONE with exactly the blocks of the mode equations at the destination, OUTLEN as R128 says, and every
byte outside the destination as before. At most three answers of BUS_OK a block, and the join in a step of its own, are
the model's reading (log 6, log 7, log 13). -/
def Obligations.MessageComputesTheModeEquations : Prop :=
  ∀ s (dir : Direction) (rest : List Bool), MessageReady s dir → ContextOk s.params s.ctx → memoryWf s.mem = true →
    let b := ctxB s
    let n := messageBlocks dir s.ctx.pad b s.ops.len.toNat
    let i : Instr := match dir with | .encrypt => .msgEnc | .decrypt => .msgDec
    s.env.bus = List.replicate (3 * n) true ++ rest →
    ∃ t random, exec i s = .next t ∧
      random.length = randomCount s.ctx.pad b (s.ops.len.toNat % b) ∧
      let u := engineSteps (n + 1) t
      u.status.engine = .done ∧ u.error = none ∧ u.irqTerminal = true ∧ u.seq = .idle ∧
      u.out.doneBlocks = BitVec.ofNat 32 n ∧ u.out.totalBlocks = BitVec.ofNat 32 n ∧
      (∀ j, j < n → readBytes u.mem (s.ops.dst.toNat + j * b) b = messageOutput s dir random j) ∧
      (∀ a, (a < s.ops.dst.toNat ∨ s.ops.dst.toNat + n * b ≤ a) → readByte u.mem a = readByte s.mem a) ∧
      match dir with
      | .encrypt => u.out.outLen = BitVec.ofNat 32 (n * b) ∧ u.status.padWarn = s.status.padWarn
      | .decrypt =>
        let strip := if n = 0 then (0, false) else scan s.ctx.pad (messageOutput s dir random (n - 1))
        u.out.outLen = BitVec.ofNat 32 (n * b - strip.1) ∧ u.status.padWarn = (s.status.padWarn || strip.2)

/-- R126: the final memory and OUTLEN are the same for every interleaving of the lanes and every number of lanes. The
3n answers of BUS_OK and the n + 1 steps are the model's reading (log 6, log 7, log 13). An ISO 10126 message with fewer
than 15 placed random bytes is left out: its two runs may draw different random bytes from Config (log 4, log 20). -/
def Obligations.LaneOrderDoesNotMatter : Prop :=
  ∀ s (dir : Direction) (rest : List Bool) (choices₁ choices₂ : List Nat) (lanes₁ lanes₂ : Nat),
    MessageReady s dir → ContextOk s.params s.ctx → memoryWf s.mem = true →
    let n := messageBlocks dir s.ctx.pad (ctxB s) s.ops.len.toNat
    let i : Instr := match dir with | .encrypt => .msgEnc | .decrypt => .msgDec
    let arranged (choices : List Nat) (lanes : Nat) : State :=
      { s with params := { s.params with lanes := lanes }, env := { s.env with choices := choices } }
    s.env.bus = List.replicate (3 * n) true ++ rest →
    (s.ctx.pad ≠ .iso10126 ∨ 15 ≤ s.env.bytes.length) →
    ∃ t₁ t₂, exec i (arranged choices₁ lanes₁) = .next t₁ ∧ exec i (arranged choices₂ lanes₂) = .next t₂ ∧
      (∀ a, readByte (engineSteps (n + 1) t₁).mem a = readByte (engineSteps (n + 1) t₂).mem a) ∧
      (engineSteps (n + 1) t₁).out.outLen = (engineSteps (n + 1) t₂).out.outLen

/-! ## Invariants -/

/-- Data memory keeps its canonical form in every step, of the engine or of the host. -/
def Obligations.StepKeepsMemoryCanonical : Prop :=
  ∀ s t, memoryWf s.mem = true → step s = .next t → memoryWf t.mem = true

/-- STATUS, ERROR and the sequencer agree after every step. -/
def Obligations.StepKeepsControl : Prop := ∀ s t, ControlInv s → step s = .next t → ControlInv t

/-- FTAB and the context stay valid in every step. -/
def Obligations.StepKeepsTableAndContext : Prop :=
  ∀ s t, ControlInv s → FtabInv s → ContextInv s → step s = .next t → FtabInv t ∧ ContextInv t

/-- DONE_BLOCKS counts the completed blocks and never passes TOTAL_BLOCKS, in every step. -/
def Obligations.StepKeepsProgress : Prop :=
  ∀ s t, ControlInv s → ProgressInv s → step s = .next t → ProgressInv t

/-- Every step keeps all the invariants: among them that no byte outside data memory is ever written. -/
def Obligations.StepKeepsTheMachine : Prop := ∀ s t, MachineInv s → step s = .next t → MachineInv t

/-- The invariants hold right after reset. -/
def Obligations.ResetMeetsTheInvariants : Prop := MachineInv State.reset

/-- R45, R46: a step of the engine writes data memory only inside the running command's destination. -/
def Obligations.EngineWritesOnlyItsDestination : Prop :=
  ∀ s a, MachineInv s →
    (a < (destRange s).1 ∨ (destRange s).1 + (destRange s).2 ≤ a) →
    readByte (engineStep s).mem a = readByte s.mem a
end

