-- ==== Sys2Proof/Laws/Gf.lean ====
section
/-! SUPPORT. The generator of the substitution table multiplies by an irreducible polynomial (41_gf256.md R78). -/

namespace Sys2Proof.Machine

theorem irreducible_magentaPoly : irreducible magentaPoly = true := by decide

/-- The generator's multiplication is `gfmul`: it cannot fail. -/
theorem gfmul_magentaPoly (x : Byte) :
    gfmul x magentaAlpha magentaPoly = some (gfProduct x magentaAlpha magentaPoly) := by
  simp [gfmul, irreducible_magentaPoly]

@[simp] theorem length_powersFrom (k : Nat) (x : Byte) : (powersFrom k x).length = k + 1 := by
  induction k generalizing x with
  | zero => rfl
  | succ k ih => simp [powersFrom, ih]

@[simp] theorem length_ftabGenerated (f255 : Byte) : (ftabGenerated f255).length = 256 := by simp [ftabGenerated]

end Sys2Proof.Machine
end

