-- ==== Sys2Proof/Laws/Memory.lean ====
section
/-! SUPPORT. The laws of data memory: read after write, and the canonical form kept by every memory operation. -/

namespace Sys2Proof.Machine

@[simp] theorem readByte_nil (a : Nat) : readByte [] a = powerOnByte := rfl

/-- The canonical form, seen from the head. -/
theorem memoryWf_cons (k : Nat) (v : Byte) (m : Memory) :
    memoryWf ((k, v) :: m) = true ↔ v ≠ powerOnByte ∧ (∀ c ∈ m.head?, k < c.1) ∧ memoryWf m = true := by
  cases m with
  | nil => simp [memoryWf]
  | cons c rest => simp [memoryWf, and_left_comm, and_assoc]

/-- Every later address of a canonical memory lies above the first. -/
theorem head_lt_of_memoryWf {k : Nat} {v : Byte} {m : Memory} (h : memoryWf ((k, v) :: m) = true) :
    ∀ c ∈ m, k < c.1 := by
  induction m generalizing k v with
  | nil => simp
  | cons c rest ih =>
    obtain ⟨-, hlt, hrest⟩ := (memoryWf_cons k v (c :: rest)).1 h
    have hc : k < c.1 := hlt c (by simp)
    intro d hd
    rcases List.mem_cons.1 hd with rfl | hd
    · exact hc
    · exact hc.trans (ih hrest d hd)

/-- An address below every listed one is not listed. -/
theorem readByte_of_lt {m : Memory} {a : Nat} (h : ∀ c ∈ m, a < c.1) : readByte m a = powerOnByte := by
  induction m with
  | nil => rfl
  | cons c rest ih =>
    have hc : a ≠ c.1 := (h c (by simp)).ne
    simp only [readByte, hc, if_false]
    exact ih fun d hd => h d (by simp [hd])

/-- Reading the byte just written, in a canonical memory. -/
theorem readByte_writeByte_same {m : Memory} (h : memoryWf m = true) (a : Nat) (v : Byte) :
    readByte (writeByte m a v) a = v := by
  induction m with
  | nil => by_cases hv : v = powerOnByte <;> simp [writeByte, readByte, hv]
  | cons c rest ih =>
    obtain ⟨k, w⟩ := c
    have hrest := ((memoryWf_cons k w rest).1 h).2.2
    have hlt := head_lt_of_memoryWf h
    rcases lt_trichotomy a k with hak | rfl | hak
    · by_cases hv : v = powerOnByte
      · simp only [writeByte, hak, hv, if_true]
        refine readByte_of_lt fun d hd => ?_
        rcases List.mem_cons.1 hd with rfl | hd
        · exact hak
        · exact hak.trans (hlt d hd)
      · simp [writeByte, hak, hv, readByte]
    · by_cases hv : v = powerOnByte
      · simpa [writeByte, hv] using readByte_of_lt hlt
      · simp [writeByte, hv, readByte]
    · simp [writeByte, hak.not_gt, hak.ne', readByte, ih hrest]

/-- Writing a byte leaves every other address alone. -/
theorem readByte_writeByte_other (m : Memory) {a b : Nat} (v : Byte) (h : b ≠ a) :
    readByte (writeByte m a v) b = readByte m b := by
  induction m with
  | nil => by_cases hv : v = powerOnByte <;> simp [writeByte, readByte, hv, h]
  | cons c rest ih =>
    obtain ⟨k, w⟩ := c
    rcases lt_trichotomy a k with hak | rfl | hak
    · by_cases hv : v = powerOnByte <;> simp [writeByte, hak, hv, readByte, h]
    · by_cases hv : v = powerOnByte <;> simp [writeByte, hv, readByte, h]
    · simp [writeByte, hak.not_gt, hak.ne', readByte, ih]

/-- Every address listed after a write was listed before or is the one written. -/
theorem mem_writeByte {m : Memory} {a : Nat} {v : Byte} {c : Host.Cell} (h : c ∈ writeByte m a v) :
    c ∈ m ∨ c.1 = a := by
  induction m with
  | nil => by_cases hv : v = powerOnByte <;> simp_all [writeByte]
  | cons d rest ih =>
    obtain ⟨k, w⟩ := d
    rcases lt_trichotomy a k with hak | rfl | hak
    · by_cases hv : v = powerOnByte
      · simp_all [writeByte]
      · simp only [writeByte, hak, hv, if_true, if_false, List.mem_cons] at h
        rcases h with rfl | h
        · exact .inr rfl
        · exact .inl (by simpa using h)
    · by_cases hv : v = powerOnByte
      · simp_all [writeByte]
      · simp only [writeByte, lt_irrefl, hv, if_true, if_false, List.mem_cons] at h
        rcases h with rfl | h
        · exact .inr rfl
        · exact .inl (by simp [h])
    · simp only [writeByte, hak.not_gt, hak.ne', if_false, List.mem_cons] at h
      rcases h with rfl | h
      · exact .inl (by simp)
      · rcases ih h with h | h
        · exact .inl (by simp [h])
        · exact .inr h

/-- A write of one byte keeps the canonical form. -/
theorem memoryWf_writeByte {m : Memory} (h : memoryWf m = true) (a : Nat) (v : Byte) :
    memoryWf (writeByte m a v) = true := by
  induction m with
  | nil => by_cases hv : v = powerOnByte <;> simp [writeByte, memoryWf, hv]
  | cons c rest ih =>
    obtain ⟨k, w⟩ := c
    obtain ⟨hw, hlt, hrest⟩ := (memoryWf_cons k w rest).1 h
    rcases lt_trichotomy a k with hak | rfl | hak
    · by_cases hv : v = powerOnByte
      · simpa [writeByte, hak, hv] using h
      · simp only [writeByte, hak, hv, if_true, if_false]
        exact (memoryWf_cons _ _ _).2 ⟨hv, by simpa using hak, h⟩
    · by_cases hv : v = powerOnByte
      · simpa [writeByte, hv] using hrest
      · simp only [writeByte, lt_irrefl, hv, if_true, if_false]
        exact (memoryWf_cons _ _ _).2 ⟨hv, hlt, hrest⟩
    · simp only [writeByte, hak.not_gt, hak.ne', if_false]
      refine (memoryWf_cons _ _ _).2 ⟨hw, fun d hd => ?_, ih hrest⟩
      rcases mem_writeByte (List.mem_of_mem_head? hd) with hd | hd
      · exact head_lt_of_memoryWf h d hd
      · exact hd ▸ hak

/-- A write of a byte string keeps the canonical form. -/
theorem memoryWf_writeBytes {m : Memory} (h : memoryWf m = true) (a : Nat) (b : List Byte) :
    memoryWf (writeBytes m a b) = true := by
  induction b generalizing m a with
  | nil => exact h
  | cons v rest ih => exact ih (memoryWf_writeByte h a v) (a + 1)

/-- A write of a byte string leaves every address outside it alone. -/
theorem readByte_writeBytes_outside (m : Memory) (a : Nat) (b : List Byte) {x : Nat} (h : x < a ∨ a + b.length ≤ x) :
    readByte (writeBytes m a b) x = readByte m x := by
  induction b generalizing m a with
  | nil => rfl
  | cons v rest ih =>
    simp only [List.length_cons] at h
    rw [writeBytes, ih (writeByte m a v) (a + 1) (by omega), readByte_writeByte_other m v (by omega)]

/-- Reading inside a byte string just written. -/
theorem readByte_writeBytes_inside {m : Memory} (h : memoryWf m = true) (a : Nat) (b : List Byte) {k : Nat}
    (hk : k < b.length) : readByte (writeBytes m a b) (a + k) = b[k] := by
  induction b generalizing m a k with
  | nil => simp at hk
  | cons v rest ih =>
    cases k with
    | zero =>
      rw [writeBytes, readByte_writeBytes_outside _ _ _ (by omega)]
      exact readByte_writeByte_same h a v
    | succ k =>
      have := ih (memoryWf_writeByte h a v) (a + 1) (k := k) (by simpa using hk)
      rw [writeBytes, show a + (k + 1) = a + 1 + k by omega, this]
      rfl

@[simp] theorem length_readBytes (m : Memory) (a n : Nat) : (readBytes m a n).length = n := by simp [readBytes]

/-- Reading back a byte string just written. -/
theorem readBytes_writeBytes {m : Memory} (h : memoryWf m = true) (a : Nat) (b : List Byte) :
    readBytes (writeBytes m a b) a b.length = b := by
  refine List.ext_getElem (by simp) fun k h1 h2 => ?_
  simpa [readBytes] using readByte_writeBytes_inside h a b h2

/-- Every address listed after a write of a byte string was listed before or lies in it. -/
theorem mem_writeBytes {m : Memory} {a : Nat} {b : List Byte} {c : Host.Cell} (h : c ∈ writeBytes m a b) :
    c ∈ m ∨ (a ≤ c.1 ∧ c.1 < a + b.length) := by
  induction b generalizing m a with
  | nil => exact .inl h
  | cons v rest ih =>
    simp only [List.length_cons]
    rcases ih h with h | h
    · rcases mem_writeByte h with h | h
      · exact .inl h
      · exact .inr (by omega)
    · exact .inr (by omega)

end Sys2Proof.Machine
end

