-- ==== Sys2Proof/Laws/State.lean ====
section
/-! SUPPORT. One lemma per field of State for each shared update, so that no later proof unfolds a record update. -/

namespace Sys2Proof.Machine

/-! ### setEnv -/

@[simp] theorem setEnv_params (e : Env) (s : State) : (setEnv e s).params = s.params := rfl
@[simp] theorem setEnv_status (e : Env) (s : State) : (setEnv e s).status = s.status := rfl
@[simp] theorem setEnv_error (e : Env) (s : State) : (setEnv e s).error = s.error := rfl
@[simp] theorem setEnv_irqEn (e : Env) (s : State) : (setEnv e s).irqEn = s.irqEn := rfl
@[simp] theorem setEnv_irqTerminal (e : Env) (s : State) : (setEnv e s).irqTerminal = s.irqTerminal := rfl
@[simp] theorem setEnv_ops (e : Env) (s : State) : (setEnv e s).ops = s.ops := rfl
@[simp] theorem setEnv_out (e : Env) (s : State) : (setEnv e s).out = s.out := rfl
@[simp] theorem setEnv_latched (e : Env) (s : State) : (setEnv e s).latched = s.latched := rfl
@[simp] theorem setEnv_ctx (e : Env) (s : State) : (setEnv e s).ctx = s.ctx := rfl
@[simp] theorem setEnv_ftab (e : Env) (s : State) : (setEnv e s).ftab = s.ftab := rfl
@[simp] theorem setEnv_dp (e : Env) (s : State) : (setEnv e s).dp = s.dp := rfl
@[simp] theorem setEnv_seq (e : Env) (s : State) : (setEnv e s).seq = s.seq := rfl
@[simp] theorem setEnv_raced (e : Env) (s : State) : (setEnv e s).raced = s.raced := rfl
@[simp] theorem setEnv_mem (e : Env) (s : State) : (setEnv e s).mem = s.mem := rfl
@[simp] theorem setEnv_host (e : Env) (s : State) : (setEnv e s).host = s.host := rfl
@[simp] theorem setEnv_response (e : Env) (s : State) : (setEnv e s).response = s.response := rfl
@[simp] theorem setEnv_env (e : Env) (s : State) : (setEnv e s).env = e := rfl

@[simp] theorem setEnv_setEnv (e e2 : Env) (s : State) : setEnv e (setEnv e2 s) = setEnv e s := rfl
@[simp] theorem setEnv_self (s : State) : setEnv s.env s = s := rfl

/-! ### setMem -/

@[simp] theorem setMem_params (m : Memory) (s : State) : (setMem m s).params = s.params := rfl
@[simp] theorem setMem_status (m : Memory) (s : State) : (setMem m s).status = s.status := rfl
@[simp] theorem setMem_error (m : Memory) (s : State) : (setMem m s).error = s.error := rfl
@[simp] theorem setMem_irqEn (m : Memory) (s : State) : (setMem m s).irqEn = s.irqEn := rfl
@[simp] theorem setMem_irqTerminal (m : Memory) (s : State) : (setMem m s).irqTerminal = s.irqTerminal := rfl
@[simp] theorem setMem_ops (m : Memory) (s : State) : (setMem m s).ops = s.ops := rfl
@[simp] theorem setMem_out (m : Memory) (s : State) : (setMem m s).out = s.out := rfl
@[simp] theorem setMem_latched (m : Memory) (s : State) : (setMem m s).latched = s.latched := rfl
@[simp] theorem setMem_ctx (m : Memory) (s : State) : (setMem m s).ctx = s.ctx := rfl
@[simp] theorem setMem_ftab (m : Memory) (s : State) : (setMem m s).ftab = s.ftab := rfl
@[simp] theorem setMem_dp (m : Memory) (s : State) : (setMem m s).dp = s.dp := rfl
@[simp] theorem setMem_seq (m : Memory) (s : State) : (setMem m s).seq = s.seq := rfl
@[simp] theorem setMem_raced (m : Memory) (s : State) : (setMem m s).raced = s.raced := rfl
@[simp] theorem setMem_mem (m : Memory) (s : State) : (setMem m s).mem = m := rfl
@[simp] theorem setMem_host (m : Memory) (s : State) : (setMem m s).host = s.host := rfl
@[simp] theorem setMem_response (m : Memory) (s : State) : (setMem m s).response = s.response := rfl
@[simp] theorem setMem_env (m : Memory) (s : State) : (setMem m s).env = s.env := rfl
@[simp] theorem setMem_self (s : State) : setMem s.mem s = s := rfl
@[simp] theorem setMem_setEnv_self (e : Env) (s : State) : setMem s.mem (setEnv e s) = setEnv e s := rfl

/-! ### took -/

@[simp] theorem took_params (s : State) : (took s).params = s.params := rfl
@[simp] theorem took_status (s : State) : (took s).status = s.status := rfl
@[simp] theorem took_error (s : State) : (took s).error = s.error := rfl
@[simp] theorem took_irqEn (s : State) : (took s).irqEn = s.irqEn := rfl
@[simp] theorem took_irqTerminal (s : State) : (took s).irqTerminal = s.irqTerminal := rfl
@[simp] theorem took_ops (s : State) : (took s).ops = s.ops := rfl
@[simp] theorem took_out (s : State) : (took s).out = s.out := rfl
@[simp] theorem took_latched (s : State) : (took s).latched = s.latched := rfl
@[simp] theorem took_ctx (s : State) : (took s).ctx = s.ctx := rfl
@[simp] theorem took_ftab (s : State) : (took s).ftab = s.ftab := rfl
@[simp] theorem took_dp (s : State) : (took s).dp = s.dp := rfl
@[simp] theorem took_seq (s : State) : (took s).seq = s.seq := rfl
@[simp] theorem took_raced (s : State) : (took s).raced = s.raced := rfl
@[simp] theorem took_mem (s : State) : (took s).mem = s.mem := rfl
@[simp] theorem took_host (s : State) : (took s).host = s.host := rfl
@[simp] theorem took_response (s : State) : (took s).response = s.response := rfl
@[simp] theorem took_env (s : State) : (took s).env = { s.env with taken := s.env.taken + 1 } := rfl

/-! ### terminal -/

@[simp] theorem terminal_params (st : EngineState) (s : State) : (terminal st s).params = s.params := rfl
@[simp] theorem terminal_status (st : EngineState) (s : State) : (terminal st s).status = { s.status with engine := st, cancelPending := false } := rfl
@[simp] theorem terminal_error (st : EngineState) (s : State) : (terminal st s).error = s.error := rfl
@[simp] theorem terminal_irqEn (st : EngineState) (s : State) : (terminal st s).irqEn = s.irqEn := rfl
@[simp] theorem terminal_irqTerminal (st : EngineState) (s : State) : (terminal st s).irqTerminal = true := rfl
@[simp] theorem terminal_ops (st : EngineState) (s : State) : (terminal st s).ops = s.ops := rfl
@[simp] theorem terminal_out (st : EngineState) (s : State) : (terminal st s).out = s.out := rfl
@[simp] theorem terminal_latched (st : EngineState) (s : State) : (terminal st s).latched = s.latched := rfl
@[simp] theorem terminal_ctx (st : EngineState) (s : State) : (terminal st s).ctx = s.ctx := rfl
@[simp] theorem terminal_ftab (st : EngineState) (s : State) : (terminal st s).ftab = s.ftab := rfl
@[simp] theorem terminal_dp (st : EngineState) (s : State) : (terminal st s).dp = s.dp := rfl
@[simp] theorem terminal_seq (st : EngineState) (s : State) : (terminal st s).seq = .idle := rfl
@[simp] theorem terminal_raced (st : EngineState) (s : State) : (terminal st s).raced = s.raced := rfl
@[simp] theorem terminal_mem (st : EngineState) (s : State) : (terminal st s).mem = s.mem := rfl
@[simp] theorem terminal_host (st : EngineState) (s : State) : (terminal st s).host = s.host := rfl
@[simp] theorem terminal_response (st : EngineState) (s : State) : (terminal st s).response = s.response := rfl
@[simp] theorem terminal_env (st : EngineState) (s : State) : (terminal st s).env = s.env := rfl

/-! ### raise -/

@[simp] theorem raise_params (c : ErrorCode) (op : Byte) (s : State) : (raise c op s).params = s.params := rfl
@[simp] theorem raise_status (c : ErrorCode) (op : Byte) (s : State) : (raise c op s).status = { s.status with engine := .failed, cancelPending := false } := rfl
@[simp] theorem raise_error (c : ErrorCode) (op : Byte) (s : State) : (raise c op s).error = some ⟨c, op⟩ := rfl
@[simp] theorem raise_irqEn (c : ErrorCode) (op : Byte) (s : State) : (raise c op s).irqEn = s.irqEn := rfl
@[simp] theorem raise_irqTerminal (c : ErrorCode) (op : Byte) (s : State) : (raise c op s).irqTerminal = true := rfl
@[simp] theorem raise_ops (c : ErrorCode) (op : Byte) (s : State) : (raise c op s).ops = s.ops := rfl
@[simp] theorem raise_out (c : ErrorCode) (op : Byte) (s : State) : (raise c op s).out = s.out := rfl
@[simp] theorem raise_latched (c : ErrorCode) (op : Byte) (s : State) : (raise c op s).latched = s.latched := rfl
@[simp] theorem raise_ctx (c : ErrorCode) (op : Byte) (s : State) : (raise c op s).ctx = s.ctx := rfl
@[simp] theorem raise_ftab (c : ErrorCode) (op : Byte) (s : State) : (raise c op s).ftab = s.ftab := rfl
@[simp] theorem raise_dp (c : ErrorCode) (op : Byte) (s : State) : (raise c op s).dp = s.dp := rfl
@[simp] theorem raise_seq (c : ErrorCode) (op : Byte) (s : State) : (raise c op s).seq = .idle := rfl
@[simp] theorem raise_raced (c : ErrorCode) (op : Byte) (s : State) : (raise c op s).raced = s.raced := rfl
@[simp] theorem raise_mem (c : ErrorCode) (op : Byte) (s : State) : (raise c op s).mem = s.mem := rfl
@[simp] theorem raise_host (c : ErrorCode) (op : Byte) (s : State) : (raise c op s).host = s.host := rfl
@[simp] theorem raise_response (c : ErrorCode) (op : Byte) (s : State) : (raise c op s).response = s.response := rfl
@[simp] theorem raise_env (c : ErrorCode) (op : Byte) (s : State) : (raise c op s).env = s.env := rfl

/-! ### acknowledge -/

@[simp] theorem acknowledge_params (s : State) : (acknowledge s).params = s.params := rfl
@[simp] theorem acknowledge_status (s : State) : (acknowledge s).status = { s.status with engine := .idle, padWarn := false, cmdDropped := false } := rfl
@[simp] theorem acknowledge_error (s : State) : (acknowledge s).error = none := rfl
@[simp] theorem acknowledge_irqEn (s : State) : (acknowledge s).irqEn = s.irqEn := rfl
@[simp] theorem acknowledge_irqTerminal (s : State) : (acknowledge s).irqTerminal = s.irqTerminal := rfl
@[simp] theorem acknowledge_ops (s : State) : (acknowledge s).ops = s.ops := rfl
@[simp] theorem acknowledge_out (s : State) : (acknowledge s).out = s.out := rfl
@[simp] theorem acknowledge_latched (s : State) : (acknowledge s).latched = s.latched := rfl
@[simp] theorem acknowledge_ctx (s : State) : (acknowledge s).ctx = s.ctx := rfl
@[simp] theorem acknowledge_ftab (s : State) : (acknowledge s).ftab = s.ftab := rfl
@[simp] theorem acknowledge_dp (s : State) : (acknowledge s).dp = s.dp := rfl
@[simp] theorem acknowledge_seq (s : State) : (acknowledge s).seq = s.seq := rfl
@[simp] theorem acknowledge_raced (s : State) : (acknowledge s).raced = s.raced := rfl
@[simp] theorem acknowledge_mem (s : State) : (acknowledge s).mem = s.mem := rfl
@[simp] theorem acknowledge_host (s : State) : (acknowledge s).host = s.host := rfl
@[simp] theorem acknowledge_response (s : State) : (acknowledge s).response = s.response := rfl
@[simp] theorem acknowledge_env (s : State) : (acknowledge s).env = s.env := rfl

/-! ### drop -/

@[simp] theorem drop_params (s : State) : (drop s).params = s.params := rfl
@[simp] theorem drop_status (s : State) : (drop s).status = { s.status with cmdDropped := true } := rfl
@[simp] theorem drop_error (s : State) : (drop s).error = s.error := rfl
@[simp] theorem drop_irqEn (s : State) : (drop s).irqEn = s.irqEn := rfl
@[simp] theorem drop_irqTerminal (s : State) : (drop s).irqTerminal = s.irqTerminal := rfl
@[simp] theorem drop_ops (s : State) : (drop s).ops = s.ops := rfl
@[simp] theorem drop_out (s : State) : (drop s).out = s.out := rfl
@[simp] theorem drop_latched (s : State) : (drop s).latched = s.latched := rfl
@[simp] theorem drop_ctx (s : State) : (drop s).ctx = s.ctx := rfl
@[simp] theorem drop_ftab (s : State) : (drop s).ftab = s.ftab := rfl
@[simp] theorem drop_dp (s : State) : (drop s).dp = s.dp := rfl
@[simp] theorem drop_seq (s : State) : (drop s).seq = s.seq := rfl
@[simp] theorem drop_raced (s : State) : (drop s).raced = s.raced := rfl
@[simp] theorem drop_mem (s : State) : (drop s).mem = s.mem := rfl
@[simp] theorem drop_host (s : State) : (drop s).host = s.host := rfl
@[simp] theorem drop_response (s : State) : (drop s).response = s.response := rfl
@[simp] theorem drop_env (s : State) : (drop s).env = s.env := rfl

/-! ### accept -/

@[simp] theorem accept_params (i : Instr) (s : State) : (accept i s).params = s.params := rfl
@[simp] theorem accept_status (i : Instr) (s : State) : (accept i s).status = { s.status with engine := .busy } := rfl
@[simp] theorem accept_error (i : Instr) (s : State) : (accept i s).error = none := rfl
@[simp] theorem accept_irqEn (i : Instr) (s : State) : (accept i s).irqEn = s.irqEn := rfl
@[simp] theorem accept_irqTerminal (i : Instr) (s : State) : (accept i s).irqTerminal = s.irqTerminal := rfl
@[simp] theorem accept_ops (i : Instr) (s : State) : (accept i s).ops = s.ops := rfl
@[simp] theorem accept_out (i : Instr) (s : State) : (accept i s).out = s.out := rfl
@[simp] theorem accept_latched (i : Instr) (s : State) : (accept i s).latched = latch i s.ops s.latched := rfl
@[simp] theorem accept_ctx (i : Instr) (s : State) : (accept i s).ctx = s.ctx := rfl
@[simp] theorem accept_ftab (i : Instr) (s : State) : (accept i s).ftab = s.ftab := rfl
@[simp] theorem accept_dp (i : Instr) (s : State) : (accept i s).dp = s.dp := rfl
@[simp] theorem accept_seq (i : Instr) (s : State) : (accept i s).seq = s.seq := rfl
@[simp] theorem accept_raced (i : Instr) (s : State) : (accept i s).raced = [] := rfl
@[simp] theorem accept_mem (i : Instr) (s : State) : (accept i s).mem = s.mem := rfl
@[simp] theorem accept_host (i : Instr) (s : State) : (accept i s).host = s.host := rfl
@[simp] theorem accept_response (i : Instr) (s : State) : (accept i s).response = s.response := rfl
@[simp] theorem accept_env (i : Instr) (s : State) : (accept i s).env = s.env := rfl

/-! ### setLane -/

@[simp] theorem setLane_params (l : Nat) (r : LaneRegs) (s : State) : (setLane l r s).params = s.params := rfl
@[simp] theorem setLane_status (l : Nat) (r : LaneRegs) (s : State) : (setLane l r s).status = s.status := rfl
@[simp] theorem setLane_error (l : Nat) (r : LaneRegs) (s : State) : (setLane l r s).error = s.error := rfl
@[simp] theorem setLane_irqEn (l : Nat) (r : LaneRegs) (s : State) : (setLane l r s).irqEn = s.irqEn := rfl
@[simp] theorem setLane_irqTerminal (l : Nat) (r : LaneRegs) (s : State) : (setLane l r s).irqTerminal = s.irqTerminal := rfl
@[simp] theorem setLane_ops (l : Nat) (r : LaneRegs) (s : State) : (setLane l r s).ops = s.ops := rfl
@[simp] theorem setLane_out (l : Nat) (r : LaneRegs) (s : State) : (setLane l r s).out = s.out := rfl
@[simp] theorem setLane_latched (l : Nat) (r : LaneRegs) (s : State) : (setLane l r s).latched = s.latched := rfl
@[simp] theorem setLane_ctx (l : Nat) (r : LaneRegs) (s : State) : (setLane l r s).ctx = s.ctx := rfl
@[simp] theorem setLane_ftab (l : Nat) (r : LaneRegs) (s : State) : (setLane l r s).ftab = s.ftab := rfl
@[simp] theorem setLane_dp (l : Nat) (r : LaneRegs) (s : State) : (setLane l r s).dp = { s.dp with lanes := setKey s.dp.lanes l r } := rfl
@[simp] theorem setLane_seq (l : Nat) (r : LaneRegs) (s : State) : (setLane l r s).seq = s.seq := rfl
@[simp] theorem setLane_raced (l : Nat) (r : LaneRegs) (s : State) : (setLane l r s).raced = s.raced := rfl
@[simp] theorem setLane_mem (l : Nat) (r : LaneRegs) (s : State) : (setLane l r s).mem = s.mem := rfl
@[simp] theorem setLane_host (l : Nat) (r : LaneRegs) (s : State) : (setLane l r s).host = s.host := rfl
@[simp] theorem setLane_response (l : Nat) (r : LaneRegs) (s : State) : (setLane l r s).response = s.response := rfl
@[simp] theorem setLane_env (l : Nat) (r : LaneRegs) (s : State) : (setLane l r s).env = s.env := rfl

/-! ### finishBlkOut -/

@[simp] theorem finishBlkOut_params (y : List Byte) (s : State) : (finishBlkOut y s).params = s.params := rfl
@[simp] theorem finishBlkOut_status (y : List Byte) (s : State) : (finishBlkOut y s).status = { s.status with engine := .done, cancelPending := false } := rfl
@[simp] theorem finishBlkOut_error (y : List Byte) (s : State) : (finishBlkOut y s).error = s.error := rfl
@[simp] theorem finishBlkOut_irqEn (y : List Byte) (s : State) : (finishBlkOut y s).irqEn = s.irqEn := rfl
@[simp] theorem finishBlkOut_irqTerminal (y : List Byte) (s : State) : (finishBlkOut y s).irqTerminal = true := rfl
@[simp] theorem finishBlkOut_ops (y : List Byte) (s : State) : (finishBlkOut y s).ops = s.ops := rfl
@[simp] theorem finishBlkOut_out (y : List Byte) (s : State) : (finishBlkOut y s).out = { s.out with blkOut := packBytes 128 (y ++ zeros (16 - y.length)) } := rfl
@[simp] theorem finishBlkOut_latched (y : List Byte) (s : State) : (finishBlkOut y s).latched = s.latched := rfl
@[simp] theorem finishBlkOut_ctx (y : List Byte) (s : State) : (finishBlkOut y s).ctx = s.ctx := rfl
@[simp] theorem finishBlkOut_ftab (y : List Byte) (s : State) : (finishBlkOut y s).ftab = s.ftab := rfl
@[simp] theorem finishBlkOut_dp (y : List Byte) (s : State) : (finishBlkOut y s).dp = s.dp := rfl
@[simp] theorem finishBlkOut_seq (y : List Byte) (s : State) : (finishBlkOut y s).seq = .idle := rfl
@[simp] theorem finishBlkOut_raced (y : List Byte) (s : State) : (finishBlkOut y s).raced = s.raced := rfl
@[simp] theorem finishBlkOut_mem (y : List Byte) (s : State) : (finishBlkOut y s).mem = s.mem := rfl
@[simp] theorem finishBlkOut_host (y : List Byte) (s : State) : (finishBlkOut y s).host = s.host := rfl
@[simp] theorem finishBlkOut_response (y : List Byte) (s : State) : (finishBlkOut y s).response = s.response := rfl
@[simp] theorem finishBlkOut_env (y : List Byte) (s : State) : (finishBlkOut y s).env = s.env := rfl

/-! ### finishResult -/

@[simp] theorem finishResult_params (v : Word) (s : State) : (finishResult v s).params = s.params := rfl
@[simp] theorem finishResult_status (v : Word) (s : State) : (finishResult v s).status = { s.status with engine := .done, cancelPending := false } := rfl
@[simp] theorem finishResult_error (v : Word) (s : State) : (finishResult v s).error = s.error := rfl
@[simp] theorem finishResult_irqEn (v : Word) (s : State) : (finishResult v s).irqEn = s.irqEn := rfl
@[simp] theorem finishResult_irqTerminal (v : Word) (s : State) : (finishResult v s).irqTerminal = true := rfl
@[simp] theorem finishResult_ops (v : Word) (s : State) : (finishResult v s).ops = s.ops := rfl
@[simp] theorem finishResult_out (v : Word) (s : State) : (finishResult v s).out = { s.out with result := v } := rfl
@[simp] theorem finishResult_latched (v : Word) (s : State) : (finishResult v s).latched = s.latched := rfl
@[simp] theorem finishResult_ctx (v : Word) (s : State) : (finishResult v s).ctx = s.ctx := rfl
@[simp] theorem finishResult_ftab (v : Word) (s : State) : (finishResult v s).ftab = s.ftab := rfl
@[simp] theorem finishResult_dp (v : Word) (s : State) : (finishResult v s).dp = s.dp := rfl
@[simp] theorem finishResult_seq (v : Word) (s : State) : (finishResult v s).seq = .idle := rfl
@[simp] theorem finishResult_raced (v : Word) (s : State) : (finishResult v s).raced = s.raced := rfl
@[simp] theorem finishResult_mem (v : Word) (s : State) : (finishResult v s).mem = s.mem := rfl
@[simp] theorem finishResult_host (v : Word) (s : State) : (finishResult v s).host = s.host := rfl
@[simp] theorem finishResult_response (v : Word) (s : State) : (finishResult v s).response = s.response := rfl
@[simp] theorem finishResult_env (v : Word) (s : State) : (finishResult v s).env = s.env := rfl

/-! ### setOutLen -/

@[simp] theorem setOutLen_params (n : Nat) (s : State) : (setOutLen n s).params = s.params := rfl
@[simp] theorem setOutLen_status (n : Nat) (s : State) : (setOutLen n s).status = s.status := rfl
@[simp] theorem setOutLen_error (n : Nat) (s : State) : (setOutLen n s).error = s.error := rfl
@[simp] theorem setOutLen_irqEn (n : Nat) (s : State) : (setOutLen n s).irqEn = s.irqEn := rfl
@[simp] theorem setOutLen_irqTerminal (n : Nat) (s : State) : (setOutLen n s).irqTerminal = s.irqTerminal := rfl
@[simp] theorem setOutLen_ops (n : Nat) (s : State) : (setOutLen n s).ops = s.ops := rfl
@[simp] theorem setOutLen_out (n : Nat) (s : State) : (setOutLen n s).out = { s.out with outLen := BitVec.ofNat 32 n } := rfl
@[simp] theorem setOutLen_latched (n : Nat) (s : State) : (setOutLen n s).latched = s.latched := rfl
@[simp] theorem setOutLen_ctx (n : Nat) (s : State) : (setOutLen n s).ctx = s.ctx := rfl
@[simp] theorem setOutLen_ftab (n : Nat) (s : State) : (setOutLen n s).ftab = s.ftab := rfl
@[simp] theorem setOutLen_dp (n : Nat) (s : State) : (setOutLen n s).dp = s.dp := rfl
@[simp] theorem setOutLen_seq (n : Nat) (s : State) : (setOutLen n s).seq = s.seq := rfl
@[simp] theorem setOutLen_raced (n : Nat) (s : State) : (setOutLen n s).raced = s.raced := rfl
@[simp] theorem setOutLen_mem (n : Nat) (s : State) : (setOutLen n s).mem = s.mem := rfl
@[simp] theorem setOutLen_host (n : Nat) (s : State) : (setOutLen n s).host = s.host := rfl
@[simp] theorem setOutLen_response (n : Nat) (s : State) : (setOutLen n s).response = s.response := rfl
@[simp] theorem setOutLen_env (n : Nat) (s : State) : (setOutLen n s).env = s.env := rfl

/-! ### dropContext -/

@[simp] theorem dropContext_params (s : State) : (dropContext s).params = s.params := rfl
@[simp] theorem dropContext_status (s : State) : (dropContext s).status = { s.status with keyed := false, configured := false } := rfl
@[simp] theorem dropContext_error (s : State) : (dropContext s).error = s.error := rfl
@[simp] theorem dropContext_irqEn (s : State) : (dropContext s).irqEn = s.irqEn := rfl
@[simp] theorem dropContext_irqTerminal (s : State) : (dropContext s).irqTerminal = s.irqTerminal := rfl
@[simp] theorem dropContext_ops (s : State) : (dropContext s).ops = s.ops := rfl
@[simp] theorem dropContext_out (s : State) : (dropContext s).out = s.out := rfl
@[simp] theorem dropContext_latched (s : State) : (dropContext s).latched = s.latched := rfl
@[simp] theorem dropContext_ctx (s : State) : (dropContext s).ctx = s.ctx := rfl
@[simp] theorem dropContext_ftab (s : State) : (dropContext s).ftab = s.ftab := rfl
@[simp] theorem dropContext_dp (s : State) : (dropContext s).dp = s.dp := rfl
@[simp] theorem dropContext_seq (s : State) : (dropContext s).seq = s.seq := rfl
@[simp] theorem dropContext_raced (s : State) : (dropContext s).raced = s.raced := rfl
@[simp] theorem dropContext_mem (s : State) : (dropContext s).mem = s.mem := rfl
@[simp] theorem dropContext_host (s : State) : (dropContext s).host = s.host := rfl
@[simp] theorem dropContext_response (s : State) : (dropContext s).response = s.response := rfl
@[simp] theorem dropContext_env (s : State) : (dropContext s).env = s.env := rfl

/-! ### finishInit -/

@[simp] theorem finishInit_params (s : State) : (finishInit s).params = s.params := rfl
@[simp] theorem finishInit_status (s : State) : (finishInit s).status = { s.status with engine := .idle, initDone := true } := rfl
@[simp] theorem finishInit_error (s : State) : (finishInit s).error = s.error := rfl
@[simp] theorem finishInit_irqEn (s : State) : (finishInit s).irqEn = s.irqEn := rfl
@[simp] theorem finishInit_irqTerminal (s : State) : (finishInit s).irqTerminal = s.irqTerminal := rfl
@[simp] theorem finishInit_ops (s : State) : (finishInit s).ops = s.ops := rfl
@[simp] theorem finishInit_out (s : State) : (finishInit s).out = s.out := rfl
@[simp] theorem finishInit_latched (s : State) : (finishInit s).latched = s.latched := rfl
@[simp] theorem finishInit_ctx (s : State) : (finishInit s).ctx = s.ctx := rfl
@[simp] theorem finishInit_ftab (s : State) : (finishInit s).ftab = ftabGenerated s.params.magentaF255 := rfl
@[simp] theorem finishInit_dp (s : State) : (finishInit s).dp = s.dp := rfl
@[simp] theorem finishInit_seq (s : State) : (finishInit s).seq = .idle := rfl
@[simp] theorem finishInit_raced (s : State) : (finishInit s).raced = s.raced := rfl
@[simp] theorem finishInit_mem (s : State) : (finishInit s).mem = s.mem := rfl
@[simp] theorem finishInit_host (s : State) : (finishInit s).host = s.host := rfl
@[simp] theorem finishInit_response (s : State) : (finishInit s).response = s.response := rfl
@[simp] theorem finishInit_env (s : State) : (finishInit s).env = s.env := rfl

/-! ### loadMsg -/

@[simp] theorem loadMsg_params (dir : Direction) (n : Nat) (s : State) : (loadMsg dir n s).params = s.params := rfl
@[simp] theorem loadMsg_status (dir : Direction) (n : Nat) (s : State) : (loadMsg dir n s).status = s.status := rfl
@[simp] theorem loadMsg_error (dir : Direction) (n : Nat) (s : State) : (loadMsg dir n s).error = s.error := rfl
@[simp] theorem loadMsg_irqEn (dir : Direction) (n : Nat) (s : State) : (loadMsg dir n s).irqEn = s.irqEn := rfl
@[simp] theorem loadMsg_irqTerminal (dir : Direction) (n : Nat) (s : State) : (loadMsg dir n s).irqTerminal = s.irqTerminal := rfl
@[simp] theorem loadMsg_ops (dir : Direction) (n : Nat) (s : State) : (loadMsg dir n s).ops = s.ops := rfl
@[simp] theorem loadMsg_out (dir : Direction) (n : Nat) (s : State) : (loadMsg dir n s).out = { s.out with totalBlocks := BitVec.ofNat 32 n, doneBlocks := 0, outLen := 0 } := rfl
@[simp] theorem loadMsg_latched (dir : Direction) (n : Nat) (s : State) : (loadMsg dir n s).latched = s.latched := rfl
@[simp] theorem loadMsg_ctx (dir : Direction) (n : Nat) (s : State) : (loadMsg dir n s).ctx = s.ctx := rfl
@[simp] theorem loadMsg_ftab (dir : Direction) (n : Nat) (s : State) : (loadMsg dir n s).ftab = s.ftab := rfl
@[simp] theorem loadMsg_dp (dir : Direction) (n : Nat) (s : State) : (loadMsg dir n s).dp = 
      { s.dp with
        chain := s.ctx.iv.getD s.dp.chain
        chainP := zeros (ctxB s)
        ctrBase := match s.ctx.iv with | some iv => be iv | none => s.dp.ctrBase } := rfl
@[simp] theorem loadMsg_seq (dir : Direction) (n : Nat) (s : State) : (loadMsg dir n s).seq = .msg { dir := dir, n := n, counts := [], inFlight := none } := rfl
@[simp] theorem loadMsg_raced (dir : Direction) (n : Nat) (s : State) : (loadMsg dir n s).raced = s.raced := rfl
@[simp] theorem loadMsg_mem (dir : Direction) (n : Nat) (s : State) : (loadMsg dir n s).mem = s.mem := rfl
@[simp] theorem loadMsg_host (dir : Direction) (n : Nat) (s : State) : (loadMsg dir n s).host = s.host := rfl
@[simp] theorem loadMsg_response (dir : Direction) (n : Nat) (s : State) : (loadMsg dir n s).response = s.response := rfl
@[simp] theorem loadMsg_env (dir : Direction) (n : Nat) (s : State) : (loadMsg dir n s).env = s.env := rfl

/-! ### placeCommand -/

@[simp] theorem placeCommand_params (w : Word) (s : State) : (placeCommand w s).params = s.params := rfl
@[simp] theorem placeCommand_status (w : Word) (s : State) : (placeCommand w s).status = s.status := rfl
@[simp] theorem placeCommand_error (w : Word) (s : State) : (placeCommand w s).error = s.error := rfl
@[simp] theorem placeCommand_irqEn (w : Word) (s : State) : (placeCommand w s).irqEn = s.irqEn := rfl
@[simp] theorem placeCommand_irqTerminal (w : Word) (s : State) : (placeCommand w s).irqTerminal = s.irqTerminal := rfl
@[simp] theorem placeCommand_ops (w : Word) (s : State) : (placeCommand w s).ops = s.ops := rfl
@[simp] theorem placeCommand_out (w : Word) (s : State) : (placeCommand w s).out = s.out := rfl
@[simp] theorem placeCommand_latched (w : Word) (s : State) : (placeCommand w s).latched = s.latched := rfl
@[simp] theorem placeCommand_ctx (w : Word) (s : State) : (placeCommand w s).ctx = s.ctx := rfl
@[simp] theorem placeCommand_ftab (w : Word) (s : State) : (placeCommand w s).ftab = s.ftab := rfl
@[simp] theorem placeCommand_dp (w : Word) (s : State) : (placeCommand w s).dp = s.dp := rfl
@[simp] theorem placeCommand_seq (w : Word) (s : State) : (placeCommand w s).seq = s.seq := rfl
@[simp] theorem placeCommand_raced (w : Word) (s : State) : (placeCommand w s).raced = s.raced := rfl
@[simp] theorem placeCommand_mem (w : Word) (s : State) : (placeCommand w s).mem = s.mem := rfl
@[simp] theorem placeCommand_host (w : Word) (s : State) : (placeCommand w s).host = .regWrite (.offset cmdOffset) .bits32 w :: s.host := rfl
@[simp] theorem placeCommand_response (w : Word) (s : State) : (placeCommand w s).response = s.response := rfl
@[simp] theorem placeCommand_env (w : Word) (s : State) : (placeCommand w s).env = s.env := rfl

end Sys2Proof.Machine
end

