-- ==== Sys2Proof/Laws/Ops.lean ====
section
/-! SUPPORT. What each shared operation can do, said once. -/

namespace Sys2Proof.Machine

/-! ### Draws change the environment alone -/

theorem drawBus_spec (s : State) : ∃ e, (drawBus s).2 = setEnv e s := by
  unfold drawBus took
  split <;> exact ⟨_, rfl⟩

theorem drawByte_spec (s : State) : ∃ e, (drawByte s).2 = setEnv e s := by
  unfold drawByte took
  split <;> exact ⟨_, rfl⟩

theorem drawChoice_spec (s : State) : ∃ e, (drawChoice s).2 = setEnv e s := by
  unfold drawChoice took
  split <;> exact ⟨_, rfl⟩

theorem drawBytes_spec (n : Nat) (s : State) :
    (∃ e, (drawBytes n s).2 = setEnv e s) ∧ (drawBytes n s).1.length = n := by
  induction n generalizing s with
  | zero => exact ⟨⟨s.env, rfl⟩, rfl⟩
  | succ n ih =>
    obtain ⟨e, he⟩ := drawByte_spec s
    obtain ⟨⟨e', he'⟩, hl⟩ := ih (drawByte s).2
    refine ⟨⟨e', ?_⟩, ?_⟩
    · show (drawBytes n (drawByte s).2).2 = setEnv e' s
      rw [he', he, setEnv_setEnv]
    · simp [drawBytes, hl]

theorem drawLane_spec (lanes : List Nat) (s : State) :
    (∃ e, (drawLane lanes s).2 = setEnv e s) ∧ (lanes ≠ [] → (drawLane lanes s).1 ∈ lanes) := by
  match lanes with
  | [] => exact ⟨⟨s.env, rfl⟩, fun h => absurd rfl h⟩
  | [l] => exact ⟨⟨s.env, rfl⟩, fun _ => by simp [drawLane]⟩
  | l :: k :: rest =>
    refine ⟨drawChoice_spec s, fun _ => ?_⟩
    simp only [drawLane]
    have hlt : (drawChoice s).1 % ((k :: rest).length + 1) < (l :: k :: rest).length :=
      Nat.mod_lt _ (by simp)
    rw [List.getD_eq_getElem _ _ hlt]
    exact List.getElem_mem _

/-- Placing the bus answer first decides the draw. -/
theorem drawBus_placed {s : State} {b : Bool} {rest : List Bool} (h : s.env.bus = b :: rest) :
    drawBus s = (b, setEnv { s.env with bus := rest } s) := by
  simp [drawBus, h]

/-- The invariants say nothing of the placed answers. -/
theorem machineInv_setEnv {s : State} (h : MachineInv s) (e : Env) : MachineInv (setEnv e s) where
  control := { h.control with }
  ftab := h.ftab
  context := h.context
  progress := { h.progress with run_ok := fun m hm => { h.progress.run_ok m hm with } }
  message := { h.message with }
  bits := { h.bits with }
  memory := h.memory

/-! ### Data memory -/

theorem readRaced_spec (as : List Nat) (s : State) :
    (∃ e, (readRaced as s).2 = setEnv e s) ∧ (readRaced as s).1.length = as.length := by
  induction as generalizing s with
  | nil => exact ⟨⟨s.env, rfl⟩, rfl⟩
  | cons a rest ih =>
    by_cases ha : a ∈ s.raced
    · obtain ⟨e, he⟩ := drawByte_spec s
      obtain ⟨⟨e', he'⟩, hl⟩ := ih (drawByte s).2
      refine ⟨⟨e', ?_⟩, ?_⟩
      · have : (readRaced (a :: rest) s).2 = (readRaced rest (drawByte s).2).2 := by simp [readRaced, ha]
        rw [this, he', he, setEnv_setEnv]
      · simp [readRaced, ha, hl]
    · obtain ⟨⟨e', he'⟩, hl⟩ := ih s
      refine ⟨⟨e', ?_⟩, ?_⟩
      · simp only [readRaced, ha, if_false, he']
      · simp [readRaced, ha, hl]

/-- A read changes the environment alone, and gives as many bytes as were asked for. -/
theorem busRead_spec (a n : Nat) (s : State) :
    (∃ e, (busRead a n s).2 = setEnv e s) ∧ ∀ b, (busRead a n s).1 = some b → b.length = n := by
  obtain ⟨e, he⟩ := drawBus_spec s
  by_cases hn : n = 0
  · simp only [busRead, hn, if_true]
    refine ⟨⟨s.env, rfl⟩, fun b hb => ?_⟩
    cases hb
    rfl
  · cases hok : (drawBus s).1 with
    | false =>
      refine ⟨⟨e, by simp [busRead, hn, hok, he]⟩, fun b hb => ?_⟩
      simp [busRead, hn, hok] at hb
    | true =>
      by_cases hr : s.raced = []
      · refine ⟨⟨e, by simp [busRead, hn, hok, he, hr]⟩, fun b hb => ?_⟩
        simp only [busRead, hn, hok, he, hr, if_true, if_false, setEnv_raced, Option.some.injEq] at hb
        simp [← hb]
      · obtain ⟨⟨e', he'⟩, hl⟩ := readRaced_spec ((List.range n).map (a + ·)) (setEnv e s)
        refine ⟨⟨e', by simp [busRead, hn, hok, he, hr, he']⟩, fun b hb => ?_⟩
        simp only [busRead, hn, hok, he, hr, if_true, if_false, setEnv_raced, Option.some.injEq] at hb
        simp [← hb, hl]

/-- A completed read of bytes the host has not raced gives what memory holds. -/
theorem busRead_value {a n : Nat} {s : State} (hr : s.raced = []) {b : List Byte} (h : (busRead a n s).1 = some b) :
    b = readBytes s.mem a n := by
  obtain ⟨e, he⟩ := drawBus_spec s
  by_cases hn : n = 0
  · simp only [busRead, hn, if_true, Option.some.injEq] at h
    simp [← h, hn, readBytes]
  · cases hok : (drawBus s).1 with
    | false => simp [busRead, hn, hok] at h
    | true => simpa [busRead, hn, hok, he, hr, eq_comm] using h

/-- A write changes the environment and, when it completes, exactly the bytes written. -/
theorem busWrite_spec (a : Nat) (b : List Byte) (s : State) :
    ∃ e, (busWrite a b s).2 =
      setMem (if (busWrite a b s).1 then writeBytes s.mem a b else s.mem) (setEnv e s) := by
  obtain ⟨e, he⟩ := drawBus_spec s
  by_cases hb : b = []
  · exact ⟨s.env, by simp [busWrite, hb, writeBytes]⟩
  · cases hok : (drawBus s).1 with
    | false => exact ⟨e, by simp [busWrite, hb, hok, he]⟩
    | true => exact ⟨e, by simp [busWrite, hb, hok, he]⟩

/-- An output is free only in its bytes, and only when the host has raced the input. -/
theorem racedOutput_spec (y : List Byte) (s : State) :
    (∃ e, (racedOutput y s).2 = setEnv e s) ∧ (racedOutput y s).1.length = y.length ∧
      (s.raced = [] → racedOutput y s = (y, s)) := by
  by_cases hr : s.raced = []
  · simp only [racedOutput, hr, if_true]
    exact ⟨⟨s.env, rfl⟩, trivial, fun _ => trivial⟩
  · obtain ⟨he, hl⟩ := drawBytes_spec y.length s
    simp only [racedOutput, hr, if_false]
    exact ⟨he, hl, fun h => h.elim⟩

/-! ### Issue -/

/-- A command that is neither NOP nor CANCEL is dropped or performed (30_encoding.md R60). -/
theorem guarded_cases (f : State → State) (s : State) :
    (CanAccept s ∧ guarded f s = f s) ∨ (¬ CanAccept s ∧ guarded f s = drop s) := by
  unfold guarded CanAccept
  split
  · rename_i h
    exact .inr ⟨by simp [h], rfl⟩
  · split
    · rename_i h
      exact .inr ⟨by simp [h], rfl⟩
    · rename_i h1 h2
      exact .inl ⟨⟨by simpa using h1, h2⟩, rfl⟩

theorem guarded_of_canAccept {f : State → State} {s : State} (h : CanAccept s) : guarded f s = f s := by
  simp [guarded, h.1, h.2]

theorem issue_of_canAccept {i : Instr} {f : State → State} {s : State} (h : CanAccept s) :
    issue i f s = f (accept i s) := guarded_of_canAccept h

/-! ### Lists of pairs -/

theorem lookupD_setKey_same {α : Type} (d : α) (m : List (Nat × α)) (a : Nat) (v : α) :
    lookupD d (setKey m a v) a = v := by
  induction m with
  | nil => simp [setKey, lookupD]
  | cons c rest ih =>
    obtain ⟨k, w⟩ := c
    rcases lt_trichotomy a k with hak | rfl | hak
    · simp [setKey, hak, lookupD]
    · simp [setKey, lookupD]
    · simp [setKey, hak.not_gt, hak.ne', lookupD, ih]

theorem lookupD_setKey_other {α : Type} (d : α) (m : List (Nat × α)) {a b : Nat} (v : α) (h : b ≠ a) :
    lookupD d (setKey m a v) b = lookupD d m b := by
  induction m with
  | nil => simp [setKey, lookupD, h]
  | cons c rest ih =>
    obtain ⟨k, w⟩ := c
    rcases lt_trichotomy a k with hak | rfl | hak
    · simp [setKey, hak, lookupD, h]
    · simp [setKey, lookupD, h]
    · simp [setKey, hak.not_gt, hak.ne', lookupD, ih]

/-! ### Engine steps -/

@[simp] theorem engineSteps_zero (s : State) : engineSteps 0 s = s := rfl

theorem engineSteps_succ (k : Nat) (s : State) : engineSteps (k + 1) s = engineSteps k (engineStep s) := rfl

end Sys2Proof.Machine
end

