-- ==== Sys2Proof/Laws/Message.lean ====
section
/-! SUPPORT. What a step of a message command and the issue of a command can do, said once. -/

namespace Sys2Proof.Machine

/-! ### One block -/

theorem readBlock_env (m : MsgRun) (i : Nat) (s : State) : ∃ e, (readBlock m i s).2 = setEnv e s := by
  unfold readBlock
  dsimp only
  split
  · exact (busRead_spec _ _ s).1
  · split
    · exact (busRead_spec _ _ s).1
    · obtain ⟨e, he⟩ := (busRead_spec (s.latched.src.toNat + s.latched.len.toNat / ctxB s * ctxB s)
        (s.latched.len.toNat % ctxB s) s).1
      split
      · rename_i s1 heq
        exact ⟨e, by rw [← he, heq]⟩
      · rename_i d s1 heq
        obtain ⟨e', he'⟩ := (drawBytes_spec (randomCount s.ctx.pad (ctxB s) (s.latched.len.toNat % ctxB s)) s1).1
        have hs1 : s1 = setEnv e s := by rw [← he, heq]
        exact ⟨e', by show (drawBytes _ s1).2 = _; rw [he', hs1, setEnv_setEnv]⟩

theorem readCarried_env (m : MsgRun) (i : Nat) (s : State) : ∃ e, (readCarried m i s).2 = setEnv e s := by
  unfold readCarried
  split
  · split
    · exact ⟨s.env, rfl⟩
    · exact (busRead_spec _ _ s).1
  · exact ⟨s.env, rfl⟩

/-- A block step ends the command with BUS_ERROR, data memory as it was, or completes block i: what it read, what it
wrote at DST + i*B, and the registers of `completeBlock`. -/
theorem blockStep_cases (m : MsgRun) (l : Nat) (s : State) :
    (∃ e, blockStep m l s = raise .busError (opcode (msgInstr m.dir)) (setEnv e s)) ∨
    ∃ e x c y,
      blockStep m l s =
        completeBlock m l (nextBlock s m l) x c y
          (setMem (writeBytes s.mem (s.latched.dst.toNat + nextBlock s m l * ctxB s) y) (setEnv e s)) ∧
      (readBlock m (nextBlock s m l) s).1 = some x ∧
      (readCarried m (nextBlock s m l) (readBlock m (nextBlock s m l) s).2).1 = some c ∧
      y.length = (msgOutput s m (nextBlock s m l) x c).length ∧
      (s.raced = [] → y = msgOutput s m (nextBlock s m l) x c) := by
  obtain ⟨e1, h1⟩ := readBlock_env m (nextBlock s m l) s
  unfold blockStep
  dsimp only
  split
  · rename_i s1 heq
    exact .inl ⟨e1, by rw [← h1, heq]⟩
  · rename_i x s1 heq
    have hs1 : s1 = setEnv e1 s := by rw [← h1, heq]
    subst hs1
    obtain ⟨e2, h2⟩ := readCarried_env m (nextBlock s m l) (setEnv e1 s)
    split
    · rename_i s2 heq2
      exact .inl ⟨e2, by rw [show s2 = setEnv e2 (setEnv e1 s) by rw [← h2, heq2], setEnv_setEnv]⟩
    · rename_i c s2 heq2
      have hs2 : s2 = setEnv e2 s := by
        rw [show s2 = setEnv e2 (setEnv e1 s) by rw [← h2, heq2], setEnv_setEnv]
      subst hs2
      obtain ⟨⟨e3, h3⟩, hlen, hfree⟩ :=
        racedOutput_spec (msgOutput (setEnv e2 s) m (nextBlock s m l) x c) (setEnv e2 s)
      have h3' : (racedOutput (msgOutput (setEnv e2 s) m (nextBlock s m l) x c) (setEnv e2 s)).2 = setEnv e3 s := by
        rw [h3, setEnv_setEnv]
      obtain ⟨e4, h4⟩ :=
        busWrite_spec (s.latched.dst.toNat + nextBlock s m l * ctxB s)
          (racedOutput (msgOutput (setEnv e2 s) m (nextBlock s m l) x c) (setEnv e2 s)).1 (setEnv e3 s)
      rw [h3']
      simp only [setEnv_latched, show ctxB (setEnv e3 s) = ctxB s from rfl]
      split
      · rename_i s4 heq4
        rw [heq4] at h4
        exact .inl ⟨e4, by rw [show s4 = setEnv e4 s from h4]⟩
      · rename_i s4 heq4
        rw [heq4] at h4
        refine .inr ⟨e4, x, c, _, by rw [show s4 = _ from h4]; rfl, by rw [heq], by rw [heq]; exact by rw [heq2],
          hlen, fun hr => by rw [hfree hr]; rfl⟩

/-- A step of a message completes a block of a ready lane, or ends the message when none is left. -/
theorem msgStep_cases (m : MsgRun) (s : State) :
    (readyLanes s m = [] ∧ msgStep m s = finishMsg m s) ∨
    ∃ l e, l ∈ readyLanes s m ∧ msgStep m s = blockStep m l (setEnv e s) := by
  unfold msgStep
  split
  · rename_i h
    exact .inl ⟨h, rfl⟩
  · rename_i l rest h
    obtain ⟨⟨e, he⟩, hmem⟩ := drawLane_spec (l :: rest) s
    refine .inr ⟨(drawLane (l :: rest) s).1, e, ?_, by rw [← he]⟩
    rw [h]
    exact hmem (by simp)

/-- The end of a message is terminal, DONE or CANCELLED. -/
theorem finishMsg_cases (m : MsgRun) (s : State) :
    (m.inFlight = none ∧ ∃ n w, finishMsg m s =
      terminal .done (setOutLen n { s with status := { s.status with padWarn := s.status.padWarn || w } })) ∨
    (m.inFlight.isSome = true ∧ finishMsg m s = terminal .cancelled (setOutLen 0 s)) := by
  unfold finishMsg
  split
  · rename_i h
    refine .inl ⟨h, ?_⟩
    unfold joinMsg
    split
    · exact ⟨m.n * ctxB s, false, by simp⟩
    · exact ⟨_, _, rfl⟩
  · rename_i h
    exact .inr ⟨by simp [h], rfl⟩

/-! ### Slow commands -/

/-- The engine counts a slow command down to its last step. -/
theorem engineSteps_slow (cmd : SlowCmd) (k : Nat) (s : State) (h : s.seq = .slow cmd k) :
    engineSteps (k + 1) s = finishSlow cmd { s with seq := .slow cmd 0 } := by
  induction k generalizing s with
  | zero =>
    have hs : ({ s with seq := .slow cmd 0 } : State) = s := by cases s; cases h; rfl
    rw [hs, engineSteps_succ, engineSteps_zero]
    simp [engineStep, h, slowStep]
  | succ k ih =>
    rw [engineSteps_succ]
    have hstep : engineStep s = { s with seq := .slow cmd k } := by simp [engineStep, h, slowStep]
    rw [hstep, ih _ rfl]

/-- A command that was launched to end after `k` engine steps stands, `k` engine steps later, where its last part leaves
it; the sequencer held the command meanwhile. -/
theorem engineSteps_launch (cmd : SlowCmd) (k : Nat) (s : State) :
    engineSteps k (launch cmd (finishSlow cmd) k s) =
      finishSlow cmd (if k = 0 then s else { s with seq := .slow cmd 0 }) := by
  cases k with
  | zero => rfl
  | succ k => exact engineSteps_slow cmd k _ rfl

/-! ### The last step of a bit command -/

/-- BIT_GET ends DONE, RESULT the bit read, or any bit after a race. -/
theorem finishBitGet_cases (v : Bool) (s : State) :
    ∃ e b, finishBitGet v s = finishResult ((bit b).setWidth 32) (setEnv e s) ∧
      (s.raced = [] → b = v ∧ e = s.env) := by
  obtain ⟨⟨e, he⟩, -, hfree⟩ := racedOutput_spec [(bit v).setWidth 8] s
  refine ⟨e, ((racedOutput [(bit v).setWidth 8] s).1.getD 0 0).getLsbD 0, ?_, fun hr => ?_⟩
  · unfold finishBitGet
    simp only [he]
  · rw [hfree hr] at he ⊢
    exact ⟨by cases v <;> simp [bit], congrArg State.env he.symm⟩

/-- BIT_SET, BIT_CLR or BIT_TGL ends with BUS_ERROR, data memory as it was, or DONE with one byte written: `y`, or any
byte after a race. -/
theorem finishBitPut_cases (i : Instr) (a : Nat) (y : Byte) (s : State) :
    (∃ e, finishBitPut i a y s = raise .busError (opcode i) (setEnv e s)) ∨
    ∃ e z, finishBitPut i a y s = terminal .done (setMem (writeBytes s.mem a [z]) (setEnv e s)) ∧
      (s.raced = [] → z = y) := by
  obtain ⟨⟨e, he⟩, hlen, hfree⟩ := racedOutput_spec [y] s
  obtain ⟨z, hz⟩ := List.length_eq_one_iff.1 hlen
  obtain ⟨e', he'⟩ := busWrite_spec a [z] (setEnv e s)
  unfold finishBitPut
  simp only [he, hz]
  split
  · rename_i s2 h
    rw [h] at he'
    exact .inl ⟨e', by rw [show s2 = setEnv e' s from he']⟩
  · rename_i s2 h
    rw [h] at he'
    refine .inr ⟨e', z, by rw [show s2 = _ from he']; rfl, fun hr => ?_⟩
    rw [hfree hr] at hz
    exact (List.cons.inj hz).1.symm

/-! ### The reads of PERMUTE -/

/-- Looking at the rule changes the environment alone, and gives as many entries as were asked for. -/
theorem peekRule_spec (n a : Nat) (s : State) :
    (∃ e, (peekRule n a s).2 = setEnv e s) ∧ (peekRule n a s).1.length = n := by
  induction n generalizing a s with
  | zero => exact ⟨⟨s.env, rfl⟩, rfl⟩
  | succ n ih =>
    obtain ⟨⟨e, he⟩, -⟩ := readRaced_spec [a, a + 1] s
    obtain ⟨⟨e', he'⟩, hlen⟩ := ih (a + 2) (readRaced [a, a + 1] s).2
    refine ⟨⟨e', ?_⟩, congrArg (· + 1) hlen⟩
    show (peekRule n (a + 2) (readRaced [a, a + 1] s).2).2 = _
    rw [he', he, setEnv_setEnv]

/-- Reading the rule changes the environment alone, and gives as many entries as were asked for, whether or not every
access completed. -/
theorem readRule_spec (n a : Nat) (s : State) :
    (∃ e, (readRule n a s).2 = setEnv e s) ∧
      ∀ es, (readRule n a s).1 = .ok es ∨ (readRule n a s).1 = .error es → es.length = n := by
  induction n generalizing a s with
  | zero => exact ⟨⟨s.env, rfl⟩, fun es h => by rcases h with h | h <;> cases h; rfl⟩
  | succ n ih =>
    obtain ⟨⟨e, he⟩, -⟩ := busRead_spec a 2 s
    unfold readRule
    split
    · rename_i s1 h
      obtain ⟨⟨e', he'⟩, hlen⟩ := peekRule_spec (n + 1) a s1
      rw [show s1 = setEnv e s by rw [← he, h], setEnv_setEnv] at he'
      refine ⟨⟨e', by rw [show s1 = setEnv e s by rw [← he, h]]; exact he'⟩, fun es h => ?_⟩
      rcases h with h | h <;> cases h
      exact hlen
    · rename_i b s1 h
      obtain ⟨⟨e', he'⟩, hlen⟩ := ih (a + 2) s1
      have hs1 : s1 = setEnv e s := by rw [← he, h]
      rw [hs1, setEnv_setEnv] at he'
      split
      · rename_i es s2 h2
        refine ⟨⟨e', by rw [← he', ← hs1, h2]⟩, fun _ h => ?_⟩
        rcases h with h | h <;> cases h
        simp [hlen es (.inr (by rw [h2]))]
      · rename_i es s2 h2
        refine ⟨⟨e', by rw [← he', ← hs1, h2]⟩, fun _ h => ?_⟩
        rcases h with h | h <;> cases h
        simp [hlen es (.inl (by rw [h2]))]

/-- A read of PERMUTE that fails ends the command with BUS_ERROR where every entry is in range, else with
INCONSISTENT_ARGUMENTS, and nothing written. -/
theorem permuteReadFailed_cases (num : Numbering) (rule : List Nat) (s : State) :
    ((∀ e ∈ rule, locate s.latched.len.toNat e num ≠ none) ∧
      permuteReadFailed num rule s = raise .busError (opcode (.permute num)) s) ∨
    ((∃ e ∈ rule, locate s.latched.len.toNat e num = none) ∧
      permuteReadFailed num rule s = raise .inconsistentArguments (opcode (.permute num)) s) := by
  unfold permuteReadFailed
  dsimp only
  split
  · rename_i h
    exact .inl ⟨fun e he => Option.isSome_iff_ne_none.1 (List.all_eq_true.1 h e he), rfl⟩
  · rename_i h
    exact .inr ⟨by simpa using h, rfl⟩

/-! ### Output freed by a race -/

/-- Freeing a block changes its bytes, the environment and the lane registers alone. -/
theorem freeBlock_spec (l i : Nat) (s : State) :
    ∃ y e ls, y.length = ctxB s ∧
      freeBlock l i s =
        { s with
          mem := writeBytes s.mem (s.latched.dst.toNat + i * ctxB s) y
          env := e
          dp := { s.dp with lanes := ls } } := by
  obtain ⟨⟨e, he⟩, hlen⟩ := drawBytes_spec (ctxB s) s
  exact ⟨_, e, _, hlen, by unfold freeBlock; dsimp only; rw [he]; rfl⟩

/-- What freeing some blocks, `blocks` among them all, leaves as it was. -/
theorem freeLane_spec (w l k : Nat) (s : State) :
    ∃ mem e ls,
      freeLane w l k s = { s with mem := mem, env := e, dp := { s.dp with lanes := ls } } ∧
      (memoryWf s.mem = true → memoryWf mem = true) ∧
      ∀ x, (∀ j, j < k →
          x < s.latched.dst.toNat + (l + w * j) * ctxB s ∨ s.latched.dst.toNat + (l + w * j) * ctxB s + ctxB s ≤ x) →
        readByte mem x = readByte s.mem x := by
  induction k with
  | zero => exact ⟨s.mem, s.env, s.dp.lanes, rfl, id, fun _ _ => rfl⟩
  | succ k ih =>
    obtain ⟨mem, e, ls, h, hwf, hout⟩ := ih
    obtain ⟨y, e', ls', hy, h'⟩ := freeBlock_spec l (l + w * k) (freeLane w l k s)
    rw [h] at h' hy
    refine ⟨_, e', ls', by rw [freeLane, h, h'], fun hm => memoryWf_writeBytes (hwf hm) _ _, fun x hx => ?_⟩
    have hb : y.length = ctxB s := hy
    rw [readByte_writeBytes_outside _ _ _ (by rw [hb]; exact hx k (Nat.lt_succ_self k)),
      hout x fun j hj => hx j (hj.trans (Nat.lt_succ_self k))]

/-- A race changes, of a message's state, the blocks written already, the environment and the lane registers alone. -/
theorem freeWritten_spec (m : MsgRun) (s : State) :
    ∃ mem e ls,
      freeWritten m s = { s with mem := mem, env := e, dp := { s.dp with lanes := ls } } ∧
      (memoryWf s.mem = true → memoryWf mem = true) ∧
      ∀ x, (∀ c ∈ m.counts, ∀ j, j < c.2 →
          x < s.latched.dst.toNat + (c.1 + runWidth s m * j) * ctxB s ∨
            s.latched.dst.toNat + (c.1 + runWidth s m * j) * ctxB s + ctxB s ≤ x) →
        readByte mem x = readByte s.mem x := by
  suffices h : ∀ (cs : List (Nat × Nat)) (w : Nat) (t : State), ∃ mem e ls,
      cs.foldl (fun t c => freeLane w c.1 c.2 t) t = { t with mem := mem, env := e, dp := { t.dp with lanes := ls } } ∧
      (memoryWf t.mem = true → memoryWf mem = true) ∧
      ∀ x, (∀ c ∈ cs, ∀ j, j < c.2 →
          x < t.latched.dst.toNat + (c.1 + w * j) * ctxB t ∨
            t.latched.dst.toNat + (c.1 + w * j) * ctxB t + ctxB t ≤ x) →
        readByte mem x = readByte t.mem x from h m.counts (runWidth s m) s
  intro cs w
  induction cs with
  | nil => exact fun t => ⟨t.mem, t.env, t.dp.lanes, rfl, id, fun _ _ => rfl⟩
  | cons c cs ih =>
    intro t
    obtain ⟨mem, e, ls, h, hwf, hout⟩ := freeLane_spec w c.1 c.2 t
    obtain ⟨mem', e', ls', h', hwf', hout'⟩ := ih (freeLane w c.1 c.2 t)
    rw [h] at h' hwf' hout'
    refine ⟨mem', e', ls', by rw [List.foldl_cons, h, h'], fun hm => hwf' (hwf hm), fun x hx => ?_⟩
    rw [hout' x fun d hd => hx d (List.mem_cons_of_mem c hd)]
    exact hout x (hx c List.mem_cons_self)

/-! ### The last step of CONFIGURE and REKEY -/

theorem configureBody_cases (s : State) :
    (∃ e, cfgCheck s.params s.latched = .error e ∧ configureBody s = raise e (opcode .configure) s) ∨
    ∃ c, cfgCheck s.params s.latched = .ok c ∧
      configureBody s =
        terminal .done { s with ctx := c, status := { s.status with keyed := true, configured := true } } := by
  unfold configureBody
  split
  · rename_i e h
    exact .inl ⟨e, h, rfl⟩
  · rename_i c h
    exact .inr ⟨c, h, rfl⟩

theorem rekeyBody_cases (s : State) :
    (s.status.keyed = false ∧ rekeyBody s = raise .notKeyed (opcode .rekey) s) ∨
    (s.status.keyed = true ∧ adjust s.ctx.alg s.latched.keyLen.toNat (keyBytes s.latched) = none ∧
      rekeyBody s = raise .keyTooShort (opcode .rekey) s) ∨
    ∃ k, s.status.keyed = true ∧ adjust s.ctx.alg s.latched.keyLen.toNat (keyBytes s.latched) = some k ∧
      rekeyBody s = terminal .done { s with ctx := { s.ctx with key := k, rkt := schedule s.params s.ctx.alg k } } := by
  unfold rekeyBody
  split
  · rename_i h
    exact .inl ⟨h, rfl⟩
  · rename_i h
    have hk : s.status.keyed = true := by simpa using h
    split
    · rename_i ha
      exact .inr (.inl ⟨hk, ha, rfl⟩)
    · rename_i k ha
      exact .inr (.inr ⟨k, hk, ha, rfl⟩)

end Sys2Proof.Machine
end

