-- ==== Sys2Proof/Laws/HostAccess.lean ====
section
/-! SUPPORT. What a host access to data memory can do, said once. -/

namespace Sys2Proof.Machine

/-- The input bytes of the running command among those a host write stored. -/
def hitInputs (a n : Nat) (s : State) : List Nat := ((List.range n).map (a + ·)).filter (isInput s)

theorem mem_hitInputs {a n x : Nat} {s : State} :
    x ∈ hitInputs a n s ↔ a ≤ x ∧ x < a + n ∧ isInput s x = true := by
  simp only [hitInputs, List.mem_filter, List.mem_map, List.mem_range]
  constructor
  · rintro ⟨⟨k, hk, rfl⟩, h⟩
    exact ⟨by omega, by omega, h⟩
  · rintro ⟨h1, h2, h⟩
    exact ⟨⟨x - a, by omega, by omega⟩, h⟩

/-- Where no input byte is hit, nothing is raced; else the bytes hit are, and the output written so far is freed. -/
theorem raceInputs_cases (a n : Nat) (s : State) :
    (hitInputs a n s = [] ∧ raceInputs a n s = s) ∨
    (hitInputs a n s ≠ [] ∧ raceInputs a n s = freeOutput { s with raced := s.raced ++ hitInputs a n s }) := by
  unfold raceInputs
  split
  · rename_i h
    exact .inl ⟨h, rfl⟩
  · rename_i h
    exact .inr ⟨h, rfl⟩

/-- Freeing the output written so far changes data memory, the environment and the lane registers alone, and does so
only for a message. -/
theorem freeOutput_spec (s : State) :
    ∃ mem e ls,
      freeOutput s = { s with mem := mem, env := e, dp := { s.dp with lanes := ls } } ∧
      (memoryWf s.mem = true → memoryWf mem = true) ∧
      ((∀ m, s.seq ≠ .msg m) → freeOutput s = s) := by
  unfold freeOutput
  split
  · rename_i m h
    obtain ⟨mem, e, ls, hs, hwf, -⟩ := freeWritten_spec m s
    exact ⟨mem, e, ls, hs, hwf, fun hn => absurd h (hn m)⟩
  all_goals exact ⟨s.mem, s.env, s.dp.lanes, rfl, id, fun _ => rfl⟩

/-- A read changes the environment alone and returns as many bytes as were asked for. -/
theorem observed_spec (a : Nat) (bytes : List Byte) (s : State) :
    (∃ e, (observed a bytes s).2 = setEnv e s) ∧ (observed a bytes s).1.length = bytes.length := by
  unfold observed
  split
  · rename_i x y k h
    split
    · obtain ⟨e, he⟩ := drawChoice_spec s
      dsimp only
      split
      · exact ⟨⟨e, he⟩, rfl⟩
      · obtain ⟨⟨e', he'⟩, -⟩ := racedOutput_spec [y] (drawChoice s).2
        exact ⟨⟨e', by rw [he', he, setEnv_setEnv]⟩, List.length_set⟩
    · exact ⟨⟨s.env, rfl⟩, rfl⟩
  all_goals exact ⟨⟨s.env, rfl⟩, rfl⟩

/-- Where no bit command is about to write a byte back, a read returns what data memory holds. -/
theorem observed_of_noBitPut {s : State} (h : ∀ i x y k, s.seq ≠ .slow (.bitPut i x y) k) (a : Nat)
    (bytes : List Byte) : observed a bytes s = (bytes, s) := by
  unfold observed
  split
  · rename_i i x y k hs
    exact absurd hs (h i x y k)
  all_goals rfl

end Sys2Proof.Machine
end

