-- ==== Sys2Proof/Laws/PerInstr.lean ====
section
/-! SUPPORT. The family EncodingLegal: the fields of every command's word pass the checks of a legal word
(30_encoding.md R51, R58). -/

namespace Sys2Proof.Laws.EncodingLegal

/-- A command's fields are well formed, and NUM is used exactly by the five opcodes of R53 that name it. -/
def Statement (i : Instr) : Prop :=
  (encodeFields i).wellFormed = true ∧
    ((encodeFields i).op ∈ CmdFields.numOpcodes ↔ 0x30 ≤ (opcode i).toNat ∧ (opcode i).toNat ≤ 0x34)

theorem nop : Statement .nop := ⟨by decide, by decide⟩
theorem configure : Statement .configure := ⟨by decide, by decide⟩
theorem rekey : Statement .rekey := ⟨by decide, by decide⟩
theorem ack : Statement .ack := ⟨by decide, by decide⟩
theorem cancel : Statement .cancel := ⟨by decide, by decide⟩
theorem blkEnc : Statement .blkEnc := ⟨by decide, by decide⟩
theorem blkDec : Statement .blkDec := ⟨by decide, by decide⟩
theorem msgEnc : Statement .msgEnc := ⟨by decide, by decide⟩
theorem msgDec : Statement .msgDec := ⟨by decide, by decide⟩
theorem bitGet (num : Numbering) : Statement (.bitGet num) := by cases num <;> exact ⟨by decide, by decide⟩
theorem bitSet (num : Numbering) : Statement (.bitSet num) := by cases num <;> exact ⟨by decide, by decide⟩
theorem bitClr (num : Numbering) : Statement (.bitClr num) := by cases num <;> exact ⟨by decide, by decide⟩
theorem bitTgl (num : Numbering) : Statement (.bitTgl num) := by cases num <;> exact ⟨by decide, by decide⟩
theorem permute (num : Numbering) : Statement (.permute num) := by cases num <;> exact ⟨by decide, by decide⟩
theorem gfMul : Statement .gfMul := ⟨by decide, by decide⟩
theorem gfIrred : Statement .gfIrred := ⟨by decide, by decide⟩
theorem padSet : Statement .padSet := ⟨by decide, by decide⟩
theorem padClr : Statement .padClr := ⟨by decide, by decide⟩

end Sys2Proof.Laws.EncodingLegal
end

