-- ==== Sys2Proof/Tests/Slice0.lean ====
section
/-! SUPPORT. Tests of the model: well-formedness, decoding of words written out from 30_encoding.md R53, one-step tests
whose expected results are the spec's own examples, and a witness for the hypotheses of every statement. -/

open Sys2Proof Sys2Proof.Machine Sys2Proof.Claim

namespace Sys2Proof.Test

/-! ### Helpers -/

/-- An engine with 2 lanes and 1024 bytes of data memory, initialised, nothing configured. -/
def ready : State :=
  { State.reset with
    params := { lanes := 2, memSize := 1024, dealKsKey := dealKsKeyDefault, magentaF255 := magentaF255Default }
    status := { Status.reset with engine := .idle, initDone := true }
    ftab := ftabGenerated magentaF255Default
    seq := .idle
    env := { bus := List.replicate 10 true, bytes := [], choices := [0], taken := 0 } }

/-- A field of the next state of an outcome. -/
def after {α : Type} (o : Host.Outcome State Fault Refusal) (f : State → α) : Option α :=
  match o with
  | .next t => some (f t)
  | .fault _ | .refused _ => none

/-- `s` with a buffer at address 0x40 and the operand registers of a bit command on it. -/
def withBuffer (bytes : List Byte) (idx : Nat) (s : State) : State :=
  { s with
    mem := writeBytes [] 0x40 bytes
    ops := { s.ops with src := 0x40, len := BitVec.ofNat 32 bytes.length, bitIdx := BitVec.ofNat 32 idx } }

/-- The DES key of 43_feistel.md R98's example. -/
def desKey : List Byte := [0x13, 0x34, 0x57, 0x79, 0x9B, 0xBC, 0xDF, 0xF1]

/-- The context of a cipher under a key, in ECB. -/
def contextOf (alg : Cipher) (key : List Byte) (pad : Padding) : Context :=
  { alg := alg, key := key, rkt := schedule ready.params alg key, mode := .ecb, pad := pad, iv := none, delta := none }

/-- `ready` with a context. -/
def keyed (c : Context) : State :=
  { ready with ctx := c, status := { ready.status with keyed := true, configured := true } }

/-- `ready` with DES, ECB and PKCS7. -/
def desReady : State := keyed (contextOf .des desKey .pkcs7)

/-- `ready` with a 16-byte block cipher and a padding, the key schedule never needed. -/
def wideReady (pad : Padding) : State := keyed (contextOf .magenta (zeros 16) pad)

/-- `s` with a 16-byte block input. -/
def withBlock (b : List Byte) (s : State) : State := { s with ops := { s.ops with blkIn := packBytes 128 b } }

/-- `s` with the operand registers of a message command. -/
def withMessage (src dst len : Nat) (s : State) : State :=
  { s with
    ops :=
      { s.ops with src := BitVec.ofNat 32 src, dst := BitVec.ofNat 32 dst, len := BitVec.ofNat 32 len } }

/-- `s` with one host access to come. -/
def withHost (op : HostOp) (s : State) : State := { s with host := [op] }

/-- The configuration registers of 46_modes.md R121's example, but for the IV's length. -/
def withConfig (ivLen : Byte) (s : State) : State :=
  { s with
    ops :=
      { s.ops with
        alg := 0, mode := 1, padding := 3, keyLen := 8, ivLen := ivLen
        key := packBytes 256 [0x01, 0x23, 0x45, 0x67, 0x89, 0xAB, 0xCD, 0xEF]
        iv := packBytes 128 [0x12, 0x34, 0x56, 0x78, 0x90, 0xAB, 0xCD, 0xEF] } }

/-- A DES message of three blocks in ECB under PKCS7 after `done` blocks of lane 0: 20 bytes from 0x100 to 0x200. -/
def running (done : List (Nat × Nat)) (doneBlocks : Nat) (flight : Option (List Nat)) : State :=
  { desReady with
    status := { desReady.status with engine := .busy, cancelPending := flight.isSome }
    latched := { Operands.reset with src := 0x100, dst := 0x200, len := 20 }
    out := { Outputs.reset with totalBlocks := 3, doneBlocks := BitVec.ofNat 32 doneBlocks }
    dp := { Datapath.reset with chainP := zeros 8 }
    seq := .msg { dir := .encrypt, n := 3, counts := done, inFlight := flight } }

/-- A slow command with `left` steps before its last one. -/
def slow (cmd : SlowCmd) (left : Nat) (s : State) : State :=
  { s with
    status := { s.status with engine := .busy, keyed := false, configured := false }, seq := .slow cmd left }

/-! ### Well-formedness (30_encoding.md R58) -/

/-- OP = 0x99 is not listed. -/
theorem test_wellFormed_unlisted_opcode : CmdFields.wellFormed { op := 0x99, num := 0, res := 0 } = false := by decide

/-- RES is not 0. -/
theorem test_wellFormed_reserved_bits : CmdFields.wellFormed { op := 0x30, num := 1, res := 1 } = false := by decide

/-- NUM is not 0 for BLK_ENC, which does not use it. -/
theorem test_wellFormed_num_not_used : CmdFields.wellFormed { op := 0x10, num := 1, res := 0 } = false := by decide

/-- BIT_GET.MSB1 is well-formed. -/
theorem test_wellFormed_accepts : CmdFields.wellFormed { op := 0x30, num := 3, res := 0 } = true := by decide

/-! ### Decoding (30_encoding.md R53), one word for every constructor -/

theorem test_decode_nop : decode 0b00000000000000000000000000000000 = .ok .nop := by decide
theorem test_decode_configure : decode 0b00000000000000000000000000000001 = .ok .configure := by decide
theorem test_decode_rekey : decode 0b00000000000000000000000000000010 = .ok .rekey := by decide
theorem test_decode_ack : decode 0b00000000000000000000000000000011 = .ok .ack := by decide
theorem test_decode_cancel : decode 0b00000000000000000000000000000100 = .ok .cancel := by decide
theorem test_decode_blkEnc : decode 0b00000000000000000000000000010000 = .ok .blkEnc := by decide
theorem test_decode_blkDec : decode 0b00000000000000000000000000010001 = .ok .blkDec := by decide
theorem test_decode_msgEnc : decode 0b00000000000000000000000000100000 = .ok .msgEnc := by decide
theorem test_decode_msgDec : decode 0b00000000000000000000000000100001 = .ok .msgDec := by decide
theorem test_decode_bitGet : decode 0b00000000000000000000000000110000 = .ok (.bitGet .lsb0) := by decide
theorem test_decode_bitSet : decode 0b00000000000000000000000100110001 = .ok (.bitSet .lsb1) := by decide
theorem test_decode_bitClr : decode 0b00000000000000000000001000110010 = .ok (.bitClr .msb0) := by decide
theorem test_decode_bitTgl : decode 0b00000000000000000000001100110011 = .ok (.bitTgl .msb1) := by decide
theorem test_decode_permute : decode 0b00000000000000000000001100110100 = .ok (.permute .msb1) := by decide
theorem test_decode_gfMul : decode 0b00000000000000000000000001000000 = .ok .gfMul := by decide
theorem test_decode_gfIrred : decode 0b00000000000000000000000001000001 = .ok .gfIrred := by decide
theorem test_decode_padSet : decode 0b00000000000000000000000001010000 = .ok .padSet := by decide
theorem test_decode_padClr : decode 0b00000000000000000000000001010001 = .ok .padClr := by decide

/-- A table row's word through the decoder. -/
theorem test_decodeTableWord : decodeTableWord 32 0x331 = some (.bitSet .msb1) := by decide

/-- The step after `withFetchWord` runs the command: right after reset GF_IRRED runs and is not dropped. -/
theorem test_withFetchWord_runs :
    after (step (State.reset.withFetchWord 32 0x41)) (fun t => (t.status.engine, t.status.cmdDropped)) =
      some (.done, false) := by
  rfl

/-! ### Memory -/

theorem test_reset_memory_canonical : memoryWf State.reset.mem = true := by decide

/-- Writing the power-on byte over a stored one removes the entry. -/
theorem test_write_keeps_canonical_form : writeByte (writeByte [] 5 7) 5 0 = [] := by decide

/-! ### The window (10_state.md R15, R16) -/

/-- KEY[31] is bits [31:24] of the word at 0x09C. -/
theorem test_key_packing :
    arrByte (writeReg (regAt 0x09C) 0xAB000000 ready).ops.key 31 = 0xAB := by decide

/-- STATUS right after reset reads BUSY alone. -/
theorem test_status_after_reset : readReg State.reset (regAt 0x008) = 1 := by decide

/-! ### System commands -/

/-- A second word while BUSY is dropped (30_encoding.md R61). -/
theorem test_dropped_while_busy :
    after (step (withHost (.regWrite (.offset 4) .bits32 0x40) (running [] 0 none)))
      (fun t => (t.status.cmdDropped, t.out.result)) = some (true, 0) := by
  decide

/-- 95_test_vectors.md P5: the word 0x110 ends FAILED with ERROR = 0x00100550. -/
theorem test_illegal_word :
    after (step (withHost (.regWrite (.offset 4) .bits32 0x110) ready))
      (fun t => (t.status.engine, readReg t (regAt 0x00C))) = some (.failed, 0x00100550) := by
  decide

/-- NOP before INIT_DONE is not dropped (46_modes.md R133). -/
theorem test_nop_before_init :
    after (step (withHost (.regWrite (.offset 4) .bits32 0) State.reset)) (fun t => t.status.cmdDropped) =
      some false := by
  rfl

/-- ACK after a failure: IDLE, ERROR = 0, IRQ_STATUS kept (46_modes.md R132). -/
theorem test_ack :
    after (exec .ack (raise .overlap 0x20 ready)) (fun t => (t.status.engine, readReg t .error, t.irqTerminal)) =
      some (.idle, 0, true) := by
  decide

/-- CANCEL of a running message with no block in flight (46_modes.md R131). -/
theorem test_cancel :
    after (exec .cancel (running [] 0 none))
      (fun t => (t.status.cancelPending, (engineStep t).status.engine, (engineStep t).out.outLen)) =
      some (true, .cancelled, 0) := by
  decide

/-- 46_modes.md R121's example: DONE, KEYED = CONFIGURED = 1, BLKLEN = 8. -/
theorem test_configure :
    after (exec .configure (withConfig 8 ready)) (fun t => (t.status.engine, t.status.keyed, readReg t .blkLen)) =
      some (.done, true, 8) := by
  decide

/-- The same with IVLEN = 16 fails IV_WRONG_LENGTH, code 0x06. -/
theorem test_configure_wrong_iv :
    after (exec .configure (withConfig 16 ready))
      (fun t => (t.status.engine, (readReg t .error).extractLsb' 0 8, t.status.configured)) =
      some (.failed, 0x06, false) := by
  decide

/-- REKEY with KEYLEN = 9 under DES keeps 8 bytes and marks the first one (42_key_schedules.md R82, R90). -/
theorem test_rekey_marks_long_key :
    after (exec .rekey { desReady with ops := { desReady.ops with keyLen := 9, key := packBytes 256 (zeros 32) } })
      (fun t => (t.status.engine, t.ctx.key)) = some (.done, [0x80, 0, 0, 0, 0, 0, 0, 0]) := by
  decide

/-! ### Bits, permutation, GF(2^8), padding: the examples of 40, 41 and 45 -/

theorem test_bitGet :
    after (exec (.bitGet .msb0) (withBuffer [0xC0, 0x01] 1 ready)) (fun t => t.out.result) = some 1 := by
  decide

theorem test_bitSet :
    after (exec (.bitSet .msb0) (withBuffer [0xC0, 0x01] 3 ready)) (fun t => readBytes t.mem 0x40 2) =
      some [0xD0, 0x01] := by
  decide

theorem test_bitClr :
    after (exec (.bitClr .lsb0) (withBuffer [0xD0, 0x01] 0 ready)) (fun t => readBytes t.mem 0x40 2) =
      some [0xD0, 0x00] := by
  decide

theorem test_bitTgl :
    after (exec (.bitTgl .lsb1) (withBuffer [0xC0, 0x01] 16 ready)) (fun t => readBytes t.mem 0x40 2) =
      some [0x40, 0x01] := by
  decide

/-- BITIDX = 0 under an origin-1 numbering fails with INCONSISTENT_ARGUMENTS (R66). -/
theorem test_bitGet_out_of_range :
    after (exec (.bitGet .lsb1) (withBuffer [0xC0, 0x01] 0 ready)) (fun t => t.error) =
      some (some { code := .inconsistentArguments, op := 0x30 }) := by
  decide

/-- R71's example: C1 0F under the rule 1, 2, 3, 4, 13, 14, 15, 16 in MSB-1 gives CF. -/
def permuteReady : State :=
  { ready with
    mem := writeBytes (writeBytes [] 0x40 [0xC1, 0x0F]) 0x80 [1, 0, 2, 0, 3, 0, 4, 0, 13, 0, 14, 0, 15, 0, 16, 0]
    ops := { ready.ops with src := 0x40, len := 2, ruleAddr := 0x80, ruleLen := 8, dst := 0xC0 } }

theorem test_permute :
    after (exec (.permute .msb1) permuteReady) (fun t => (t.status.engine, readBytes t.mem 0xC0 1)) =
      some (.done, [0xCF]) := by
  decide

theorem test_gfMul :
    after (exec .gfMul { ready with ops := { ready.ops with gfArg := 0x1BCA53 } }) (fun t => t.out.result) =
      some 0x01 := by
  decide

theorem test_gfIrred :
    after (exec .gfIrred { ready with ops := { ready.ops with gfArg := 0x650000 } }) (fun t => t.out.result) =
      some 1 := by
  decide

/-- R118's example under ANSI X9.23. -/
theorem test_padSet :
    after (exec .padSet (withBlock ([0x41, 0x42, 0x43] ++ List.replicate 13 0xEE) { wideReady .ansiX923 with
        ops := { ready.ops with padUsed := 3 } }))
      (fun t => arrBytes 16 t.out.blkOut) = some ([0x41, 0x42, 0x43] ++ zeros 12 ++ [0x0D]) := by
  decide

/-- R119's example: a block that ends in 0x11 gives RESULT = 0 and PAD_WARN = 1. -/
theorem test_padClr :
    after (exec .padClr (withBlock (List.replicate 16 0x11) (wideReady .pkcs7)))
      (fun t => (t.out.result, t.status.padWarn, t.out.blkOut)) = some (0, true, 0) := by
  decide

/-! ### Ciphers and messages: the examples of 42, 43, 44 and 46 -/

/-- R104's example. -/
theorem test_blkEnc :
    after (exec .blkEnc (withBlock [0x01, 0x23, 0x45, 0x67, 0x89, 0xAB, 0xCD, 0xEF] desReady))
      (fun t => arrBytes 16 t.out.blkOut) =
      some ([0x85, 0xE8, 0x13, 0x54, 0x0F, 0x0A, 0xB4, 0x05] ++ zeros 8) := by
  decide +kernel

/-- R105's example. -/
theorem test_blkDec :
    after (exec .blkDec (withBlock [0x8C, 0xA6, 0x4D, 0xE9, 0xC1, 0xB1, 0x23, 0xA7]
        (keyed (contextOf .des (zeros 8) .noPadding))))
      (fun t => t.out.blkOut) = some 0 := by
  decide +kernel

/-- R83's example: K1 of the key 13 34 57 79 9B BC DF F1. -/
theorem test_desKs : (desKs desKey).head? = some [0x1B, 0x02, 0xEF, 0xFC, 0x70, 0x72] := by decide

/-- R101's example of Pi. -/
theorem test_magentaPi :
    magPi (ftabGenerated 0) [0, 1, 2, 3, 4, 5, 6, 7, 8, 9, 10, 11, 12, 13, 14, 15] =
      [0xFF, 0xCA, 0xC6, 0x87, 0x76, 0xC9, 0x6C, 0x08, 0x0D, 0xE3, 0x05, 0x4B, 0x16, 0x32, 0xE5, 0xE7] := by
  decide +kernel

/-- R109's example. -/
theorem test_slice : slice (sbox 0) ⟨1, 0, 0, 0⟩ = ⟨0xFFFFFFFE, 0xFFFFFFFE, 0, 1⟩ := by decide

/-- R110's example. -/
theorem test_linear :
    linear ⟨0x01234567, 0x89ABCDEF, 0xFEDCBA98, 0x76543210⟩ = ⟨0x835D3BD5, 0x2FC5F218, 0xC97FDBC8, 0xEB73FBE2⟩ := by
  decide

/-- 41 42 43 under PKCS7 is one block (46_modes.md R122, R127). -/
theorem test_msgEnc :
    after (exec .msgEnc (withMessage 0x100 0x200 3 desReady))
      (fun t => (t.status.engine, t.out.totalBlocks, t.seq)) =
      some (.busy, 1, .msg { dir := .encrypt, n := 1, counts := [], inFlight := none }) := by
  decide

/-- A ciphertext of 9 bytes is refused with CIPHERTEXT_LENGTH, code 0x21. -/
theorem test_msgDec_length :
    after (exec .msgDec (withMessage 0x100 0x200 9 desReady)) (fun t => (readReg t .error).extractLsb' 0 8) =
      some 0x21 := by
  decide

/-! ### Witnesses for the hypotheses of the statements -/

theorem ready_accepts : CanAccept ready := ⟨rfl, by decide⟩

theorem desReady_accepts : CanAccept desReady := ⟨rfl, by decide⟩

theorem contextOf_ok (alg : Cipher) (key : List Byte) (pad : Padding) (h : key.length ∈ keySizes alg) :
    ContextOk ready.params (contextOf alg key pad) where
  key_size := h
  rkt_eq := rfl
  iv_absent := fun _ => rfl
  iv_present := fun h => absurd rfl h
  delta_ctr := fun h => Mode.noConfusion h
  delta_rd := fun h => Mode.noConfusion h
  delta_absent := fun _ _ => rfl

/-- A write of `w` to CMD, next, in state `s`. -/
def cmd (w : Word) (s : State) : State := withHost (.regWrite (.offset 4) .bits32 w) s

theorem witness_IllegalWordEndsFailed :
    ((∃ e, decode 0x99 = .error e) ∧ (∃ e, decode 0x430 = .error e) ∧ ∃ e, decode 0x110 = .error e) ∧
    CanAccept (cmd 0x110 ready) ∧ (cmd 0x110 ready).status.cancelPending = false ∧
    (cmd 0x110 ready).seq = .idle ∧ windowOffset (.offset 4) = some 0x004 ∧
    (cmd 0x110 ready).host = .regWrite (.offset 4) .bits32 0x110 :: [] :=
  ⟨⟨⟨_, rfl⟩, ⟨_, rfl⟩, ⟨_, rfl⟩⟩, ⟨rfl, by decide⟩, rfl, rfl, rfl, rfl⟩

theorem witness_StepRunsTheDecodedCommand :
    decode 0x40 = .ok .gfMul ∧ windowOffset (.offset 4) = some 0x004 ∧
    (cmd 0x40 ready).host = .regWrite (.offset 4) .bits32 0x40 :: [] := ⟨rfl, rfl, rfl⟩

theorem witness_NopHasNoEffect :
    windowOffset (.offset 4) = some 0x004 ∧
    (cmd 0 State.reset).host = .regWrite (.offset 4) .bits32 0 :: [] := ⟨rfl, rfl⟩

theorem witness_UnacceptableWordsAreDropped_init :
    (cmd 4 State.reset).host = .regWrite (.offset 4) .bits32 4 :: [] ∧
    (cmd 4 State.reset).status.initDone = false ∧ (4 : Word) ≠ 0 := ⟨rfl, rfl, by decide⟩

theorem witness_UnacceptableWordsAreDropped_busy :
    (cmd 0x99 (running [] 0 none)).host = .regWrite (.offset 4) .bits32 0x99 :: [] ∧
    (cmd 0x99 (running [] 0 none)).status.engine = .busy ∧ (0x99 : Word) ≠ 0 ∧ (0x99 : Word) ≠ 4 :=
  ⟨rfl, rfl, by decide, by decide⟩

theorem witness_AckReturnsToIdle : CanAccept ready ∧ ¬ CanAccept (running [] 0 none) :=
  ⟨ready_accepts, fun h => h.2 rfl⟩

theorem witness_CancelEffect_nothing_runs :
    ready.status.initDone = true ∧ ready.status.engine ≠ .busy := ⟨rfl, by decide⟩

theorem witness_CancelEffect_pending :
    (running [] 0 (some [0])).status.initDone = true ∧ (running [] 0 (some [0])).status.engine = .busy ∧
    (running [] 0 (some [0])).status.cancelPending = true := ⟨rfl, rfl, rfl⟩

theorem witness_CancelEffect_slow :
    (slow .rekey 1 ready).status.initDone = true ∧ (slow .rekey 1 ready).status.engine = .busy ∧
    (slow .rekey 1 ready).status.cancelPending = false ∧ ∀ m, (slow .rekey 1 ready).seq ≠ .msg m :=
  ⟨rfl, rfl, rfl, fun _ h => Sequencer.noConfusion h⟩

theorem witness_CancelEffect_message :
    (running [] 0 none).status.initDone = true ∧ (running [] 0 none).status.engine = .busy ∧
    (running [] 0 none).status.cancelPending = false ∧ ∃ m, (running [] 0 none).seq = .msg m :=
  ⟨rfl, rfl, rfl, _, rfl⟩


theorem control_running (done : List (Nat × Nat)) (k : Nat) (f : Option (List Nat)) :
    ControlInv (running done k f) where
  busy_iff_running := ⟨fun _ h => Sequencer.noConfusion h, fun _ => rfl⟩
  init_iff := ⟨fun h => Bool.noConfusion h, fun ⟨_, h⟩ => Sequencer.noConfusion h⟩
  error_iff_failed := ⟨fun h => Bool.noConfusion h, fun h => EngineState.noConfusion h⟩
  keyed_eq_configured := rfl
  cancel_only_busy := fun _ => ⟨rfl, rfl⟩
  cancel_iff_inFlight := fun m h => by cases h; exact Iff.rfl
  msg_configured := fun _ _ => rfl
  configure_unkeyed := fun _ h => Sequencer.noConfusion h

theorem witness_EveryCommandEnds :
    ControlInv (running [(0, 1)] 1 none) ∧ (running [(0, 1)] 1 none).status.engine = .busy :=
  ⟨control_running _ _ _, rfl⟩

theorem witness_NoCommandWritesAHostRegister : ∃ t, exec .gfIrred ready = .next t := ⟨_, rfl⟩

theorem witness_OnlyConfigureAndRekeyChangeTheContext :
    ∃ t, step (slow .configure 0 { ready with latched := (withConfig 8 ready).ops }) = .next t ∧
      t.ctx ≠ (slow .configure 0 { ready with latched := (withConfig 8 ready).ops }).ctx :=
  ⟨_, rfl, fun h => absurd (congrArg Context.mode h) (by decide)⟩

theorem control_ready : ControlInv ready where
  busy_iff_running := ⟨fun h => EngineState.noConfusion h, fun h => absurd rfl h⟩
  init_iff := ⟨fun h => Bool.noConfusion h, fun ⟨_, h⟩ => Sequencer.noConfusion h⟩
  error_iff_failed := ⟨fun h => Bool.noConfusion h, fun h => EngineState.noConfusion h⟩
  keyed_eq_configured := rfl
  cancel_only_busy := fun h => Bool.noConfusion h
  cancel_iff_inFlight := fun _ h => Sequencer.noConfusion h
  msg_configured := fun _ h => Sequencer.noConfusion h
  configure_unkeyed := fun _ h => Sequencer.noConfusion h

theorem control_withHost (op : HostOp) {s : State} (h : ControlInv s) : ControlInv (withHost op s) where
  busy_iff_running := h.busy_iff_running
  init_iff := h.init_iff
  error_iff_failed := h.error_iff_failed
  keyed_eq_configured := h.keyed_eq_configured
  cancel_only_busy := h.cancel_only_busy
  cancel_iff_inFlight := h.cancel_iff_inFlight
  msg_configured := h.msg_configured
  configure_unkeyed := h.configure_unkeyed

theorem witness_StateChangesOnlyAsStated_command :
    ControlInv (cmd 0x41 ready) ∧
    ∃ t, step (cmd 0x41 ready) = .next t ∧ t.status.engine ≠ (cmd 0x41 ready).status.engine :=
  ⟨control_withHost _ control_ready, _, rfl, by decide⟩

theorem witness_StateChangesOnlyAsStated_reset :
    ControlInv (withHost .reset ready) ∧
    ∃ t, step (withHost .reset ready) = .next t ∧ t.status.engine ≠ (withHost .reset ready).status.engine :=
  ⟨control_withHost _ control_ready, _, rfl, by decide⟩

theorem witness_StateChangesOnlyAsStated_engine :
    ControlInv (running [] 0 (some [])) ∧
    ∃ t, step (running [] 0 (some [])) = .next t ∧ t.status.engine ≠ (running [] 0 (some [])).status.engine :=
  ⟨control_running _ _ _, _, rfl, by decide⟩

/-- `ready` with all sticky bits set. -/
def sticky : State :=
  { ready with status := { ready.status with padWarn := true, cmdDropped := true }, irqTerminal := true }

theorem witness_StickyBitsAreClearedOnlyAsStated_ack :
    (cmd 3 sticky).host.head? ≠ some .reset ∧ (cmd 3 sticky).status.padWarn = true ∧
    (cmd 3 sticky).status.cmdDropped = true ∧
    ∃ t, step (cmd 3 sticky) = .next t ∧ t.status.padWarn = false ∧ t.status.cmdDropped = false :=
  ⟨by decide, rfl, rfl, _, rfl, rfl, rfl⟩

theorem witness_StickyBitsAreClearedOnlyAsStated_terminal :
    (withHost (.regWrite (.offset 0x14) .bits32 1) sticky).irqTerminal = true ∧
    ∃ t, step (withHost (.regWrite (.offset 0x14) .bits32 1) sticky) = .next t ∧ t.irqTerminal = false :=
  ⟨rfl, _, rfl, by decide⟩

theorem witness_EveryEndRaisesTerminal :
    CanAccept ready ∧ (running [] 0 (some [])).status.engine = .busy ∧
    isTerminal (engineStep (running [] 0 (some []))).status.engine = true := ⟨ready_accepts, rfl, by decide⟩

theorem witness_InterruptFollowsItsBits :
    windowOffset (.offset 0x10) = some 0x010 ∧ windowOffset (.offset 0x14) = some 0x014 ∧
    (withHost (.regWrite (.offset 0x10) .bits32 1) ready).host = .regWrite (.offset 0x10) .bits32 1 :: [] ∧
    (withHost (.regWrite (.offset 0x14) .bits32 1) ready).host = .regWrite (.offset 0x14) .bits32 1 :: [] :=
  ⟨rfl, rfl, rfl, rfl⟩

theorem witness_WindowWriteThenRead :
    windowOffset (.offset 0x0FC) = some 0x0FC ∧ 0x0FC % 4 = 0 ∧ 0x0FC < 256 ∧ 0x0FC ≠ 0x004 ∧ 0x0FC ≠ 0x014 ∧
    (withHost (.regWrite (.offset 0x0FC) .bits32 1) ready).host = .regWrite (.offset 0x0FC) .bits32 1 :: [] ∧
    windowOffset (.offset 0x000) = some 0x000 ∧ 0x000 % 4 = 0 ∧ 0x000 < 256 ∧
    (withHost (.regRead (.offset 0x000) .bits32) ready).host = .regRead (.offset 0x000) .bits32 :: [] := by
  decide

theorem witness_OtherAccessesAreRefused :
    windowOffset (.offset 6) = some 6 ∧ AccessWidth.bits8 ≠ .bits32 ∧ 6 % 4 ≠ 0 ∧
    (withHost (.regRead (.offset 6) .bits8) ready).host = .regRead (.offset 6) .bits8 :: [] ∧
    (withHost (.regWrite (.offset 6) .bits32 0) ready).host = .regWrite (.offset 6) .bits32 0 :: [] := by
  decide

theorem witness_InitialisationEnds : ∃ k, State.reset.seq = .init k := ⟨_, rfl⟩

theorem witness_RunningCommandIgnoresRegisterWrites : 0x030 ≠ 0x014 := by decide

theorem witness_ResetInOperation : (withHost .reset (running [] 0 none)).host = .reset :: [] := rfl

/-- The last byte of data memory, which is no input. -/
theorem witness_HostMemoryWrite_no_input :
    (withHost (.memWrite 1023 [7]) ready).host = .memWrite 1023 [7] :: [] ∧
    memoryWf (withHost (.memWrite 1023 [7]) ready).mem = true ∧
    ¬ outside (withHost (.memWrite 1023 [7]) ready) 1023 1 ∧
    (¬ overlapping 1023 1 (closedRange (withHost (.memWrite 1023 [7]) ready)).1
      (closedRange (withHost (.memWrite 1023 [7]) ready)).2) ∧
    ∀ x, (1023 ≤ x ∧ x < 1023 + [(7 : Byte)].length) → isInput (withHost (.memWrite 1023 [7]) ready) x = false :=
  ⟨rfl, rfl, by unfold outside; decide, by rintro ⟨x, _, _, _, h⟩; exact absurd h (Nat.not_lt_zero x), fun _ _ => rfl⟩

theorem witness_HostMemoryStopsAndReads_outside :
    outside ready 1024 1 ∧ (withHost (.memRead 1024 1) ready).host = .memRead 1024 1 :: [] ∧
    (withHost (.memWrite 1024 [7]) ready).host = .memWrite 1024 [7] :: [] :=
  ⟨by unfold outside; decide, rfl, rfl⟩

/-- The last byte of a running message's destination, and the byte after it. -/
theorem witness_HostMemoryStopsAndReads_destination :
    ¬ outside (running [] 0 none) 0x217 1 ∧
    overlapping 0x217 1 (closedRange (running [] 0 none)).1 (closedRange (running [] 0 none)).2 ∧
    ¬ overlapping 0x218 1 (destRange (running [] 0 none)).1 (destRange (running [] 0 none)).2 := by
  refine ⟨by unfold outside; decide, ⟨0x217, by decide⟩, ?_⟩
  rintro ⟨x, h1, _, _, h2⟩
  exact absurd (Nat.lt_of_le_of_lt h1 h2) (by decide)

theorem witness_GfMulEffect :
    CanAccept ready ∧ gfmul 0x02 0x80 0x65 = some 0x65 ∧ irreducible 0x65 = true ∧ irreducible 0x01 = false :=
  ⟨ready_accepts, by decide, by decide, by decide⟩

theorem witness_GfIrredEffect : CanAccept ready := ready_accepts

theorem witness_GfmulIsThePolynomialProduct : gfmul 0x53 0xCA 0x1B = some 0x01 := by decide

theorem witness_GfFieldLaws :
    irreducible 0x1B = true ∧ gfmul 0x53 0xCA 0x1B = some 0x01 ∧ gfmul 0xCA 0x02 0x1B = some 0x8F ∧
    (0x53 : Byte) ≠ 0 := by decide

theorem witness_SetbitReplacesOneBit :
    locate [0xC0, 0x01].length 16 .lsb1 = some (0, 7) ∧
    setbit [0xC0, 0x01] 16 .lsb1 false = some [0x40, 0x01] ∧ indexWeight 2 0 .lsb0 ≠ indexWeight 2 16 .lsb1 := by
  decide

/-- The first and the last index of a two-byte buffer. -/
theorem witness_BitGetResult (i : Nat) (h : i = 0 ∨ i = 15) :
    CanAccept (withBuffer [0xC0, 0x01] i ready) ∧
    ¬ outside (withBuffer [0xC0, 0x01] i ready) (withBuffer [0xC0, 0x01] i ready).ops.src.toNat
      (withBuffer [0xC0, 0x01] i ready).ops.len.toNat ∧
    indexWeight (withBuffer [0xC0, 0x01] i ready).ops.len.toNat
      (withBuffer [0xC0, 0x01] i ready).ops.bitIdx.toNat .msb0 = some (15 - i) ∧
    (drawBus (withBuffer [0xC0, 0x01] i ready)).1 = true := by
  rcases h with rfl | rfl <;> exact ⟨⟨rfl, by decide⟩, by unfold outside; decide, by decide, rfl⟩

theorem witness_BitUpdateEffect :
    BitCmd.tgl ≠ .get ∧ CanAccept (withBuffer [0xC0, 0x01] 16 ready) ∧
    memoryWf (withBuffer [0xC0, 0x01] 16 ready).mem = true ∧
    ¬ outside (withBuffer [0xC0, 0x01] 16 ready) (withBuffer [0xC0, 0x01] 16 ready).ops.src.toNat
      (withBuffer [0xC0, 0x01] 16 ready).ops.len.toNat ∧
    indexWeight (withBuffer [0xC0, 0x01] 16 ready).ops.len.toNat
      (withBuffer [0xC0, 0x01] 16 ready).ops.bitIdx.toNat .lsb1 = some 15 ∧
    (drawBus (withBuffer [0xC0, 0x01] 16 ready)).1 = true ∧
    (drawBus (drawChoice (drawBus (withBuffer [0xC0, 0x01] 16 ready)).2).2).1 = true :=
  ⟨by decide, ⟨rfl, by decide⟩, by decide, by unfold outside; decide, by decide, rfl, rfl⟩

/-- BIT_SET.MSB0 of index 3 of C0 01, its byte D0 not yet written back. -/
def bitPending : State :=
  { ready with
    mem := writeBytes [] 0x40 [0xC0, 0x01]
    status := { ready.status with engine := .busy }
    latched := { Operands.reset with src := 0x40, len := 2, bitIdx := 3 }
    seq := .slow (.bitPut (.bitSet .msb0) 0x40 0xD0) 0 }

theorem bitPending_meets_the_invariants : MachineInv bitPending where
  control :=
    { busy_iff_running := ⟨fun _ h => Sequencer.noConfusion h, fun _ => rfl⟩
      init_iff := ⟨fun h => Bool.noConfusion h, fun ⟨_, h⟩ => Sequencer.noConfusion h⟩
      error_iff_failed := ⟨fun h => Bool.noConfusion h, fun h => EngineState.noConfusion h⟩
      keyed_eq_configured := rfl
      cancel_only_busy := fun h => Bool.noConfusion h
      cancel_iff_inFlight := fun _ h => Sequencer.noConfusion h
      msg_configured := fun _ h => Sequencer.noConfusion h
      configure_unkeyed := fun _ h => by cases h }
  ftab := fun _ => rfl
  context := fun h => Bool.noConfusion h
  progress :=
    { done_le_total := by decide
      run_ok := fun _ h => Sequencer.noConfusion h
      total_eq := fun _ h => Sequencer.noConfusion h
      done_eq := fun _ h => Sequencer.noConfusion h
      outLen_zero := fun _ h => Sequencer.noConfusion h }
  message :=
    { src_fits := fun _ h => Sequencer.noConfusion h
      dst_fits := fun _ h => Sequencer.noConfusion h
      count_eq := fun _ h => Sequencer.noConfusion h
      disjoint := fun _ h => Sequencer.noConfusion h
      chain_block := fun _ h => Sequencer.noConfusion h
      chainP_block := fun _ h => Sequencer.noConfusion h
      ctrBase_eq := fun _ _ h => Sequencer.noConfusion h }
  bits :=
    { buffer_fits := fun _ _ _ _ _ => by decide
      byte_inside := fun _ _ _ _ h => by cases h; decide }
  memory := ⟨by decide, by decide⟩

/-- The host writes the very byte before the write back. -/
theorem witness_BitUpdateEffect_race :
    MachineInv { bitPending with host := [.memWrite 0x40 [0x01]] } ∧
    bitPending.seq = .slow (.bitPut (.bitSet .msb0) 0x40 0xD0) 0 ∧
    bitPending.env.bus = true :: List.replicate 9 true :=
  ⟨{ bitPending_meets_the_invariants with
      control := { bitPending_meets_the_invariants.control with }
      progress := { bitPending_meets_the_invariants.progress with
        run_ok := fun _ h => Sequencer.noConfusion h }
      message := { bitPending_meets_the_invariants.message with }
      bits := { bitPending_meets_the_invariants.bits with } }, rfl, rfl⟩

/-- A host write of that byte stores it, and the write back then stores the free byte 5A: R46 allows any value. -/
theorem test_bit_race :
    after (step { bitPending with
        host := [.memWrite 0x40 [0x01]], env := { bitPending.env with bytes := [0x5A] } })
      (fun t => (readByte t.mem 0x40, readByte (engineSteps 1 t).mem 0x40, (engineSteps 1 t).status.engine)) =
      some (0x01, 0x5A, .done) := by
  decide

theorem witness_HostMemoryStopsAndReads_pending_byte :
    ¬ outside bitPending 0x3F 2 ∧ 0x3F ≤ 0x40 ∧ 0x40 < 0x3F + 2 ∧
    ({ bitPending with host := [.memRead 0x3F 2] } : State).host = .memRead 0x3F 2 :: [] ∧
    ({ bitPending with host := [.memRead 0x3F 2] } : State).seq = .slow (.bitPut (.bitSet .msb0) 0x40 0xD0) 0 :=
  ⟨by unfold outside; decide, by decide, by decide, rfl, rfl⟩

/-- `withBuffer [0xC0, 0x01] i ready` under other answers of BUS_OK. -/
def bufferOn (bus : List Bool) (i : Nat) : State :=
  setEnv { ready.env with bus := bus } (withBuffer [0xC0, 0x01] i ready)

/-- A buffer that ends one byte past MEM_SIZE. -/
theorem witness_BitCommandErrors_range :
    CanAccept (withMessage 1023 0 2 ready) ∧
    outside (withMessage 1023 0 2 ready) (withMessage 1023 0 2 ready).ops.src.toNat
      (withMessage 1023 0 2 ready).ops.len.toNat := ⟨⟨rfl, by decide⟩, by unfold outside; decide⟩

/-- An index just out of range. -/
theorem witness_BitCommandErrors_index :
    CanAccept (bufferOn [] 16) ∧
    ¬ outside (bufferOn [] 16) (bufferOn [] 16).ops.src.toNat (bufferOn [] 16).ops.len.toNat ∧
    indexWeight (bufferOn [] 16).ops.len.toNat (bufferOn [] 16).ops.bitIdx.toNat .lsb0 = none :=
  ⟨⟨rfl, by decide⟩, by unfold outside; decide, by decide⟩

/-- A read that fails. -/
theorem witness_BitCommandErrors_read :
    CanAccept (bufferOn [false] 15) ∧
    ¬ outside (bufferOn [false] 15) (bufferOn [false] 15).ops.src.toNat (bufferOn [false] 15).ops.len.toNat ∧
    indexWeight (bufferOn [false] 15).ops.len.toNat (bufferOn [false] 15).ops.bitIdx.toNat .lsb0 ≠ none ∧
    (drawBus (bufferOn [false] 15)).1 = false :=
  ⟨⟨rfl, by decide⟩, by unfold outside; decide, by decide, rfl⟩

/-- A write back that fails. -/
theorem witness_BitCommandErrors_write :
    BitCmd.set ≠ .get ∧ CanAccept (bufferOn [true, false] 15) ∧
    ¬ outside (bufferOn [true, false] 15) (bufferOn [true, false] 15).ops.src.toNat
      (bufferOn [true, false] 15).ops.len.toNat ∧
    indexWeight (bufferOn [true, false] 15).ops.len.toNat (bufferOn [true, false] 15).ops.bitIdx.toNat .lsb0 ≠ none ∧
    (drawBus (bufferOn [true, false] 15)).1 = true ∧
    (drawBus (drawChoice (drawBus (bufferOn [true, false] 15)).2).2).1 = false :=
  ⟨by decide, ⟨rfl, by decide⟩, by unfold outside; decide, by decide, rfl, rfl⟩

theorem witness_PermuteEffect :
    CanAccept permuteReady ∧ memoryWf permuteReady.mem = true ∧ permuteReady.ops.ruleLen.toNat % 8 = 0 ∧
    ¬ outside permuteReady permuteReady.ops.src.toNat permuteReady.ops.len.toNat ∧
    ¬ outside permuteReady permuteReady.ops.ruleAddr.toNat (2 * permuteReady.ops.ruleLen.toNat) ∧
    ¬ outside permuteReady permuteReady.ops.dst.toNat (permuteReady.ops.ruleLen.toNat / 8) ∧
    (∀ i, i < permuteReady.ops.ruleLen.toNat →
      indexWeight permuteReady.ops.len.toNat (ruleEntry permuteReady i) .msb1 ≠ none) ∧
    permuteReady.env.bus = List.replicate (permuteReady.ops.ruleLen.toNat + 2) true ++ [] :=
  ⟨⟨rfl, by decide⟩, by decide, by decide, by unfold outside; decide, by unfold outside; decide,
    by unfold outside; decide, by decide, by decide⟩

/-- `permuteReady` under other answers of BUS_OK. -/
def permuteOn (bus : List Bool) : State := setEnv { ready.env with bus := bus } permuteReady

/-- `permuteReady` with another rule length and destination. -/
def permuteTo (ruleLen dst : Word) : State :=
  { permuteReady with ops := { permuteReady.ops with ruleLen := ruleLen, dst := dst } }

/-- A rule of 9 entries; a destination one byte past MEM_SIZE. -/
theorem witness_PermuteErrors_issue :
    CanAccept (permuteTo 9 0xC0) ∧ (permuteTo 9 0xC0).ops.ruleLen.toNat % 8 ≠ 0 ∧ CanAccept (permuteTo 8 1024) ∧
    (permuteTo 8 1024).ops.ruleLen.toNat % 8 = 0 ∧
    outside (permuteTo 8 1024) (permuteTo 8 1024).ops.dst.toNat ((permuteTo 8 1024).ops.ruleLen.toNat / 8) :=
  ⟨⟨rfl, by decide⟩, by decide, ⟨rfl, by decide⟩, by decide, by unfold outside; decide⟩

/-- The ranges of `permuteReady` lie in data memory, whatever the answers of BUS_OK. -/
theorem permuteOn_ranges (bus : List Bool) :
    CanAccept (permuteOn bus) ∧ (permuteOn bus).ops.ruleLen.toNat % 8 = 0 ∧
    ¬ (outside (permuteOn bus) (permuteOn bus).ops.src.toNat (permuteOn bus).ops.len.toNat ∨
      outside (permuteOn bus) (permuteOn bus).ops.ruleAddr.toNat (2 * (permuteOn bus).ops.ruleLen.toNat) ∨
      outside (permuteOn bus) (permuteOn bus).ops.dst.toNat ((permuteOn bus).ops.ruleLen.toNat / 8)) := by
  refine ⟨⟨rfl, EngineState.noConfusion⟩, ?_, ?_⟩
  · show permuteReady.ops.ruleLen.toNat % 8 = 0
    decide
  show ¬ (outside permuteReady permuteReady.ops.src.toNat permuteReady.ops.len.toNat ∨
    outside permuteReady permuteReady.ops.ruleAddr.toNat (2 * permuteReady.ops.ruleLen.toNat) ∨
    outside permuteReady permuteReady.ops.dst.toNat (permuteReady.ops.ruleLen.toNat / 8))
  unfold outside
  decide

/-- Under LSB-0 the last entry, 16, is out of range. -/
theorem witness_PermuteErrors_entry :
    ∃ i, i < (permuteOn [false]).ops.ruleLen.toNat ∧
      indexWeight (permuteOn [false]).ops.len.toNat (ruleEntry (permuteOn [false]) i) .lsb0 = none :=
  ⟨7, by decide⟩

/-- With the data's read failing as well, the entry is what is reported (60_exceptions.md R138). -/
theorem test_permute_entry_before_bus :
    after (exec (.permute .lsb0) (permuteOn [false])) (fun t => (t.error, t.mem)) =
      some (some { code := .inconsistentArguments, op := 0x34 }, permuteReady.mem) := by
  decide

/-- Under MSB-1 every entry is in range, and the tenth access, the write, fails. -/
theorem witness_PermuteErrors_bus :
    (permuteOn (List.replicate 9 true ++ [false])).env.bus = List.replicate 9 true ++ false :: [] ∧
    ∀ i, i < (permuteOn (List.replicate 9 true ++ [false])).ops.ruleLen.toNat →
      indexWeight (permuteOn (List.replicate 9 true ++ [false])).ops.len.toNat
        (ruleEntry (permuteOn (List.replicate 9 true ++ [false])) i) .msb1 ≠ none :=
  ⟨rfl, by decide⟩

theorem witness_AdjustKeepsTheLeadingBytes :
    (zeros 32).length = 32 ∧ adjust .deal 20 (zeros 32) = some (0x80 :: zeros 15) ∧ adjust .deal 15 (zeros 32) = none :=
  by decide

theorem witness_DesIgnoresParity : desKey.length = 8 := rfl

theorem witness_CoreUndoneByReversedKeys :
    (∀ r k : List Byte, r.length = 1 → ((fun (r _ : List Byte) => r) r k).length = 1) ∧
    [0x12, (0x34 : Byte)].length = 2 * 1 := ⟨fun _ _ h => h, rfl⟩

theorem witness_SliceUndone : 7 < 8 := by decide

theorem witness_CiphersAreBijections :
    desKey.length ∈ keySizes .des ∧ (zeros 8).length = blockSize .des ∧ (zeros 32).length ∈ keySizes .serpent ∧
    (zeros 16).length = blockSize .serpent := by decide

theorem desReady_context : ContextOk desReady.params desReady.ctx := contextOf_ok _ _ _ (by decide)

theorem witness_BlockCommandEffect :
    CanAccept ready ∧ ready.status.keyed = false ∧ CanAccept desReady ∧ desReady.status.keyed = true ∧
    ContextOk desReady.params desReady.ctx := ⟨ready_accepts, rfl, desReady_accepts, rfl, desReady_context⟩

theorem witness_BlkDecUndoesBlkEnc :
    CanAccept desReady ∧ desReady.status.keyed = true ∧ ContextOk desReady.params desReady.ctx :=
  ⟨desReady_accepts, rfl, desReady_context⟩

theorem witness_ConfigureBuildsTheContext :
    CanAccept (withConfig 8 ready) ∧ firstConfigError (withConfig 8 ready).ops = none := ⟨⟨rfl, by decide⟩, by decide⟩

theorem witness_ConfigureReportsTheFirstError :
    CanAccept (withConfig 16 ready) ∧ firstConfigError (withConfig 16 ready).ops = some .ivWrongLength :=
  ⟨⟨rfl, by decide⟩, by decide⟩

/-- Unkeyed, and keyed with KEYLEN just below and at the smallest size. -/
theorem witness_RekeyReplacesTheKeyAlone :
    CanAccept ready ∧ ready.status.keyed = false ∧ CanAccept desReady ∧ desReady.status.keyed = true ∧
    (7#8).toNat < minKey 0 ∧ minKey 0 ≤ (8#8).toNat := ⟨ready_accepts, rfl, desReady_accepts, rfl, by decide, by decide⟩

/-- One data byte short of a whole block; a count at B and one just above it. -/
theorem witness_ScanUndoesFill :
    (zeros 16).length = 16 ∧ 15 < (zeros 16).length ∧ (zeros 0).length = randomCount .iso10126 16 15 ∧
    (zeros 7 ++ [8]).length = 8 ∧ (zeros 7 ++ [8]).getLast? = some 8 ∧ (8#8).toNat ≤ (zeros 7 ++ [8#8]).length ∧
    (zeros 7 ++ [9]).getLast? = some 9 ∧ (zeros 7 ++ [9#8]).length < (9#8).toNat := by decide

/-- Not configured, PADUSED just above B, and PADUSED = B. -/
theorem witness_PadSetEffect :
    CanAccept ready ∧ ready.status.configured = false ∧ CanAccept (wideReady .pkcs7) ∧
    (wideReady .pkcs7).status.configured = true ∧ ctxB (wideReady .pkcs7) < (17#8).toNat ∧
    (16#8).toNat ≤ ctxB (wideReady .pkcs7) := ⟨ready_accepts, rfl, ⟨rfl, by decide⟩, rfl, by decide, by decide⟩

theorem witness_PadClrEffect :
    CanAccept ready ∧ ready.status.configured = false ∧ CanAccept (wideReady .pkcs7) ∧
    (wideReady .pkcs7).status.configured = true := ⟨ready_accepts, rfl, ⟨rfl, by decide⟩, rfl⟩

/-- A message of 3 bytes from 0x100 to 0x200, one block. -/
theorem message_ready_encrypt : MessageReady (withMessage 0x100 0x200 3 desReady) .encrypt where
  accepted := ⟨rfl, by decide⟩
  configured := rfl
  length_ok := by rintro ⟨_, h | h⟩ <;> exact absurd h (by decide)
  src_ok := by unfold outside; decide
  dst_ok := by unfold outside; decide
  apart := by
    rintro ⟨x, _, h1, h2, _⟩
    exact absurd (Nat.lt_of_le_of_lt h2 h1) (by decide)

/-- A ciphertext of 8 bytes that ends where the destination begins. -/
theorem message_ready_decrypt : MessageReady (withMessage 0x1F8 0x200 8 desReady) .decrypt where
  accepted := ⟨rfl, by decide⟩
  configured := rfl
  length_ok := by rintro ⟨h, _⟩; exact absurd h (by decide)
  src_ok := by unfold outside; decide
  dst_ok := by unfold outside; decide
  apart := by
    rintro ⟨x, _, h1, h2, _⟩
    exact absurd (Nat.lt_of_le_of_lt h2 h1) (by decide)

theorem witness_MessageStarts :
    MessageReady (withMessage 0x100 0x200 3 desReady) .encrypt ∧
    MessageReady (withMessage 0x1F8 0x200 8 desReady) .decrypt := ⟨message_ready_encrypt, message_ready_decrypt⟩

/-- Not configured, a bad length, a range one byte past MEM_SIZE, ranges that share one byte. -/
theorem witness_MessageErrors :
    CanAccept ready ∧ ready.status.configured = false ∧ CanAccept desReady ∧ desReady.status.configured = true ∧
    badLength .decrypt .pkcs7 8 9 ∧ badLength .encrypt .noPadding 8 9 ∧ ¬ badLength .encrypt .pkcs7 8 9 ∧
    outside desReady 1017 8 ∧ ¬ outside desReady 1016 8 ∧ overlapping 0x100 3 0x102 8 := by
  refine ⟨ready_accepts, rfl, desReady_accepts, rfl, ⟨by decide, .inl rfl⟩, ⟨by decide, .inr rfl⟩, ?_,
    by unfold outside; decide, by unfold outside; decide, ⟨0x102, by decide⟩⟩
  rintro ⟨_, h | h⟩ <;> exact absurd h (by decide)

theorem witness_MessageComputesTheModeEquations_decrypt :
    MessageReady (withMessage 0x1F8 0x200 8 desReady) .decrypt ∧
    ContextOk (withMessage 0x1F8 0x200 8 desReady).params (withMessage 0x1F8 0x200 8 desReady).ctx ∧
    memoryWf (withMessage 0x1F8 0x200 8 desReady).mem = true ∧
    (withMessage 0x1F8 0x200 8 desReady).env.bus = List.replicate (3 * 1) true ++ List.replicate 7 true ∧
    messageBlocks .decrypt .pkcs7 8 8 = 1 :=
  ⟨message_ready_decrypt, desReady_context, rfl, rfl, rfl⟩

theorem witness_MessageComputesTheModeEquations :
    MessageReady (withMessage 0x100 0x200 3 desReady) .encrypt ∧
    ContextOk (withMessage 0x100 0x200 3 desReady).params (withMessage 0x100 0x200 3 desReady).ctx ∧
    memoryWf (withMessage 0x100 0x200 3 desReady).mem = true ∧
    (withMessage 0x100 0x200 3 desReady).env.bus = List.replicate (3 * 1) true ++ List.replicate 7 true ∧
    messageBlocks .encrypt .pkcs7 8 3 = 1 :=
  ⟨message_ready_encrypt, desReady_context, rfl, rfl, rfl⟩

/-- Three blocks in ECB, on two lanes: the first step chooses between lane 0 and lane 1. -/
theorem witness_LaneOrderDoesNotMatter :
    MessageReady (withMessage 0x100 0x200 20 desReady) .encrypt ∧
    ContextOk (withMessage 0x100 0x200 20 desReady).params (withMessage 0x100 0x200 20 desReady).ctx ∧
    memoryWf (withMessage 0x100 0x200 20 desReady).mem = true ∧
    (withMessage 0x100 0x200 20 desReady).env.bus = List.replicate (3 * 3) true ++ List.replicate 1 true ∧
    messageBlocks .encrypt .pkcs7 8 20 = 3 ∧ (withMessage 0x100 0x200 20 desReady).ctx.pad ≠ .iso10126 ∧
    after (exec .msgEnc (withMessage 0x100 0x200 20 desReady))
      (fun t => match t.seq with | .msg m => readyLanes t m | _ => []) = some [0, 1] where
  left :=
    { accepted := ⟨rfl, by decide⟩
      configured := rfl
      length_ok := by rintro ⟨_, h | h⟩ <;> exact absurd h (by decide)
      src_ok := by unfold outside; decide
      dst_ok := by unfold outside; decide
      apart := by
        rintro ⟨x, _, h1, h2, _⟩
        exact absurd (Nat.lt_of_le_of_lt h2 h1) (by decide) }
  right := ⟨desReady_context, rfl, rfl, rfl, by decide, by decide⟩

/-- A running message, one block done in lane 0, meets every invariant, and does with both lanes in flight after a
CANCEL. -/
theorem running_meets_the_invariants (f : Option (List Nat)) (hf : f = none ∨ f = some [0, 1]) :
    MachineInv (running [(0, 1)] 1 f) := by
  rcases hf with rfl | rfl <;> exact
    { control := control_running _ _ _
      ftab := fun _ => rfl
      context := fun _ => desReady_context
      progress :=
        { done_le_total := by decide
          run_ok := fun m h => by
            cases h
            exact
              { keys_rising := by decide
                lane_lt := by decide
                done_lt := by decide
                flight_nodup := fun g h => by cases h <;> decide
                flight_eligible := fun g h => by cases h <;> decide }
          total_eq := fun m h => by cases h; rfl
          done_eq := fun m h => by cases h; rfl
          outLen_zero := fun _ _ => rfl }
      message :=
        { src_fits := fun m h => by cases h; decide
          dst_fits := fun m h => by cases h; decide
          count_eq := fun m h => by cases h; rfl
          disjoint := fun m h => by cases h; decide
          chain_block := fun _ _ h => absurd rfl h
          chainP_block := fun _ _ => rfl
          ctrBase_eq := fun _ _ _ h => nomatch h }
      bits := { buffer_fits := fun _ _ _ _ h => (nomatch h), byte_inside := fun _ _ _ _ h => (nomatch h) }
      memory := ⟨rfl, fun _ h => absurd h (List.not_mem_nil)⟩ }

theorem witness_CancelledMessageEnds :
    (∃ m, (running [(0, 1)] 1 (some [0, 1])).seq = .msg m ∧ m.inFlight = some [0, 1]) ∧
    MachineInv (running [(0, 1)] 1 (some [0, 1])) ∧ (running [(0, 1)] 1 (some [0, 1])).raced = [] ∧
    (running [(0, 1)] 1 (some [0, 1])).env.bus = List.replicate (3 * 2) true ++ List.replicate 4 true :=
  ⟨⟨_, rfl, rfl⟩, running_meets_the_invariants _ (.inr rfl), rfl, rfl⟩

/-- The running message on a platform that fails the next access. -/
def failing : State := setEnv { ready.env with bus := [false] } (running [(0, 1)] 1 none)

theorem witness_MessageErrors_running :
    MachineInv failing ∧ (∃ m, failing.seq = .msg m ∧ readyLanes failing m ≠ []) ∧
    failing.env.bus.head? = some false ∧ (engineStep failing).status.engine = .failed :=
  ⟨machineInv_setEnv (running_meets_the_invariants _ (.inl rfl)) _, ⟨_, rfl, by decide⟩, rfl, by decide⟩

/-- A host write of the last source byte while one block is written: its bytes may become any. -/
theorem witness_HostMemoryWrite_input :
    MachineInv { running [(0, 1)] 1 none with host := [.memWrite 0x113 [7]] } ∧
    ¬ outside (running [(0, 1)] 1 none) 0x113 1 ∧
    (¬ overlapping 0x113 1 (closedRange (running [(0, 1)] 1 none)).1 (closedRange (running [(0, 1)] 1 none)).2) ∧
    isInput (running [(0, 1)] 1 none) 0x113 = true ∧ isInput (running [(0, 1)] 1 none) 0x114 = false ∧
    ctxB (running [(0, 1)] 1 none) = (zeros 8).length := by
  have h := running_meets_the_invariants none (.inl rfl)
  refine ⟨{ h with
      control := { h.control with }
      progress := { h.progress with run_ok := fun m hm => { h.progress.run_ok m hm with } }
      message := { h.message with }
      bits := { h.bits with } }, by unfold outside; decide, ?_, by decide, by decide, rfl⟩
  rintro ⟨x, _, h1, h2, _⟩
  exact absurd (Nat.lt_of_le_of_lt h2 h1) (by decide)

/-- The premises of StepKeepsMemoryCanonical, StepKeepsControl, StepKeepsTableAndContext, StepKeepsProgress and
StepKeepsTheMachine together. -/
theorem witness_StepKeeps :
    MachineInv (running [(0, 1)] 1 none) ∧ memoryWf (running [(0, 1)] 1 none).mem = true ∧
    ∃ t, step (running [(0, 1)] 1 none) = .next t := ⟨running_meets_the_invariants _ (.inl rfl), rfl, _, rfl⟩

/-- The bytes right before and right after the destination. -/
theorem witness_EngineWritesOnlyItsDestination :
    MachineInv (running [(0, 1)] 1 none) ∧ 0x1FF < (destRange (running [(0, 1)] 1 none)).1 ∧
    (destRange (running [(0, 1)] 1 none)).1 + (destRange (running [(0, 1)] 1 none)).2 ≤ 0x218 :=
  ⟨running_meets_the_invariants _ (.inl rfl), by decide, by decide⟩

end Sys2Proof.Test
end

section
/-! PROOFS. What the work of a command leaves as it was, and how a command ends, said once: the inversion lemmas of
`exec`, `engineStep` and `step` (10_state.md R15, R17, R24, R25; 60_exceptions.md R135, R136). -/

namespace Sys2Proof.Machine

open Sys2Proof.Claim

/-! ### What a command leaves as it was -/

/-- Nothing between `u` and `t` wrote the parameters, the host's registers, FTAB, INIT_DONE or what the host does and has
read, or cleared IRQ_STATUS.TERMINAL (10_state.md R15, R19, R27). -/
structure HostSideKept (u t : State) : Prop where
  params : t.params = u.params := by rfl
  irqEn : t.irqEn = u.irqEn := by rfl
  ops : t.ops = u.ops := by rfl
  ftab : t.ftab = u.ftab := by rfl
  host : t.host = u.host := by rfl
  response : t.response = u.response := by rfl
  initDone : t.status.initDone = u.status.initDone := by rfl
  irqTerminal : u.irqTerminal = true → t.irqTerminal = true := by exact id

/-- Nor was a sticky bit of STATUS cleared (10_state.md R17). -/
structure Kept (u t : State) : Prop extends HostSideKept u t where
  cmdDropped : u.status.cmdDropped = true → t.status.cmdDropped = true := by exact id
  padWarn : u.status.padWarn = true → t.status.padWarn = true := by exact id

/-- `v` is `u` after work of a command that has not ended: STATE, ERROR, TERMINAL, the sequencer, the latched copies and
the context are as they were too, and the context's flags, unless both were cleared (46_modes.md R121). -/
structure Worked (u v : State) : Prop extends Kept u v where
  engine : v.status.engine = u.status.engine := by rfl
  cancelPending : v.status.cancelPending = u.status.cancelPending := by rfl
  error : v.error = u.error := by rfl
  terminal_eq : v.irqTerminal = u.irqTerminal := by rfl
  seq : v.seq = u.seq := by rfl
  latched : v.latched = u.latched := by rfl
  ctx : v.ctx = u.ctx := by rfl
  flags : (v.status.keyed = u.status.keyed ∧ v.status.configured = u.status.configured) ∨
    (v.status.keyed = false ∧ v.status.configured = false) := by exact .inl ⟨rfl, rfl⟩

theorem HostSideKept.trans {u v t : State} (h : HostSideKept u v) (h' : HostSideKept v t) : HostSideKept u t where
  params := h'.params.trans h.params
  irqEn := h'.irqEn.trans h.irqEn
  ops := h'.ops.trans h.ops
  ftab := h'.ftab.trans h.ftab
  host := h'.host.trans h.host
  response := h'.response.trans h.response
  initDone := h'.initDone.trans h.initDone
  irqTerminal := h'.irqTerminal ∘ h.irqTerminal

theorem Kept.trans {u v t : State} (h : Kept u v) (h' : Kept v t) : Kept u t where
  toHostSideKept := h.toHostSideKept.trans h'.toHostSideKept
  cmdDropped := h'.cmdDropped ∘ h.cmdDropped
  padWarn := h'.padWarn ∘ h.padWarn

theorem Worked.trans {u v t : State} (h : Worked u v) (h' : Worked v t) : Worked u t where
  toKept := h.toKept.trans h'.toKept
  engine := h'.engine.trans h.engine
  cancelPending := h'.cancelPending.trans h.cancelPending
  error := h'.error.trans h.error
  terminal_eq := h'.terminal_eq.trans h.terminal_eq
  seq := h'.seq.trans h.seq
  latched := h'.latched.trans h.latched
  ctx := h'.ctx.trans h.ctx
  flags := by
    rcases h'.flags with ⟨hk, hc⟩ | hcleared
    · rw [hk, hc]
      exact h.flags
    · exact .inr hcleared

theorem Worked.keyed_of_keyed {u v : State} (h : Worked u v) (hv : v.status.keyed = true) : u.status.keyed = true := by
  rcases h.flags with ⟨hk, -⟩ | ⟨hk, -⟩
  · rw [← hk, hv]
  · simp [hk] at hv

theorem Worked.keyed_eq_configured {u v : State} (h : Worked u v) (hu : u.status.keyed = u.status.configured) :
    v.status.keyed = v.status.configured := by
  rcases h.flags with ⟨hk, hc⟩ | ⟨hk, hc⟩
  · rw [hk, hc, hu]
  · rw [hk, hc]

theorem kept_terminal (st : EngineState) (s : State) : Kept s (terminal st s) where
  irqTerminal _ := rfl

theorem kept_raise (c : ErrorCode) (op : Byte) (s : State) : Kept s (raise c op s) where
  irqTerminal _ := rfl

theorem worked_setEnv (e : Env) (s : State) : Worked s (setEnv e s) where

theorem worked_setMem_setEnv (m : Memory) (e : Env) (s : State) : Worked s (setMem m (setEnv e s)) where

theorem worked_dropContext (s : State) : Worked s (dropContext s) where
  flags := .inr ⟨rfl, rfl⟩

/-! ### How a command ends -/

/-- A command ends DONE, or FAILED with an error, the context not written. -/
inductive Ends (u : State) : State → Prop
  | done {v : State} (hv : Worked u v) : Ends u (terminal .done v)
  | failed (c : ErrorCode) (op : Byte) {v : State} (hv : Worked u v) : Ends u (raise c op v)

/-- CONFIGURE or REKEY ends DONE with the context written (46_modes.md R121; 42_key_schedules.md R90). -/
inductive Rebuilds (u : State) : State → Prop
  | configured {v : State} {c : Context} (hv : Worked u v) (hc : cfgCheck v.params v.latched = .ok c) :
      Rebuilds u (terminal .done { v with ctx := c, status := { v.status with keyed := true, configured := true } })
  | rekeyed {v : State} {k : List Byte} (hv : Worked u v) (hkeyed : v.status.keyed = true)
      (hk : adjust v.ctx.alg v.latched.keyLen.toNat (keyBytes v.latched) = some k) :
      Rebuilds u (terminal .done { v with ctx := { v.ctx with key := k, rkt := schedule v.params v.ctx.alg k } })

theorem Worked.ends {u v t : State} (hv : Worked u v) (h : Ends v t) : Ends u t := by
  cases h with
  | done hw => exact .done (hv.trans hw)
  | failed c op hw => exact .failed c op (hv.trans hw)

theorem Worked.rebuilds {u v t : State} (hv : Worked u v) (h : Rebuilds v t) : Rebuilds u t := by
  cases h with
  | configured hw hc => exact .configured (hv.trans hw) hc
  | rekeyed hw hkeyed hk => exact .rekeyed (hv.trans hw) hkeyed hk

theorem Ends.kept {u t : State} (h : Ends u t) : Kept u t := by
  cases h with
  | done hv => exact hv.toKept.trans (kept_terminal _ _)
  | failed c op hv => exact hv.toKept.trans (kept_raise _ _ _)

theorem Rebuilds.kept {u t : State} (h : Rebuilds u t) : Kept u t := by
  cases h with
  | configured hv _ => exact hv.toKept.trans { irqTerminal := fun _ => rfl }
  | rekeyed hv _ _ => exact hv.toKept.trans { irqTerminal := fun _ => rfl }

theorem Ends.ctx {u t : State} (h : Ends u t) : t.ctx = u.ctx := by
  cases h with
  | done hv => exact hv.ctx
  | failed c op hv => exact hv.ctx

/-- The terminal state of a command that ended by itself. -/
theorem Ends.engine {u t : State} (h : Ends u t) : t.status.engine = .done ∨ t.status.engine = .failed := by
  cases h with
  | done hv => exact .inl rfl
  | failed c op hv => exact .inr rfl

theorem Rebuilds.engine {u t : State} (h : Rebuilds u t) : t.status.engine = .done := by
  cases h <;> rfl

/-! ### The commands that end in one step -/

theorem finishResult_ends (v : Word) (s : State) : Ends s (finishResult v s) :=
  .done (v := { s with out := { s.out with result := v } }) {}

theorem finishBlkOut_ends (y : List Byte) (s : State) : Ends s (finishBlkOut y s) :=
  .done (v := { s with out := { s.out with blkOut := packBytes 128 (y ++ zeros (16 - y.length)) } }) {}

theorem gfMulBody_ends (s : State) : Ends s (gfMulBody s) := by
  unfold gfMulBody
  split
  · exact .failed _ _ {}
  · exact finishResult_ends _ _

theorem padSetBody_ends (s : State) : Ends s (padSetBody s) := by
  unfold padSetBody
  dsimp only
  split
  · exact .failed _ _ {}
  · split
    · exact .failed _ _ {}
    · obtain ⟨⟨e, he⟩, -⟩ := drawBytes_spec (randomCount s.ctx.pad (ctxB s) s.latched.padUsed.toNat) s
      rw [he]
      exact (worked_setEnv e s).ends (finishBlkOut_ends _ _)

theorem padClrBody_ends (s : State) : Ends s (padClrBody s) := by
  unfold padClrBody
  dsimp only
  split
  · exact .failed _ _ {}
  · refine Worked.ends ?_ (finishBlkOut_ends _ _)
    exact { padWarn := fun h => by simp [h] }

theorem blockCommand_ends (i : Instr) (dir : Direction) (s : State) : Ends s (blockCommand i dir s) := by
  unfold blockCommand
  split
  · exact .failed _ _ {}
  · exact Worked.ends (v := setLane _ _ s) {} (finishBlkOut_ends _ _)

/-! ### The last step of a slow command -/

theorem finishBitGet_ends (v : Bool) (s : State) : Ends s (finishBitGet v s) := by
  obtain ⟨e, b, h, -⟩ := finishBitGet_cases v s
  rw [h]
  exact (worked_setEnv e s).ends (finishResult_ends _ _)

theorem finishBitPut_ends (i : Instr) (a : Nat) (y : Byte) (s : State) : Ends s (finishBitPut i a y s) := by
  rcases finishBitPut_cases i a y s with ⟨e, h⟩ | ⟨e, z, h, -⟩
  · rw [h]
    exact .failed _ _ (worked_setEnv e s)
  · rw [h]
    exact .done (worked_setMem_setEnv _ _ _)

/-- A write of the engine is work, whether or not it completes. -/
theorem worked_busWrite (a : Nat) (b : List Byte) (s : State) : Worked s (busWrite a b s).2 := by
  obtain ⟨e, he⟩ := busWrite_spec a b s
  rw [he]
  exact worked_setMem_setEnv _ _ _

theorem writePermuted_ends (num : Numbering) (out : List Byte) (s : State) : Ends s (writePermuted num out s) := by
  obtain ⟨⟨e, he⟩, -⟩ := racedOutput_spec out s
  unfold writePermuted
  simp only [he]
  have hw := worked_busWrite s.latched.dst.toNat (racedOutput out s).1 (setEnv e s)
  refine (worked_setEnv e s).ends ?_
  split
  · rename_i s2 h
    rw [h] at hw
    exact .failed _ _ hw
  · rename_i s2 h
    rw [h] at hw
    exact .done hw

theorem permuteReadFailed_ends (num : Numbering) (rule : List Nat) (s : State) :
    Ends s (permuteReadFailed num rule s) := by
  rcases permuteReadFailed_cases num rule s with ⟨-, h⟩ | ⟨-, h⟩
  · rw [h]
    exact .failed _ _ {}
  · rw [h]
    exact .failed _ _ {}

theorem permuteBody_ends (num : Numbering) (s : State) : Ends s (permuteBody num s) := by
  unfold permuteBody
  dsimp only
  split
  · exact .failed _ _ {}
  split
  · exact .failed _ _ {}
  obtain ⟨e, he⟩ := (busRead_spec s.latched.src.toNat s.latched.len.toNat s).1
  split
  · rename_i s1 hread
    obtain ⟨e', he'⟩ := (peekRule_spec s.latched.ruleLen.toNat s.latched.ruleAddr.toNat s1).1
    obtain rfl : s1 = setEnv e s := by rw [← he, hread]
    rw [he', setEnv_setEnv]
    exact (worked_setEnv e' s).ends (permuteReadFailed_ends _ _ _)
  · rename_i data s1 hread
    obtain ⟨e', he'⟩ := (readRule_spec s.latched.ruleLen.toNat s.latched.ruleAddr.toNat s1).1
    obtain rfl : s1 = setEnv e s := by rw [← he, hread]
    split
    · rename_i rule s2 hrule
      obtain rfl : s2 = setEnv e' s := by rw [← setEnv_setEnv e' e s, ← he', hrule]
      exact (worked_setEnv e' s).ends (permuteReadFailed_ends _ _ _)
    · rename_i rule s2 hrule
      obtain rfl : s2 = setEnv e' s := by rw [← setEnv_setEnv e' e s, ← he', hrule]
      split
      · exact .failed _ _ (worked_setEnv e' s)
      · exact (worked_setEnv e' s).ends (writePermuted_ends _ _ _)

theorem configureBody_ends_or_rebuilds (s : State) : Ends s (configureBody s) ∨ Rebuilds s (configureBody s) := by
  rcases configureBody_cases s with ⟨e, -, h⟩ | ⟨c, hc, h⟩
  · rw [h]
    exact .inl (.failed _ _ {})
  · rw [h]
    exact .inr (.configured {} hc)

theorem rekeyBody_ends_or_rebuilds (s : State) : Ends s (rekeyBody s) ∨ Rebuilds s (rekeyBody s) := by
  rcases rekeyBody_cases s with ⟨-, h⟩ | ⟨-, -, h⟩ | ⟨k, hkeyed, hk, h⟩
  · rw [h]
    exact .inl (.failed _ _ {})
  · rw [h]
    exact .inl (.failed _ _ {})
  · rw [h]
    exact .inr (.rekeyed {} hkeyed hk)

/-- The last step of a slow command ends it; only CONFIGURE and REKEY write the context. -/
theorem finishSlow_cases (cmd : SlowCmd) (s : State) :
    Ends s (finishSlow cmd s) ∨ (cmd = .configure ∨ cmd = .rekey) ∧ Rebuilds s (finishSlow cmd s) := by
  cases cmd with
  | configure => exact (configureBody_ends_or_rebuilds s).imp_right fun h => ⟨.inl rfl, h⟩
  | rekey => exact (rekeyBody_ends_or_rebuilds s).imp_right fun h => ⟨.inr rfl, h⟩
  | permute num => exact .inl (permuteBody_ends num s)
  | bitGet num v => exact .inl (finishBitGet_ends v s)
  | bitPut i a y => exact .inl (finishBitPut_ends i a y s)

/-! ### What an accepted command does -/

/-- What command `i`, accepted in `u`, leads to: its end, or a sequencer that runs on. -/
inductive Performed (i : Instr) (u : State) : State → Prop
  | ended {t : State} (h : Ends u t) : Performed i u t
  | rebuilt {t : State} (hi : i = .configure ∨ i = .rekey) (h : Rebuilds u t) : Performed i u t
  | slow {v : State} (cmd : SlowCmd) (k : Nat) (hv : Worked u v) (hkeyed : cmd = .configure → v.status.keyed = false) :
      Performed i u { v with seq := .slow cmd k }
  | message {v : State} (m : MsgRun) (hv : Worked u v) (hm : m.inFlight = none) (hc : v.status.configured = true) :
      Performed i u { v with seq := .msg m }

theorem Worked.performed {i : Instr} {u v t : State} (hv : Worked u v) (h : Performed i v t) : Performed i u t := by
  cases h with
  | ended h => exact .ended (hv.ends h)
  | rebuilt hi h => exact .rebuilt hi (hv.rebuilds h)
  | slow cmd k hw hkeyed => exact .slow cmd k (hv.trans hw) hkeyed
  | message m hw hm hc => exact .message m (hv.trans hw) hm hc

theorem Performed.kept {i : Instr} {u t : State} (h : Performed i u t) : Kept u t := by
  cases h with
  | ended h => exact h.kept
  | rebuilt _ h => exact h.kept
  | slow _ _ hv _ => exact hv.toKept.trans {}
  | message _ hv _ _ => exact hv.toKept.trans {}

theorem Performed.ctx {i : Instr} {u t : State} (h : Performed i u t) (h1 : i ≠ .configure) (h2 : i ≠ .rekey) :
    t.ctx = u.ctx := by
  cases h with
  | ended h => exact h.ctx
  | rebuilt hi _ => exact (hi.elim h1 h2).elim
  | slow _ _ hv _ => exact hv.ctx
  | message _ hv _ _ => exact hv.ctx

/-- STATE after a command was accepted: never IDLE, and never CANCELLED. -/
theorem Performed.engine {i : Instr} {u t : State} (h : Performed i u t) (hu : u.status.engine = .busy) :
    t.status.engine = .busy ∨ t.status.engine = .done ∨ t.status.engine = .failed := by
  cases h with
  | ended h => exact .inr h.engine
  | rebuilt _ h => exact .inr (.inl h.engine)
  | slow _ _ hv _ => exact .inl (hv.engine.trans hu)
  | message _ hv _ _ => exact .inl (hv.engine.trans hu)

/-- A slow command is launched: it ends now, or the sequencer holds it. -/
theorem launch_performed {i : Instr} {cmd : SlowCmd} (hconf : cmd = .configure → i = .configure)
    (hrekey : cmd = .rekey → i = .rekey) (k : Nat) (s : State) (hkeyed : cmd = .configure → s.status.keyed = false) :
    Performed i s (launch cmd (finishSlow cmd) k s) := by
  cases k with
  | zero =>
    rcases finishSlow_cases cmd s with h | ⟨hcmd, h⟩
    · exact .ended h
    · exact .rebuilt (hcmd.imp hconf hrekey) h
  | succ k => exact .slow cmd k {} hkeyed

theorem startSlow_performed {i : Instr} {cmd : SlowCmd} (hconf : cmd = .configure → i = .configure)
    (hrekey : cmd = .rekey → i = .rekey) (s : State) (hkeyed : cmd = .configure → s.status.keyed = false) :
    Performed i s (startSlow cmd s) := by
  obtain ⟨e, he⟩ := drawChoice_spec s
  unfold startSlow
  simp only [he]
  exact (worked_setEnv e s).performed (launch_performed hconf hrekey _ _ hkeyed)

/-- The end of a bit command's read: the command is launched for this step or the next. -/
theorem endBit_performed (i : Instr) {cmd : SlowCmd} (hconf : cmd ≠ .configure) (hrekey : cmd ≠ .rekey) (s : State) :
    Performed i s (endBit cmd (finishSlow cmd) s) := by
  obtain ⟨e, he⟩ := drawChoice_spec s
  unfold endBit
  simp only [he]
  exact (worked_setEnv e s).performed
    (launch_performed (fun h => absurd h hconf) (fun h => absurd h hrekey) _ _ fun h => absurd h hconf)

theorem getBitAt_performed (i : Instr) (num : Numbering) (a shift : Nat) (s : State) :
    Performed i s (getBitAt num a shift s) := by
  obtain ⟨⟨e, he⟩, -⟩ := busRead_spec a 1 s
  unfold getBitAt
  split
  · rename_i s1 h
    obtain rfl : s1 = setEnv e s := by rw [← he, h]
    exact .ended (.failed _ _ (worked_setEnv e s))
  · rename_i v s1 h
    obtain rfl : s1 = setEnv e s := by rw [← he, h]
    exact (worked_setEnv e s).performed
      (endBit_performed i (cmd := .bitGet num _) (by simp) (by simp) _)

theorem updateBitAt_performed (i : Instr) (change : Byte → Nat → Byte) (a shift : Nat) (s : State) :
    Performed i s (updateBitAt i change a shift s) := by
  obtain ⟨⟨e, he⟩, -⟩ := busRead_spec a 1 s
  unfold updateBitAt
  split
  · rename_i s1 h
    obtain rfl : s1 = setEnv e s := by rw [← he, h]
    exact .ended (.failed _ _ (worked_setEnv e s))
  · rename_i v s1 h
    obtain rfl : s1 = setEnv e s := by rw [← he, h]
    exact (worked_setEnv e s).performed
      (endBit_performed i (cmd := .bitPut i a _) (by simp) (by simp) _)

theorem atBit_performed (i : Instr) (num : Numbering) {rest : Nat → Nat → State → State}
    (hrest : ∀ a shift s, Performed i s (rest a shift s)) (s : State) : Performed i s (atBit i num rest s) := by
  unfold atBit
  split
  · exact .ended (.failed _ _ {})
  · split
    · exact .ended (.failed _ _ {})
    · exact hrest _ _ _

theorem startMsg_performed (i : Instr) (dir : Direction) (s : State) : Performed i s (startMsg dir s) := by
  unfold startMsg
  dsimp only
  split
  · exact .ended (.failed _ _ {})
  rename_i hconf
  split
  · exact .ended (.failed _ _ {})
  split
  · exact .ended (.failed _ _ {})
  split
  · exact .ended (.failed _ _ {})
  split
  · exact .ended (.failed _ _ {})
  · rename_i n _ _ _ _
    exact .message (v := { loadMsg dir n s with seq := s.seq }) _ {} rfl (by simpa using hconf)

/-! ### Executing a command word -/

/-- What command `i` does in `s` (30_encoding.md R60, R61). -/
inductive Executed (i : Instr) (s : State) : State → Prop
  | noEffect (hi : i = .nop ∨ i = .cancel) : Executed i s s
  | dropped (h : ¬ CanAccept s) : Executed i s (drop s)
  | acknowledged (hi : i = .ack) (h : CanAccept s) : Executed i s (acknowledge s)
  | cancelled (hi : i = .cancel) (hinit : s.status.initDone = true) (hbusy : s.status.engine = .busy) :
      Executed i s (cancelRunning s)
  | performed {t : State} (hi : i ≠ .ack) (h : CanAccept s) (ht : Performed i (accept i s) t) : Executed i s t

/-- A command other than NOP, ACK and CANCEL is dropped, or accepted and performed. -/
theorem issue_executed {i : Instr} {f : State → State} (hi : i ≠ .ack) (hf : ∀ u, Performed i u (f u))
    (s : State) : Executed i s (issue i f s) := by
  rcases guarded_cases (fun s => f (accept i s)) s with ⟨h, heq⟩ | ⟨h, heq⟩
  · rw [issue, heq]
    exact .performed hi h (hf _)
  · rw [issue, heq]
    exact .dropped h

theorem execAck_executed (s : State) : Executed .ack s (guarded acknowledge s) := by
  rcases guarded_cases acknowledge s with ⟨h, heq⟩ | ⟨h, heq⟩
  · rw [heq]
    exact .acknowledged rfl h
  · rw [heq]
    exact .dropped h

theorem execCancel_executed {s t : State} (h : execCancel s = .next t) : Executed .cancel s t := by
  unfold execCancel at h
  split at h
  · rename_i hinit
    cases h
    exact .dropped fun hacc => by simp [hacc.1] at hinit
  rename_i hinit
  split at h
  · rename_i hbusy
    cases h
    exact .cancelled rfl (by simpa using hinit) hbusy
  · cases h
    exact .noEffect (.inr rfl)

theorem dropContext_startSlow_performed (u : State) :
    Performed .configure u (startSlow .configure (dropContext u)) :=
  (worked_dropContext u).performed (startSlow_performed (fun _ => rfl) (by simp) _ fun _ => rfl)

/-- Every command answers a next state, one of those of `Executed`. -/
theorem exec_executed {i : Instr} {s t : State} (h : exec i s = .next t) : Executed i s t := by
  cases i with
  | nop => cases h; exact .noEffect (.inl rfl)
  | configure => cases h; exact issue_executed (by simp) dropContext_startSlow_performed s
  | rekey =>
    cases h
    exact issue_executed (by simp) (fun u => startSlow_performed (by simp) (fun _ => rfl) u (by simp)) s
  | ack => cases h; exact execAck_executed s
  | cancel => exact execCancel_executed h
  | blkEnc => cases h; exact issue_executed (by simp) (fun u => .ended (blockCommand_ends _ _ u)) s
  | blkDec => cases h; exact issue_executed (by simp) (fun u => .ended (blockCommand_ends _ _ u)) s
  | msgEnc => cases h; exact issue_executed (by simp) (startMsg_performed _ _) s
  | msgDec => cases h; exact issue_executed (by simp) (startMsg_performed _ _) s
  | bitGet num => cases h; exact issue_executed (by simp) (atBit_performed _ num (getBitAt_performed _ num)) s
  | bitSet num => cases h; exact issue_executed (by simp) (atBit_performed _ num (updateBitAt_performed _ _)) s
  | bitClr num => cases h; exact issue_executed (by simp) (atBit_performed _ num (updateBitAt_performed _ _)) s
  | bitTgl num => cases h; exact issue_executed (by simp) (atBit_performed _ num (updateBitAt_performed _ _)) s
  | permute num =>
    cases h
    exact issue_executed (by simp) (fun u => startSlow_performed (by simp) (by simp) u (by simp)) s
  | gfMul => cases h; exact issue_executed (by simp) (fun u => .ended (gfMulBody_ends u)) s
  | gfIrred => cases h; exact issue_executed (by simp) (fun u => .ended (finishResult_ends _ u)) s
  | padSet => cases h; exact issue_executed (by simp) (fun u => .ended (padSetBody_ends u)) s
  | padClr => cases h; exact issue_executed (by simp) (fun u => .ended (padClrBody_ends u)) s

end Sys2Proof.Machine
end

section
/-! PROOFS. The inversion lemmas of the decoder, of the engine's own step and of a step of the machine
(30_encoding.md R51, R53, R60; 10_state.md R13, R24). -/

namespace Sys2Proof.Machine

open Sys2Proof.Claim

/-! ### The word of a decoded command -/

/-- The three fields of a word make up the word (R51). -/
theorem wordOf_fieldsOf (w : Word) : wordOf (fieldsOf w) = w := by
  unfold wordOf fieldsOf
  rw [BitVec.extractLsb'_append_extractLsb'_eq_extractLsb' (by decide),
    BitVec.extractLsb'_append_extractLsb'_eq_extractLsb' (by decide), BitVec.extractLsb'_eq_self]

/-- A NUM code is that of the numbering it names (R57). -/
theorem numCode_numberingOf (n : BitVec 2) : numCode (numberingOf n) = n := by
  revert n
  decide

/-- The opcode that names a command is the command's own, and NUM is passed on where the opcode uses it (R53). -/
theorem opcode_of_instrOf {op : BitVec 8} {num : Numbering} {i : Instr} (h : instrOf op num = some i) :
    opcode i = op ∧ (op ∈ CmdFields.numOpcodes → numField i = numCode num) ∧
      (op ∉ CmdFields.numOpcodes → numField i = 0) := by
  have hofNat : BitVec.ofNat 8 op.toNat = op := by simp
  unfold instrOf at h
  split at h
  case h_19 => cases h
  all_goals
    rename_i hop
    cases h
    rw [hop] at hofNat
    subst hofNat
    exact ⟨rfl, by simp [CmdFields.numOpcodes, numField], by simp [CmdFields.numOpcodes, numField]⟩

/-- A word decodes to a command only if it is that command's word. -/
theorem eq_encode_of_decode {w : Word} {i : Instr} (h : decode w = .ok i) : w = encode i := by
  unfold decode at h
  dsimp only at h
  split at h
  · cases h
  rename_i hres
  split at h
  · cases h
  split at h
  · cases h
  rename_i hnum
  split at h
  swap
  · cases h
  rename_i hi
  cases h
  obtain ⟨hop, hused, hunused⟩ := opcode_of_instrOf hi
  have hfields : encodeFields i = fieldsOf w := by
    simp only [CmdFields.resZero, CmdFields.numAllowed, decide_eq_false_iff_not, not_not] at hres hnum
    have hnumField : numField i = (fieldsOf w).num := by
      by_cases hmem : (fieldsOf w).op ∈ CmdFields.numOpcodes
      · rw [hused hmem, numCode_numberingOf]
      · rw [hunused hmem, hnum.resolve_right hmem]
    rw [encodeFields, hop, hnumField, ← hres]
  rw [encode, hfields, wordOf_fieldsOf]

/-! ### A word written to CMD -/

/-- What the word `w` written to CMD does in `s` (R60, R58). -/
inductive CommandRun (w : Word) (s : State) : State → Prop
  | executed {t : State} (i : Instr) (hw : decode w = .ok i) (h : Executed i s t) : CommandRun w s t
  | dropped (h : ¬ CanAccept s) : CommandRun w s (drop s)
  | illegal (e : DecodeError) (hw : decode w = .error e) (h : CanAccept s) :
      CommandRun w s (raise .illegalCommand (w.extractLsb' 0 8) s)

theorem cmdWrite_commandRun {w : Word} {s t : State} (h : cmdWrite w s = .next t) : CommandRun w s t := by
  unfold cmdWrite at h
  split at h
  · rename_i i hi
    exact .executed i hi (exec_executed h)
  · rename_i e he
    cases h
    rcases guarded_cases (raise .illegalCommand (w.extractLsb' 0 8)) s with ⟨hacc, heq⟩ | ⟨hacc, heq⟩
    · rw [issueIllegal, heq]
      exact .illegal e he hacc
    · rw [issueIllegal, heq]
      exact .dropped hacc

/-! ### The engine's own step -/

/-- A block step of a message ends the command with BUS_ERROR, or leaves it running with the same blocks in flight but
its own (46_modes.md R126, R131). -/
theorem blockStep_cases_running (m : MsgRun) (l : Nat) (s : State) :
    Ends s (blockStep m l s) ∨
    ∃ v, Worked s v ∧ v.status = s.status ∧ blockStep m l s = { v with seq := .msg (advanceRun m l) } := by
  rcases blockStep_cases m l s with ⟨e, h⟩ | ⟨e, x, c, y, h, -⟩
  · rw [h]
    exact .inl (.failed _ _ (worked_setEnv e s))
  · exact .inr ⟨{ blockStep m l s with seq := s.seq }, by rw [h]; exact {}, by rw [h]; rfl, by rw [h]; rfl⟩

/-- What the engine's next step leads to from `s` (10_state.md R24, 70_reset_and_hazards.md R152). -/
inductive EngineStepped (s : State) : State → Prop
  | idle (hseq : s.seq = .idle) : EngineStepped s s
  | initialised (hseq : s.seq = .init 0) : EngineStepped s (finishInit s)
  | initialising (k : Nat) (hseq : s.seq = .init (k + 1)) : EngineStepped s { s with seq := .init k }
  | slow (cmd : SlowCmd) (k : Nat) (hseq : s.seq = .slow cmd (k + 1)) : EngineStepped s { s with seq := .slow cmd k }
  | ended {t : State} (hseq : s.seq ≠ .idle) (hinit : ∀ k, s.seq ≠ .init k) (h : Ends s t) : EngineStepped s t
  | rebuilt {t : State} (hseq : s.seq = .slow .configure 0 ∨ s.seq = .slow .rekey 0) (h : Rebuilds s t) :
      EngineStepped s t
  | cancelled {v : State} (m : MsgRun) (hseq : s.seq = .msg m) (hv : Worked s v) :
      EngineStepped s (terminal .cancelled v)
  | block {v : State} (m m' : MsgRun) (hseq : s.seq = .msg m) (hv : Worked s v) (hstatus : v.status = s.status)
      (hm : m'.inFlight.isSome = m.inFlight.isSome) : EngineStepped s { v with seq := .msg m' }

theorem slowStep_engineStepped {cmd : SlowCmd} {left : Nat} {s : State} (hseq : s.seq = .slow cmd left) :
    EngineStepped s (slowStep cmd left s) := by
  cases left with
  | zero =>
    rcases finishSlow_cases cmd s with h | ⟨rfl | rfl, h⟩
    · exact .ended (by simp [hseq]) (by simp [hseq]) h
    · exact .rebuilt (.inl hseq) h
    · exact .rebuilt (.inr hseq) h
  | succ k => exact .slow cmd k hseq

theorem msgStep_engineStepped {m : MsgRun} {s : State} (hseq : s.seq = .msg m) : EngineStepped s (msgStep m s) := by
  rcases msgStep_cases m s with ⟨-, h⟩ | ⟨l, e, -, h⟩
  · rw [h]
    rcases finishMsg_cases m s with ⟨-, n, w, h⟩ | ⟨-, h⟩
    · rw [h]
      exact .ended (by simp [hseq]) (by simp [hseq]) (.done { padWarn := fun hw => by simp [hw] })
    · rw [h]
      exact .cancelled m hseq {}
  · rw [h]
    have he := worked_setEnv e s
    rcases blockStep_cases_running m l (setEnv e s) with h | ⟨v, hv, hstatus, h⟩
    · exact .ended (by simp [hseq]) (by simp [hseq]) (he.ends h)
    · rw [h]
      exact .block m _ hseq (he.trans hv) hstatus (by simp [advanceRun])

/-- Every engine step is one of those of `EngineStepped`. -/
theorem engineStep_engineStepped (s : State) : EngineStepped s (engineStep s) := by
  unfold engineStep
  split
  · rename_i hseq
    exact .idle hseq
  · rename_i left hseq
    cases left with
    | zero => exact .initialised hseq
    | succ k => exact .initialising k hseq
  · rename_i cmd left hseq
    exact slowStep_engineStepped hseq
  · rename_i m hseq
    exact msgStep_engineStepped hseq

/-! ### Registers of the window -/

theorem eq_of_regAt_eq_cmd {o : Nat} (h : regAt o = .cmd) : o = 0x004 := by
  unfold regAt at h
  split at h
  case h_2 => rfl
  case h_27 => grind
  all_goals cases h

theorem eq_of_regAt_eq_irqStatus {o : Nat} (h : regAt o = .irqStatus) : o = 0x014 := by
  unfold regAt at h
  split at h
  case h_6 => rfl
  case h_27 => grind
  all_goals cases h

/-! ### A step of the machine -/

/-- The machine with the next action of the outside world taken off its list. -/
def afterHost (s : State) : State := { s with host := s.host.tail }

/-- What a step of the machine leads to from `s` (20_memory.md R31, R36, R39; 70_reset_and_hazards.md R151). -/
inductive Stepped (s : State) : State → Prop
  | engine {t : State} (h : engineTurn s) (ht : EngineStepped (afterHost s) t) : Stepped s t
  | command {t : State} (w : Word) (h : writesCommand s w) (ht : CommandRun w (afterHost s) t) : Stepped s t
  | register (a : WindowAddr) (o : Nat) (v : Word) (h : s.host.head? = some (.regWrite a .bits32 v))
      (ho : windowOffset a = some o) (hcmd : o ≠ 0x004) : Stepped s (writeReg (regAt o) v (afterHost s))
  | access (mem : Memory) (raced : List Nat) (e : Env) (lanes : List (Nat × LaneRegs)) (r : Option HostResponse) :
      Stepped s
        { afterHost s with
          mem := mem
          raced := raced
          env := e
          dp := { s.dp with lanes := lanes }
          response := r }
  | reset (k : Nat) (e : Env) (h : s.host.head? = some .reset) : Stepped s (resetEngine k (setEnv e (afterHost s)))

/-- An aligned access inside the window goes to the register there. -/
theorem atOffset_next {o : Nat} {width : AccessWidth} {f : Reg → Host.Outcome State Fault Refusal} {t : State}
    (h : atOffset o width f = .next t) : width = .bits32 ∧ o % 4 = 0 ∧ o < 256 ∧ f (regAt o) = .next t := by
  unfold atOffset at h
  split at h
  · cases h
  rename_i haligned
  split at h
  · cases h
  rename_i ho
  simp only [not_or, not_not] at haligned
  exact ⟨haligned.1, haligned.2, by omega, h⟩

theorem atOffset_of_aligned {o : Nat} (halign : o % 4 = 0) (ho : o < 256)
    (f : Reg → Host.Outcome State Fault Refusal) : atOffset o .bits32 f = f (regAt o) := by
  simp [atOffset, halign, ho]

/-- A host access to data memory that the machine carries out. -/
theorem atMemory_next {a n : Nat} {s access t : State} (h : atMemory a n s access = .next t) : t = access := by
  unfold atMemory at h
  split at h
  · cases h
  split at h
  · cases h
  · cases h
    rfl

theorem hostRegWrite_stepped {s t : State} {a : WindowAddr} {width : AccessWidth} {v : Word}
    (hhost : s.host.head? = some (.regWrite a width v)) (h : hostRegWrite a width v (afterHost s) = .next t) :
    Stepped s t := by
  unfold hostRegWrite at h
  split at h
  · cases h
    exact .access s.mem s.raced s.env s.dp.lanes s.response
  rename_i o ho
  obtain ⟨rfl, -, -, h⟩ := atOffset_next h
  split at h
  · rename_i hreg
    exact .command v ⟨a, hhost, by rw [ho, eq_of_regAt_eq_cmd hreg]⟩ (cmdWrite_commandRun h)
  · rename_i hreg
    cases h
    refine .register a o v hhost ho ?_
    rintro rfl
    exact hreg rfl

theorem hostRegRead_stepped {s t : State} {a : WindowAddr} {width : AccessWidth}
    (h : hostRegRead a width (afterHost s) = .next t) : Stepped s t := by
  unfold hostRegRead at h
  split at h
  · cases h
    exact .access s.mem s.raced s.env s.dp.lanes s.response
  · obtain ⟨-, -, -, h⟩ := atOffset_next h
    cases h
    exact .access s.mem s.raced s.env s.dp.lanes _

/-- Racing inputs changes data memory, the raced bytes, the environment and the lane registers alone. -/
theorem raceInputs_spec (a n : Nat) (s : State) :
    ∃ mem raced e lanes,
      raceInputs a n s = { s with mem := mem, raced := raced, env := e, dp := { s.dp with lanes := lanes } } := by
  rcases raceInputs_cases a n s with ⟨-, h⟩ | ⟨-, h⟩
  · exact ⟨s.mem, s.raced, s.env, s.dp.lanes, h⟩
  · obtain ⟨mem, e, lanes, hfree, -⟩ := freeOutput_spec { s with raced := s.raced ++ hitInputs a n s }
    exact ⟨mem, s.raced ++ hitInputs a n s, e, lanes, h.trans hfree⟩

theorem hostMemWrite_stepped {s t : State} {a : Nat} {b : List Byte}
    (h : hostMemWrite a b (afterHost s) = .next t) : Stepped s t := by
  obtain ⟨mem, raced, e, lanes, hrace⟩ :=
    raceInputs_spec a b.length { afterHost s with mem := writeBytes (afterHost s).mem a b }
  rw [atMemory_next h, hrace]
  exact .access mem raced e lanes s.response

theorem hostMemRead_stepped {s t : State} {a n : Nat} (h : hostMemRead a n (afterHost s) = .next t) :
    Stepped s t := by
  obtain ⟨⟨e, he⟩, -⟩ := observed_spec a (readBytes (afterHost s).mem a n) (afterHost s)
  unfold hostMemRead at h
  simp only [he] at h
  rw [atMemory_next h]
  exact .access s.mem s.raced e s.dp.lanes _

theorem hostReset_stepped {s : State} (hhost : s.host.head? = some .reset) : Stepped s (hostReset (afterHost s)) := by
  obtain ⟨e, he⟩ := drawChoice_spec (afterHost s)
  unfold hostReset
  simp only [he]
  exact .reset _ e hhost

/-- Every step of the machine is one of those of `Stepped`. -/
theorem step_stepped {s t : State} (h : step s = .next t) : Stepped s t := by
  unfold step at h
  split at h
  · rename_i hhost
    cases h
    have hs : afterHost s = s := by rw [afterHost, hhost, List.tail_nil, ← hhost]
    refine .engine (.inl (by simp [hhost])) ?_
    rw [hs]
    exact engineStep_engineStepped s
  rename_i op rest hhost
  have hhead : s.host.head? = some op := by simp [hhost]
  have hrest : { s with host := rest } = afterHost s := by simp [afterHost, hhost]
  rw [hrest] at h
  cases op with
  | regWrite a width v => exact hostRegWrite_stepped hhead h
  | regRead a width => exact hostRegRead_stepped h
  | memWrite a b => exact hostMemWrite_stepped h
  | memRead a n => exact hostMemRead_stepped h
  | idle =>
    cases h
    exact .engine (.inr hhead) (engineStep_engineStepped _)
  | reset =>
    cases h
    exact hostReset_stepped hhead

end Sys2Proof.Machine
end

section
/-! PROOFS. STATUS, ERROR and the sequencer agree after every step (10_state.md R17, R18, R25; 60_exceptions.md R135,
R136; 46_modes.md R131). -/

namespace Sys2Proof.Machine

open Sys2Proof.Claim

/-! ### What a register write leaves as it was -/

@[simp] theorem writeReg_params (r : Reg) (v : Word) (s : State) : (writeReg r v s).params = s.params := by
  cases r <;> rfl
@[simp] theorem writeReg_status (r : Reg) (v : Word) (s : State) : (writeReg r v s).status = s.status := by
  cases r <;> rfl
@[simp] theorem writeReg_error (r : Reg) (v : Word) (s : State) : (writeReg r v s).error = s.error := by
  cases r <;> rfl
@[simp] theorem writeReg_latched (r : Reg) (v : Word) (s : State) : (writeReg r v s).latched = s.latched := by
  cases r <;> rfl
@[simp] theorem writeReg_ctx (r : Reg) (v : Word) (s : State) : (writeReg r v s).ctx = s.ctx := by
  cases r <;> rfl
@[simp] theorem writeReg_ftab (r : Reg) (v : Word) (s : State) : (writeReg r v s).ftab = s.ftab := by
  cases r <;> rfl
@[simp] theorem writeReg_seq (r : Reg) (v : Word) (s : State) : (writeReg r v s).seq = s.seq := by
  cases r <;> rfl
@[simp] theorem writeReg_mem (r : Reg) (v : Word) (s : State) : (writeReg r v s).mem = s.mem := by
  cases r <;> rfl

/-- Only a write of 1 to its bit of IRQ_STATUS clears TERMINAL (10_state.md R19). -/
theorem writeReg_irqTerminal (r : Reg) (v : Word) (s : State) :
    (writeReg r v s).irqTerminal = (s.irqTerminal && !(decide (r = .irqStatus) && v.getLsbD 0)) := by
  cases r with
  | irqStatus => rfl
  | _ => simp [writeReg]

/-! ### What CANCEL leaves as it was -/

/-- CANCEL of a running command sets CANCEL_PENDING, and for a message chooses the blocks in flight
(46_modes.md R131). -/
theorem cancelRunning_cases (s : State) :
    (s.status.cancelPending = true ∧ cancelRunning s = s) ∨
    ((∀ m, s.seq ≠ .msg m) ∧ cancelRunning s = { s with status := { s.status with cancelPending := true } }) ∨
    ∃ m e f, s.seq = .msg m ∧
      cancelRunning s =
        { s with
          status := { s.status with cancelPending := true }
          env := e
          seq := .msg { m with inFlight := some f } } := by
  unfold cancelRunning
  split
  · rename_i h
    exact .inl ⟨h, rfl⟩
  dsimp only
  split
  · rename_i m hseq
    obtain ⟨e, he⟩ := drawChoice_spec { s with status := { s.status with cancelPending := true } }
    exact .inr (.inr ⟨m, e, _, hseq, by rw [he]; rfl⟩)
  all_goals
    rename_i hseq
    exact .inr (.inl ⟨by simp [hseq], rfl⟩)

theorem cancelRunning_kept (s : State) : Kept s (cancelRunning s) := by
  rcases cancelRunning_cases s with ⟨-, h⟩ | ⟨-, h⟩ | ⟨m, e, f, -, h⟩
  · rw [h]
    exact {}
  · rw [h]
    exact {}
  · rw [h]
    exact {}

/-- CANCEL changes STATUS in CANCEL_PENDING alone, and not the context. -/
theorem cancelRunning_status_ctx (s : State) :
    (cancelRunning s).status = { s.status with cancelPending := true } ∧ (cancelRunning s).ctx = s.ctx := by
  rcases cancelRunning_cases s with ⟨hc, h⟩ | ⟨-, h⟩ | ⟨m, e, f, -, h⟩
  · rw [h, ← hc]
    exact ⟨rfl, rfl⟩
  · rw [h]
    exact ⟨rfl, rfl⟩
  · rw [h]
    exact ⟨rfl, rfl⟩

/-! ### The control invariant -/

/-- The control invariant speaks of STATUS, ERROR and the sequencer alone. -/
theorem ControlInv.congr {s t : State} (h : ControlInv s) (hstatus : t.status = s.status) (herror : t.error = s.error)
    (hseq : t.seq = s.seq) : ControlInv t := by
  cases s
  cases t
  cases hstatus
  cases herror
  cases hseq
  exact { h with }

theorem ControlInv.afterHost {s : State} (h : ControlInv s) : ControlInv (afterHost s) := { h with }

/-- While BUSY no error is recorded. -/
theorem ControlInv.error_of_busy {s : State} (h : ControlInv s) (hb : s.status.engine = .busy) : s.error = none := by
  have hiff := h.error_iff_failed
  simpa [hb] using hiff

theorem ControlInv.initDone_of_seq {s : State} (h : ControlInv s) (hseq : ∀ k, s.seq ≠ .init k) :
    s.status.initDone = true := by
  by_contra hinit
  obtain ⟨k, hk⟩ := h.init_iff.1 (by simpa using hinit)
  exact hseq k hk

theorem ControlInv.seq_of_canAccept {s : State} (h : ControlInv s) (hacc : CanAccept s) : s.seq = .idle := by
  by_contra hseq
  exact hacc.2 (h.busy_iff_running.2 hseq)

theorem ControlInv.cancelPending_of_canAccept {s : State} (h : ControlInv s) (hacc : CanAccept s) :
    s.status.cancelPending = false := by
  by_contra hc
  exact hacc.2 (h.cancel_only_busy (by simpa using hc)).1

/-- A state in which nothing runs meets the control invariant when ERROR says FAILED and the flags agree. -/
theorem controlInv_of_seq_idle {t : State} (hseq : t.seq = .idle) (hbusy : t.status.engine ≠ .busy)
    (hinit : t.status.initDone = true) (hcancel : t.status.cancelPending = false)
    (herror : t.error.isSome = true ↔ t.status.engine = .failed) (hkeyed : t.status.keyed = t.status.configured) :
    ControlInv t where
  busy_iff_running := by simp [hseq, hbusy]
  init_iff := by simp [hseq, hinit]
  error_iff_failed := herror
  keyed_eq_configured := hkeyed
  cancel_only_busy h := by simp [hcancel] at h
  cancel_iff_inFlight m h := by simp [hseq] at h
  msg_configured m h := by simp [hseq] at h
  configure_unkeyed k h := by simp [hseq] at h

theorem Ends.controlInv {u t : State} (h : Ends u t) (herror : u.error = none) (hinit : u.status.initDone = true)
    (hkeyed : u.status.keyed = u.status.configured) : ControlInv t := by
  cases h with
  | done hv =>
    refine controlInv_of_seq_idle rfl (by simp) (hv.initDone.trans hinit) rfl ?_ (hv.keyed_eq_configured hkeyed)
    simp [hv.error, herror]
  | failed c op hv =>
    exact controlInv_of_seq_idle rfl (by simp) (hv.initDone.trans hinit) rfl (by simp) (hv.keyed_eq_configured hkeyed)

theorem Rebuilds.controlInv {u t : State} (h : Rebuilds u t) (herror : u.error = none)
    (hinit : u.status.initDone = true) (hkeyed : u.status.keyed = u.status.configured) : ControlInv t := by
  cases h with
  | configured hv _ =>
    exact controlInv_of_seq_idle rfl (by simp) (hv.initDone.trans hinit) rfl (by simp [hv.error, herror]) rfl
  | rekeyed hv _ _ =>
    exact controlInv_of_seq_idle rfl (by simp) (hv.initDone.trans hinit) rfl (by simp [hv.error, herror])
      (hv.keyed_eq_configured hkeyed)

/-- A command that was accepted after initialisation, with no CANCEL pending, leaves the control invariant. -/
theorem Performed.controlInv {i : Instr} {u t : State} (h : Performed i u t) (hbusy : u.status.engine = .busy)
    (herror : u.error = none) (hinit : u.status.initDone = true) (hcancel : u.status.cancelPending = false)
    (hkeyed : u.status.keyed = u.status.configured) : ControlInv t := by
  cases h with
  | ended h => exact h.controlInv herror hinit hkeyed
  | rebuilt _ h => exact h.controlInv herror hinit hkeyed
  | slow cmd k hv hunkeyed =>
    exact
      { busy_iff_running := by simp [hv.engine, hbusy]
        init_iff := by simp [hv.initDone, hinit]
        error_iff_failed := by simp [hv.error, herror, hv.engine, hbusy]
        keyed_eq_configured := hv.keyed_eq_configured hkeyed
        cancel_only_busy := by simp [hv.cancelPending, hcancel]
        cancel_iff_inFlight := by simp
        msg_configured := by simp
        configure_unkeyed := fun _ hseq => hunkeyed (by cases hseq; rfl) }
  | message m hv hm hconf =>
    exact
      { busy_iff_running := by simp [hv.engine, hbusy]
        init_iff := by simp [hv.initDone, hinit]
        error_iff_failed := by simp [hv.error, herror, hv.engine, hbusy]
        keyed_eq_configured := hv.keyed_eq_configured hkeyed
        cancel_only_busy := by simp [hv.cancelPending, hcancel]
        cancel_iff_inFlight := by simp [hv.cancelPending, hcancel, hm]
        msg_configured := fun _ _ => hconf
        configure_unkeyed := by simp }

theorem drop_controlInv {s : State} (h : ControlInv s) : ControlInv (drop s) := { h with }

theorem acknowledge_controlInv {s : State} (h : ControlInv s) (hacc : CanAccept s) : ControlInv (acknowledge s) :=
  controlInv_of_seq_idle (h.seq_of_canAccept hacc) (by simp) hacc.1 (h.cancelPending_of_canAccept hacc) (by simp)
    h.keyed_eq_configured

theorem cancelRunning_controlInv {s : State} (h : ControlInv s) (hinit : s.status.initDone = true)
    (hbusy : s.status.engine = .busy) : ControlInv (cancelRunning s) := by
  rcases cancelRunning_cases s with ⟨-, heq⟩ | ⟨hmsg, heq⟩ | ⟨m, e, f, hseq, heq⟩
  · rw [heq]
    exact h
  · rw [heq]
    exact
      { h with
        cancel_only_busy := fun _ => ⟨hbusy, hinit⟩
        cancel_iff_inFlight := fun m hseq => absurd hseq (hmsg m) }
  · rw [heq]
    exact
      { h with
        busy_iff_running := by simp [hbusy]
        init_iff := by simp [hinit]
        cancel_only_busy := fun _ => ⟨hbusy, hinit⟩
        cancel_iff_inFlight := by simp
        msg_configured := fun _ _ => h.msg_configured m hseq
        configure_unkeyed := by simp }

theorem Executed.controlInv {i : Instr} {s t : State} (h : Executed i s t) (hs : ControlInv s) : ControlInv t := by
  cases h with
  | noEffect _ => exact hs
  | dropped _ => exact drop_controlInv hs
  | acknowledged _ hacc => exact acknowledge_controlInv hs hacc
  | cancelled _ hinit hbusy => exact cancelRunning_controlInv hs hinit hbusy
  | performed _ hacc hp =>
    exact hp.controlInv rfl rfl hacc.1 (hs.cancelPending_of_canAccept hacc) hs.keyed_eq_configured

theorem CommandRun.controlInv {w : Word} {s t : State} (h : CommandRun w s t) (hs : ControlInv s) : ControlInv t := by
  cases h with
  | executed i _ h => exact h.controlInv hs
  | dropped _ => exact drop_controlInv hs
  | illegal _ _ hacc => exact controlInv_of_seq_idle rfl (by simp) hacc.1 rfl (by simp) hs.keyed_eq_configured

theorem EngineStepped.controlInv {s t : State} (h : EngineStepped s t) (hs : ControlInv s) : ControlInv t := by
  have hbusy : s.seq ≠ .idle → s.status.engine = .busy := hs.busy_iff_running.2
  cases h with
  | idle _ => exact hs
  | initialised hseq =>
    have hb := hbusy (by simp [hseq])
    have hinit := hs.init_iff.2 ⟨0, hseq⟩
    have hcancel : s.status.cancelPending = false := by
      by_contra hc
      have hdone := (hs.cancel_only_busy (by simpa using hc)).2
      simp [hinit] at hdone
    exact controlInv_of_seq_idle rfl (by simp) rfl hcancel (by simp [hs.error_of_busy hb]) hs.keyed_eq_configured
  | initialising k hseq =>
    have hb := hbusy (by simp [hseq])
    have hinit := hs.init_iff.2 ⟨_, hseq⟩
    exact
      { hs with
        busy_iff_running := by simp [hb]
        init_iff := by simp [hinit]
        cancel_iff_inFlight := by simp
        msg_configured := by simp
        configure_unkeyed := by simp }
  | slow cmd k hseq =>
    have hb := hbusy (by simp [hseq])
    have hinit := hs.initDone_of_seq (by simp [hseq])
    exact
      { hs with
        busy_iff_running := by simp [hb]
        init_iff := by simp [hinit]
        cancel_iff_inFlight := by simp
        msg_configured := by simp
        configure_unkeyed := fun _ h => hs.configure_unkeyed (k + 1) (by cases h; exact hseq) }
  | ended hseq hnoinit h =>
    exact h.controlInv (hs.error_of_busy (hbusy hseq)) (hs.initDone_of_seq hnoinit) hs.keyed_eq_configured
  | rebuilt hseq h =>
    have hrunning : s.seq ≠ .idle ∧ ∀ k, s.seq ≠ .init k := by rcases hseq with hseq | hseq <;> simp [hseq]
    exact h.controlInv (hs.error_of_busy (hbusy hrunning.1)) (hs.initDone_of_seq hrunning.2) hs.keyed_eq_configured
  | cancelled m hseq hv =>
    have hinit := hs.initDone_of_seq (by simp [hseq])
    have herror := hs.error_of_busy (hbusy (by simp [hseq]))
    exact controlInv_of_seq_idle rfl (by simp) (hv.initDone.trans hinit) rfl (by simp [hv.error, herror])
      (hv.keyed_eq_configured hs.keyed_eq_configured)
  | block m m' hseq hv hstatus hm =>
    have hb := hbusy (by simp [hseq])
    have hinit := hs.initDone_of_seq (by simp [hseq])
    exact
      { busy_iff_running := by simp [hstatus, hb]
        init_iff := by simp [hstatus, hinit]
        error_iff_failed := by simp [hv.error, hstatus, hs.error_iff_failed]
        keyed_eq_configured := by simp [hstatus, hs.keyed_eq_configured]
        cancel_only_busy := by simpa [hstatus] using hs.cancel_only_busy
        cancel_iff_inFlight := by
          intro m'' h
          cases h
          simpa [hstatus, hm] using hs.cancel_iff_inFlight m hseq
        msg_configured := fun _ _ => by simpa [hstatus] using hs.msg_configured m hseq
        configure_unkeyed := by simp }

@[simp] theorem resetEngine_status (k : Nat) (s : State) : (resetEngine k s).status = Status.reset := rfl
@[simp] theorem resetEngine_error (k : Nat) (s : State) : (resetEngine k s).error = none := rfl
@[simp] theorem resetEngine_seq (k : Nat) (s : State) : (resetEngine k s).seq = .init k := rfl

theorem resetEngine_controlInv (k : Nat) (s : State) : ControlInv (resetEngine k s) where
  busy_iff_running := by simp [Status.reset]
  init_iff := by simp [Status.reset]
  error_iff_failed := by simp [Status.reset]
  keyed_eq_configured := rfl
  cancel_only_busy := by simp [Status.reset]
  cancel_iff_inFlight := by simp
  msg_configured := by simp
  configure_unkeyed := by simp

/-- Settles O55: the invariant holds after each kind of step. -/
theorem stepKeepsControl : Obligations.StepKeepsControl := by
  intro s t hs hstep
  cases step_stepped hstep with
  | engine _ ht => exact ht.controlInv hs.afterHost
  | command w _ ht => exact ht.controlInv hs.afterHost
  | register a o v _ _ _ => exact hs.afterHost.congr (by simp) (by simp) (by simp)
  | access mem raced e lanes r => exact hs.afterHost.congr rfl rfl rfl
  | reset k e _ => exact resetEngine_controlInv _ _

end Sys2Proof.Machine
end

section
/-! PROOFS. What commands and steps write: FTAB and the context, the host's registers, STATE and the sticky bits
(10_state.md R15, R17, R19, R21, R25, R27; 46_modes.md R120, R121; 42_key_schedules.md R82, R90). -/

namespace Sys2Proof.Machine

open Sys2Proof.Claim

/-! ### What a command word leaves as it was -/

theorem acknowledge_hostSideKept (s : State) : HostSideKept s (acknowledge s) where

theorem Executed.hostSideKept {i : Instr} {s t : State} (h : Executed i s t) : HostSideKept s t := by
  cases h with
  | noEffect _ => exact {}
  | dropped _ => exact {}
  | acknowledged _ _ => exact acknowledge_hostSideKept s
  | cancelled _ _ _ => exact (cancelRunning_kept s).toHostSideKept
  | performed _ _ hp => exact HostSideKept.trans (v := accept i s) {} hp.kept.toHostSideKept

/-- Only ACK clears a sticky bit of STATUS (46_modes.md R132). -/
theorem Executed.kept {i : Instr} {s t : State} (h : Executed i s t) (hi : i ≠ .ack) : Kept s t := by
  cases h with
  | noEffect _ => exact {}
  | dropped _ => exact { cmdDropped := fun _ => rfl }
  | acknowledged hack _ => exact absurd hack hi
  | cancelled _ _ _ => exact cancelRunning_kept s
  | performed _ _ hp => exact Kept.trans (v := accept i s) {} hp.kept

theorem CommandRun.kept {w : Word} {s t : State} (h : CommandRun w s t) (hw : w ≠ 3) : Kept s t := by
  cases h with
  | executed i hdec h =>
    refine h.kept ?_
    rintro rfl
    exact hw (eq_encode_of_decode hdec)
  | dropped _ => exact { cmdDropped := fun _ => rfl }
  | illegal _ _ _ => exact kept_raise _ _ _

theorem CommandRun.hostSideKept {w : Word} {s t : State} (h : CommandRun w s t) : HostSideKept s t := by
  cases h with
  | executed i _ h => exact h.hostSideKept
  | dropped _ => exact {}
  | illegal _ _ _ => exact (kept_raise _ _ _).toHostSideKept

theorem Executed.ctx {i : Instr} {s t : State} (h : Executed i s t) (h1 : i ≠ .configure) (h2 : i ≠ .rekey) :
    t.ctx = s.ctx := by
  cases h with
  | noEffect _ => rfl
  | dropped _ => rfl
  | acknowledged _ _ => rfl
  | cancelled _ _ _ => exact (cancelRunning_status_ctx s).2
  | performed _ _ hp => exact hp.ctx h1 h2

/-- A word that changes the context is that of CONFIGURE or of REKEY. -/
theorem CommandRun.word_of_ctx_ne {w : Word} {s t : State} (h : CommandRun w s t) (hne : t.ctx ≠ s.ctx) :
    w = 1 ∨ w = 2 := by
  cases h with
  | executed i hdec h =>
    by_cases h1 : i = .configure
    · subst h1
      exact .inl (eq_encode_of_decode hdec)
    by_cases h2 : i = .rekey
    · subst h2
      exact .inr (eq_encode_of_decode hdec)
    exact absurd (h.ctx h1 h2) hne
  | dropped _ => exact absurd rfl hne
  | illegal _ _ _ => exact absurd rfl hne

/-- A word that changes STATE was accepted; it leads to IDLE exactly when it is that of ACK, and never to CANCELLED. -/
theorem CommandRun.engine_of_ne {w : Word} {s t : State} (h : CommandRun w s t)
    (hne : t.status.engine ≠ s.status.engine) :
    CanAccept s ∧ (t.status.engine = .idle ↔ w = 3) ∧ t.status.engine ≠ .cancelled := by
  cases h with
  | executed i hdec h =>
    cases h with
    | noEffect _ => exact absurd rfl hne
    | dropped _ => exact absurd rfl hne
    | acknowledged hi hacc =>
      subst hi
      exact ⟨hacc, iff_of_true rfl (eq_encode_of_decode hdec), by simp⟩
    | cancelled _ _ _ => exact absurd (by rw [(cancelRunning_status_ctx s).1]) hne
    | performed hi hacc hp =>
      have hw : w ≠ 3 := by
        rintro rfl
        cases hdec
        exact hi rfl
      have hstate : t.status.engine ≠ .idle ∧ t.status.engine ≠ .cancelled := by
        rcases hp.engine rfl with h | h | h <;> simp [h]
      exact ⟨hacc, iff_of_false hstate.1 hw, hstate.2⟩
  | dropped _ => exact absurd rfl hne
  | illegal e hdec hacc =>
    have hw : w ≠ 3 := by
      rintro rfl
      cases hdec
    exact ⟨hacc, iff_of_false (by simp) hw, by simp⟩

/-! ### What the engine's step leaves as it was -/

/-- The engine's step keeps what a command keeps, but where it ends initialisation. -/
theorem EngineStepped.kept {s t : State} (h : EngineStepped s t) :
    Kept s t ∨ s.seq = .init 0 ∧ t = finishInit s := by
  cases h with
  | idle _ => exact .inl {}
  | initialised hseq => exact .inr ⟨hseq, rfl⟩
  | initialising _ _ => exact .inl {}
  | slow _ _ _ => exact .inl {}
  | ended _ _ h => exact .inl h.kept
  | rebuilt _ h => exact .inl h.kept
  | cancelled _ _ hv => exact .inl (hv.toKept.trans (kept_terminal _ _))
  | block _ _ _ hv _ _ => exact .inl (hv.toKept.trans {})

/-- The engine's step clears no sticky bit. -/
theorem EngineStepped.sticky {s t : State} (h : EngineStepped s t) :
    (s.status.padWarn = true → t.status.padWarn = true) ∧
    (s.status.cmdDropped = true → t.status.cmdDropped = true) ∧ (s.irqTerminal = true → t.irqTerminal = true) := by
  rcases h.kept with hk | ⟨-, rfl⟩
  · exact ⟨hk.padWarn, hk.cmdDropped, hk.irqTerminal⟩
  · exact ⟨id, id, id⟩

/-- The engine's step changes the context only where it ends CONFIGURE or REKEY. -/
theorem EngineStepped.ctx {s t : State} (h : EngineStepped s t) :
    t.ctx = s.ctx ∨ s.seq = .slow .configure 0 ∨ s.seq = .slow .rekey 0 := by
  cases h with
  | idle _ => exact .inl rfl
  | initialised _ => exact .inl rfl
  | initialising _ _ => exact .inl rfl
  | slow _ _ _ => exact .inl rfl
  | ended _ _ h => exact .inl h.ctx
  | rebuilt hseq _ => exact .inr hseq
  | cancelled _ _ hv => exact .inl hv.ctx
  | block _ _ _ hv _ _ => exact .inl hv.ctx

/-- Where the engine's step changes STATE, something ran, and it ended: initialisation in IDLE, a command in a terminal
state. -/
theorem EngineStepped.engine_of_ne {s t : State} (h : EngineStepped s t) (hs : ControlInv s)
    (hne : t.status.engine ≠ s.status.engine) :
    s.status.engine = .busy ∧
      (if s.status.initDone then isTerminal t.status.engine = true else t.status.engine = .idle) := by
  have hbusy : s.seq ≠ .idle → s.status.engine = .busy := hs.busy_iff_running.2
  cases h with
  | idle _ => exact absurd rfl hne
  | initialised hseq => simp [hbusy (by simp [hseq]), hs.init_iff.2 ⟨0, hseq⟩]
  | initialising _ _ => exact absurd rfl hne
  | slow _ _ _ => exact absurd rfl hne
  | ended hseq hnoinit h =>
    refine ⟨hbusy hseq, ?_⟩
    rw [if_pos (hs.initDone_of_seq hnoinit)]
    rcases h.engine with h | h <;> simp [h, isTerminal]
  | rebuilt hseq h =>
    have hrunning : s.seq ≠ .idle ∧ ∀ k, s.seq ≠ .init k := by rcases hseq with hseq | hseq <;> simp [hseq]
    simp [hbusy hrunning.1, hs.initDone_of_seq hrunning.2, h.engine, isTerminal]
  | cancelled m hseq _ =>
    simp [hbusy (by simp [hseq]), hs.initDone_of_seq (by simp [hseq]), isTerminal]
  | block _ _ _ _ hstatus _ => exact absurd (congrArg Status.engine hstatus) hne

/-! ### The context that CONFIGURE and REKEY build -/

@[simp] theorem length_arrBytes {n : Nat} (len : Nat) (v : BitVec n) : (arrBytes len v).length = len := by
  simp [arrBytes]

@[simp] theorem length_keyBytes (o : Operands) : (keyBytes o).length = 32 := length_arrBytes 32 o.key

@[simp] theorem length_ivBytes (o : Operands) (b : Nat) : (ivBytes o b).length = b := length_arrBytes b o.iv

@[simp] theorem length_markKey (k : List Byte) : (markKey k).length = k.length := by cases k <;> rfl

theorem le_of_mem_keySizes {alg : Cipher} {n : Nat} (h : n ∈ keySizes alg) : n ≤ 32 := by
  cases alg <;> simp [keySizes] at h <;> omega

/-- An adjusted key has one of the sizes of its cipher (R81, R82). -/
theorem length_of_adjust {alg : Cipher} {l : Nat} {key k : List Byte} (h : adjust alg l key = some k)
    (hkey : key.length = 32) : k.length ∈ keySizes alg := by
  have htake : ∀ n ∈ keySizes alg, (key.take n).length = n := fun n hn => by
    have := le_of_mem_keySizes hn
    simp [hkey, this]
  unfold adjust at h
  split at h
  · rename_i hl
    cases h
    rwa [htake l hl]
  · split at h
    · cases h
    · rename_i n hlast
      cases h
      have hn : n ∈ keySizes alg := List.mem_of_mem_filter (List.mem_of_getLast? hlast)
      rwa [length_markKey, htake n hn]

/-- The IV clause gives no IV in mode ECB and a block in every other mode (R120). -/
theorem cfgIv_ok {mode : Mode} {o : Operands} {b : Nat} {iv : Option (List Byte)} (h : cfgIv mode o b = .ok iv) :
    (mode = .ecb → iv = none) ∧ (mode ≠ .ecb → ∃ x, iv = some x ∧ x.length = b) := by
  unfold cfgIv at h
  split at h
  · rename_i hmode
    split at h
    · cases h
    · cases h
      exact ⟨fun _ => rfl, fun hne => absurd hmode hne⟩
  rename_i hmode
  split at h
  · cases h
  split at h
  · cases h
  · cases h
    exact ⟨fun hecb => absurd hecb hmode, fun _ => ⟨_, rfl, length_ivBytes o b⟩⟩

/-- The delta clause gives 1 in mode CTR, a safe delta in mode RD and none in every other mode (R120). -/
theorem cfgDelta_ok {mode : Mode} {o : Operands} {b : Nat} {delta : Option Nat} (h : cfgDelta mode o b = .ok delta) :
    (mode = .ctr → delta = some 1) ∧
    (mode = .rd → ∃ d, delta = some d ∧ d < 2 ^ (8 * b) ∧ deltaUnsafe b d = false) ∧
    (mode ≠ .ctr → mode ≠ .rd → delta = none) := by
  unfold cfgDelta at h
  split at h
  · rename_i hmode
    cases h
    simp [hmode]
  rename_i hctr
  split at h
  · rename_i hmode
    split at h
    · cases h
    dsimp only at h
    split at h
    · cases h
    · rename_i hsafe
      cases h
      refine ⟨fun hc => absurd hc hctr, fun _ => ⟨_, rfl, Nat.mod_lt _ (by positivity), by simpa using hsafe⟩, ?_⟩
      exact fun _ hrd => absurd hmode hrd
  · rename_i hrd
    cases h
    exact ⟨fun hc => absurd hc hctr, fun hr => absurd hr hrd, fun _ _ => rfl⟩

/-- A context that passes the configuration checks is valid (R120, R121). -/
theorem contextOk_of_cfgCheck {p : Params} {o : Operands} {c : Context} (h : cfgCheck p o = .ok c) : ContextOk p c := by
  unfold cfgCheck at h
  split at h
  · cases h
  split at h
  · cases h
  split at h
  · cases h
  split at h
  · cases h
  rename_i k hk
  split at h
  · cases h
  rename_i iv hiv
  split at h
  · cases h
  rename_i delta hdelta
  cases h
  obtain ⟨hnone, hsome⟩ := cfgIv_ok hiv
  obtain ⟨hctr, hrd, habsent⟩ := cfgDelta_ok hdelta
  exact
    { key_size := length_of_adjust hk (length_keyBytes o)
      rkt_eq := rfl
      iv_absent := hnone
      iv_present := hsome
      delta_ctr := hctr
      delta_rd := hrd
      delta_absent := habsent }

/-- REKEY keeps a context valid (R90). -/
theorem ContextOk.rekey {p : Params} {c : Context} (h : ContextOk p c) {l : Nat} {key k : List Byte}
    (hk : adjust c.alg l key = some k) (hkey : key.length = 32) :
    ContextOk p { c with key := k, rkt := schedule p c.alg k } :=
  { h with
    key_size := length_of_adjust hk hkey
    rkt_eq := rfl }

/-! ### FTAB and the context -/

theorem FtabInv.of_kept {s t : State} (h : FtabInv s) (hk : HostSideKept s t) : FtabInv t := by
  unfold FtabInv
  rw [hk.initDone, hk.ftab, hk.params]
  exact h

/-- A valid context stays so where it is kept and KEYED is not set. -/
theorem ContextInv.of_ctx {s t : State} (h : ContextInv s) (hparams : t.params = s.params) (hctx : t.ctx = s.ctx)
    (hkeyed : t.status.keyed = true → s.status.keyed = true) : ContextInv t := by
  intro ht
  rw [hparams, hctx]
  exact h (hkeyed ht)

theorem Worked.contextInv {u v : State} (hv : Worked u v) (h : ContextInv u) : ContextInv v :=
  h.of_ctx hv.params hv.ctx hv.keyed_of_keyed

theorem Ends.contextInv {u t : State} (h : Ends u t) (hu : ContextInv u) : ContextInv t := by
  cases h with
  | done hv => exact (hv.contextInv hu).of_ctx rfl rfl id
  | failed c op hv => exact (hv.contextInv hu).of_ctx rfl rfl id

theorem Rebuilds.contextInv {u t : State} (h : Rebuilds u t) (hu : ContextInv u) : ContextInv t := by
  cases h with
  | configured hv hc => exact fun _ => contextOk_of_cfgCheck hc
  | rekeyed hv hkeyed hk => exact fun _ => (hv.contextInv hu hkeyed).rekey hk (length_keyBytes _)

theorem Performed.contextInv {i : Instr} {u t : State} (h : Performed i u t) (hu : ContextInv u) : ContextInv t := by
  cases h with
  | ended h => exact h.contextInv hu
  | rebuilt _ h => exact h.contextInv hu
  | slow _ _ hv _ => exact (hv.contextInv hu).of_ctx rfl rfl id
  | message _ hv _ _ => exact (hv.contextInv hu).of_ctx rfl rfl id

theorem Executed.contextInv {i : Instr} {s t : State} (h : Executed i s t) (hs : ContextInv s) : ContextInv t := by
  cases h with
  | noEffect _ => exact hs
  | dropped _ => exact hs.of_ctx rfl rfl id
  | acknowledged _ _ => exact hs.of_ctx rfl rfl id
  | cancelled _ _ _ =>
    obtain ⟨hstatus, hctx⟩ := cancelRunning_status_ctx s
    exact hs.of_ctx (cancelRunning_kept s).params hctx (by simp [hstatus])
  | performed _ _ hp => exact hp.contextInv (hs.of_ctx rfl rfl id)

theorem CommandRun.contextInv {w : Word} {s t : State} (h : CommandRun w s t) (hs : ContextInv s) : ContextInv t := by
  cases h with
  | executed i _ h => exact h.contextInv hs
  | dropped _ => exact hs.of_ctx rfl rfl id
  | illegal _ _ _ => exact hs.of_ctx rfl rfl id

theorem EngineStepped.ftabInv {s t : State} (h : EngineStepped s t) (hs : FtabInv s) : FtabInv t := by
  rcases h.kept with hk | ⟨-, rfl⟩
  · exact hs.of_kept hk.toHostSideKept
  · exact fun _ => rfl

theorem EngineStepped.contextInv {s t : State} (h : EngineStepped s t) (hs : ContextInv s) : ContextInv t := by
  cases h with
  | idle _ => exact hs
  | initialised _ => exact hs.of_ctx rfl rfl id
  | initialising _ _ => exact hs.of_ctx rfl rfl id
  | slow _ _ _ => exact hs.of_ctx rfl rfl id
  | ended _ _ h => exact h.contextInv hs
  | rebuilt _ h => exact h.contextInv hs
  | cancelled _ _ hv => exact (hv.contextInv hs).of_ctx rfl rfl id
  | block _ _ _ hv _ _ => exact (hv.contextInv hs).of_ctx rfl rfl id

/-- Settles O56: FTAB is written by the end of initialisation alone, and every context that is written is valid. -/
theorem stepKeepsTableAndContext : Obligations.StepKeepsTableAndContext := by
  intro s t _ hftab hctx hstep
  have hftab' : FtabInv (afterHost s) := hftab
  have hctx' : ContextInv (afterHost s) := hctx
  cases step_stepped hstep with
  | engine _ ht => exact ⟨ht.ftabInv hftab', ht.contextInv hctx'⟩
  | command w _ ht => exact ⟨hftab'.of_kept ht.hostSideKept, ht.contextInv hctx'⟩
  | register a o v _ _ _ => exact ⟨by simpa [FtabInv] using hftab', hctx'.of_ctx (by simp) (by simp) (by simp)⟩
  | access mem raced e lanes r => exact ⟨hftab', hctx'.of_ctx rfl rfl id⟩
  | reset k e _ => exact ⟨by simp [FtabInv, Status.reset], by simp [ContextInv, Status.reset]⟩

/-! ### What commands and steps write -/

/-- Settles O11: each way a command goes keeps what the host wrote. -/
theorem noCommandWritesAHostRegister : Obligations.NoCommandWritesAHostRegister := by
  intro i s t h
  obtain ⟨hparams, hirqEn, hops, hftab, hhost, hresponse, hinit, hterminal⟩ := (exec_executed h).hostSideKept
  exact ⟨hops, hirqEn, hparams, hftab, hhost, hresponse, hinit, hterminal⟩

/-- Settles O12: no other kind of step writes the context. -/
theorem onlyConfigureAndRekeyChangeTheContext : Obligations.OnlyConfigureAndRekeyChangeTheContext := by
  intro s t hstep hne
  cases step_stepped hstep with
  | engine hturn ht => exact .inr (.inr ⟨hturn, ht.ctx.resolve_left hne⟩)
  | command w hw ht => exact .inr (.inl ⟨w, hw, ht.word_of_ctx_ne hne⟩)
  | register a o v _ _ _ => exact absurd (writeReg_ctx _ _ _) hne
  | access mem raced e lanes r => exact absurd rfl hne
  | reset k e hhost => exact .inl hhost

/-- Settles O13: a command word, the end of what runs and a reset are the only steps that write STATE. -/
theorem stateChangesOnlyAsStated : Obligations.StateChangesOnlyAsStated := by
  intro s t hs hstep hne
  cases step_stepped hstep with
  | engine hturn ht => exact .inr (.inr ⟨hturn, ht.engine_of_ne hs.afterHost hne⟩)
  | command w hw ht => exact .inr (.inl ⟨w, hw, ht.engine_of_ne hne⟩)
  | register a o v _ _ _ => exact absurd (congrArg Status.engine (writeReg_status _ _ _)) hne
  | access mem raced e lanes r => exact absurd rfl hne
  | reset k e hhost => exact .inl ⟨hhost, rfl⟩

/-- Settles O14: of the command words ACK alone, and of the register writes one to IRQ_STATUS alone, clears a sticky
bit. -/
theorem stickyBitsAreClearedOnlyAsStated : Obligations.StickyBitsAreClearedOnlyAsStated := by
  intro s t hstep hreset
  have clash {b : Bool} {p : Prop} (h1 : b = true) (h0 : b = false) : p := by simp [h1] at h0
  cases step_stepped hstep with
  | engine _ ht =>
    obtain ⟨hpad, hdrop, hterminal⟩ := ht.sticky
    exact ⟨fun h1 h0 => clash (hpad h1) h0, fun h1 h0 => clash (hdrop h1) h0, fun h1 h0 => clash (hterminal h1) h0⟩
  | command w hw ht =>
    refine ⟨fun h1 h0 => ?_, fun h1 h0 => ?_, fun h1 h0 => clash (ht.hostSideKept.irqTerminal h1) h0⟩
    · by_cases hack : w = 3
      · exact hack ▸ hw
      · exact clash ((ht.kept hack).padWarn h1) h0
    · by_cases hack : w = 3
      · exact hack ▸ hw
      · exact clash ((ht.kept hack).cmdDropped h1) h0
  | register a o v hhost ho _ =>
    refine ⟨fun h1 h0 => ?_, fun h1 h0 => ?_, fun h1 h0 => ?_⟩
    · rw [writeReg_status] at h0
      exact clash h1 h0
    · rw [writeReg_status] at h0
      exact clash h1 h0
    · have hterminal : (afterHost s).irqTerminal = true := h1
      obtain ⟨hreg, hbit⟩ : regAt o = .irqStatus ∧ v.getLsbD 0 = true := by
        simpa [writeReg_irqTerminal, hterminal] using h0
      exact ⟨a, v, hhost, by rw [ho, eq_of_regAt_eq_irqStatus hreg], hbit⟩
  | access mem raced e lanes r => exact ⟨clash, clash, clash⟩
  | reset k e hhost => exact absurd hhost hreset

end Sys2Proof.Machine
end

section
/-! PROOFS. The engine's step neither reads nor writes the operand registers and CTRL (10_state.md R20; 20_memory.md
R49): it commutes with a change of them. -/

namespace Sys2Proof.Machine

/-- The machine with other operand registers and another IRQ_EN. -/
def withRegs (o : Operands) (b : Bool) (s : State) : State := { s with ops := o, irqEn := b }

section
variable (o : Operands) (b : Bool)

@[simp] theorem withRegs_params (s : State) : (withRegs o b s).params = s.params := rfl
@[simp] theorem withRegs_status (s : State) : (withRegs o b s).status = s.status := rfl
@[simp] theorem withRegs_latched (s : State) : (withRegs o b s).latched = s.latched := rfl
@[simp] theorem withRegs_ctx (s : State) : (withRegs o b s).ctx = s.ctx := rfl
@[simp] theorem withRegs_dp (s : State) : (withRegs o b s).dp = s.dp := rfl
@[simp] theorem withRegs_seq (s : State) : (withRegs o b s).seq = s.seq := rfl
@[simp] theorem withRegs_raced (s : State) : (withRegs o b s).raced = s.raced := rfl
@[simp] theorem withRegs_mem (s : State) : (withRegs o b s).mem = s.mem := rfl
@[simp] theorem withRegs_env (s : State) : (withRegs o b s).env = s.env := rfl
@[simp] theorem ctxB_withRegs (s : State) : ctxB (withRegs o b s) = ctxB s := rfl

/-! ### Draws and data memory -/

theorem drawBus_withRegs (s : State) : drawBus (withRegs o b s) = Prod.map id (withRegs o b) (drawBus s) := by
  unfold drawBus
  rw [withRegs_env]
  split <;> rfl

theorem drawByte_withRegs (s : State) : drawByte (withRegs o b s) = Prod.map id (withRegs o b) (drawByte s) := by
  unfold drawByte
  rw [withRegs_env]
  split <;> rfl

theorem drawChoice_withRegs (s : State) :
    drawChoice (withRegs o b s) = Prod.map id (withRegs o b) (drawChoice s) := by
  unfold drawChoice
  rw [withRegs_env]
  split <;> rfl

theorem drawBytes_withRegs (n : Nat) (s : State) :
    drawBytes n (withRegs o b s) = Prod.map id (withRegs o b) (drawBytes n s) := by
  induction n generalizing s with
  | zero => rfl
  | succ n ih => simp [drawBytes, drawByte_withRegs, ih]

theorem drawLane_withRegs (lanes : List Nat) (s : State) :
    drawLane lanes (withRegs o b s) = Prod.map id (withRegs o b) (drawLane lanes s) := by
  match lanes with
  | [] => rfl
  | [l] => rfl
  | l :: k :: rest => simp [drawLane, drawChoice_withRegs]

theorem readRaced_withRegs (as : List Nat) (s : State) :
    readRaced as (withRegs o b s) = Prod.map id (withRegs o b) (readRaced as s) := by
  induction as generalizing s with
  | nil => rfl
  | cons a rest ih =>
    by_cases ha : a ∈ s.raced
    · simp [readRaced, ha, drawByte_withRegs, ih]
    · simp [readRaced, ha, ih]

theorem busRead_withRegs (a n : Nat) (s : State) :
    busRead a n (withRegs o b s) = Prod.map id (withRegs o b) (busRead a n s) := by
  unfold busRead
  simp only [drawBus_withRegs, Prod.map_fst, Prod.map_snd, id, withRegs_raced, readRaced_withRegs]
  split
  · rfl
  split
  · split <;> rfl
  · rfl

theorem busWrite_withRegs (a : Nat) (y : List Byte) (s : State) :
    busWrite a y (withRegs o b s) = Prod.map id (withRegs o b) (busWrite a y s) := by
  unfold busWrite
  simp only [drawBus_withRegs, Prod.map_fst, Prod.map_snd, id]
  split
  · rfl
  split <;> rfl

theorem racedOutput_withRegs (y : List Byte) (s : State) :
    racedOutput y (withRegs o b s) = Prod.map id (withRegs o b) (racedOutput y s) := by
  unfold racedOutput
  rw [withRegs_raced, drawBytes_withRegs]
  split <;> rfl

/-! ### The end of a command -/

theorem finishResult_withRegs (v : Word) (s : State) :
    finishResult v (withRegs o b s) = withRegs o b (finishResult v s) := rfl

/-! ### Slow commands -/

theorem finishBitGet_withRegs (v : Bool) (s : State) :
    finishBitGet v (withRegs o b s) = withRegs o b (finishBitGet v s) := by
  simp [finishBitGet, racedOutput_withRegs, finishResult_withRegs]

theorem finishBitPut_withRegs (i : Instr) (a : Nat) (y : Byte) (s : State) :
    finishBitPut i a y (withRegs o b s) = withRegs o b (finishBitPut i a y s) := by
  simp only [finishBitPut, racedOutput_withRegs, Prod.map_fst, Prod.map_snd, id, busWrite_withRegs]
  rcases busWrite a (racedOutput [y] s).1 (racedOutput [y] s).2 with ⟨_ | _, s2⟩ <;> rfl

theorem peekRule_withRegs (n a : Nat) (s : State) :
    peekRule n a (withRegs o b s) = Prod.map id (withRegs o b) (peekRule n a s) := by
  induction n generalizing a s with
  | zero => rfl
  | succ n ih => simp [peekRule, readRaced_withRegs, ih]

theorem readRule_withRegs (n a : Nat) (s : State) :
    readRule n a (withRegs o b s) = Prod.map id (withRegs o b) (readRule n a s) := by
  induction n generalizing a s with
  | zero => rfl
  | succ n ih =>
    simp only [readRule, busRead_withRegs]
    rcases busRead a 2 s with ⟨_ | e, s1⟩
    · simp [peekRule_withRegs]
    · simp only [Prod.map_apply, id, ih]
      rcases readRule n (a + 2) s1 with ⟨_ | es, s2⟩ <;> rfl

theorem permuteReadFailed_withRegs (num : Numbering) (rule : List Nat) (s : State) :
    permuteReadFailed num rule (withRegs o b s) = withRegs o b (permuteReadFailed num rule s) := rfl

theorem writePermuted_withRegs (num : Numbering) (out : List Byte) (s : State) :
    writePermuted num out (withRegs o b s) = withRegs o b (writePermuted num out s) := by
  simp only [writePermuted, racedOutput_withRegs, Prod.map_fst, Prod.map_snd, id, withRegs_latched, busWrite_withRegs]
  rcases busWrite s.latched.dst.toNat (racedOutput out s).1 (racedOutput out s).2 with ⟨_ | _, s2⟩ <;> rfl

theorem permuteBody_withRegs (num : Numbering) (s : State) :
    permuteBody num (withRegs o b s) = withRegs o b (permuteBody num s) := by
  unfold permuteBody
  simp only [withRegs_latched, show srcOk (withRegs o b s) = srcOk s from rfl,
    show ruleOk (withRegs o b s) = ruleOk s from rfl, show ∀ n, dstOk (withRegs o b s) n = dstOk s n from fun _ => rfl,
    busRead_withRegs]
  split
  · rfl
  split
  · rfl
  rcases busRead s.latched.src.toNat s.latched.len.toNat s with ⟨_ | data, s1⟩
  · simp [peekRule_withRegs, permuteReadFailed_withRegs]
  · simp only [Prod.map_apply, id, readRule_withRegs]
    rcases readRule s.latched.ruleLen.toNat s.latched.ruleAddr.toNat s1 with ⟨rule | rule, s2⟩
    · rfl
    · simp only [Prod.map_apply, id]
      split
      · rfl
      · exact writePermuted_withRegs o b num _ s2

theorem configureBody_withRegs (s : State) :
    configureBody (withRegs o b s) = withRegs o b (configureBody s) := by
  unfold configureBody
  rw [withRegs_params, withRegs_latched]
  split <;> rfl

theorem rekeyBody_withRegs (s : State) : rekeyBody (withRegs o b s) = withRegs o b (rekeyBody s) := by
  unfold rekeyBody
  rw [withRegs_status, withRegs_ctx, withRegs_latched]
  split
  · rfl
  split <;> rfl

theorem finishSlow_withRegs (cmd : SlowCmd) (s : State) :
    finishSlow cmd (withRegs o b s) = withRegs o b (finishSlow cmd s) := by
  cases cmd with
  | configure => exact configureBody_withRegs o b s
  | rekey => exact rekeyBody_withRegs o b s
  | permute num => exact permuteBody_withRegs o b num s
  | bitGet num v => exact finishBitGet_withRegs o b v s
  | bitPut i a y => exact finishBitPut_withRegs o b i a y s

/-! ### Messages -/

theorem readBlock_withRegs (m : MsgRun) (i : Nat) (s : State) :
    readBlock m i (withRegs o b s) = Prod.map id (withRegs o b) (readBlock m i s) := by
  unfold readBlock
  simp only [ctxB_withRegs, withRegs_latched, withRegs_ctx, busRead_withRegs]
  split
  · rfl
  split
  · rfl
  rcases busRead (s.latched.src.toNat + s.latched.len.toNat / ctxB s * ctxB s) (s.latched.len.toNat % ctxB s) s with
    ⟨_ | d, s1⟩
  · rfl
  · simp [drawBytes_withRegs]

theorem readCarried_withRegs (m : MsgRun) (i : Nat) (s : State) :
    readCarried m i (withRegs o b s) = Prod.map id (withRegs o b) (readCarried m i s) := by
  unfold readCarried
  simp only [ctxB_withRegs, withRegs_latched, withRegs_ctx, withRegs_dp, busRead_withRegs]
  split
  · split <;> rfl
  · rfl

theorem blockStep_withRegs (m : MsgRun) (l : Nat) (s : State) :
    blockStep m l (withRegs o b s) = withRegs o b (blockStep m l s) := by
  unfold blockStep
  simp only [show nextBlock (withRegs o b s) m l = nextBlock s m l from rfl, readBlock_withRegs]
  rcases readBlock m (nextBlock s m l) s with ⟨_ | x, s1⟩
  · rfl
  simp only [Prod.map_apply, id, readCarried_withRegs]
  rcases readCarried m (nextBlock s m l) s1 with ⟨_ | c, s2⟩
  · rfl
  simp only [Prod.map_apply, id, racedOutput_withRegs,
    show msgOutput (withRegs o b s2) m (nextBlock s m l) x c = msgOutput s2 m (nextBlock s m l) x c from rfl]
  rcases racedOutput (msgOutput s2 m (nextBlock s m l) x c) s2 with ⟨y, s3⟩
  simp only [Prod.map_apply, id, withRegs_latched, ctxB_withRegs, busWrite_withRegs]
  rcases busWrite (s3.latched.dst.toNat + nextBlock s m l * ctxB s3) y s3 with ⟨_ | _, s4⟩ <;> rfl

theorem finishMsg_withRegs (m : MsgRun) (s : State) :
    finishMsg m (withRegs o b s) = withRegs o b (finishMsg m s) := by
  unfold finishMsg joinMsg
  split
  · split <;> rfl
  · rfl

theorem msgStep_withRegs (m : MsgRun) (s : State) : msgStep m (withRegs o b s) = withRegs o b (msgStep m s) := by
  unfold msgStep
  rw [show readyLanes (withRegs o b s) m = readyLanes s m from rfl]
  split
  · exact finishMsg_withRegs o b m s
  · simp only [drawLane_withRegs, Prod.map_fst, Prod.map_snd, id, blockStep_withRegs]

/-! ### The engine's own step -/

theorem engineStep_withRegs (s : State) : engineStep (withRegs o b s) = withRegs o b (engineStep s) := by
  unfold engineStep
  rw [withRegs_seq]
  split
  · rfl
  · rename_i left _
    cases left <;> rfl
  · rename_i cmd left _
    cases left with
    | zero => exact finishSlow_withRegs o b cmd s
    | succ k => rfl
  · exact msgStep_withRegs o b _ s

end

/-- A register write but one to IRQ_STATUS changes the operand registers and IRQ_EN alone, and looks at nothing else
(10_state.md R15). -/
theorem writeReg_eq_withRegs {r : Reg} (hr : r ≠ .irqStatus) (v : Word) :
    ∃ (f : Operands → Operands) (g : Bool → Bool), ∀ s, writeReg r v s = withRegs (f s.ops) (g s.irqEn) s := by
  refine ⟨fun o => (writeReg r v { State.reset with ops := o }).ops,
    fun b => (writeReg r v { State.reset with irqEn := b }).irqEn, fun s => ?_⟩
  cases r with
  | irqStatus => exact absurd rfl hr
  | _ => rfl

/-- The engine's step writes neither the operand registers nor CTRL. -/
theorem engineStep_ops_irqEn (s : State) : (engineStep s).ops = s.ops ∧ (engineStep s).irqEn = s.irqEn := by
  have h := engineStep_withRegs s.ops s.irqEn s
  rw [show withRegs s.ops s.irqEn s = s from rfl] at h
  rw [h]
  exact ⟨rfl, rfl⟩

/-- Settles O21: the write is a change of operand registers and IRQ_EN, and the engine's step commutes with that. -/
theorem runningCommandIgnoresRegisterWrites : Obligations.RunningCommandIgnoresRegisterWrites := by
  intro s o v ho
  obtain ⟨f, g, hwrite⟩ := writeReg_eq_withRegs (fun h => ho (eq_of_regAt_eq_irqStatus h)) v
  obtain ⟨hops, hirqEn⟩ := engineStep_ops_irqEn s
  rw [hwrite, hwrite, engineStep_withRegs, hops, hirqEn]

end Sys2Proof.Machine
end

section
/-! PROOFS. The register window: a host write sets the writable bits of its register and no other, and a host read
changes nothing (10_state.md R14, R15, R16; 20_memory.md R39). -/

namespace Sys2Proof.Machine

open Sys2Proof.Claim

/-! ### The words of a byte array -/

/-- Bit k of an array after a write of word j (R16). -/
theorem getLsbD_setArrWord {n : Nat} (v : BitVec n) (j : Nat) (w : Word) {k : Nat} (hk : k < n) :
    (setArrWord v j w).getLsbD k =
      if 32 * j ≤ k ∧ k < 32 * j + 32 then w.getLsbD (k - 32 * j) else v.getLsbD k := by
  have hones : 0xFFFFFFFF#32 = BitVec.allOnes 32 := rfl
  simp only [setArrWord, hones, BitVec.getLsbD_or, BitVec.getLsbD_and, BitVec.getLsbD_not, BitVec.getLsbD_shiftLeft,
    BitVec.getLsbD_setWidth, BitVec.getLsbD_allOnes, hk, decide_true, Bool.true_and]
  by_cases hlow : k < 32 * j
  · simp [hlow, Nat.not_le.2 hlow]
  have hge : 32 * j ≤ k := Nat.le_of_not_lt hlow
  have hlt : k - 32 * j < n := by omega
  by_cases hhigh : k < 32 * j + 32
  · have hword : k - 32 * j < 32 := by omega
    simp [hlow, hge, hhigh, hlt, hword]
  · have hword : ¬ k - 32 * j < 32 := by omega
    simp [hlow, hhigh, hword, BitVec.getLsbD_of_ge w (k - 32 * j) (by omega)]

theorem getLsbD_arrWord {n : Nat} (v : BitVec n) (j : Nat) {i : Nat} (hi : i < 32) :
    (arrWord v j).getLsbD i = v.getLsbD (32 * j + i) := by
  simp [arrWord, hi]

theorem arrWord_setArrWord_same {n : Nat} (v : BitVec n) {j : Nat} (hj : 32 * j + 32 ≤ n) (w : Word) :
    arrWord (setArrWord v j w) j = w := by
  refine BitVec.eq_of_getLsbD_eq fun i hi => ?_
  rw [getLsbD_arrWord _ _ hi, getLsbD_setArrWord _ _ _ (by omega), if_pos (by omega), Nat.add_sub_cancel_left]

theorem arrWord_setArrWord_other {n : Nat} (v : BitVec n) {j k : Nat} (hjk : k ≠ j) (w : Word) :
    arrWord (setArrWord v j w) k = arrWord v k := by
  refine BitVec.eq_of_getLsbD_eq fun i hi => ?_
  rw [getLsbD_arrWord _ _ hi, getLsbD_arrWord _ _ hi]
  by_cases hn : 32 * k + i < n
  · rw [getLsbD_setArrWord _ _ _ hn, if_neg (by omega)]
  · rw [BitVec.getLsbD_of_ge _ _ (by omega), BitVec.getLsbD_of_ge _ _ (by omega)]

/-! ### Writable bits -/

/-- The bits of a register that a host write sets; none of CMD and IRQ_STATUS (R15). -/
def regMask : Reg → Word
  | .ctrl | .deltaCtl => 0x1
  | .alg | .mode | .padding | .keyLen | .ivLen | .padUsed => 0xFF
  | .gfArg => 0xFFFFFF
  | .src | .dst | .len | .bitIdx | .ruleAddr | .ruleLen | .key _ | .iv _ | .delta _ | .blkIn _ => 0xFFFFFFFF
  | .id | .cmd | .status | .error | .irqStatus | .outLen | .doneBlocks | .totalBlocks | .result | .blkLen | .lanes
  | .blkOut _ | .reserved => 0

/-- Whether the index of an array word lies inside its array (R15). -/
def arrayIndexOk : Reg → Bool
  | .key j => j < 8
  | .iv j | .delta j | .blkIn j => j < 4
  | _ => true

/-- The offset of a register (R15); 0 for the reserved ones, which share a name. -/
def regOffset : Reg → Nat
  | .id => 0x000 | .cmd => 0x004 | .status => 0x008 | .error => 0x00C | .ctrl => 0x010 | .irqStatus => 0x014
  | .alg => 0x018 | .mode => 0x01C | .padding => 0x020 | .keyLen => 0x024 | .ivLen => 0x028 | .deltaCtl => 0x02C
  | .src => 0x030 | .dst => 0x034 | .len => 0x038 | .outLen => 0x03C | .doneBlocks => 0x040 | .totalBlocks => 0x044
  | .bitIdx => 0x048 | .ruleAddr => 0x04C | .ruleLen => 0x050 | .gfArg => 0x054 | .padUsed => 0x058 | .result => 0x05C
  | .blkLen => 0x060 | .lanes => 0x064
  | .key j => 0x080 + 4 * j | .iv j => 0x0A0 + 4 * j | .delta j => 0x0B0 + 4 * j | .blkIn j => 0x0C0 + 4 * j
  | .blkOut j => 0x0D0 + 4 * j
  | .reserved => 0

/-- The map of the window, read off its 64 words. -/
theorem windowMap : ∀ k : Fin 64,
    (regAt (4 * k) = .reserved ∨ regOffset (regAt (4 * k)) = 4 * k) ∧ arrayIndexOk (regAt (4 * k)) = true ∧
      writeMask (4 * k) = regMask (regAt (4 * k)) := by
  decide

theorem windowMap_aligned {o : Nat} (halign : o % 4 = 0) (ho : o < 256) :
    (regAt o = .reserved ∨ regOffset (regAt o) = o) ∧ arrayIndexOk (regAt o) = true ∧
      writeMask o = regMask (regAt o) := by
  have h := windowMap ⟨o / 4, by omega⟩
  simpa only [show 4 * (o / 4) = o by omega] using h

/-- Two offsets share a register only where it is a reserved one. -/
theorem regAt_ne_or_reserved {o q : Nat} (ho4 : o % 4 = 0) (ho : o < 256) (hq4 : q % 4 = 0) (hq : q < 256)
    (hne : q ≠ o) : regAt q ≠ regAt o ∨ regAt q = .reserved := by
  rcases (windowMap_aligned hq4 hq).1 with hres | hoffq
  · exact .inr hres
  rcases (windowMap_aligned ho4 ho).1 with hres | hoffo
  · rw [hres]
    exact ne_or_eq _ _
  · refine .inl fun h => hne ?_
    rw [← hoffq, ← hoffo, h]

/-! ### A read after a write -/

/-- A field of `k` bits, hardwired to zero above, after a write (R14). -/
theorem setWidth_masked {k : Nat} {m : Word} (hm : ∀ i < 32, m.getLsbD i = decide (i < k)) (v : Word) (x : BitVec k) :
    (v.setWidth k).setWidth 32 = (v &&& m) ||| (x.setWidth 32 &&& ~~~ m) := by
  refine BitVec.eq_of_getLsbD_eq fun i hi => ?_
  simp only [BitVec.getLsbD_or, BitVec.getLsbD_and, BitVec.getLsbD_not, BitVec.getLsbD_setWidth, hm i hi, hi,
    decide_true, Bool.true_and]
  by_cases hik : i < k
  · simp [hik]
  · simp [hik, BitVec.getLsbD_of_ge x i (by omega)]

theorem word_masked (v x : Word) : v = (v &&& 0xFFFFFFFF#32) ||| (x &&& ~~~ 0xFFFFFFFF#32) := by
  simpa using setWidth_masked (k := 32) (m := 0xFFFFFFFF#32) (by decide) v x

theorem bit_masked (v : Word) (b : Bool) :
    (bit (v.getLsbD 0)).setWidth 32 = (v &&& 0x1#32) ||| ((bit b).setWidth 32 &&& ~~~ 0x1#32) := by
  have hbit : bit (v.getLsbD 0) = v.setWidth 1 := by
    refine BitVec.eq_of_getLsbD_eq fun i hi => ?_
    obtain rfl : i = 0 := by omega
    simp [bit]
  rw [hbit]
  exact setWidth_masked (by decide) v _

theorem unwritable_masked (v x : Word) : x = (v &&& 0#32) ||| (x &&& ~~~ 0#32) := by
  rw [show ~~~ 0#32 = BitVec.allOnes 32 from rfl, BitVec.and_allOnes, BitVec.and_zero, BitVec.zero_or]

/-- The register written reads as written in its writable bits and as before in the others (R14, R15, R16). -/
theorem readReg_writeReg_same {r : Reg} (hr : r ≠ .irqStatus) (hj : arrayIndexOk r = true) (v : Word) (s : State) :
    readReg (writeReg r v s) r = (v &&& regMask r) ||| (readReg s r &&& ~~~ regMask r) := by
  cases r with
  | irqStatus => exact absurd rfl hr
  | ctrl | deltaCtl => exact bit_masked v _
  | alg | mode | padding | keyLen | ivLen | padUsed | gfArg => exact setWidth_masked (by decide) v _
  | src | dst | len | bitIdx | ruleAddr | ruleLen => exact word_masked v _
  | key j | iv j | delta j | blkIn j =>
    have hj' := of_decide_eq_true hj
    exact (arrWord_setArrWord_same _ (by omega) v).trans (word_masked v _)
  | id | cmd | status | error | outLen | doneBlocks | totalBlocks | result | blkLen | lanes | blkOut _ | reserved =>
    exact unwritable_masked v _

/-- No other register of the window changes (R15). -/
theorem readReg_writeReg_other {r q : Reg} (hne : q ≠ r) (v : Word) (s : State) :
    readReg (writeReg r v s) q = readReg s q := by
  cases q with
  | id | cmd | status | error | outLen | doneBlocks | totalBlocks | result | blkLen | lanes | blkOut _ | reserved =>
    cases r <;> rfl
  | ctrl | irqStatus | alg | mode | padding | keyLen | ivLen | deltaCtl | src | dst | len | bitIdx | ruleAddr | ruleLen
  | gfArg | padUsed =>
    cases r <;> first | rfl | exact absurd rfl hne
  | key k =>
    cases r with
    | key j => exact arrWord_setArrWord_other _ (by simpa using hne) v
    | _ => rfl
  | iv k =>
    cases r with
    | iv j => exact arrWord_setArrWord_other _ (by simpa using hne) v
    | _ => rfl
  | delta k =>
    cases r with
    | delta j => exact arrWord_setArrWord_other _ (by simpa using hne) v
    | _ => rfl
  | blkIn k =>
    cases r with
    | blkIn j => exact arrWord_setArrWord_other _ (by simpa using hne) v
    | _ => rfl

/-- What every register of the window reads after a write to the one at offset `o`. -/
theorem readReg_writeReg_window {o : Nat} (ho4 : o % 4 = 0) (ho : o < 256) (hirq : o ≠ 0x014) (v : Word) (s : State)
    {q : Nat} (hq4 : q % 4 = 0) (hq : q < 256) :
    readReg (writeReg (regAt o) v s) (regAt q) =
      if q = o then (v &&& writeMask o) ||| (readReg s (regAt o) &&& ~~~ writeMask o) else readReg s (regAt q) := by
  obtain ⟨-, hindex, hmask⟩ := windowMap_aligned ho4 ho
  split
  · rename_i hqo
    rw [hqo, hmask]
    exact readReg_writeReg_same (fun h => hirq (eq_of_regAt_eq_irqStatus h)) hindex v s
  · rename_i hqo
    rcases regAt_ne_or_reserved ho4 ho hq4 hq hqo with hne | hres
    · exact readReg_writeReg_other hne v s
    · rw [hres]
      rfl

/-! ### Window accesses of the host -/

/-- The machine with the next action of the outside world taken off its list shows the same window. -/
theorem readReg_host (s : State) (l : List HostOp) (r : Reg) : readReg { s with host := l } r = readReg s r := by
  cases r <;> rfl

/-- An aligned host write inside the window, to a register other than CMD, is a register write. -/
theorem step_regWrite {s : State} {a : WindowAddr} {o : Nat} {v : Word} {rest : List HostOp}
    (ha : windowOffset a = some o) (ho4 : o % 4 = 0) (ho : o < 256) (hcmd : o ≠ 0x004)
    (hhost : s.host = .regWrite a .bits32 v :: rest) :
    step s = .next (writeReg (regAt o) v { s with host := rest }) := by
  have hreg : regAt o ≠ .cmd := fun h => hcmd (eq_of_regAt_eq_cmd h)
  simp [step, hhost, hostStep, hostRegWrite, ha, atOffset_of_aligned ho4 ho, hreg]

/-- An aligned host read inside the window answers the word of its register. -/
theorem step_regRead {s : State} {a : WindowAddr} {o : Nat} {rest : List HostOp} (ha : windowOffset a = some o)
    (ho4 : o % 4 = 0) (ho : o < 256) (hhost : s.host = .regRead a .bits32 :: rest) :
    step s = .next { s with host := rest, response := some (.word (readReg s (regAt o))) } := by
  simp [step, hhost, hostStep, hostRegRead, ha, atOffset_of_aligned ho4 ho, readReg_host]

/-- Settles O17: register by register, with the map of the window. -/
theorem windowWriteThenRead : Obligations.WindowWriteThenRead := by
  refine ⟨fun s a o v rest ha ho4 ho hcmd hirq hhost => ?_, fun s a o rest ha ho4 ho hhost => ?_⟩
  · refine ⟨_, step_regWrite ha ho4 ho hcmd hhost, by simp, by simp, by simp, by simp, fun q hq4 hq => ?_⟩
    rw [readReg_writeReg_window ho4 ho hirq v _ hq4 hq, readReg_host s rest, readReg_host s rest (regAt q)]
  · exact step_regRead ha ho4 ho hhost

end Sys2Proof.Machine
end

section
/-! PROOFS. Data memory seen byte by byte: what an operation may write, and byte ranges as sets of addresses
(20_memory.md R31, R33, R46). A host access that the window refuses stands here too (R36). -/

namespace Sys2Proof.Machine

open Sys2Proof.Claim

/-! ### What an operation may write -/

/-- `m'` is `m` but for bytes at the addresses `P`, and canonical where `m` is. -/
structure WritesOnly (P : Nat → Prop) (m m' : Memory) : Prop where
  wf : memoryWf m = true → memoryWf m' = true
  frame : ∀ x, ¬ P x → readByte m' x = readByte m x

theorem WritesOnly.refl (P : Nat → Prop) (m : Memory) : WritesOnly P m m := ⟨id, fun _ _ => rfl⟩

theorem WritesOnly.mono {P Q : Nat → Prop} {m m' : Memory} (h : WritesOnly P m m') (hPQ : ∀ x, P x → Q x) :
    WritesOnly Q m m' := ⟨h.wf, fun x hx => h.frame x fun hP => hx (hPQ x hP)⟩

theorem WritesOnly.trans {P : Nat → Prop} {m m' m'' : Memory} (h : WritesOnly P m m') (h' : WritesOnly P m' m'') :
    WritesOnly P m m'' := ⟨h'.wf ∘ h.wf, fun x hx => (h'.frame x hx).trans (h.frame x hx)⟩

theorem writesOnly_writeBytes (m : Memory) (a : Nat) (b : List Byte) :
    WritesOnly (fun x => a ≤ x ∧ x < a + b.length) m (writeBytes m a b) where
  wf h := memoryWf_writeBytes h a b
  frame _ hx := readByte_writeBytes_outside m a b (by omega)

/-- An engine write stores its bytes or, where the access fails, nothing. -/
theorem writesOnly_busWrite (a : Nat) (b : List Byte) (s : State) :
    WritesOnly (fun x => a ≤ x ∧ x < a + b.length) s.mem (busWrite a b s).2.mem := by
  obtain ⟨e, he⟩ := busWrite_spec a b s
  rw [he, setMem_mem]
  split
  · exact writesOnly_writeBytes _ _ _
  · exact .refl _ _

/-- A byte string read after an operation that wrote none of its addresses. -/
theorem WritesOnly.readBytes {P : Nat → Prop} {m m' : Memory} (h : WritesOnly P m m') {a n : Nat}
    (hP : ∀ x, a ≤ x → x < a + n → ¬ P x) : readBytes m' a n = readBytes m a n :=
  List.map_congr_left fun k hk => h.frame (a + k) (hP _ (by omega) (by have := List.mem_range.1 hk; omega))

/-! ### The addresses that data memory lists -/

theorem readByte_of_not_listed {m : Memory} {x : Nat} (h : ∀ c ∈ m, c.1 ≠ x) : readByte m x = powerOnByte := by
  induction m with
  | nil => rfl
  | cons c rest ih =>
    have hc : x ≠ c.1 := (h c (by simp)).symm
    simp only [readByte, hc, if_false]
    exact ih fun d hd => h d (by simp [hd])

/-- A canonical memory lists no byte that reads as an unlisted one. -/
theorem readByte_ne_of_mem {m : Memory} (hm : memoryWf m = true) {c : Host.Cell} (hc : c ∈ m) :
    readByte m c.1 ≠ powerOnByte := by
  induction m with
  | nil => simp at hc
  | cons d rest ih =>
    obtain ⟨hv, -, hrest⟩ := (memoryWf_cons d.1 d.2 rest).1 hm
    rcases List.mem_cons.1 hc with rfl | hc
    · simpa [readByte] using hv
    · have hlt : d.1 < c.1 := head_lt_of_memoryWf hm c hc
      simp only [readByte, hlt.ne', if_false]
      exact ih hrest hc

/-- That a canonical memory lists no address from `n` on is a matter of what it reads as there. -/
theorem forall_lt_iff_readByte {m : Memory} (hm : memoryWf m = true) (n : Nat) :
    (∀ c ∈ m, c.1 < n) ↔ ∀ x, n ≤ x → readByte m x = powerOnByte := by
  constructor
  · intro h x hx
    exact readByte_of_not_listed fun c hc => ((h c hc).trans_le hx).ne
  · intro h c hc
    by_contra hn
    exact readByte_ne_of_mem hm hc (h c.1 (Nat.le_of_not_lt hn))

/-- Data memory stays within MEM_SIZE where only bytes below it are written (R31). -/
theorem MemoryInv.of_writesOnly {s t : State} {P : Nat → Prop} (h : MemoryInv s) (hp : t.params = s.params)
    (hw : WritesOnly P s.mem t.mem) (hP : ∀ x, P x → x < s.params.memSize) : MemoryInv t := by
  obtain ⟨hwf, hlt⟩ := h
  refine ⟨hw.wf hwf, (forall_lt_iff_readByte (hw.wf hwf) _).2 fun x hx => ?_⟩
  rw [hp] at hx
  rw [hw.frame x fun hPx => absurd (hP x hPx) (Nat.not_lt.2 hx)]
  exact (forall_lt_iff_readByte hwf _).1 hlt x hx

/-! ### Ranges -/

/-- A range may be accessed exactly where it does not reach outside data memory (R33). -/
theorem rangeOk_eq_false_iff (s : State) (a n : Nat) : rangeOk s a n = false ↔ outside s a n := by
  simp [rangeOk, outside]

theorem rangeOk_iff (s : State) (a n : Nat) : rangeOk s a n = true ↔ ¬ outside s a n := by
  rw [← rangeOk_eq_false_iff, Bool.not_eq_false]

/-- Every byte of a range that may be accessed lies below MEM_SIZE. -/
theorem lt_memSize_of_rangeOk {s : State} {a n x : Nat} (h : rangeOk s a n = true) (ha : a ≤ x) (hx : x < a + n) :
    x < s.params.memSize := by
  have hsize : ¬ (n ≠ 0 ∧ s.params.memSize < a + n) := (rangeOk_iff s a n).1 h
  omega

/-- Two ranges intersect exactly where they share a byte. -/
theorem intersect_iff (a n b m : Nat) : intersect a n b m = true ↔ overlapping a n b m := by
  simp only [intersect, decide_eq_true_eq, overlapping]
  constructor
  · rintro ⟨hn, hm, hab, hba⟩
    exact ⟨max a b, by omega, by omega, by omega, by omega⟩
  · rintro ⟨x, h1, h2, h3, h4⟩
    omega

theorem intersect_eq_false_iff (a n b m : Nat) : intersect a n b m = false ↔ ¬ overlapping a n b m := by
  rw [← intersect_iff, Bool.not_eq_true]

/-! ### Window accesses that are refused -/

/-- Settles O19: the window refuses the access before it looks at the register. -/
theorem otherAccessesAreRefused : Obligations.OtherAccessesAreRefused := by
  intro s a o width v rest ho hbad hhost
  have hrefused (f : Reg → Host.Outcome State Fault Refusal) : atOffset o width f = .refused .notAlignedWord :=
    if_pos hbad
  rcases hhost with hhost | hhost
  · simp [step, hhost, hostStep, hostRegWrite, ho, hrefused]
  · simp [step, hhost, hostStep, hostRegRead, ho, hrefused]

end Sys2Proof.Machine
end

section
/-! PROOFS. A message run: the blocks its lanes have completed, counted, and what completing one more does to them
(46_modes.md R126, R127, R131). -/

namespace Sys2Proof.Machine

open Sys2Proof.Claim

/-! ### Lists of pairs with rising keys -/

theorem lookupD_of_lt {α : Type} (d : α) {m : List (Nat × α)} {a : Nat} (h : ∀ c ∈ m, a < c.1) :
    lookupD d m a = d := by
  induction m with
  | nil => rfl
  | cons c rest ih =>
    have hc : a ≠ c.1 := (h c (by simp)).ne
    simp only [lookupD, hc, if_false]
    exact ih fun e he => h e (by simp [he])

theorem mem_setKey {α : Type} {m : List (Nat × α)} {a : Nat} {v : α} {c : Nat × α} (h : c ∈ setKey m a v) :
    c = (a, v) ∨ c ∈ m := by
  induction m with
  | nil => exact .inl (by simpa [setKey] using h)
  | cons d rest ih =>
    rcases lt_trichotomy a d.1 with had | rfl | had
    · simpa [setKey, had] using h
    · rcases (by simpa [setKey] using h : c = (d.1, v) ∨ c ∈ rest) with h | h
      · exact .inl h
      · exact .inr (List.mem_cons_of_mem d h)
    · rcases (by simpa [setKey, had.not_gt, had.ne'] using h : c = d ∨ c ∈ setKey rest a v) with rfl | h
      · exact .inr List.mem_cons_self
      · exact (ih h).imp_right (List.mem_cons_of_mem d)

theorem setKey_rising {α : Type} {m : List (Nat × α)} (h : (m.map (·.1)).Pairwise (· < ·)) (a : Nat) (v : α) :
    ((setKey m a v).map (·.1)).Pairwise (· < ·) := by
  induction m with
  | nil => simp [setKey]
  | cons d rest ih =>
    obtain ⟨hd, hrest⟩ := List.pairwise_cons.1 h
    rcases lt_trichotomy a d.1 with had | rfl | had
    · simp only [setKey, had, if_true, List.map_cons]
      refine List.pairwise_cons.2 ⟨fun k hk => ?_, h⟩
      rcases List.mem_cons.1 hk with rfl | hk
      · exact had
      · exact had.trans (hd k hk)
    · simpa [setKey] using h
    · simp only [setKey, had.not_gt, had.ne', if_false, List.map_cons]
      refine List.pairwise_cons.2 ⟨fun k hk => ?_, ih hrest⟩
      obtain ⟨c, hc, rfl⟩ := List.mem_map.1 hk
      rcases mem_setKey hc with rfl | hc
      · exact had
      · exact hd c.1 (List.mem_map_of_mem hc)

/-- Setting a key replaces its value in the sum of the values. -/
theorem sum_setKey {m : List (Nat × Nat)} (h : (m.map (·.1)).Pairwise (· < ·)) (a v : Nat) :
    ((setKey m a v).map (·.2)).sum + lookupD 0 m a = (m.map (·.2)).sum + v := by
  induction m with
  | nil => simp [setKey, lookupD]
  | cons d rest ih =>
    obtain ⟨hd, hrest⟩ := List.pairwise_cons.1 h
    rcases lt_trichotomy a d.1 with had | rfl | had
    · have hlookup : lookupD 0 (d :: rest) a = 0 := lookupD_of_lt 0 fun c hc => by
        rcases List.mem_cons.1 hc with rfl | hc
        · exact had
        · exact had.trans (hd c.1 (List.mem_map_of_mem hc))
      rw [hlookup]
      simp only [setKey, had, if_true, List.map_cons, List.sum_cons]
      omega
    · simp only [setKey, lookupD, lt_irrefl, if_true, if_false, List.map_cons, List.sum_cons]
      omega
    · have hsum := ih hrest
      simp only [setKey, lookupD, had.not_gt, had.ne', if_false, List.map_cons, List.sum_cons]
      omega

/-! ### The blocks of a run -/

theorem runWidth_pos (s : State) (m : MsgRun) : 0 < runWidth s m := by
  unfold runWidth laneCount
  split <;> omega

theorem runWidth_congr {s t : State} (hp : t.params = s.params) (hc : t.ctx = s.ctx) (m : MsgRun) :
    runWidth t m = runWidth s m := by
  simp [runWidth, laneCount, hp, hc]

theorem ctxB_congr {s t : State} (hc : t.ctx = s.ctx) : ctxB t = ctxB s := by simp [ctxB, hc]

/-- A lane has a block left where its next block is one of the message's. -/
theorem mem_eligible {s : State} {m : MsgRun} {l : Nat} :
    l ∈ eligible s m ↔ l < runWidth s m ∧ nextBlock s m l < m.n := by
  have hle : l ≤ nextBlock s m l := Nat.le_add_right _ _
  simp only [eligible, List.mem_filter, List.mem_range, decide_eq_true_eq]
  omega

theorem eligible_congr {s t : State} (hp : t.params = s.params) (hc : t.ctx = s.ctx) (m : MsgRun) :
    eligible t m = eligible s m := by
  have hnext : nextBlock t m = nextBlock s m := by
    funext l
    rw [nextBlock, nextBlock, runWidth_congr hp hc]
  rw [eligible, eligible, hnext, runWidth_congr hp hc]

theorem RunOk.congr {s t : State} {m : MsgRun} (h : RunOk s m) (hp : t.params = s.params) (hc : t.ctx = s.ctx) :
    RunOk t m where
  keys_rising := h.keys_rising
  lane_lt := by
    rw [runWidth_congr hp hc]
    exact h.lane_lt
  done_lt := by
    rw [runWidth_congr hp hc]
    exact h.done_lt
  flight_nodup := h.flight_nodup
  flight_eligible := by
    rw [eligible_congr hp hc]
    exact h.flight_eligible

/-- A lane that may complete a block has one left. -/
theorem RunOk.eligible_of_ready {s : State} {m : MsgRun} (h : RunOk s m) {l : Nat} (hl : l ∈ readyLanes s m) :
    l ∈ eligible s m := by
  unfold readyLanes at hl
  split at hl
  · exact hl
  · rename_i f hf
    exact h.flight_eligible f hf l hl

/-- A message that starts has completed nothing. -/
theorem runOk_start (s : State) (dir : Direction) (n : Nat) :
    RunOk s { dir := dir, n := n, counts := [], inFlight := none } where
  keys_rising := .nil
  lane_lt := by simp
  done_lt := by simp
  flight_nodup := by simp
  flight_eligible := by simp

/-- The blocks in flight after a CANCEL are among those left (R131). -/
theorem RunOk.cancel {s : State} {m : MsgRun} (h : RunOk s m) (c : Nat) :
    RunOk s { m with inFlight := some (inFlightSet s m c) } where
  keys_rising := h.keys_rising
  lane_lt := h.lane_lt
  done_lt := h.done_lt
  flight_nodup f hf := by
    cases hf
    exact (List.nodup_range.filter _).filter _
  flight_eligible f hf l hl := by
    cases hf
    exact List.mem_of_mem_filter hl

theorem laneDone_advanceRun_same (m : MsgRun) (l : Nat) : laneDone (advanceRun m l) l = laneDone m l + 1 :=
  lookupD_setKey_same _ _ _ _

theorem laneDone_advanceRun_other (m : MsgRun) {l k : Nat} (h : k ≠ l) : laneDone (advanceRun m l) k = laneDone m k :=
  lookupD_setKey_other _ _ _ h

/-- A lane other than the one that completed a block still has its own left. -/
theorem eligible_advanceRun {s : State} {m : MsgRun} {l k : Nat} (hk : k ∈ eligible s m) (h : k ≠ l) :
    k ∈ eligible s (advanceRun m l) := by
  obtain ⟨hlane, hnext⟩ := mem_eligible.1 hk
  refine mem_eligible.2 ⟨hlane, ?_⟩
  rw [nextBlock, laneDone_advanceRun_other m h]
  exact hnext

/-- Completing the next block of a ready lane leads from run to run. -/
theorem RunOk.advance {s : State} {m : MsgRun} (h : RunOk s m) {l : Nat} (hl : l ∈ readyLanes s m) :
    RunOk s (advanceRun m l) := by
  obtain ⟨hlane, hnext⟩ := mem_eligible.1 (h.eligible_of_ready hl)
  have hflight {f : List Nat} (hf : (advanceRun m l).inFlight = some f) : ∃ g, m.inFlight = some g ∧ g.erase l = f :=
    Option.map_eq_some_iff.1 hf
  exact
    { keys_rising := setKey_rising h.keys_rising _ _
      lane_lt := fun c hc => by
        rcases mem_setKey hc with rfl | hc
        · exact hlane
        · exact h.lane_lt c hc
      done_lt := fun c hc => by
        rcases mem_setKey hc with rfl | hc
        · exact ⟨Nat.succ_pos _, hnext⟩
        · exact h.done_lt c hc
      flight_nodup := fun f hf => by
        obtain ⟨g, hg, rfl⟩ := hflight hf
        exact (h.flight_nodup g hg).erase l
      flight_eligible := fun f hf k hk => by
        obtain ⟨g, hg, rfl⟩ := hflight hf
        obtain ⟨hne, hkg⟩ := (h.flight_nodup g hg).mem_erase_iff.1 hk
        exact eligible_advanceRun (h.flight_eligible g hg k hkg) hne }

theorem blocksDone_advanceRun {s : State} {m : MsgRun} (h : RunOk s m) (l : Nat) :
    blocksDone (advanceRun m l) = blocksDone m + 1 := by
  have hsum := sum_setKey h.keys_rising l (laneDone m l + 1)
  unfold laneDone at hsum
  unfold blocksDone advanceRun laneDone
  dsimp only
  omega

/-! ### Counting the blocks of a run -/

/-- The blocks that lane `c.1` of `w` has completed, `c.2` of them. -/
def laneBlocks (w : Nat) (c : Nat × Nat) : List Nat := (List.range c.2).map fun j => c.1 + w * j

theorem mem_laneBlocks {w i : Nat} {c : Nat × Nat} : i ∈ laneBlocks w c ↔ ∃ j, j < c.2 ∧ c.1 + w * j = i := by
  simp [laneBlocks]

/-- A lane's completed blocks are blocks of the message. -/
theorem RunOk.laneBlocks_lt {s : State} {m : MsgRun} (h : RunOk s m) {c : Nat × Nat} (hc : c ∈ m.counts) {j : Nat}
    (hj : j < c.2) : c.1 + runWidth s m * j < m.n := by
  have hlast := (h.done_lt c hc).2
  have hle : runWidth s m * j ≤ runWidth s m * (c.2 - 1) := Nat.mul_le_mul_left _ (by omega)
  omega

/-- No block belongs to two lanes: block i belongs to lane i mod P. -/
theorem RunOk.laneBlocks_disjoint {s : State} {m : MsgRun} (h : RunOk s m) :
    m.counts.Pairwise (Function.onFun List.Disjoint (laneBlocks (runWidth s m))) := by
  refine (List.pairwise_map.1 h.keys_rising).imp_of_mem fun {c d} hc hd hlt i hic hid => ?_
  obtain ⟨j, -, rfl⟩ := mem_laneBlocks.1 hic
  obtain ⟨k, -, hk⟩ := mem_laneBlocks.1 hid
  have hmod := congrArg (· % runWidth s m) hk
  simp only [Nat.add_mul_mod_self_left, Nat.mod_eq_of_lt (h.lane_lt c hc), Nat.mod_eq_of_lt (h.lane_lt d hd)] at hmod
  omega

/-- The lanes never complete more blocks than the message has. -/
theorem RunOk.blocksDone_le {s : State} {m : MsgRun} (h : RunOk s m) : blocksDone m ≤ m.n := by
  have hnodup : (m.counts.flatMap (laneBlocks (runWidth s m))).Nodup := by
    refine List.nodup_flatMap.2 ⟨fun c _ => List.nodup_range.map fun j k hjk => ?_, h.laneBlocks_disjoint⟩
    exact Nat.eq_of_mul_eq_mul_left (runWidth_pos s m) (Nat.add_left_cancel hjk)
  have hsub : m.counts.flatMap (laneBlocks (runWidth s m)) ⊆ List.range m.n := by
    intro i hi
    obtain ⟨c, hc, hic⟩ := List.mem_flatMap.1 hi
    obtain ⟨j, hj, rfl⟩ := mem_laneBlocks.1 hic
    exact List.mem_range.2 (h.laneBlocks_lt hc hj)
  have hlen := (hnodup.subperm hsub).length_le
  simpa [List.length_flatMap, laneBlocks, blocksDone] using hlen

end Sys2Proof.Machine
end

section
/-! PROOFS. What the commands write of data memory and of the progress registers, said once for each command
(20_memory.md R33, R45; 40_bit_addressing.md R66..R71; 46_modes.md R127, R129, R130). -/

namespace Sys2Proof.Machine

open Sys2Proof.Claim

/-! ### Data memory and progress left as they were -/

/-- Between `u` and `t` neither DONE_BLOCKS nor TOTAL_BLOCKS was written, and of data memory only bytes at the addresses
`P`. -/
structure DataKept (P : Nat → Prop) (u t : State) : Prop where
  doneBlocks : t.out.doneBlocks = u.out.doneBlocks := by rfl
  totalBlocks : t.out.totalBlocks = u.out.totalBlocks := by rfl
  writes : WritesOnly P u.mem t.mem := by exact .refl _ _

theorem DataKept.trans {P : Nat → Prop} {u v t : State} (h : DataKept P u v) (h' : DataKept P v t) :
    DataKept P u t where
  doneBlocks := h'.doneBlocks.trans h.doneBlocks
  totalBlocks := h'.totalBlocks.trans h.totalBlocks
  writes := h.writes.trans h'.writes

theorem DataKept.mono {P Q : Nat → Prop} {u t : State} (h : DataKept P u t) (hPQ : ∀ x, P x → Q x) : DataKept Q u t :=
  { h with writes := h.writes.mono hPQ }

/-- `v` is `u` after work of a command that has not ended and has written neither data memory nor progress. -/
structure Prepared (u v : State) : Prop extends Worked u v where
  data : DataKept (fun _ => False) u v := by exact {}

theorem Prepared.setEnv {u v : State} (h : Prepared u v) (e : Env) : Prepared u (setEnv e v) where
  toWorked := h.toWorked.trans (worked_setEnv e v)
  data := h.data.trans {}

/-! ### The commands that end in one step -/

section
variable {P : Nat → Prop}

theorem gfMulBody_dataKept (s : State) : DataKept P s (gfMulBody s) := by
  unfold gfMulBody
  split
  · exact {}
  · exact {}

theorem padSetBody_dataKept (s : State) : DataKept P s (padSetBody s) := by
  unfold padSetBody
  dsimp only
  split
  · exact {}
  split
  · exact {}
  · obtain ⟨⟨e, he⟩, -⟩ := drawBytes_spec (randomCount s.ctx.pad (ctxB s) s.latched.padUsed.toNat) s
    rw [he]
    exact {}

theorem padClrBody_dataKept (s : State) : DataKept P s (padClrBody s) := by
  unfold padClrBody
  dsimp only
  split
  · exact {}
  · exact {}

theorem blockCommand_dataKept (i : Instr) (dir : Direction) (s : State) : DataKept P s (blockCommand i dir s) := by
  unfold blockCommand
  split
  · exact {}
  · exact {}

theorem configureBody_dataKept (s : State) : DataKept P s (configureBody s) := by
  rcases configureBody_cases s with ⟨e, -, h⟩ | ⟨c, -, h⟩
  · rw [h]
    exact {}
  · rw [h]
    exact {}

theorem rekeyBody_dataKept (s : State) : DataKept P s (rekeyBody s) := by
  rcases rekeyBody_cases s with ⟨-, h⟩ | ⟨-, -, h⟩ | ⟨k, -, -, h⟩
  · rw [h]
    exact {}
  · rw [h]
    exact {}
  · rw [h]
    exact {}

theorem finishBitGet_dataKept (v : Bool) (s : State) : DataKept P s (finishBitGet v s) := by
  obtain ⟨e, b, h, -⟩ := finishBitGet_cases v s
  rw [h]
  exact {}

theorem permuteReadFailed_dataKept (num : Numbering) (rule : List Nat) (s : State) :
    DataKept P s (permuteReadFailed num rule s) := by
  rcases permuteReadFailed_cases num rule s with ⟨-, h⟩ | ⟨-, h⟩
  · rw [h]
    exact {}
  · rw [h]
    exact {}

end

/-! ### The slow commands that write data memory -/

/-- A bit command writes its one byte (R67, R68, R69). -/
theorem finishBitPut_dataKept (i : Instr) (a : Nat) (y : Byte) (s : State) :
    DataKept (· = a) s (finishBitPut i a y s) := by
  rcases finishBitPut_cases i a y s with ⟨e, h⟩ | ⟨e, z, h, -⟩
  · rw [h]
    exact {}
  · rw [h]
    exact { writes := (writesOnly_writeBytes s.mem a [z]).mono fun x hx => by simp at hx; omega }

theorem length_setbit {buf out : List Byte} {idx : Nat} {num : Numbering} {v : Bool}
    (h : setbit buf idx num v = some out) : out.length = buf.length := by
  obtain ⟨p, -, rfl⟩ := Option.map_eq_some_iff.1 h
  exact List.length_set

theorem length_permuteFrom {data : List Byte} {num : Numbering} {i : Nat} {rule : List Nat} {out out' : List Byte}
    (h : permuteFrom data num i rule out = some out') : out'.length = out.length := by
  induction rule generalizing i out with
  | nil =>
    cases h
    rfl
  | cons idx rest ih =>
    unfold permuteFrom at h
    split at h
    · cases h
    split at h
    · cases h
    · rename_i out1 hset
      rw [ih h, length_setbit hset]

/-- The result of a permutation has a bit for each entry of the rule (R70). -/
theorem length_permute {data : List Byte} {num : Numbering} {rule : List Nat} {out : List Byte}
    (h : permute data rule num = some out) : out.length = rule.length / 8 := by
  unfold permute at h
  split at h
  · rw [length_permuteFrom h, zeros, List.length_replicate]
  · cases h

theorem writePermuted_dataKept (num : Numbering) (out : List Byte) (s : State) :
    DataKept (fun x => s.latched.dst.toNat ≤ x ∧ x < s.latched.dst.toNat + out.length) s (writePermuted num out s) := by
  obtain ⟨⟨e, he⟩, hlen, -⟩ := racedOutput_spec out s
  unfold writePermuted
  simp only [he]
  obtain ⟨e', he'⟩ := busWrite_spec s.latched.dst.toNat (racedOutput out s).1 (setEnv e s)
  have hw := writesOnly_busWrite s.latched.dst.toNat (racedOutput out s).1 (setEnv e s)
  rw [hlen] at hw
  split
  · rename_i s2 h
    rw [h] at hw he'
    obtain rfl : s2 = setEnv e' s := he'
    exact {}
  · rename_i s2 h
    rw [h] at hw he'
    obtain rfl : s2 = setMem (writeBytes s.mem s.latched.dst.toNat (racedOutput out s).1) (setEnv e' s) := he'
    exact { writes := hw }

/-- PERMUTE writes its destination range alone, and that only where it lies in data memory (R71; 20_memory.md R33). -/
theorem permuteBody_dataKept (num : Numbering) (s : State) :
    DataKept
      (fun x => (s.latched.dst.toNat ≤ x ∧ x < s.latched.dst.toNat + s.latched.ruleLen.toNat / 8) ∧
        x < s.params.memSize)
      s (permuteBody num s) := by
  unfold permuteBody
  dsimp only
  split
  · exact {}
  split
  · exact {}
  rename_i hranges
  have hdst : rangeOk s s.latched.dst.toNat (s.latched.ruleLen.toNat / 8) = true := by
    simp only [Bool.and_eq_false_iff, not_or, Bool.not_eq_false] at hranges
    exact hranges.2
  obtain ⟨e, he⟩ := (busRead_spec s.latched.src.toNat s.latched.len.toNat s).1
  split
  · rename_i s1 hread
    obtain ⟨e', he'⟩ := (peekRule_spec s.latched.ruleLen.toNat s.latched.ruleAddr.toNat s1).1
    obtain rfl : s1 = setEnv e s := by rw [← he, hread]
    rw [he', setEnv_setEnv]
    exact DataKept.trans (v := setEnv e' s) {} (permuteReadFailed_dataKept _ _ _)
  rename_i data s1 hread
  obtain ⟨⟨e', he'⟩, hlen⟩ := readRule_spec s.latched.ruleLen.toNat s.latched.ruleAddr.toNat s1
  obtain rfl : s1 = setEnv e s := by rw [← he, hread]
  split
  · rename_i rule s2 hrule
    obtain rfl : s2 = setEnv e' s := by rw [← setEnv_setEnv e' e s, ← he', hrule]
    exact DataKept.trans (v := setEnv e' s) {} (permuteReadFailed_dataKept _ _ _)
  rename_i rule s2 hrule
  obtain rfl : s2 = setEnv e' s := by rw [← setEnv_setEnv e' e s, ← he', hrule]
  split
  · exact {}
  rename_i out hout
  have hlength : out.length = s.latched.ruleLen.toNat / 8 := by
    rw [length_permute hout, hlen rule (.inl (by rw [hrule]))]
  have hwrite := writePermuted_dataKept num out (setEnv e' s)
  rw [hlength] at hwrite
  exact DataKept.trans (v := setEnv e' s) {} (hwrite.mono fun x hx => ⟨hx, lt_memSize_of_rangeOk hdst hx.1 hx.2⟩)

/-- The addresses that the last step of a slow command may write. -/
def slowWrites (cmd : SlowCmd) (s : State) (x : Nat) : Prop :=
  match cmd with
  | .permute _ =>
    (s.latched.dst.toNat ≤ x ∧ x < s.latched.dst.toNat + s.latched.ruleLen.toNat / 8) ∧ x < s.params.memSize
  | .bitPut _ a _ => x = a
  | .configure | .rekey | .bitGet _ _ => False

theorem finishSlow_dataKept (cmd : SlowCmd) (s : State) : DataKept (slowWrites cmd s) s (finishSlow cmd s) := by
  cases cmd with
  | configure => exact configureBody_dataKept s
  | rekey => exact rekeyBody_dataKept s
  | permute num => exact permuteBody_dataKept num s
  | bitGet num v => exact finishBitGet_dataKept v s
  | bitPut i a y => exact finishBitPut_dataKept i a y s

/-! ### The byte that a bit command writes back -/

/-- The byte that a slow command is about to write back, if any, lies in its buffer, and that in data memory (R66). -/
def BitReady (cmd : SlowCmd) (s : State) : Prop :=
  ∀ i a y, cmd = .bitPut i a y →
    srcOk s = true ∧ s.latched.src.toNat ≤ a ∧ a < s.latched.src.toNat + s.latched.len.toNat

theorem BitReady.congr {cmd : SlowCmd} {s t : State} (h : BitReady cmd s) (hp : t.params = s.params)
    (hl : t.latched = s.latched) : BitReady cmd t := by
  unfold BitReady srcOk rangeOk
  rw [hp, hl]
  exact h

theorem BitInv.bitReady {s : State} (h : BitInv s) {cmd : SlowCmd} {k : Nat} (hseq : s.seq = .slow cmd k) :
    BitReady cmd s := by
  rintro i a y rfl
  exact ⟨h.buffer_fits i a y k hseq, h.byte_inside i a y k hseq⟩

theorem bitInv_of_slow {s : State} {cmd : SlowCmd} {k : Nat} (hseq : s.seq = .slow cmd k) (h : BitReady cmd s) :
    BitInv s where
  buffer_fits i a y k' hs := by
    rw [hseq] at hs
    cases hs
    exact (h i a y rfl).1
  byte_inside i a y k' hs := by
    rw [hseq] at hs
    cases hs
    exact (h i a y rfl).2

theorem bitInv_of_not_slow {s : State} (h : ∀ cmd k, s.seq ≠ .slow cmd k) : BitInv s where
  buffer_fits _ _ _ _ hs := absurd hs (h _ _)
  byte_inside _ _ _ _ hs := absurd hs (h _ _)

/-- A slow command writes nothing at or above MEM_SIZE. -/
theorem slowWrites_lt {cmd : SlowCmd} {s : State} (h : BitReady cmd s) {x : Nat} (hx : slowWrites cmd s x) :
    x < s.params.memSize := by
  cases cmd with
  | permute num => exact hx.2
  | bitPut i a y =>
    obtain ⟨hsrc, hle, hlt⟩ := h i a y rfl
    obtain rfl : x = a := hx
    exact lt_memSize_of_rangeOk hsrc hle hlt
  | configure => exact hx.elim
  | rekey => exact hx.elim
  | bitGet num v => exact hx.elim

/-! ### What an accepted command leads to -/

theorem Ends.seq {u t : State} (h : Ends u t) : t.seq = .idle := by cases h <;> rfl

theorem Rebuilds.seq {u t : State} (h : Rebuilds u t) : t.seq = .idle := by cases h <;> rfl

theorem finishSlow_seq (cmd : SlowCmd) (s : State) : (finishSlow cmd s).seq = .idle := by
  rcases finishSlow_cases cmd s with h | ⟨-, h⟩
  · exact h.seq
  · exact h.seq

/-- A message command that was accepted passed its issue-time checks with `n` blocks (R129, R130). -/
structure MessageChecked (dir : Direction) (n : Nat) (s : State) : Prop where
  configured : s.status.configured = true
  count_eq : blockCount dir s.ctx.pad (ctxB s) s.latched.len.toNat = .ok n
  count_le : n ≤ maxBlocks
  src_fits : srcOk s = true
  dst_fits : dstOk s (n * ctxB s) = true
  disjoint : intersect s.latched.src.toNat s.latched.len.toNat s.latched.dst.toNat (n * ctxB s) = false

/-- What an accepted command makes of the sequencer, data memory and the progress registers of `u`. -/
inductive Moved (u : State) : State → Prop
  | ended {t : State} (hd : DataKept (· < u.params.memSize) u t) (hseq : t.seq = .idle) : Moved u t
  | slow {v : State} (cmd : SlowCmd) (k : Nat) (hv : Prepared u v) (hbit : BitReady cmd v) :
      Moved u { v with seq := .slow cmd k }
  | message (dir : Direction) (n : Nat) (h : MessageChecked dir n u) : Moved u (loadMsg dir n u)

theorem launch_moved {u v : State} (hv : Prepared u v) {cmd : SlowCmd} (hbit : BitReady cmd v) (k : Nat) :
    Moved u (launch cmd (finishSlow cmd) k v) := by
  cases k with
  | zero =>
    have hfinish := (finishSlow_dataKept cmd v).mono fun x => slowWrites_lt hbit
    rw [hv.params] at hfinish
    exact .ended ((hv.data.mono fun _ h => h.elim).trans hfinish) (finishSlow_seq cmd v)
  | succ k => exact .slow cmd k hv hbit

theorem startSlow_moved {u v : State} (hv : Prepared u v) {cmd : SlowCmd} (hbit : BitReady cmd v) :
    Moved u (startSlow cmd v) := by
  obtain ⟨e, he⟩ := drawChoice_spec v
  unfold startSlow
  simp only [he]
  exact launch_moved (hv.setEnv e) (hbit.congr rfl rfl) _

theorem endBit_moved {u v : State} (hv : Prepared u v) {cmd : SlowCmd} (hbit : BitReady cmd v) :
    Moved u (endBit cmd (finishSlow cmd) v) := by
  obtain ⟨e, he⟩ := drawChoice_spec v
  unfold endBit
  simp only [he]
  exact launch_moved (hv.setEnv e) (hbit.congr rfl rfl) _

theorem getBitAt_moved (num : Numbering) (a shift : Nat) (s : State) : Moved s (getBitAt num a shift s) := by
  obtain ⟨⟨e, he⟩, -⟩ := busRead_spec a 1 s
  unfold getBitAt
  split
  · rename_i s1 h
    obtain rfl : s1 = setEnv e s := by rw [← he, h]
    exact .ended {} rfl
  · rename_i v s1 h
    obtain rfl : s1 = setEnv e s := by rw [← he, h]
    exact endBit_moved (cmd := .bitGet num _) {} (fun i a y h => by cases h)

theorem updateBitAt_moved (i : Instr) (change : Byte → Nat → Byte) {a : Nat} (shift : Nat) {s : State}
    (ha : ∀ y, BitReady (.bitPut i a y) s) : Moved s (updateBitAt i change a shift s) := by
  obtain ⟨⟨e, he⟩, -⟩ := busRead_spec a 1 s
  unfold updateBitAt
  split
  · rename_i s1 h
    obtain rfl : s1 = setEnv e s := by rw [← he, h]
    exact .ended {} rfl
  · rename_i v s1 h
    obtain rfl : s1 = setEnv e s := by rw [← he, h]
    exact endBit_moved (cmd := .bitPut i a _) {} ((ha _).congr rfl rfl)

/-- A located byte lies in its buffer (R63, R65). -/
theorem locate_lt {len idx byte shift : Nat} {num : Numbering} (h : locate len idx num = some (byte, shift)) :
    byte < len := by
  unfold locate at h
  split at h
  · dsimp only at h
    split at h <;> cases h <;> omega
  · cases h

theorem atBit_moved (i : Instr) (num : Numbering) {rest : Nat → Nat → State → State} {s : State}
    (hrest : ∀ a shift, (∀ y, BitReady (.bitPut i a y) s) → Moved s (rest a shift s)) :
    Moved s (atBit i num rest s) := by
  unfold atBit
  split
  · exact .ended {} rfl
  rename_i hsrc
  split
  · exact .ended {} rfl
  rename_i byte shift hloc
  have hlt := locate_lt hloc
  refine hrest _ _ fun y j a z h => ?_
  cases h
  exact ⟨by simpa using hsrc, by omega, by omega⟩

theorem updateBit_moved (i : Instr) (num : Numbering) (change : Byte → Nat → Byte) (s : State) :
    Moved s (atBit i num (updateBitAt i change) s) :=
  atBit_moved i num fun _ shift ha => updateBitAt_moved i change shift ha

theorem startMsg_moved (dir : Direction) (s : State) : Moved s (startMsg dir s) := by
  unfold startMsg
  dsimp only
  split
  · exact .ended {} rfl
  rename_i hconf
  split
  · exact .ended {} rfl
  rename_i n hcount
  split
  · exact .ended {} rfl
  rename_i hmax
  split
  · exact .ended {} rfl
  rename_i hranges
  split
  · exact .ended {} rfl
  rename_i hdisjoint
  simp only [Bool.and_eq_false_iff, not_or, Bool.not_eq_false] at hranges
  exact .message dir n
    { configured := by simpa using hconf
      count_eq := hcount
      count_le := Nat.le_of_not_lt hmax
      src_fits := hranges.1
      dst_fits := hranges.2
      disjoint := by simpa using hdisjoint }

theorem bitReady_of_not_bitPut {cmd : SlowCmd} (h : ∀ i a y, cmd ≠ .bitPut i a y) (s : State) : BitReady cmd s :=
  fun i a y hcmd => absurd hcmd (h i a y)

theorem issue_moved {i : Instr} {f : State → State} {s : State} (hacc : CanAccept s) (hf : ∀ u, Moved u (f u)) :
    Moved (accept i s) (issue i f s) := by
  rw [issue_of_canAccept hacc]
  exact hf _

/-- A command other than NOP, ACK and CANCEL, accepted in `s`. -/
theorem exec_moved {i : Instr} {s t : State} (h : exec i s = .next t) (hacc : CanAccept s) (hnop : i ≠ .nop)
    (hack : i ≠ .ack) (hcancel : i ≠ .cancel) : Moved (accept i s) t := by
  cases i with
  | nop => exact absurd rfl hnop
  | ack => exact absurd rfl hack
  | cancel => exact absurd rfl hcancel
  | configure =>
    cases h
    refine issue_moved hacc fun u => startSlow_moved ?_ (bitReady_of_not_bitPut (by simp) _)
    exact { toWorked := worked_dropContext u }
  | rekey => cases h; exact issue_moved hacc fun u => startSlow_moved {} (bitReady_of_not_bitPut (by simp) u)
  | permute num => cases h; exact issue_moved hacc fun u => startSlow_moved {} (bitReady_of_not_bitPut (by simp) u)
  | blkEnc =>
    cases h
    exact issue_moved hacc fun u => .ended (blockCommand_dataKept _ _ u) (blockCommand_ends _ _ u).seq
  | blkDec =>
    cases h
    exact issue_moved hacc fun u => .ended (blockCommand_dataKept _ _ u) (blockCommand_ends _ _ u).seq
  | msgEnc => cases h; exact issue_moved hacc (startMsg_moved _)
  | msgDec => cases h; exact issue_moved hacc (startMsg_moved _)
  | bitGet num =>
    cases h
    exact issue_moved hacc fun u => atBit_moved _ num fun a shift _ => getBitAt_moved num a shift u
  | bitSet num => cases h; exact issue_moved hacc (updateBit_moved _ num _)
  | bitClr num => cases h; exact issue_moved hacc (updateBit_moved _ num _)
  | bitTgl num => cases h; exact issue_moved hacc (updateBit_moved _ num _)
  | gfMul => cases h; exact issue_moved hacc fun u => .ended (gfMulBody_dataKept u) (gfMulBody_ends u).seq
  | gfIrred => cases h; exact issue_moved hacc fun u => .ended {} rfl
  | padSet => cases h; exact issue_moved hacc fun u => .ended (padSetBody_dataKept u) (padSetBody_ends u).seq
  | padClr => cases h; exact issue_moved hacc fun u => .ended (padClrBody_dataKept u) (padClrBody_ends u).seq

end Sys2Proof.Machine
end

section
/-! PROOFS. The engine's step, a command word and a step of the machine, inverted for what they write of data memory, of
the sequencer and of the progress registers (10_state.md R24; 20_memory.md R44, R46; 46_modes.md R123, R126, R131). -/

namespace Sys2Proof.Machine

open Sys2Proof.Claim

/-! ### What the invariants of a running command speak of -/

/-- The sequencer, what the running command goes by, and the registers that it counts in are the same in `s` and `t`. -/
structure RunKept (s t : State) : Prop where
  params : t.params = s.params := by rfl
  ctx : t.ctx = s.ctx := by rfl
  latched : t.latched = s.latched := by rfl
  out : t.out = s.out := by rfl
  seq : t.seq = s.seq := by rfl
  chain : t.dp.chain = s.dp.chain := by rfl
  chainP : t.dp.chainP = s.dp.chainP := by rfl
  ctrBase : t.dp.ctrBase = s.dp.ctrBase := by rfl

theorem writeReg_runKept (r : Reg) (v : Word) (s : State) : RunKept s (writeReg r v s) := by
  cases r <;> exact {}

theorem raceInputs_runKept (a n : Nat) (s : State) : RunKept s (raceInputs a n s) := by
  obtain ⟨mem, raced, e, lanes, h⟩ := raceInputs_spec a n s
  rw [h]
  exact {}

/-! ### A command word -/

/-- What a word written to CMD makes of the sequencer, data memory and the progress registers. -/
inductive CommandMoved (s : State) : State → Prop
  | kept {t : State} (h : RunKept s t) (hmem : t.mem = s.mem) : CommandMoved s t
  | cancelled (m : MsgRun) (c : Nat) (e : Env) (hseq : s.seq = .msg m) :
      CommandMoved s
        { s with
          status := { s.status with cancelPending := true }
          env := e
          seq := .msg { m with inFlight := some (inFlightSet s m c) } }
  | failed (c : ErrorCode) (op : Byte) : CommandMoved s (raise c op s)
  | accepted {t : State} (i : Instr) (hacc : CanAccept s) (h : Moved (accept i s) t) : CommandMoved s t

theorem guarded_moved {f : State → State} {s : State} (h : CanAccept s → CommandMoved s (f s)) :
    CommandMoved s (guarded f s) := by
  rcases guarded_cases f s with ⟨hacc, heq⟩ | ⟨-, heq⟩
  · rw [heq]
    exact h hacc
  · rw [heq]
    exact .kept {} rfl

theorem cancelRunning_moved (s : State) : CommandMoved s (cancelRunning s) := by
  unfold cancelRunning
  split
  · exact .kept {} rfl
  dsimp only
  split
  · rename_i m hseq
    obtain ⟨e, he⟩ := drawChoice_spec { s with status := { s.status with cancelPending := true } }
    rw [he]
    exact .cancelled m _ e hseq
  all_goals exact .kept {} rfl

theorem execCancel_moved {s t : State} (h : execCancel s = .next t) : CommandMoved s t := by
  unfold execCancel at h
  split at h
  · cases h
    exact .kept {} rfl
  split at h
  · cases h
    exact cancelRunning_moved s
  · cases h
    exact .kept {} rfl

theorem exec_commandMoved {i : Instr} {s t : State} (h : exec i s = .next t) : CommandMoved s t := by
  by_cases hnop : i = .nop
  · subst hnop
    cases h
    exact .kept {} rfl
  by_cases hack : i = .ack
  · subst hack
    cases h
    exact guarded_moved fun _ => .kept {} rfl
  by_cases hcancel : i = .cancel
  · subst hcancel
    exact execCancel_moved h
  by_cases hacc : CanAccept s
  · exact .accepted i hacc (exec_moved h hacc hnop hack hcancel)
  · cases exec_executed h with
    | noEffect _ => exact .kept {} rfl
    | dropped _ => exact .kept {} rfl
    | acknowledged hi _ => exact absurd hi hack
    | cancelled hi _ _ => exact absurd hi hcancel
    | performed _ h _ => exact absurd h hacc

theorem cmdWrite_moved {w : Word} {s t : State} (h : cmdWrite w s = .next t) : CommandMoved s t := by
  unfold cmdWrite at h
  split at h
  · exact exec_commandMoved h
  · cases h
    exact guarded_moved fun _ => .failed _ _

/-! ### The blocks that a message reads -/

theorem ctxB_pos (s : State) : 0 < ctxB s := by
  unfold ctxB
  cases s.ctx.alg <;> decide

/-- A fill keeps the length of the block (R115). -/
theorem length_fill {pad : Padding} {blk random : List Byte} {u : Nat} (hu : u ≤ blk.length)
    (hr : random.length = randomCount pad blk.length u) : (fill pad blk u random).length = blk.length := by
  unfold fill
  split
  · rfl
  rename_i hne
  cases pad with
  | noPadding => rfl
  | zeros | ansiX923 | pkcs7 =>
    simp only [zeros, List.length_append, List.length_take, List.length_replicate, List.length_cons, List.length_nil]
    omega
  | iso10126 =>
    simp only [randomCount, if_true] at hr
    simp only [List.length_append, List.length_take, List.length_cons, List.length_nil, hr]
    omega

/-- An input block is a whole block (R123). -/
theorem length_readBlock {m : MsgRun} {i : Nat} {s : State} {x : List Byte} (h : (readBlock m i s).1 = some x) :
    x.length = ctxB s := by
  have hread (a : Nat) := (busRead_spec a (ctxB s) s).2
  unfold readBlock at h
  dsimp only at h
  split at h
  · exact hread _ x h
  split at h
  · exact hread _ x h
  split at h
  · cases h
  rename_i d s1 heq
  cases h
  have hd : d.length = s.latched.len.toNat % ctxB s := (busRead_spec _ _ s).2 d (by rw [heq])
  have hlt : s.latched.len.toNat % ctxB s < ctxB s := Nat.mod_lt _ (ctxB_pos s)
  have hblk : (d ++ zeros (ctxB s - s.latched.len.toNat % ctxB s)).length = ctxB s := by
    simp only [List.length_append, zeros, List.length_replicate, hd]
    omega
  have hfill := length_fill (pad := s.ctx.pad) (blk := d ++ zeros (ctxB s - s.latched.len.toNat % ctxB s))
    (random := (drawBytes (randomCount s.ctx.pad (ctxB s) (s.latched.len.toNat % ctxB s)) s1).1)
    (u := s.latched.len.toNat % ctxB s) (by omega) (by rw [hblk]; exact (drawBytes_spec _ s1).2)
  rw [hblk] at hfill
  exact hfill

/-- Where a block's C_(i-1) or O_(i-1) comes from: CHAIN, or the IV or a whole input block where the mode reads
the block before from data memory (R124). -/
def CarriedFrom (s : State) (m : MsgRun) (c : List Byte) : Prop :=
  if readsPrevious s.ctx.mode m.dir then c = s.ctx.iv.getD [] ∨ c.length = ctxB s else c = s.dp.chain

theorem carriedFrom_readCarried {m : MsgRun} {i : Nat} {s : State} {c : List Byte}
    (h : (readCarried m i s).1 = some c) : CarriedFrom s m c := by
  unfold readCarried at h
  unfold CarriedFrom
  split at h
  · rename_i hprev
    rw [if_pos hprev]
    split at h
    · cases h
      exact .inl rfl
    · exact .inr ((busRead_spec _ _ s).2 c h)
  · rename_i hprev
    rw [if_neg hprev]
    cases h
    rfl

/-! ### The engine's own step -/

/-- The addresses that the last step of the slow command that runs, if one does, may write. -/
def engineWrites (s : State) (x : Nat) : Prop := ∃ cmd, s.seq = .slow cmd 0 ∧ slowWrites cmd s x

/-- What the engine's next step makes of the sequencer, data memory and the progress registers. -/
inductive EngineMoved (s : State) : State → Prop
  | rested {t : State} (hd : DataKept (engineWrites s) s t) (hseq : t.seq = .idle ∨ ∃ k, t.seq = .init k) :
      EngineMoved s t
  | waiting (cmd : SlowCmd) (k : Nat) (hseq : s.seq = .slow cmd (k + 1)) : EngineMoved s { s with seq := .slow cmd k }
  | block (m : MsgRun) (l : Nat) (e : Env) (x c y : List Byte) (hseq : s.seq = .msg m) (hl : l ∈ readyLanes s m)
      (hx : x.length = ctxB s) (hc : CarriedFrom s m c)
      (hy : y.length = (msgOutput s m (nextBlock s m l) x c).length) :
      EngineMoved s
        (completeBlock m l (nextBlock s m l) x c y
          (setMem (writeBytes s.mem (s.latched.dst.toNat + nextBlock s m l * ctxB s) y) (setEnv e s)))

theorem slowStep_moved {cmd : SlowCmd} {left : Nat} {s : State} (hseq : s.seq = .slow cmd left) :
    EngineMoved s (slowStep cmd left s) := by
  cases left with
  | zero => exact .rested ((finishSlow_dataKept cmd s).mono fun x hx => ⟨cmd, hseq, hx⟩) (.inl (finishSlow_seq cmd s))
  | succ k => exact .waiting cmd k hseq

theorem msgStep_moved {m : MsgRun} {s : State} (hseq : s.seq = .msg m) : EngineMoved s (msgStep m s) := by
  rcases msgStep_cases m s with ⟨-, h⟩ | ⟨l, e, hl, h⟩
  · rw [h]
    rcases finishMsg_cases m s with ⟨-, n, w, h⟩ | ⟨-, h⟩
    · rw [h]
      exact .rested {} (.inl rfl)
    · rw [h]
      exact .rested {} (.inl rfl)
  · rw [h]
    rcases blockStep_cases m l (setEnv e s) with ⟨e', h⟩ | ⟨e', x, c, y, h, hx, hc, hy, -⟩
    · rw [h]
      exact .rested {} (.inl rfl)
    · rw [h]
      obtain ⟨e1, h1⟩ := readBlock_env m (nextBlock (setEnv e s) m l) (setEnv e s)
      rw [h1] at hc
      exact .block m l e' x c y hseq hl (length_readBlock (s := setEnv e s) hx)
        (carriedFrom_readCarried (s := setEnv e1 (setEnv e s)) hc) hy

theorem engineStep_moved (s : State) : EngineMoved s (engineStep s) := by
  unfold engineStep
  split
  · rename_i hseq
    exact .rested {} (.inl hseq)
  · rename_i left _
    cases left with
    | zero => exact .rested {} (.inl rfl)
    | succ k => exact .rested {} (.inr ⟨k, rfl⟩)
  · rename_i cmd left hseq
    exact slowStep_moved hseq
  · rename_i m hseq
    exact msgStep_moved hseq

/-! ### A step of the machine -/

/-- What a step makes of `s`, the next action of the outside world taken off its list already. -/
inductive Acted (s : State) : State → Prop
  | engine : Acted s (engineStep s)
  | command {t : State} (w : Word) (h : cmdWrite w s = .next t) : Acted s t
  | register (r : Reg) (v : Word) : Acted s (writeReg r v s)
  | memory {t : State} (a : Nat) (b : List Byte) (h : hostMemWrite a b s = .next t) : Acted s t
  | answered (e : Env) (r : Option HostResponse) : Acted s { s with env := e, response := r }
  | reset (k : Nat) (e : Env) : Acted s (resetEngine k (setEnv e s))

theorem hostRegWrite_acted {s t : State} {a : WindowAddr} {width : AccessWidth} {v : Word}
    (h : hostRegWrite a width v s = .next t) : Acted s t := by
  unfold hostRegWrite at h
  split at h
  · cases h
    exact .answered s.env s.response
  obtain ⟨-, -, -, h⟩ := atOffset_next h
  split at h
  · exact .command v h
  · cases h
    exact .register _ v

theorem hostRegRead_acted {s t : State} {a : WindowAddr} {width : AccessWidth}
    (h : hostRegRead a width s = .next t) : Acted s t := by
  unfold hostRegRead at h
  split at h
  · cases h
    exact .answered s.env s.response
  obtain ⟨-, -, -, h⟩ := atOffset_next h
  cases h
  exact .answered s.env _

theorem hostMemRead_acted {s t : State} {a n : Nat} (h : hostMemRead a n s = .next t) : Acted s t := by
  obtain ⟨⟨e, he⟩, -⟩ := observed_spec a (readBytes s.mem a n) s
  unfold hostMemRead at h
  simp only [he] at h
  rw [atMemory_next h]
  exact .answered e _

theorem hostReset_acted (s : State) : Acted s (hostReset s) := by
  obtain ⟨e, he⟩ := drawChoice_spec s
  unfold hostReset
  simp only [he]
  exact .reset _ e

theorem step_acted {s t : State} (h : step s = .next t) : Acted (afterHost s) t := by
  unfold step at h
  split at h
  · rename_i hhost
    cases h
    have hs : afterHost s = s := by rw [afterHost, hhost, List.tail_nil, ← hhost]
    rw [hs]
    exact .engine
  rename_i op rest hhost
  have hrest : { s with host := rest } = afterHost s := by simp [afterHost, hhost]
  rw [hrest] at h
  cases op with
  | regWrite a width v => exact hostRegWrite_acted h
  | regRead a width => exact hostRegRead_acted h
  | memWrite a b => exact .memory a b h
  | memRead a n => exact hostMemRead_acted h
  | idle =>
    cases h
    exact .engine
  | reset =>
    cases h
    exact hostReset_acted _

/-- A host access that the machine carries out exists and meets no closed destination (R31, R46). -/
theorem atMemory_carried {a n : Nat} {s access t : State} (h : atMemory a n s access = .next t) :
    rangeOk s a n = true ∧ intersect a n (closedRange s).1 (closedRange s).2 = false := by
  unfold atMemory at h
  split at h
  · cases h
  rename_i hrange
  split at h
  · cases h
  rename_i hmeet
  exact ⟨by simpa using hrange, by simpa using hmeet⟩

/-- A host write that the machine carries out races the inputs it meets. -/
theorem hostMemWrite_next {a : Nat} {b : List Byte} {s t : State} (h : hostMemWrite a b s = .next t) :
    rangeOk s a b.length = true ∧ t = raceInputs a b.length { s with mem := writeBytes s.mem a b } :=
  ⟨(atMemory_carried h).1, atMemory_next h⟩

end Sys2Proof.Machine
end

section
/-! PROOFS. DONE_BLOCKS counts the completed blocks and never passes TOTAL_BLOCKS (20_memory.md R44; 46_modes.md R126,
R127, R131). -/

namespace Sys2Proof.Machine

open Sys2Proof.Claim

theorem ProgressInv.of_runKept {s t : State} (h : ProgressInv s) (hk : RunKept s t) : ProgressInv t where
  done_le_total := by
    rw [hk.out]
    exact h.done_le_total
  run_ok m hm := (h.run_ok m (hk.seq ▸ hm)).congr hk.params hk.ctx
  total_eq m hm := by
    rw [hk.out]
    exact h.total_eq m (hk.seq ▸ hm)
  done_eq m hm := by
    rw [hk.out]
    exact h.done_eq m (hk.seq ▸ hm)
  outLen_zero m hm := by
    rw [hk.out]
    exact h.outLen_zero m (hk.seq ▸ hm)

/-- Where no message runs, the progress registers only have to agree with each other. -/
theorem progressInv_of_not_msg {t : State} (hle : t.out.doneBlocks ≤ t.out.totalBlocks) (h : ∀ m, t.seq ≠ .msg m) :
    ProgressInv t where
  done_le_total := hle
  run_ok m hm := absurd hm (h m)
  total_eq m hm := absurd hm (h m)
  done_eq m hm := absurd hm (h m)
  outLen_zero m hm := absurd hm (h m)

theorem DataKept.done_le_total {P : Nat → Prop} {u t : State} (h : DataKept P u t)
    (hu : u.out.doneBlocks ≤ u.out.totalBlocks) : t.out.doneBlocks ≤ t.out.totalBlocks := by
  rw [h.doneBlocks, h.totalBlocks]
  exact hu

/-- A message starts with no block done, and its block count fits TOTAL_BLOCKS (R122, R127). -/
theorem loadMsg_progressInv (dir : Direction) {n : Nat} (hn : n ≤ maxBlocks) (s : State) :
    ProgressInv (loadMsg dir n s) where
  done_le_total := Nat.zero_le _
  run_ok m hm := by
    cases hm
    exact runOk_start _ dir n
  total_eq m hm := by
    cases hm
    have hlt : n < 2 ^ 32 := hn.trans_lt (by decide)
    exact (BitVec.toNat_ofNat n 32).trans (Nat.mod_eq_of_lt hlt)
  done_eq m hm := by
    cases hm
    rfl
  outLen_zero _ _ := rfl

theorem Moved.progressInv {u t : State} (h : Moved u t) (hu : u.out.doneBlocks ≤ u.out.totalBlocks) :
    ProgressInv t := by
  cases h with
  | ended hd hseq => exact progressInv_of_not_msg (hd.done_le_total hu) (by simp [hseq])
  | slow cmd k hv _ => exact progressInv_of_not_msg (hv.data.done_le_total hu) (by simp)
  | message dir n h => exact loadMsg_progressInv dir h.count_le u

theorem CommandMoved.progressInv {s t : State} (h : CommandMoved s t) (hs : ProgressInv s) : ProgressInv t := by
  cases h with
  | kept hk _ => exact hs.of_runKept hk
  | cancelled m c e hseq =>
    exact
      { done_le_total := hs.done_le_total
        run_ok := fun m' hm => by
          cases hm
          exact ((hs.run_ok m hseq).cancel c).congr rfl rfl
        total_eq := fun m' hm => by
          cases hm
          exact hs.total_eq m hseq
        done_eq := fun m' hm => by
          cases hm
          exact hs.done_eq m hseq
        outLen_zero := fun _ _ => hs.outLen_zero m hseq }
  | failed c op => exact progressInv_of_not_msg hs.done_le_total (by simp [raise])
  | accepted i _ h => exact h.progressInv hs.done_le_total

/-- Completing a block counts it, and there is always room to count it. -/
theorem completeBlock_progressInv {s v : State} (hs : ProgressInv s) (hv : RunKept s v) {m : MsgRun} {l : Nat}
    (hseq : s.seq = .msg m) (hl : l ∈ readyLanes s m) (i : Nat) (x c y : List Byte) :
    ProgressInv (completeBlock m l i x c y v) := by
  have hrun := (hs.run_ok m hseq).advance hl
  have hbound := hrun.blocksDone_le
  have hcount := blocksDone_advanceRun (hs.run_ok m hseq) l
  have htotal := hs.total_eq m hseq
  have hdone := hs.done_eq m hseq
  have hn : (advanceRun m l).n = m.n := rfl
  have hsucc : (s.out.doneBlocks + 1).toNat = blocksDone (advanceRun m l) := by
    have hlt := s.out.totalBlocks.isLt
    rw [BitVec.toNat_add, show (1 : Word).toNat = 1 from rfl, Nat.mod_eq_of_lt (by omega)]
    omega
  have hout : (completeBlock m l i x c y v).out = { s.out with doneBlocks := s.out.doneBlocks + 1 } := by
    rw [← hv.out]
    rfl
  have hm {m' : MsgRun} (h : (completeBlock m l i x c y v).seq = .msg m') : m' = advanceRun m l := by
    cases h
    rfl
  exact
    { done_le_total := by
        rw [hout, BitVec.le_def, hsucc, htotal]
        omega
      run_ok := fun m' h => by
        rw [hm h]
        exact hrun.congr hv.params hv.ctx
      total_eq := fun m' h => by
        rw [hm h, hout]
        exact htotal
      done_eq := fun m' h => by
        rw [hm h, hout]
        exact hsucc
      outLen_zero := fun m' h => by
        rw [hout]
        exact hs.outLen_zero m hseq }

theorem EngineMoved.progressInv {s t : State} (h : EngineMoved s t) (hs : ProgressInv s) : ProgressInv t := by
  cases h with
  | rested hd hseq =>
    refine progressInv_of_not_msg (hd.done_le_total hs.done_le_total) fun m => ?_
    rcases hseq with hseq | ⟨k, hseq⟩ <;> simp [hseq]
  | waiting cmd k _ => exact progressInv_of_not_msg hs.done_le_total (by simp)
  | block m l e x c y hseq hl _ _ _ => exact completeBlock_progressInv hs {} hseq hl _ _ _ _

theorem resetEngine_progressInv (k : Nat) (s : State) : ProgressInv (resetEngine k s) :=
  progressInv_of_not_msg (Nat.zero_le _) (by simp)

theorem Acted.progressInv {s t : State} (h : Acted s t) (hs : ProgressInv s) : ProgressInv t := by
  cases h with
  | engine => exact (engineStep_moved s).progressInv hs
  | command w h => exact (cmdWrite_moved h).progressInv hs
  | register r v => exact hs.of_runKept (writeReg_runKept r v s)
  | memory a b h =>
    obtain ⟨-, rfl⟩ := hostMemWrite_next h
    have hwritten : ProgressInv { s with mem := writeBytes s.mem a b } := hs.of_runKept {}
    exact hwritten.of_runKept (raceInputs_runKept _ _ _)
  | answered e r => exact hs.of_runKept {}
  | reset k e => exact resetEngine_progressInv k _

/-- Settles O57: the invariant holds after each kind of step; a block is completed only by a lane that has one left, so
that the count never passes the message's blocks. -/
theorem stepKeepsProgress : Obligations.StepKeepsProgress := by
  intro s t _ hs hstep
  have hs' : ProgressInv (afterHost s) := hs.of_runKept {}
  exact (step_acted hstep).progressInv hs'

end Sys2Proof.Machine
end

section
/-! PROOFS. The ciphers, the modes and the padding give whole blocks for whole blocks (43_feistel.md R91..R103;
44_serpent.md R106; 46_modes.md R124). -/

namespace Sys2Proof.Machine

open Sys2Proof.Claim

/-! ### Byte strings -/

theorem length_xorBytes {a b : List Byte} {n : Nat} (ha : a.length = n) (hb : b.length = n) :
    (xorBytes a b).length = n := by
  simp [xorBytes, ha, hb]

@[simp] theorem length_beBytes (n v : Nat) : (beBytes n v).length = n := by simp [beBytes]

@[simp] theorem length_zeros (n : Nat) : (zeros n).length = n := List.length_replicate

theorem length_swapHalves (h : Nat) (x : List Byte) : (swapHalves h x).length = x.length := by
  simp only [swapHalves, List.length_append, List.length_drop, List.length_take]
  omega

/-! ### Fixed permutations (R70) -/

/-- A bit of a numbering with origin 1 is in the buffer where its index is in 1..8*len (R63). -/
theorem locate_msb1 {len idx : Nat} (h1 : 1 ≤ idx) (h2 : idx ≤ 8 * len) :
    locate len idx .msb1 = some ((idx - 1) / 8, 7 - (idx - 1) % 8) := by
  have hin : origin .msb1 ≤ idx ∧ idx - origin .msb1 < 8 * len := by
    simp only [origin]
    omega
  rw [locate, if_pos hin]
  rfl

/-- A permutation whose entries are all in range answers. -/
theorem permuteFrom_msb1 {data : List Byte} {rule : List Nat} (hrule : ∀ idx ∈ rule, 1 ≤ idx ∧ idx ≤ 8 * data.length)
    {i : Nat} {out : List Byte} (hroom : i + rule.length ≤ 8 * out.length) :
    ∃ out', permuteFrom data .msb1 i rule out = some out' := by
  induction rule generalizing i out with
  | nil => exact ⟨out, rfl⟩
  | cons idx rest ih =>
    obtain ⟨h1, h2⟩ := hrule idx (by simp)
    simp only [List.length_cons] at hroom
    obtain ⟨v, hv⟩ : ∃ v, getbit data idx .msb1 = some v := ⟨_, by rw [getbit, locate_msb1 h1 h2]; rfl⟩
    obtain ⟨out1, hout1⟩ : ∃ out1, setbit out (i + 1) (targetNum .msb1) v = some out1 :=
      ⟨_, by rw [show targetNum .msb1 = .msb1 from rfl, setbit, locate_msb1 (by omega) (by omega)]; rfl⟩
    simp only [permuteFrom, hv, hout1]
    refine ih (fun j hj => hrule j (List.mem_cons_of_mem idx hj)) ?_
    rw [length_setbit hout1]
    omega

/-- A table of whole bytes whose entries are in range gives a byte for every eight of them. -/
theorem length_permuteTable {data : List Byte} {table : List Nat} (h8 : table.length % 8 = 0)
    (htable : ∀ idx ∈ table, 1 ≤ idx ∧ idx ≤ 8 * data.length) :
    (permuteTable data table).length = table.length / 8 := by
  obtain ⟨out, hout⟩ := permuteFrom_msb1 htable (i := 0) (out := zeros (table.length / 8)) (by
    rw [length_zeros]
    omega)
  have hpermute : permute data table .msb1 = some out := by rw [permute, if_pos h8, hout]
  rw [permuteTable, hpermute]
  exact length_permute hpermute

/-! ### The Feistel core -/

/-- Rounds of a function that keeps the half size keep both halves' size (R91). -/
theorem length_coreHalves {κ : Type} {h : Nat} {f : List Byte → κ → List Byte}
    (hf : ∀ r k, r.length = h → (f r k).length = h) (keys : List κ) {x : List Byte} (hx : x.length = 2 * h) :
    (coreHalves h f keys x).1.length = h ∧ (coreHalves h f keys x).2.length = h := by
  suffices hfold : ∀ (ks : List κ) (lr : List Byte × List Byte), lr.1.length = h → lr.2.length = h →
      (ks.foldl (feistelRound f) lr).1.length = h ∧ (ks.foldl (feistelRound f) lr).2.length = h by
    refine hfold keys _ ?_ ?_
    · rw [List.length_take]
      omega
    · rw [List.length_drop]
      omega
  intro ks
  induction ks with
  | nil => exact fun lr h1 h2 => ⟨h1, h2⟩
  | cons k ks ih => exact fun lr h1 h2 => ih _ h2 (length_xorBytes h1 (hf lr.2 k h2))

theorem length_core {κ : Type} {h : Nat} {f : List Byte → κ → List Byte}
    (hf : ∀ r k, r.length = h → (f r k).length = h) (keys : List κ) {x : List Byte} (hx : x.length = 2 * h) :
    (recombine (coreHalves h f keys x)).length = 2 * h := by
  obtain ⟨hl, hr⟩ := length_coreHalves hf keys hx
  rw [recombine, List.length_append, hl, hr]
  omega

/-! ### The ciphers -/

theorem length_desF (r k : List Byte) : (desF r k).length = 4 := by
  unfold desF
  rw [length_permuteTable (by decide) (by rw [length_beBytes]; decide)]
  decide

theorem length_desCrypt (ks : List (List Byte)) {x : List Byte} (hx : x.length = 8) : (desCrypt ks x).length = 8 := by
  have hin : (permuteTable x desIP).length = 2 * 4 := by
    rw [length_permuteTable (by decide) (by rw [hx]; decide)]
    decide
  have hcore : (recombine (desHalves ks x)).length = 8 := length_core (fun r k _ => length_desF r k) ks hin
  rw [desCrypt, length_permuteTable (by decide) (by rw [hcore]; decide)]
  decide

theorem length_dealF (r : List Byte) (k : DealKey) (hr : r.length = 8) : (dealF r k).length = 8 :=
  length_desCrypt k.des hr

theorem length_magS (x : List Byte) : (magS x).length = 16 := by simp [magS]

theorem length_magentaF (ftab r k : List Byte) : (magentaF ftab r k).length = 8 := by
  rw [magentaF, List.length_take, length_magS]
  decide

theorem length_bytesOf (x : Quad) : (bytesOf x).length = 16 := rfl

/-- E under a key schedule gives a block for a block (R103). -/
theorem length_encryptBlock (p : Params) (alg : Cipher) (k ftab : List Byte) {x : List Byte}
    (hx : x.length = blockSize alg) : (encryptBlock ftab (schedule p alg k) x).length = blockSize alg := by
  cases alg with
  | des => exact length_desCrypt _ hx
  | deal => exact length_core length_dealF _ ((length_swapHalves 8 x).trans hx)
  | magenta =>
    exact (length_swapHalves 8 _).trans (length_core (fun r k _ => length_magentaF ftab r k) _ hx)
  | serpent => exact length_bytesOf _

/-- D under a key schedule gives a block for a block (R103). -/
theorem length_decryptBlock (p : Params) (alg : Cipher) (k ftab : List Byte) {x : List Byte}
    (hx : x.length = blockSize alg) : (decryptBlock ftab (schedule p alg k) x).length = blockSize alg := by
  cases alg with
  | des => exact length_desCrypt _ hx
  | deal => exact (length_swapHalves 8 _).trans (length_core length_dealF _ hx)
  | magenta =>
    exact length_core (fun r k _ => length_magentaF ftab r k) _ ((length_swapHalves 8 x).trans hx)
  | serpent => exact length_bytesOf _

theorem length_crypt {s : State} (h : ContextOk s.params s.ctx) (dir : Direction) {x : List Byte}
    (hx : x.length = ctxB s) : (crypt s dir x).length = ctxB s := by
  unfold crypt
  rw [h.rkt_eq]
  cases dir with
  | encrypt => exact length_encryptBlock _ _ _ _ hx
  | decrypt => exact length_decryptBlock _ _ _ _ hx

/-! ### The mode equations (R124) -/

section
variable {mode : Mode} {dir : Direction} {x c p ctr v y : List Byte} {b : Nat}

theorem length_cipherInput (hx : x.length = b) (hc : mode ≠ .ecb → c.length = b) (hp : p.length = b)
    (hctr : ctr.length = b) : (cipherInput mode dir x c p ctr).length = b := by
  unfold cipherInput
  split
  case h_1 | h_3 | h_5 => exact hx
  case h_2 => exact length_xorBytes hx (hc (by simp))
  case h_4 => exact length_xorBytes (length_xorBytes hx hp) (hc (by simp))
  case h_6 | h_7 => exact hc (by simp)
  case h_8 | h_9 => exact hctr

theorem length_blockOutput (hx : x.length = b) (hc : mode ≠ .ecb → c.length = b) (hp : p.length = b)
    (hv : v.length = b) : (blockOutput mode dir x c p v).length = b := by
  unfold blockOutput
  split
  case h_1 | h_2 | h_4 => exact hv
  case h_3 => exact length_xorBytes hv (hc (by simp))
  case h_5 => exact length_xorBytes (length_xorBytes hv hp) (hc (by simp))
  case h_6 | h_7 | h_8 | h_9 => exact length_xorBytes hx hv

theorem length_nextChain (hx : x.length = b) (hc : c.length = b) (hv : v.length = b) (hy : y.length = b) :
    (nextChain mode dir x c v y).length = b := by
  unfold nextChain
  split <;> assumption

theorem length_nextChainP (hx : x.length = b) (hp : p.length = b) (hy : y.length = b) :
    (nextChainP mode dir x p y).length = b := by
  unfold nextChainP
  split <;> assumption

end

/-! ### The blocks of a running message -/

/-- What a running message holds is whole blocks: CHAIN where the mode carries one, and CHAINP. -/
structure ChainOk (s : State) : Prop where
  context : ContextOk s.params s.ctx
  chain_block : s.ctx.mode ≠ .ecb → s.dp.chain.length = ctxB s
  chainP_block : s.dp.chainP.length = ctxB s

section
variable {s : State} {m : MsgRun} {i : Nat} {x c : List Byte}

theorem ChainOk.length_carried (h : ChainOk s) (hc : CarriedFrom s m c) (hmode : s.ctx.mode ≠ .ecb) :
    c.length = ctxB s := by
  unfold CarriedFrom at hc
  split at hc
  · rcases hc with rfl | hc
    · obtain ⟨iv, hiv, hlen⟩ := h.context.iv_present hmode
      rw [hiv]
      exact hlen
    · exact hc
  · rw [hc]
    exact h.chain_block hmode

theorem ChainOk.length_crypt (h : ChainOk s) (hx : x.length = ctxB s) (hc : CarriedFrom s m c) :
    (crypt s (cipherUse s.ctx.mode m.dir) (msgCipherInput s m i x c)).length = ctxB s :=
  Machine.length_crypt h.context _
    (length_cipherInput hx (h.length_carried hc) h.chainP_block (by rw [counterBlock, length_beBytes]))

/-- An output block is a whole block. -/
theorem ChainOk.length_msgOutput (h : ChainOk s) (hx : x.length = ctxB s) (hc : CarriedFrom s m c) :
    (msgOutput s m i x c).length = ctxB s :=
  length_blockOutput hx (h.length_carried hc) h.chainP_block (h.length_crypt hx hc)

end

end Sys2Proof.Machine
end

section
/-! PROOFS. The invariants of the whole machine: the ranges of a running command, and that nothing outside them or at or
above MEM_SIZE is ever written (20_memory.md R31, R33, R45, R46; 46_modes.md R126, R129, R130). -/

namespace Sys2Proof.Machine

open Sys2Proof.Claim

/-! ### Data memory stays canonical -/

theorem Moved.writes {u t : State} (h : Moved u t) : WritesOnly (· < u.params.memSize) u.mem t.mem := by
  cases h with
  | ended hd _ => exact hd.writes
  | slow _ _ hv _ => exact hv.data.writes.mono fun _ h => h.elim
  | message _ _ _ => exact .refl _ _

theorem CommandMoved.writes {s t : State} (h : CommandMoved s t) : WritesOnly (· < s.params.memSize) s.mem t.mem := by
  cases h with
  | kept _ hmem =>
    rw [hmem]
    exact .refl _ _
  | cancelled _ _ _ _ => exact .refl _ _
  | failed _ _ => exact .refl _ _
  | accepted _ _ h => exact h.writes

theorem EngineMoved.memoryWf {s t : State} (h : EngineMoved s t) (hs : memoryWf s.mem = true) :
    memoryWf t.mem = true := by
  cases h with
  | rested hd _ => exact hd.writes.wf hs
  | waiting _ _ _ => exact hs
  | block _ _ _ _ _ _ _ _ _ _ _ => exact memoryWf_writeBytes hs _ _

/-- The bytes that a running message has written, which a race makes free (R46). -/
def freedBytes (s : State) (x : Nat) : Prop :=
  ∃ m, s.seq = .msg m ∧ ∃ c ∈ m.counts, ∃ j, j < c.2 ∧
    s.latched.dst.toNat + (c.1 + runWidth s m * j) * ctxB s ≤ x ∧
    x < s.latched.dst.toNat + (c.1 + runWidth s m * j) * ctxB s + ctxB s

theorem freeOutput_writesOnly (s : State) : WritesOnly (freedBytes s) s.mem (freeOutput s).mem := by
  unfold freeOutput
  split
  · rename_i m hseq
    obtain ⟨mem, e, ls, hs, hwf, hframe⟩ := freeWritten_spec m s
    rw [hs]
    refine ⟨hwf, fun x hx => hframe x fun c hc j hj => ?_⟩
    by_contra hin
    exact hx ⟨m, hseq, c, hc, j, hj, by omega, by omega⟩
  all_goals exact .refl _ _

theorem raceInputs_writesOnly (a n : Nat) (s : State) : WritesOnly (freedBytes s) s.mem (raceInputs a n s).mem := by
  rcases raceInputs_cases a n s with ⟨-, h⟩ | ⟨-, h⟩
  · rw [h]
    exact .refl _ _
  · rw [h]
    exact freeOutput_writesOnly { s with raced := s.raced ++ hitInputs a n s }

theorem Acted.memoryWf {s t : State} (h : Acted s t) (hs : memoryWf s.mem = true) : memoryWf t.mem = true := by
  cases h with
  | engine => exact (engineStep_moved s).memoryWf hs
  | command w h => exact (cmdWrite_moved h).writes.wf hs
  | register r v =>
    rw [writeReg_mem]
    exact hs
  | memory a b h =>
    obtain ⟨-, rfl⟩ := hostMemWrite_next h
    exact (raceInputs_writesOnly _ _ _).wf (memoryWf_writeBytes hs a b)
  | answered _ _ => exact hs
  | reset _ _ => exact hs

/-- Settles O54: every step writes data memory through `writeBytes` alone. -/
theorem stepKeepsMemoryCanonical : Obligations.StepKeepsMemoryCanonical :=
  fun _ _ hs hstep => (step_acted hstep).memoryWf hs

/-! ### The destination of the running command -/

/-- The addresses of the running command's destination. -/
def inDest (s : State) (x : Nat) : Prop := (destRange s).1 ≤ x ∧ x < (destRange s).1 + (destRange s).2

theorem destRange_msg {s : State} {m : MsgRun} (hseq : s.seq = .msg m) :
    destRange s = (s.latched.dst.toNat, m.n * ctxB s) := by
  simp [destRange, hseq]

/-- The bytes of a block below n lie in the message's destination. -/
theorem inDest_of_block {s : State} {m : MsgRun} (hseq : s.seq = .msg m) {i x : Nat} (hi : i < m.n)
    (hle : s.latched.dst.toNat + i * ctxB s ≤ x) (hlt : x < s.latched.dst.toNat + i * ctxB s + ctxB s) :
    inDest s x := by
  have hmul : i * ctxB s + ctxB s ≤ m.n * ctxB s := by
    rw [← Nat.succ_mul]
    exact Nat.mul_le_mul_right _ hi
  rw [inDest, destRange_msg hseq]
  dsimp only
  omega

/-- The destination of a message lies in data memory. -/
theorem MessageInv.lt_memSize {s : State} (h : MessageInv s) {m : MsgRun} (hseq : s.seq = .msg m) {x : Nat}
    (hx : inDest s x) : x < s.params.memSize := by
  rw [inDest, destRange_msg hseq] at hx
  exact lt_memSize_of_rangeOk (h.dst_fits m hseq) hx.1 hx.2

/-- What a running message has written lies in its destination. -/
theorem ProgressInv.inDest_of_freed {s : State} (h : ProgressInv s) {x : Nat} (hx : freedBytes s x) : inDest s x := by
  obtain ⟨m, hseq, c, hc, j, hj, hle, hlt⟩ := hx
  exact inDest_of_block hseq ((h.run_ok m hseq).laneBlocks_lt hc hj) hle hlt

/-- The last step of a slow command writes its destination, and that in data memory. -/
theorem BitInv.inDest_of_engineWrites {s : State} (h : BitInv s) {x : Nat} (hx : engineWrites s x) :
    inDest s x ∧ x < s.params.memSize := by
  obtain ⟨cmd, hseq, hx⟩ := hx
  refine ⟨?_, slowWrites_lt (h.bitReady hseq) hx⟩
  cases cmd with
  | permute num =>
    simp only [inDest, destRange, hseq]
    exact hx.1
  | bitPut i a y =>
    obtain rfl : x = a := hx
    simp only [inDest, destRange, hseq]
    omega
  | configure => exact hx.elim
  | rekey => exact hx.elim
  | bitGet num v => exact hx.elim

/-! ### A running message -/

/-- The context of a message that runs is valid. -/
theorem MachineInv.contextOk {s : State} (h : MachineInv s) {m : MsgRun} (hseq : s.seq = .msg m) :
    ContextOk s.params s.ctx :=
  h.context (h.control.keyed_eq_configured.trans (h.control.msg_configured m hseq))

theorem MachineInv.chainOk {s : State} (h : MachineInv s) {m : MsgRun} (hseq : s.seq = .msg m) : ChainOk s where
  context := h.contextOk hseq
  chain_block := h.message.chain_block m hseq
  chainP_block := h.message.chainP_block m hseq

/-- The engine writes the destination of what runs, and that in data memory. -/
theorem EngineMoved.writes {s t : State} (h : EngineMoved s t) (hs : MachineInv s) :
    WritesOnly (fun x => inDest s x ∧ x < s.params.memSize) s.mem t.mem := by
  cases h with
  | rested hd _ => exact hd.writes.mono fun x => hs.bits.inDest_of_engineWrites
  | waiting _ _ _ => exact .refl _ _
  | block m l e x c y hseq hl hx hc hy =>
    obtain ⟨-, hnext⟩ := mem_eligible.1 ((hs.progress.run_ok m hseq).eligible_of_ready hl)
    rw [(hs.chainOk hseq).length_msgOutput hx hc] at hy
    refine (writesOnly_writeBytes s.mem _ y).mono fun a ha => ?_
    rw [hy] at ha
    have hin := inDest_of_block hseq hnext ha.1 ha.2
    exact ⟨hin, hs.message.lt_memSize hseq hin⟩

/-- Settles O60: a block goes to its own place, and every other write of the engine is the last step of PERMUTE or of a
bit command. -/
theorem engineWritesOnlyItsDestination : Obligations.EngineWritesOnlyItsDestination := by
  intro s a hs ha
  refine ((engineStep_moved s).writes hs).frame a fun hin => ?_
  obtain ⟨⟨hle, hlt⟩, -⟩ := hin
  omega

theorem messageInv_of_not_msg {s : State} (h : ∀ m, s.seq ≠ .msg m) : MessageInv s where
  src_fits m hm := absurd hm (h m)
  dst_fits m hm := absurd hm (h m)
  count_eq m hm := absurd hm (h m)
  disjoint m hm := absurd hm (h m)
  chain_block m hm := absurd hm (h m)
  chainP_block m hm := absurd hm (h m)
  ctrBase_eq m _ hm := absurd hm (h m)

/-- What the message invariant says of a message with the direction and the block count of `m`. -/
structure MessageRunning (s : State) (m : MsgRun) : Prop where
  src_fits : srcOk s = true
  dst_fits : dstOk s (m.n * ctxB s) = true
  count_eq : blockCount m.dir s.ctx.pad (ctxB s) s.latched.len.toNat = .ok m.n
  disjoint : intersect s.latched.src.toNat s.latched.len.toNat s.latched.dst.toNat (m.n * ctxB s) = false
  chain_block : s.ctx.mode ≠ .ecb → s.dp.chain.length = ctxB s
  chainP_block : s.dp.chainP.length = ctxB s
  ctrBase_eq : ∀ iv, s.ctx.iv = some iv → s.dp.ctrBase = be iv

theorem MessageInv.running {s : State} (h : MessageInv s) {m : MsgRun} (hseq : s.seq = .msg m) :
    MessageRunning s m where
  src_fits := h.src_fits m hseq
  dst_fits := h.dst_fits m hseq
  count_eq := h.count_eq m hseq
  disjoint := h.disjoint m hseq
  chain_block := h.chain_block m hseq
  chainP_block := h.chainP_block m hseq
  ctrBase_eq iv := h.ctrBase_eq m iv hseq

theorem MessageRunning.messageInv {s : State} {m : MsgRun} (h : MessageRunning s m) (hseq : s.seq = .msg m) :
    MessageInv s := by
  have hm {m' : MsgRun} (hm' : s.seq = .msg m') : m' = m := by
    rw [hseq] at hm'
    cases hm'
    rfl
  exact
    { src_fits := fun _ _ => h.src_fits
      dst_fits := fun m' hm' => hm hm' ▸ h.dst_fits
      count_eq := fun m' hm' => hm hm' ▸ h.count_eq
      disjoint := fun m' hm' => hm hm' ▸ h.disjoint
      chain_block := fun _ _ => h.chain_block
      chainP_block := fun _ _ => h.chainP_block
      ctrBase_eq := fun _ iv _ => h.ctrBase_eq iv }

/-- The message invariant goes on where the ranges are kept and the chain registers still fit the context. -/
theorem MessageRunning.congr {s t : State} {m m' : MsgRun} (h : MessageRunning s m) (hp : t.params = s.params)
    (hctx : t.ctx = s.ctx) (hl : t.latched = s.latched) (hdir : m'.dir = m.dir) (hn : m'.n = m.n)
    (hchain : s.ctx.mode ≠ .ecb → t.dp.chain.length = ctxB s) (hchainP : t.dp.chainP.length = ctxB s)
    (hctr : t.dp.ctrBase = s.dp.ctrBase) : MessageRunning t m' where
  src_fits := by simpa [srcOk, rangeOk, hp, hl] using h.src_fits
  dst_fits := by simpa [dstOk, rangeOk, hp, hl, hn, ctxB_congr hctx] using h.dst_fits
  count_eq := by
    rw [hdir, hctx, ctxB_congr hctx, hl, hn]
    exact h.count_eq
  disjoint := by
    rw [hl, hn, ctxB_congr hctx]
    exact h.disjoint
  chain_block := by
    rw [hctx, ctxB_congr hctx]
    exact hchain
  chainP_block := by
    rw [ctxB_congr hctx]
    exact hchainP
  ctrBase_eq := by
    rw [hctx, hctr]
    exact h.ctrBase_eq

theorem MessageInv.of_runKept {s t : State} (h : MessageInv s) (hk : RunKept s t) : MessageInv t := by
  by_cases hmsg : ∃ m, s.seq = .msg m
  · obtain ⟨m, hseq⟩ := hmsg
    have hrun := h.running hseq
    refine MessageRunning.messageInv (m := m) ?_ (hk.seq.trans hseq)
    refine hrun.congr hk.params hk.ctx hk.latched rfl rfl ?_ ?_ hk.ctrBase
    · rw [hk.chain]
      exact hrun.chain_block
    · rw [hk.chainP]
      exact hrun.chainP_block
  · refine messageInv_of_not_msg fun m hm => hmsg ⟨m, ?_⟩
    rw [← hk.seq, hm]

theorem BitInv.of_runKept {s t : State} (h : BitInv s) (hk : RunKept s t) : BitInv t := by
  by_cases hslow : ∃ cmd k, s.seq = .slow cmd k
  · obtain ⟨cmd, k, hseq⟩ := hslow
    exact bitInv_of_slow (hk.seq.trans hseq) ((h.bitReady hseq).congr hk.params hk.latched)
  · refine bitInv_of_not_slow fun cmd k hs => hslow ⟨cmd, k, ?_⟩
    rw [← hk.seq, hs]

/-- A message that starts takes its chain from the IV (R124). -/
theorem loadMsg_messageInv {dir : Direction} {n : Nat} {s : State} (h : MessageChecked dir n s)
    (hctx : ContextOk s.params s.ctx) : MessageInv (loadMsg dir n s) := by
  refine MessageRunning.messageInv (m := { dir := dir, n := n, counts := [], inFlight := none }) ?_ rfl
  exact
    { src_fits := h.src_fits
      dst_fits := h.dst_fits
      count_eq := h.count_eq
      disjoint := h.disjoint
      chain_block := fun hmode => by
        obtain ⟨iv, hiv, hlen⟩ := hctx.iv_present hmode
        rw [loadMsg_dp, hiv]
        exact hlen
      chainP_block := length_zeros _
      ctrBase_eq := fun iv hiv => by
        rw [loadMsg_ctx] at hiv
        rw [loadMsg_dp, hiv] }

/-- Completing a block leaves whole blocks in the chain registers (R124). -/
theorem completeBlock_messageInv {s : State} (hs : MessageInv s) (hchain : ChainOk s) {m : MsgRun}
    (hseq : s.seq = .msg m) {x c : List Byte} (hx : x.length = ctxB s) (hc : CarriedFrom s m c) (l i : Nat)
    (y : List Byte) (mem : Memory) (e : Env) :
    MessageInv (completeBlock m l i x c y (setMem mem (setEnv e s))) := by
  have hout : (msgOutput s m i x c).length = ctxB s := hchain.length_msgOutput hx hc
  refine MessageRunning.messageInv (m := advanceRun m l) ?_ rfl
  refine (hs.running hseq).congr rfl rfl rfl rfl rfl (fun hmode => ?_) ?_ rfl
  · exact length_nextChain hx (hchain.chain_block hmode) (hchain.length_crypt hx hc) hout
  · exact length_nextChainP hx hchain.chainP_block hout

/-! ### Each kind of step -/

theorem Moved.messageInv {u t : State} (h : Moved u t)
    (hctx : u.status.configured = true → ContextOk u.params u.ctx) : MessageInv t := by
  cases h with
  | ended _ hseq => exact messageInv_of_not_msg (by simp [hseq])
  | slow _ _ _ _ => exact messageInv_of_not_msg (by simp)
  | message _ _ h => exact loadMsg_messageInv h (hctx h.configured)

theorem Moved.bitInv {u t : State} (h : Moved u t) : BitInv t := by
  cases h with
  | ended _ hseq => exact bitInv_of_not_slow (by simp [hseq])
  | slow _ _ _ hbit => exact bitInv_of_slow rfl (hbit.congr rfl rfl)
  | message _ _ _ => exact bitInv_of_not_slow (by simp)

theorem CommandMoved.messageInv {s t : State} (h : CommandMoved s t) (hs : MachineInv s) : MessageInv t := by
  cases h with
  | kept hk _ => exact hs.message.of_runKept hk
  | cancelled m c e hseq =>
    have hrun := hs.message.running hseq
    refine MessageRunning.messageInv (m := { m with inFlight := some (inFlightSet s m c) }) ?_ rfl
    exact hrun.congr rfl rfl rfl rfl rfl hrun.chain_block hrun.chainP_block rfl
  | failed _ _ => exact messageInv_of_not_msg (by simp [raise])
  | accepted i _ h =>
    exact h.messageInv fun hconf => hs.context (hs.control.keyed_eq_configured.trans hconf)

theorem CommandMoved.bitInv {s t : State} (h : CommandMoved s t) (hs : BitInv s) : BitInv t := by
  cases h with
  | kept hk _ => exact hs.of_runKept hk
  | cancelled _ _ _ _ => exact bitInv_of_not_slow (by simp)
  | failed _ _ => exact bitInv_of_not_slow (by simp [raise])
  | accepted _ _ h => exact h.bitInv

theorem EngineMoved.messageInv {s t : State} (h : EngineMoved s t) (hs : MachineInv s) : MessageInv t := by
  cases h with
  | rested _ hseq =>
    refine messageInv_of_not_msg fun m => ?_
    rcases hseq with hseq | ⟨k, hseq⟩ <;> simp [hseq]
  | waiting _ _ _ => exact messageInv_of_not_msg (by simp)
  | block m l e x c y hseq _ hx hc _ =>
    exact completeBlock_messageInv hs.message (hs.chainOk hseq) hseq hx hc _ _ _ _ _

theorem EngineMoved.bitInv {s t : State} (h : EngineMoved s t) (hs : BitInv s) : BitInv t := by
  cases h with
  | rested _ hseq =>
    refine bitInv_of_not_slow fun cmd k => ?_
    rcases hseq with hseq | ⟨j, hseq⟩ <;> simp [hseq]
  | waiting cmd k hseq => exact bitInv_of_slow rfl ((hs.bitReady hseq).congr rfl rfl)
  | block _ _ _ _ _ _ _ _ _ _ _ => exact bitInv_of_not_slow (by simp [completeBlock])

theorem engineStep_params (s : State) : (engineStep s).params = s.params := by
  rcases (engineStep_engineStepped s).kept with hk | ⟨-, h⟩
  · exact hk.params
  · rw [h, finishInit_params]

/-- A host write stays in data memory, and so does what it frees of a message's output. -/
theorem hostMemWrite_memoryInv {a : Nat} {b : List Byte} {s t : State} (h : hostMemWrite a b s = .next t)
    (hs : MachineInv s) : MemoryInv t := by
  obtain ⟨hrange, rfl⟩ := hostMemWrite_next h
  have hwritten : MemoryInv { s with mem := writeBytes s.mem a b } :=
    hs.memory.of_writesOnly rfl (writesOnly_writeBytes _ a b) fun x hx => lt_memSize_of_rangeOk hrange hx.1 hx.2
  refine hwritten.of_writesOnly (raceInputs_runKept _ _ _).params (raceInputs_writesOnly _ _ _) fun x hx => ?_
  have hin : inDest s x := hs.progress.inDest_of_freed hx
  obtain ⟨m, hseq, -⟩ := hx
  exact hs.message.lt_memSize hseq hin

theorem Acted.messageInv {s t : State} (h : Acted s t) (hs : MachineInv s) : MessageInv t := by
  cases h with
  | engine => exact (engineStep_moved s).messageInv hs
  | command w h => exact (cmdWrite_moved h).messageInv hs
  | register r v => exact hs.message.of_runKept (writeReg_runKept r v s)
  | memory a b h =>
    obtain ⟨-, rfl⟩ := hostMemWrite_next h
    have hwritten : MessageInv { s with mem := writeBytes s.mem a b } := hs.message.of_runKept {}
    exact hwritten.of_runKept (raceInputs_runKept _ _ _)
  | answered _ _ => exact hs.message.of_runKept {}
  | reset _ _ => exact messageInv_of_not_msg (by simp)

theorem Acted.bitInv {s t : State} (h : Acted s t) (hs : BitInv s) : BitInv t := by
  cases h with
  | engine => exact (engineStep_moved s).bitInv hs
  | command w h => exact (cmdWrite_moved h).bitInv hs
  | register r v => exact hs.of_runKept (writeReg_runKept r v s)
  | memory a b h =>
    obtain ⟨-, rfl⟩ := hostMemWrite_next h
    have hwritten : BitInv { s with mem := writeBytes s.mem a b } := hs.of_runKept {}
    exact hwritten.of_runKept (raceInputs_runKept _ _ _)
  | answered _ _ => exact hs.of_runKept {}
  | reset _ _ => exact bitInv_of_not_slow (by simp)

theorem Acted.memoryInv {s t : State} (h : Acted s t) (hs : MachineInv s) : MemoryInv t := by
  cases h with
  | engine =>
    exact hs.memory.of_writesOnly (engineStep_params s) ((engineStep_moved s).writes hs) fun _ hx => hx.2
  | command w h =>
    exact hs.memory.of_writesOnly (cmdWrite_commandRun h).hostSideKept.params (cmdWrite_moved h).writes fun _ => id
  | register r v =>
    refine hs.memory.of_writesOnly (P := fun _ => False) (writeReg_params r v s) ?_ fun _ hx => hx.elim
    rw [writeReg_mem]
    exact .refl _ _
  | memory a b h => exact hostMemWrite_memoryInv h hs
  | answered _ _ => exact hs.memory
  | reset _ _ => exact hs.memory

/-- The invariants say nothing of what the outside world does next. -/
theorem MachineInv.afterHost {s : State} (h : MachineInv s) : MachineInv (afterHost s) where
  control := h.control.afterHost
  ftab := h.ftab
  context := h.context
  progress := h.progress.of_runKept {}
  message := h.message.of_runKept {}
  bits := h.bits.of_runKept {}
  memory := h.memory

/-- Settles O58: STATUS, the context and the progress registers by their own statements, the ranges and data memory by
each kind of step. -/
theorem stepKeepsTheMachine : Obligations.StepKeepsTheMachine := by
  intro s t hs hstep
  obtain ⟨hftab, hcontext⟩ := stepKeepsTableAndContext s t hs.control hs.ftab hs.context hstep
  have hacted := step_acted hstep
  exact
    { control := stepKeepsControl s t hs.control hstep
      ftab := hftab
      context := hcontext
      progress := stepKeepsProgress s t hs.control hs.progress hstep
      message := hacted.messageInv hs.afterHost
      bits := hacted.bitInv hs.afterHost.bits
      memory := hacted.memoryInv hs.afterHost }

end Sys2Proof.Machine
end

section
/-! PROOFS. Host accesses to data memory: which are carried out, what a read returns, and what a write makes of the
running command's input and output (20_memory.md R31, R39, R42, R46). -/

namespace Sys2Proof.Machine

open Sys2Proof.Claim

/-! ### Accesses that stop and accesses that are carried out -/

section
variable {s : State} {a n : Nat}

theorem atMemory_fault (h : outside s a n) (access : State) : atMemory a n s access = .fault .noSuchAddress :=
  if_pos ((rangeOk_eq_false_iff s a n).2 h)

theorem atMemory_refused (hin : ¬ outside s a n) (hmeet : overlapping a n (closedRange s).1 (closedRange s).2)
    (access : State) : atMemory a n s access = .refused .destinationRace := by
  simp [atMemory, (rangeOk_iff s a n).2 hin, (intersect_iff _ _ _ _).2 hmeet]

theorem atMemory_of_apart (hin : ¬ outside s a n) (hapart : ¬ overlapping a n (closedRange s).1 (closedRange s).2)
    (access : State) : atMemory a n s access = .next access := by
  simp [atMemory, (rangeOk_iff s a n).2 hin, (intersect_eq_false_iff _ _ _ _).2 hapart]

end

theorem step_memWrite {s : State} {a : Nat} {b : List Byte} {rest : List HostOp}
    (h : s.host = .memWrite a b :: rest) : step s = hostMemWrite a b { s with host := rest } := by
  rw [step, h]
  rfl

theorem step_memRead {s : State} {a n : Nat} {rest : List HostOp} (h : s.host = .memRead a n :: rest) :
    step s = hostMemRead a n { s with host := rest } := by
  rw [step, h]
  rfl

/-! ### What a host read returns -/

/-- A host read that is carried out returns what the host observes. -/
theorem hostMemRead_of_apart {s t : State} {a n : Nat} {b : List Byte} (hin : ¬ outside s a n)
    (hapart : ¬ overlapping a n (closedRange s).1 (closedRange s).2)
    (hseen : observed a (readBytes s.mem a n) s = (b, t)) :
    hostMemRead a n s = .next { t with response := some (.bytes b) } := by
  simp only [hostMemRead, hseen]
  exact atMemory_of_apart hin hapart _

/-- A choice does not depend on what the outside world does next. -/
theorem drawChoice_host (s : State) (l : List HostOp) : (drawChoice { s with host := l }).1 = (drawChoice s).1 := by
  unfold drawChoice
  dsimp only
  split <;> rfl

/-- No range meets an empty one. -/
theorem not_overlapping_empty (a n b : Nat) : ¬ overlapping a n b 0 := by
  rintro ⟨x, -, -, h1, h2⟩
  omega

/-- The closed range is the destination of the running command, or empty. -/
theorem not_overlapping_closedRange {s : State} {a n : Nat}
    (h : ¬ overlapping a n (destRange s).1 (destRange s).2) :
    ¬ overlapping a n (closedRange s).1 (closedRange s).2 := by
  unfold closedRange
  split
  · exact h
  · exact h
  all_goals exact not_overlapping_empty a n 0

/-- A read that does not meet the destination returns what data memory holds. -/
theorem observed_of_apart {s : State} {a : Nat} {bytes : List Byte}
    (h : ¬ overlapping a bytes.length (destRange s).1 (destRange s).2) : observed a bytes s = (bytes, s) := by
  unfold observed
  split
  · rename_i i x y k hseq
    refine if_neg fun hx => h ⟨x, hx.1, hx.2, ?_⟩
    simp [destRange, hseq]
  all_goals rfl

theorem readBytes_add (m : Memory) (a j k : Nat) :
    readBytes m a (j + k) = readBytes m a j ++ readBytes m (a + j) k := by
  simp [readBytes, List.range_add, Function.comp_def, Nat.add_assoc]

theorem readBytes_succ (m : Memory) (a r : Nat) :
    readBytes m a (r + 1) = readByte m a :: readBytes m (a + 1) r := by
  rw [Nat.add_comm, readBytes_add]
  rfl

/-- The bytes read with the one at address `x` replaced. -/
theorem readBytes_set (m : Memory) {a n x : Nat} (hle : a ≤ x) (hlt : x < a + n) (z : Byte) :
    (readBytes m a n).set (x - a) z = readBytes m a (x - a) ++ z :: readBytes m (x + 1) (a + n - x - 1) := by
  obtain ⟨j, rfl⟩ := Nat.exists_eq_add_of_le hle
  obtain ⟨r, rfl⟩ : ∃ r, n = j + (r + 1) := ⟨n - j - 1, by omega⟩
  rw [Nat.add_sub_cancel_left, readBytes_add, readBytes_succ, List.set_append_right _ _ (by simp),
    show a + (j + (r + 1)) - (a + j) - 1 = r by omega]
  simp

/-- A read that meets the byte of a bit command: by a free choice the byte as it is, or as it is written back, which is
any byte after a race (log 11). -/
theorem observed_bitPut {s : State} {i : Instr} {x k a n : Nat} {y : Byte} (hseq : s.seq = .slow (.bitPut i x y) k)
    (hle : a ≤ x) (hlt : x < a + n) :
    ∃ e z, (s.raced = [] → z = y) ∧
      observed a (readBytes s.mem a n) s =
        (if (drawChoice s).1 % 2 = 0 then readBytes s.mem a n
         else readBytes s.mem a (x - a) ++ z :: readBytes s.mem (x + 1) (a + n - x - 1), setEnv e s) := by
  obtain ⟨e, he⟩ := drawChoice_spec s
  have hmeet : a ≤ x ∧ x < a + (readBytes s.mem a n).length := ⟨hle, by simpa using hlt⟩
  simp only [observed, hseq, if_pos hmeet, he]
  by_cases hchoice : (drawChoice s).1 % 2 = 0
  · exact ⟨e, y, fun _ => rfl, by simp only [if_pos hchoice]⟩
  · obtain ⟨⟨e', he'⟩, -, hfree⟩ := racedOutput_spec [y] (setEnv e s)
    refine ⟨e', (racedOutput [y] (setEnv e s)).1.getD 0 0, fun hraced => by rw [hfree hraced]; rfl, ?_⟩
    simp only [if_neg hchoice, he', setEnv_setEnv, readBytes_set s.mem hle hlt]

/-- Settles O24: the access is checked against data memory, then against the closed range, and only then carried out. -/
theorem hostMemoryStopsAndReads : Obligations.HostMemoryStopsAndReads := by
  intro s a bytes n rest
  refine ⟨fun hout hhost => ?_, fun hout hhost => ?_, fun hin hmeet hhost => ?_, fun hin hmeet hhost => ?_,
    fun hin hapart hhost => ?_, fun i x y k hseq hin hle hlt hhost => ?_⟩
  · rw [step_memWrite hhost]
    exact atMemory_fault hout _
  · rw [step_memRead hhost]
    exact atMemory_fault hout _
  · rw [step_memWrite hhost]
    exact atMemory_refused hin hmeet _
  · rw [step_memRead hhost]
    exact atMemory_refused hin hmeet _
  · rw [step_memRead hhost]
    refine hostMemRead_of_apart (s := { s with host := rest }) (t := { s with host := rest }) hin
      (not_overlapping_closedRange hapart) ?_
    exact observed_of_apart (by rw [length_readBytes]; exact hapart)
  · obtain ⟨e, z, hz, hseen⟩ := observed_bitPut (s := { s with host := rest }) hseq hle hlt
    rw [drawChoice_host] at hseen
    refine ⟨e, z, hz, ?_⟩
    have hclosed : closedRange { s with host := rest } = (0, 0) := by simp [closedRange, hseq]
    rw [step_memRead hhost]
    refine hostMemRead_of_apart (s := { s with host := rest }) hin ?_ hseen
    rw [hclosed]
    exact not_overlapping_empty a n 0

/-! ### What a host write races -/

/-- A host write that is carried out. -/
theorem step_memWrite_next {s : State} {a : Nat} {b : List Byte} {rest : List HostOp}
    (h : s.host = .memWrite a b :: rest) (hin : ¬ outside s a b.length)
    (hapart : ¬ overlapping a b.length (closedRange s).1 (closedRange s).2) :
    step s = .next (raceInputs a b.length { s with host := rest, mem := writeBytes s.mem a b }) := by
  rw [step_memWrite h]
  exact atMemory_of_apart hin hapart _

theorem raceInputs_of_no_input {a n : Nat} {s : State} (h : ∀ x, a ≤ x ∧ x < a + n → isInput s x = false) :
    raceInputs a n s = s := by
  rcases raceInputs_cases a n s with ⟨-, heq⟩ | ⟨hhit, -⟩
  · exact heq
  · obtain ⟨x, hx⟩ := List.exists_mem_of_ne_nil _ hhit
    obtain ⟨h1, h2, hinput⟩ := mem_hitInputs.1 hx
    simp [h x ⟨h1, h2⟩] at hinput

theorem raceInputs_of_input {a n x : Nat} {s : State} (hx : a ≤ x ∧ x < a + n) (hinput : isInput s x = true) :
    raceInputs a n s = freeOutput { s with raced := s.raced ++ hitInputs a n s } := by
  rcases raceInputs_cases a n s with ⟨hhit, -⟩ | ⟨-, heq⟩
  · have hmem : x ∈ hitInputs a n s := mem_hitInputs.2 ⟨hx.1, hx.2, hinput⟩
    simp [hhit] at hmem
  · exact heq

/-- `s` with the bytes of a host write stored and those among the input recorded as raced, no output freed yet. -/
def storedAndRaced (a : Nat) (b : List Byte) (rest : List HostOp) (s : State) : State :=
  { s with host := rest, mem := writeBytes s.mem a b, raced := s.raced ++ hitInputs a b.length s }

/-- A host write that meets the input of the running command frees its output. -/
theorem step_memWrite_race {s : State} {a : Nat} {b : List Byte} {rest : List HostOp}
    (hhost : s.host = .memWrite a b :: rest) (hin : ¬ outside s a b.length)
    (hapart : ¬ overlapping a b.length (closedRange s).1 (closedRange s).2)
    (hinput : ∃ x, (a ≤ x ∧ x < a + b.length) ∧ isInput s x = true) :
    step s = .next (freeOutput (storedAndRaced a b rest s)) := by
  obtain ⟨x, hx, hxinput⟩ := hinput
  rw [step_memWrite_next hhost hin hapart]
  exact congrArg _ (raceInputs_of_input hx hxinput)

theorem freeOutput_msg {s : State} {m : MsgRun} (h : s.seq = .msg m) : freeOutput s = freeWritten m s := by
  simp [freeOutput, h]

/-- What a race makes free lies in the closed range. -/
theorem MachineInv.closed_of_freed {s : State} (h : MachineInv s) {x : Nat} (hx : freedBytes s x) :
    (closedRange s).1 ≤ x ∧ x < (closedRange s).1 + (closedRange s).2 := by
  have hin : inDest s x := h.progress.inDest_of_freed hx
  obtain ⟨m, hseq, -⟩ := hx
  rw [show closedRange s = destRange s by simp [closedRange, hseq]]
  exact hin

/-! ### The values of a race -/

/-- Free bytes that are placed are the ones drawn. -/
theorem drawBytes_placed (y rest : List Byte) (s : State) (h : s.env.bytes = y ++ rest) :
    drawBytes y.length s = (y, setEnv { s.env with bytes := rest } s) := by
  induction y generalizing s with
  | nil =>
    rw [List.nil_append] at h
    rw [← h]
    rfl
  | cons b y ih =>
    have hbyte : drawByte s = (b, setEnv { s.env with bytes := y ++ rest } s) := by
      rw [drawByte, h]
      rfl
    simp only [List.length_cons, drawBytes, hbyte]
    rw [ih _ rfl]
    rfl

/-- In `t` the blocks `done` of the destination, of size `b` from address `d` on, hold `out`, and the free bytes `rest`
are placed. -/
structure BlocksHold (out : Nat → List Byte) (d b : Nat) (rest : List Byte) (done : Nat → Prop) (t : State) : Prop where
  dst : t.latched.dst.toNat = d
  block : ctxB t = b
  canonical : memoryWf t.mem = true
  placed : t.env.bytes = rest
  held : ∀ i, done i → readBytes t.mem (d + i * b) b = out i

section
variable {out : Nat → List Byte} {d b : Nat} {rest : List Byte} {done : Nat → Prop} {t : State}

theorem BlocksHold.mono {done' : Nat → Prop} (h : BlocksHold out d b rest done t) (hd : ∀ i, done' i → done i) :
    BlocksHold out d b rest done' t := { h with held := fun i hi => h.held i (hd i hi) }

/-- Two blocks of the same size at multiples of it share no byte. -/
theorem blocks_apart {i j b x : Nat} (hij : i ≠ j) (h1 : i * b ≤ x) (h2 : x < i * b + b) :
    ¬ (j * b ≤ x ∧ x < j * b + b) := by
  have hle {p q : Nat} (hpq : p < q) : p * b + b ≤ q * b := by
    rw [← Nat.succ_mul]
    exact Nat.mul_le_mul_right b hpq
  rcases Nat.lt_or_gt_of_ne hij with h | h
  · have := hle h
    omega
  · have := hle h
    omega

/-- Freeing a block gives it the bytes that are placed, and leaves the other blocks as they are. -/
theorem BlocksHold.freeBlock (hlen : ∀ i, (out i).length = b) {i : Nat}
    (h : BlocksHold out d b (out i ++ rest) done t) (l : Nat) :
    BlocksHold out d b rest (fun j => j = i ∨ done j) (freeBlock l i t) := by
  have hdraw := drawBytes_placed (out i) rest t h.placed
  rw [hlen] at hdraw
  have hmem : (Machine.freeBlock l i t).mem = writeBytes t.mem (d + i * b) (out i) := by
    simp [Machine.freeBlock, h.dst, h.block, hdraw]
  obtain ⟨y, e, ls, -, hfree⟩ := freeBlock_spec l i t
  exact
    { dst := by
        rw [hfree]
        exact h.dst
      block := by
        rw [hfree]
        exact h.block
      canonical := by
        rw [hmem]
        exact memoryWf_writeBytes h.canonical _ _
      placed := by simp [Machine.freeBlock, h.block, hdraw]
      held := fun j hj => by
        rw [hmem]
        by_cases hji : j = i
        · have hread := readBytes_writeBytes h.canonical (d + i * b) (out i)
          rw [hlen] at hread
          rw [hji, hread]
        · rw [← h.held j (hj.resolve_left hji)]
          refine (writesOnly_writeBytes t.mem (d + i * b) (out i)).readBytes fun x h1 h2 hx => ?_
          rw [hlen] at hx
          exact blocks_apart (b := b) (x := x - d) hji (by omega) (by omega) ⟨by omega, by omega⟩ }

theorem laneBlocks_succ (w l k : Nat) : laneBlocks w (l, k + 1) = laneBlocks w (l, k) ++ [l + w * k] := by
  simp [laneBlocks, List.range_succ]

theorem BlocksHold.freeLane (hlen : ∀ i, (out i).length = b) (w l k : Nat) {rest : List Byte}
    (h : BlocksHold out d b ((laneBlocks w (l, k)).flatMap out ++ rest) done t) :
    BlocksHold out d b rest (fun j => j ∈ laneBlocks w (l, k) ∨ done j) (freeLane w l k t) := by
  induction k generalizing rest with
  | zero => exact h.mono fun i hi => hi.resolve_left (by simp [laneBlocks])
  | succ k ih =>
    rw [laneBlocks_succ, List.flatMap_append, List.flatMap_singleton, List.append_assoc] at h
    refine ((ih h).freeBlock hlen l).mono fun i hi => ?_
    rw [laneBlocks_succ, List.mem_append, List.mem_singleton] at hi
    tauto

/-- Freeing what a message has written gives each block the bytes placed for it. -/
theorem BlocksHold.freeWritten (hlen : ∀ i, (out i).length = b) (m : MsgRun)
    (h : BlocksHold out d b ((m.counts.flatMap (laneBlocks (runWidth t m))).flatMap out) (fun _ => False) t) :
    BlocksHold out d b [] (fun i => i ∈ m.counts.flatMap (laneBlocks (runWidth t m))) (freeWritten m t) := by
  suffices hfold : ∀ (w : Nat) (cs : List (Nat × Nat)) (u : State) (done : Nat → Prop),
      BlocksHold out d b ((cs.flatMap (laneBlocks w)).flatMap out) done u →
      BlocksHold out d b [] (fun i => i ∈ cs.flatMap (laneBlocks w) ∨ done i)
        (cs.foldl (fun u c => Machine.freeLane w c.1 c.2 u) u) from
    (hfold _ m.counts t _ h).mono fun i hi => .inl hi
  intro w cs
  induction cs with
  | nil => exact fun u done hu => hu.mono fun i hi => hi.resolve_left (by simp)
  | cons c cs ih =>
    intro u done hu
    rw [List.flatMap_cons, List.flatMap_append] at hu
    refine (ih _ _ (hu.freeLane hlen w c.1 c.2)).mono fun i hi => ?_
    rw [List.flatMap_cons, List.mem_append] at hi
    tauto

end

/-! ### Host writes -/

/-- A host write that meets the input: the bytes are stored and recorded as raced, and of the rest only the destination
changes (R46). -/
theorem step_memWrite_input {s : State} (hs : MachineInv s) {a : Nat} {b : List Byte} {rest : List HostOp}
    (hhost : s.host = .memWrite a b :: rest) (hin : ¬ outside s a b.length)
    (hapart : ¬ overlapping a b.length (closedRange s).1 (closedRange s).2)
    (hinput : ∃ x, (a ≤ x ∧ x < a + b.length) ∧ isInput s x = true) :
    ∃ m r e ls,
      step s = .next { s with host := rest, mem := m, raced := r, env := e, dp := { s.dp with lanes := ls } } ∧
      readBytes m a b.length = b ∧
      (∀ x, x ∈ r ↔ x ∈ s.raced ∨ ((a ≤ x ∧ x < a + b.length) ∧ isInput s x = true)) ∧
      ∀ x, ¬ (a ≤ x ∧ x < a + b.length) → (x < (destRange s).1 ∨ (destRange s).1 + (destRange s).2 ≤ x) →
        readByte m x = readByte s.mem x := by
  obtain ⟨m, e, ls, hfree, -⟩ := freeOutput_spec (storedAndRaced a b rest s)
  have hwrites : WritesOnly (freedBytes s) (writeBytes s.mem a b) m := by
    have h := freeOutput_writesOnly (storedAndRaced a b rest s)
    rw [hfree] at h
    exact h
  refine ⟨m, s.raced ++ hitInputs a b.length s, e, ls, ?_, ?_, fun y => ?_, fun y hy hdest => ?_⟩
  · rw [step_memWrite_race hhost hin hapart hinput, hfree]
    rfl
  · rw [hwrites.readBytes fun y h1 h2 hy => hapart ⟨y, h1, h2, hs.closed_of_freed hy⟩]
    exact readBytes_writeBytes hs.memory.1 a b
  · rw [List.mem_append, mem_hitInputs, and_assoc]
  · have hnotFreed : ¬ freedBytes s y := fun hf => by
      obtain ⟨hle, hlt⟩ := hs.progress.inDest_of_freed hf
      omega
    rw [hwrites.frame y hnotFreed]
    exact (writesOnly_writeBytes s.mem a b).frame y hy

/-- A host write that meets the input of a message: the blocks written already can become any bytes (R46). -/
theorem step_memWrite_frees {s : State} (hs : MachineInv s) {a : Nat} {b : List Byte} {rest : List HostOp}
    (hhost : s.host = .memWrite a b :: rest) (hin : ¬ outside s a b.length)
    (hapart : ¬ overlapping a b.length (closedRange s).1 (closedRange s).2)
    (hinput : ∃ x, (a ≤ x ∧ x < a + b.length) ∧ isInput s x = true) {m : MsgRun} (hseq : s.seq = .msg m)
    (out : Nat → List Byte) (hlen : ∀ i, (out i).length = ctxB s) :
    ∃ placed t, step { s with env := { s.env with bytes := placed } } = .next t ∧
      ∀ c ∈ m.counts, ∀ j, j < c.2 →
        let i := c.1 + runWidth s m * j
        readBytes t.mem (s.latched.dst.toNat + i * ctxB s) (ctxB s) = out i := by
  have hstart (placed : List Byte) : BlocksHold out s.latched.dst.toNat (ctxB s) placed (fun _ => False)
      (storedAndRaced a b rest { s with env := { s.env with bytes := placed } }) :=
    { dst := rfl
      block := rfl
      canonical := memoryWf_writeBytes hs.memory.1 a b
      placed := rfl
      held := fun _ h => h.elim }
  refine ⟨(m.counts.flatMap (laneBlocks (runWidth s m))).flatMap out, _,
    step_memWrite_race (s := { s with env := _ }) hhost hin hapart hinput, fun c hc j hj => ?_⟩
  rw [freeOutput_msg (m := m)]
  · exact ((hstart _).freeWritten hlen m).held _ (List.mem_flatMap.2 ⟨c, hc, mem_laneBlocks.2 ⟨j, hj, rfl⟩⟩)
  · exact hseq

/-- Settles O23: without a race the bytes are stored; with one, what a message has written is freed, and that lies in
the destination, which the write does not meet. -/
theorem hostMemoryWrite : Obligations.HostMemoryWrite := by
  intro s a bytes rest hhost hin hapart written
  refine ⟨fun hwf hnoInput => ?_, fun hs hinput => ⟨?_, fun m hseq out hlen => ?_⟩⟩
  · refine ⟨writeBytes s.mem a bytes, ?_, readBytes_writeBytes hwf a bytes, fun x hx => ?_⟩
    · rw [step_memWrite_next hhost hin hapart]
      exact congrArg _ (raceInputs_of_no_input hnoInput)
    · exact (writesOnly_writeBytes s.mem a bytes).frame x hx
  · exact step_memWrite_input hs hhost hin hapart hinput
  · exact step_memWrite_frees hs hhost hin hapart hinput hseq out hlen

end Sys2Proof.Machine
end

section
/-! PROOFS. The word of every command, which words are illegal, and what a word written to CMD does
(30_encoding.md R51, R53, R57..R61). -/

namespace Sys2Proof.Machine

open Sys2Proof.Claim

/-! ### Decode and encode are inverse to each other -/

/-- The word made of three fields has these fields (R51). -/
theorem fieldsOf_wordOf (f : CmdFields) : fieldsOf (wordOf f) = f := by
  have hop : (wordOf f).extractLsb' 0 8 = f.op := BitVec.extractLsb'_append_eq_right (a := f.res ++ f.num)
  have hnum : (wordOf f).extractLsb' 8 2 = f.num :=
    (BitVec.extractLsb'_append_eq_of_le (xhi := f.res ++ f.num) (Nat.le_refl 8)).trans
      BitVec.extractLsb'_append_eq_right
  have hres : (wordOf f).extractLsb' 10 22 = f.res :=
    (BitVec.extractLsb'_append_eq_of_le (xhi := f.res ++ f.num) (by omega : 8 ≤ 10)).trans
      BitVec.extractLsb'_append_eq_left
  rw [fieldsOf, hop, hnum, hres]

theorem numberingOf_numCode (num : Numbering) : numberingOf (numCode num) = num := by cases num <;> rfl

/-- The fields of every command's word pass the checks of a legal word (R58). -/
theorem encodeFields_legal (i : Instr) : Laws.EncodingLegal.Statement i := by
  cases i with
  | nop => exact Laws.EncodingLegal.nop
  | configure => exact Laws.EncodingLegal.configure
  | rekey => exact Laws.EncodingLegal.rekey
  | ack => exact Laws.EncodingLegal.ack
  | cancel => exact Laws.EncodingLegal.cancel
  | blkEnc => exact Laws.EncodingLegal.blkEnc
  | blkDec => exact Laws.EncodingLegal.blkDec
  | msgEnc => exact Laws.EncodingLegal.msgEnc
  | msgDec => exact Laws.EncodingLegal.msgDec
  | bitGet num => exact Laws.EncodingLegal.bitGet num
  | bitSet num => exact Laws.EncodingLegal.bitSet num
  | bitClr num => exact Laws.EncodingLegal.bitClr num
  | bitTgl num => exact Laws.EncodingLegal.bitTgl num
  | permute num => exact Laws.EncodingLegal.permute num
  | gfMul => exact Laws.EncodingLegal.gfMul
  | gfIrred => exact Laws.EncodingLegal.gfIrred
  | padSet => exact Laws.EncodingLegal.padSet
  | padClr => exact Laws.EncodingLegal.padClr

/-- The opcode of a command, with its own NUM, names the command (R53, R57). -/
theorem instrOf_opcode (i : Instr) : instrOf (opcode i) (numberingOf (numField i)) = some i := by
  cases i with
  | bitGet num => exact congrArg (fun n => some (Instr.bitGet n)) (numberingOf_numCode num)
  | bitSet num => exact congrArg (fun n => some (Instr.bitSet n)) (numberingOf_numCode num)
  | bitClr num => exact congrArg (fun n => some (Instr.bitClr n)) (numberingOf_numCode num)
  | bitTgl num => exact congrArg (fun n => some (Instr.bitTgl n)) (numberingOf_numCode num)
  | permute num => exact congrArg (fun n => some (Instr.permute n)) (numberingOf_numCode num)
  | _ => rfl

/-- A word with legal fields decodes to the command that its opcode names. -/
theorem decode_of_wellFormed {w : Word} {i : Instr} (hwf : (fieldsOf w).wellFormed = true)
    (hi : instrOf (fieldsOf w).op (numberingOf (fieldsOf w).num) = some i) : decode w = .ok i := by
  simp only [CmdFields.wellFormed, Bool.and_eq_true] at hwf
  obtain ⟨⟨hop, hres⟩, hnum⟩ := hwf
  simp [decode, hop, hres, hnum, hi]

/-- A command's word decodes to the command. -/
theorem decode_encode (i : Instr) : decode (encode i) = .ok i := by
  have hfields : fieldsOf (encode i) = encodeFields i := fieldsOf_wordOf _
  refine decode_of_wellFormed ?_ ?_
  · rw [hfields]
    exact (encodeFields_legal i).1
  · rw [hfields]
    exact instrOf_opcode i

/-- Settles O1: a command's word has the command's fields, and the fields of a word that decodes are those of the
command. -/
theorem decodeEncodeAgree : Obligations.DecodeEncodeAgree :=
  fun _ i => ⟨eq_encode_of_decode, fun h => h ▸ decode_encode i⟩

/-- Settles O3: each of the words is the word of its command. -/
theorem decodesTableWords : Obligations.DecodesTableWords :=
  ⟨decode_encode .nop, decode_encode .configure, decode_encode .blkDec, decode_encode .msgEnc,
    decode_encode (.bitSet .msb0), decode_encode (.permute .msb1), decode_encode .gfIrred, decode_encode .padSet⟩

/-! ### Illegal words -/

/-- Every opcode that R53 lists names a command. -/
theorem exists_instrOf_of_opListed {f : CmdFields} (h : f.opListed = true) (num : Numbering) :
    ∃ i, instrOf f.op num = some i := by
  have hall : ∀ op ∈ CmdFields.numOpcodes ++ CmdFields.plainOpcodes, (instrOf op num).isSome = true := by
    cases num <;> decide
  have hmem : f.op ∈ CmdFields.numOpcodes ++ CmdFields.plainOpcodes := by
    simpa [CmdFields.opListed] using h
  exact Option.isSome_iff_exists.1 (hall _ hmem)

/-- A word fails to decode exactly when its fields are not legal (R58). -/
theorem decode_error_iff (w : Word) : (∃ e, decode w = .error e) ↔ (fieldsOf w).wellFormed = false := by
  constructor
  · rintro ⟨e, he⟩
    refine Bool.eq_false_iff.2 fun hwf => ?_
    have hop : (fieldsOf w).opListed = true := by
      simp only [CmdFields.wellFormed, Bool.and_eq_true] at hwf
      exact hwf.1.1
    obtain ⟨i, hi⟩ := exists_instrOf_of_opListed hop (numberingOf (fieldsOf w).num)
    rw [decode_of_wellFormed hwf hi] at he
    cases he
  · intro hwf
    cases hdec : decode w with
    | error e => exact ⟨e, rfl⟩
    | ok i =>
      have hlegal : (fieldsOf w).wellFormed = true := by
        rw [eq_encode_of_decode hdec, encode, fieldsOf_wordOf]
        exact (encodeFields_legal i).1
      rw [hlegal] at hwf
      cases hwf

@[simp] theorem fieldsOf_op_toNat (w : Word) : (fieldsOf w).op.toNat = w.toNat % 256 := by
  simp [fieldsOf]

@[simp] theorem fieldsOf_num_toNat (w : Word) : (fieldsOf w).num.toNat = w.toNat / 256 % 4 := by
  simp [fieldsOf, Nat.shiftRight_eq_div_pow]

@[simp] theorem fieldsOf_res_toNat (w : Word) : (fieldsOf w).res.toNat = w.toNat / 1024 := by
  have hw : w.toNat < 4294967296 := w.isLt
  simp only [fieldsOf, BitVec.extractLsb'_toNat, Nat.shiftRight_eq_div_pow]
  omega

/-- Membership in a list of words is membership of the value in the list of values. -/
theorem mem_iff_toNat_mem {n : Nat} {b : BitVec n} {l : List (BitVec n)} :
    b ∈ l ↔ b.toNat ∈ l.map BitVec.toNat :=
  (List.mem_map_of_injective fun _ _ h => BitVec.eq_of_toNat_eq h).symm

theorem mem_numOpcodes_iff (b : BitVec 8) :
    b ∈ CmdFields.numOpcodes ↔ b.toNat ∈ [0x30, 0x31, 0x32, 0x33, 0x34] := mem_iff_toNat_mem

theorem mem_plainOpcodes_iff (b : BitVec 8) :
    b ∈ CmdFields.plainOpcodes ↔
      b.toNat ∈ [0x00, 0x01, 0x02, 0x03, 0x04, 0x10, 0x11, 0x20, 0x21, 0x40, 0x41, 0x50, 0x51] := mem_iff_toNat_mem

theorem opListed_iff (f : CmdFields) :
    f.opListed = true ↔ f.op.toNat ∈ [0x00, 0x01, 0x02, 0x03, 0x04, 0x10, 0x11, 0x20, 0x21, 0x30, 0x31, 0x32, 0x33,
      0x34, 0x40, 0x41, 0x50, 0x51] := by
  simp only [CmdFields.opListed, decide_eq_true_eq, mem_numOpcodes_iff, mem_plainOpcodes_iff, List.mem_cons,
    List.not_mem_nil]
  tauto

/-- The three reasons for which the fields of a word are not legal, as numbers (R58). -/
theorem wellFormed_fieldsOf_eq_false_iff (w : Word) :
    (fieldsOf w).wellFormed = false ↔
      (w.toNat / 1024 ≠ 0 ∨
        w.toNat % 256 ∉ [0x00, 0x01, 0x02, 0x03, 0x04, 0x10, 0x11, 0x20, 0x21, 0x30, 0x31, 0x32, 0x33, 0x34, 0x40,
          0x41, 0x50, 0x51] ∨
        (w.toNat / 256 % 4 ≠ 0 ∧ w.toNat % 256 ∉ [0x30, 0x31, 0x32, 0x33, 0x34])) := by
  have hres : (fieldsOf w).resZero = true ↔ w.toNat / 1024 = 0 := by
    rw [CmdFields.resZero, decide_eq_true_eq, ← BitVec.toNat_inj, fieldsOf_res_toNat]
    rfl
  have hnum : (fieldsOf w).numAllowed = true ↔
      w.toNat / 256 % 4 = 0 ∨ w.toNat % 256 ∈ [0x30, 0x31, 0x32, 0x33, 0x34] := by
    rw [CmdFields.numAllowed, decide_eq_true_eq, mem_numOpcodes_iff, ← BitVec.toNat_inj, fieldsOf_num_toNat,
      fieldsOf_op_toNat]
    rfl
  rw [← Bool.not_eq_true, CmdFields.wellFormed, Bool.and_eq_true, Bool.and_eq_true, hres, hnum, opListed_iff,
    fieldsOf_op_toNat]
  tauto

/-! ### The word of ERROR -/

theorem toNat_append_eq_add {v n : Nat} (a : BitVec v) (b : BitVec n) :
    (a ++ b).toNat = a.toNat * 2 ^ n + b.toNat := by
  rw [BitVec.toNat_append, ← Nat.shiftLeft_add_eq_or_of_lt b.isLt, Nat.shiftLeft_eq]

/-- The fields of ERROR, as numbers (10_state.md R18). -/
theorem errorWord_toNat (e : ErrorRecord) :
    (errorWord (some e)).toNat =
      e.op.toNat * 65536 + (errorKind e.code).toNat * 256 + (errorCode e.code).toNat := by
  simp only [errorWord, toNat_append_eq_add, BitVec.toNat_ofNat]
  omega

theorem errorWord_illegalCommand (w : Word) :
    errorWord (some { code := .illegalCommand, op := w.extractLsb' 0 8 }) =
      BitVec.ofNat 32 (w.toNat % 256 * 65536 + 0x550) := by
  apply BitVec.eq_of_toNat_eq
  rw [errorWord_toNat, BitVec.toNat_ofNat, Nat.mod_eq_of_lt (by omega)]
  simp [errorKind, errorCode]

/-! ### A word written to CMD, case by case -/

/-- An aligned host write to CMD runs the word, the write then behind the machine (R60). -/
theorem step_cmdWrite {s : State} {a : WindowAddr} {w : Word} {rest : List HostOp}
    (ha : windowOffset a = some 0x004) (hhost : s.host = .regWrite a .bits32 w :: rest) :
    step s = cmdWrite w { s with host := rest } := by
  simp [step, hhost, hostStep, hostRegWrite, ha, atOffset_of_aligned, regAt]

theorem cmdWrite_of_decode {w : Word} {i : Instr} (h : decode w = .ok i) (s : State) : cmdWrite w s = exec i s := by
  rw [cmdWrite, h]

theorem cmdWrite_of_illegal {w : Word} (h : ∃ e, decode w = .error e) (s : State) :
    cmdWrite w s = .next (issueIllegal w s) := by
  obtain ⟨e, he⟩ := h
  rw [cmdWrite, he]

/-- An error raised while no command is pending sets STATE, ERROR and TERMINAL alone (60_exceptions.md R135, R136). -/
theorem raise_of_idle {s : State} (hcancel : s.status.cancelPending = false) (hseq : s.seq = .idle) (c : ErrorCode)
    (op : Byte) :
    raise c op s =
      { s with
        status := { s.status with engine := .failed }
        error := some { code := c, op := op }
        irqTerminal := true } := by
  rw [raise, terminal, ← hcancel, ← hseq]

theorem guarded_of_not_canAccept {f : State → State} {s : State} (h : ¬ CanAccept s) : guarded f s = drop s :=
  ((guarded_cases f s).resolve_left fun hf => h hf.1).2

theorem exec_exists_next (i : Instr) (s : State) : ∃ t, exec i s = .next t := by
  cases i <;> exact ⟨_, rfl⟩

/-- A command other than NOP and CANCEL that cannot be accepted is dropped, and so is CANCEL before INIT_DONE (R61). -/
theorem exec_of_not_canAccept {i : Instr} {s : State} (hacc : ¬ CanAccept s) (hnop : i ≠ .nop)
    (hcancel : s.status.initDone = false ∨ i ≠ .cancel) : exec i s = .next (drop s) := by
  by_cases hi : i = .cancel
  · have hinit : s.status.initDone = false := hcancel.resolve_right (not_not.2 hi)
    simp [hi, exec, execCancel, hinit]
  · obtain ⟨t, ht⟩ := exec_exists_next i s
    cases exec_executed ht with
    | noEffect h => exact (h.elim hnop hi).elim
    | dropped _ => exact ht
    | acknowledged _ h => exact (hacc h).elim
    | cancelled h _ _ => exact (hi h).elim
    | performed _ h _ => exact (hacc h).elim

/-- A word that cannot be accepted is dropped, legal or not (R58, R61). -/
theorem cmdWrite_of_not_canAccept {w : Word} {s : State} (hacc : ¬ CanAccept s) (hnop : w ≠ encode .nop)
    (hcancel : s.status.initDone = false ∨ w ≠ encode .cancel) : cmdWrite w s = .next (drop s) := by
  cases hdec : decode w with
  | error e => rw [cmdWrite_of_illegal ⟨e, hdec⟩, issueIllegal, guarded_of_not_canAccept hacc]
  | ok i =>
    have hw : w = encode i := eq_encode_of_decode hdec
    rw [cmdWrite_of_decode hdec]
    exact exec_of_not_canAccept hacc (fun h => hnop (h ▸ hw)) (hcancel.imp_right fun hne h => hne (h ▸ hw))

/-- An illegal word that is accepted fails with ILLEGAL_COMMAND at once (R58). -/
theorem cmdWrite_of_illegal_of_canAccept {w : Word} {s : State} (h : ∃ e, decode w = .error e) (hacc : CanAccept s)
    (hcancel : s.status.cancelPending = false) (hseq : s.seq = .idle) :
    cmdWrite w s = .next
      { s with
        status := { s.status with engine := .failed }
        error := some { code := .illegalCommand, op := w.extractLsb' 0 8 }
        irqTerminal := true } := by
  rw [cmdWrite_of_illegal h, issueIllegal, guarded_of_canAccept hacc, raise_of_idle hcancel hseq]

/-- Settles O2: the word is not well formed, and the error it raises finds no command pending. -/
theorem illegalWordEndsFailed : Obligations.IllegalWordEndsFailed := by
  intro w
  refine ⟨(decode_error_iff w).trans (wellFormed_fieldsOf_eq_false_iff w), ?_⟩
  intro s a rest hillegal hacc hcancel hseq ha hhost
  refine ⟨?_, errorWord_illegalCommand w⟩
  rw [step_cmdWrite ha hhost]
  exact cmdWrite_of_illegal_of_canAccept (s := { s with host := rest }) hillegal hacc hcancel hseq

/-- Settles O6: in either case the word cannot be accepted. -/
theorem unacceptableWordsAreDropped : Obligations.UnacceptableWordsAreDropped := by
  intro s w a rest ha hhost hw
  rw [step_cmdWrite ha hhost]
  rcases hw with ⟨hinit, hnop⟩ | ⟨hbusy, hnop, hcancel⟩
  · exact cmdWrite_of_not_canAccept (fun hacc => Bool.false_ne_true (hinit.symm.trans hacc.1)) hnop (.inl hinit)
  · exact cmdWrite_of_not_canAccept (fun hacc => hacc.2 hbusy) hnop (.inr hcancel)

/-- Settles O4: the write goes to CMD, where the word decodes to the command. -/
theorem stepRunsTheDecodedCommand : Obligations.StepRunsTheDecodedCommand := by
  intro s w i a rest hdec ha hhost
  rw [step_cmdWrite ha hhost, cmdWrite_of_decode hdec]

/-- Settles O5: the word 0 is the word of NOP, which leaves every state as it is. -/
theorem nopHasNoEffect : Obligations.NopHasNoEffect :=
  ⟨fun _ => rfl, fun s a rest ha hhost => stepRunsTheDecodedCommand s 0 .nop a rest (decode_encode .nop) ha hhost⟩

end Sys2Proof.Machine
end

section
/-! PROOFS. The bits of a buffer, named by their weight in the big-endian integer that the buffer holds, and what
reading, replacing and inverting one of them does (40_bit_addressing.md R63, R64, R65). -/

namespace Sys2Proof.Machine

open Sys2Proof.Claim

/-! ### The bits of an integer -/

/-- Taking away a power of two that a number holds clears that bit. -/
theorem testBit_sub_two_pow {v w : Nat} (h : v.testBit w = true) (j : Nat) :
    (v - 2 ^ w).testBit j = if j = w then false else v.testBit j := by
  have hr : v % 2 ^ w < 2 ^ w := Nat.mod_lt _ (Nat.two_pow_pos w)
  have hodd : v / 2 ^ w % 2 = 1 := by simpa [Nat.testBit_eq_decide_div_mod_eq] using h
  obtain ⟨p, hp⟩ : ∃ p, v / 2 ^ w = 2 * p + 1 := ⟨v / 2 ^ w / 2, by omega⟩
  have hv : v = 2 ^ w * (2 * p + 1) + v % 2 ^ w := by rw [← hp, Nat.div_add_mod]
  have hsub : v - 2 ^ w = 2 ^ w * (2 * p) + v % 2 ^ w := by
    rw [Nat.mul_add] at hv
    omega
  rw [hsub, Nat.testBit_two_pow_mul_add _ hr]
  conv_rhs => rw [hv, Nat.testBit_two_pow_mul_add _ hr]
  rcases Nat.lt_trichotomy j w with hjw | rfl | hjw
  · simp [hjw, hjw.ne]
  · simp
  · obtain ⟨k, rfl⟩ : ∃ k, j = w + (k + 1) := ⟨j - w - 1, by omega⟩
    have hhalf : (2 * p + 1) / 2 = 2 * p / 2 := by omega
    simp [Nat.testBit_add_one, hhalf]

/-! ### A buffer as a big-endian integer -/

theorem be_append_singleton (b : List Byte) (x : Byte) : be (b ++ [x]) = 2 ^ 8 * be b + x.toNat := by
  simp [be, Nat.mul_comm]

/-- The bit of weight `w` stands `w / 8` bytes before the end. -/
theorem testBit_be (b : List Byte) (w : Nat) :
    (be b).testBit w = (b.reverse.getD (w / 8) 0).getLsbD (w % 8) := by
  induction b using List.reverseRecOn generalizing w with
  | nil => simp [be]
  | append_singleton b x ih =>
    rw [be_append_singleton, Nat.testBit_two_pow_mul_add _ x.isLt, List.reverse_append, List.reverse_singleton,
      List.singleton_append]
    by_cases hw : w < 8
    · rw [if_pos hw, Nat.div_eq_of_lt hw, Nat.mod_eq_of_lt hw]
      rfl
    · obtain ⟨k, rfl⟩ := Nat.exists_eq_add_of_le' (Nat.le_of_not_lt hw)
      rw [if_neg hw, Nat.add_sub_cancel, ih, Nat.add_div_right k (by decide), Nat.add_mod_right, List.getD_cons_succ]

/-- Where the bit of weight `w` of a buffer of `len` bytes stands: in which byte. -/
def weightByte (len w : Nat) : Nat := len - 1 - w / 8

theorem weightByte_lt {len w : Nat} (h : w < 8 * len) : weightByte len w < len := by
  unfold weightByte
  omega

theorem testBit_be_of_lt {b : List Byte} {w : Nat} (h : w < 8 * b.length) :
    (be b).testBit w = (b.getD (weightByte b.length w) 0).getLsbD (w % 8) := by
  rw [testBit_be, List.getD_reverse _ (by omega), weightByte]

theorem testBit_be_of_ge {b : List Byte} {w : Nat} (h : 8 * b.length ≤ w) : (be b).testBit w = false := by
  rw [testBit_be, List.getD_eq_default _ _ (by rw [List.length_reverse]; omega)]
  simp

/-- `f` makes of the bit it is given what `g` says, and leaves the other bits of the byte. -/
def ChangesOneBit (f : Byte → Nat → Byte) (g : Bool → Bool) : Prop :=
  ∀ b shift j, shift < 8 → (f b shift).getLsbD j = if j = shift then g (b.getLsbD shift) else b.getLsbD j

/-- A buffer with the bit of weight `w` changed by `f`. -/
def changeBit (f : Byte → Nat → Byte) (buf : List Byte) (w : Nat) : List Byte :=
  buf.set (weightByte buf.length w) (f (buf.getD (weightByte buf.length w) 0) (w % 8))

@[simp] theorem length_changeBit (f : Byte → Nat → Byte) (buf : List Byte) (w : Nat) :
    (changeBit f buf w).length = buf.length := List.length_set

/-- Changing one bit of a buffer leaves the bits of every other weight. -/
theorem testBit_be_changeBit {f : Byte → Nat → Byte} {g : Bool → Bool} (hf : ChangesOneBit f g) {buf : List Byte}
    {w : Nat} (hw : w < 8 * buf.length) (v : Nat) :
    (be (changeBit f buf w)).testBit v = if v = w then g ((be buf).testBit w) else (be buf).testBit v := by
  by_cases hv : v < 8 * buf.length
  · rw [testBit_be_of_lt (by simpa using hv), testBit_be_of_lt hv, testBit_be_of_lt hw, length_changeBit, changeBit]
    by_cases hbyte : weightByte buf.length v = weightByte buf.length w
    · have hiff : v % 8 = w % 8 ↔ v = w := by
        unfold weightByte at hbyte
        omega
      rw [hbyte, List.getD_eq_getElem _ _ (by simpa using weightByte_lt hw), List.getElem_set_self,
        hf _ _ _ (Nat.mod_lt w (by decide))]
      simp only [hiff]
    · have hne : v ≠ w := fun h => hbyte (h ▸ rfl)
      rw [if_neg hne, List.getD_eq_getElem?_getD, List.getElem?_set_ne (Ne.symm hbyte), List.getD_eq_getElem?_getD]
  · have hne : v ≠ w := by omega
    rw [if_neg hne, testBit_be_of_ge (by simpa using hv), testBit_be_of_ge (Nat.le_of_not_lt hv)]

theorem getLsbD_one_shiftLeft (shift j : Nat) : (1#8 <<< shift).getLsbD j = decide (j < 8 ∧ j = shift) := by
  simp only [BitVec.getLsbD_shiftLeft, BitVec.getLsbD_one]
  grind

theorem putBit_changesOneBit (v : Bool) : ChangesOneBit (fun b shift => putBit b shift v) fun _ => v := by
  intro b shift j hshift
  have hhigh : 8 ≤ j → b.getLsbD j = false := b.getLsbD_of_ge j
  cases v with
  | true =>
    simp only [putBit, if_true, BitVec.getLsbD_or, getLsbD_one_shiftLeft]
    grind
  | false =>
    simp only [putBit, Bool.false_eq_true, if_false, BitVec.getLsbD_and, BitVec.getLsbD_not, getLsbD_one_shiftLeft]
    grind

theorem flipBit_changesOneBit : ChangesOneBit flipBit not := by
  intro b shift j hshift
  simp only [flipBit, BitVec.getLsbD_xor, getLsbD_one_shiftLeft]
  grind

/-! ### Logical indices -/

/-- An index less the origin of its numbering counts from the least or the most significant bit (R63). -/
theorem indexWeight_eq (len idx : Nat) (num : Numbering) :
    indexWeight len idx num =
      if origin num ≤ idx ∧ idx - origin num < 8 * len then
        some (if lsbFirst num then idx - origin num else 8 * len - 1 - (idx - origin num))
      else none := by
  cases num with
  | lsb0 => simp [indexWeight, origin, lsbFirst]
  | lsb1 => grind [indexWeight, origin, lsbFirst]
  | msb0 => simp [indexWeight, origin, lsbFirst]
  | msb1 => grind [indexWeight, origin, lsbFirst]

theorem indexWeight_lt {len idx w : Nat} {num : Numbering} (h : indexWeight len idx num = some w) : w < 8 * len := by
  rw [indexWeight_eq, Option.ite_none_right_eq_some, Option.some.injEq] at h
  split at h <;> omega

/-- The byte and the shift of a logical index are those of its weight (R63, R65). -/
theorem locate_eq (len idx : Nat) (num : Numbering) :
    locate len idx num = (indexWeight len idx num).map fun w => (weightByte len w, w % 8) := by
  rw [indexWeight_eq, locate]
  by_cases hin : origin num ≤ idx ∧ idx - origin num < 8 * len
  · rw [if_pos hin, if_pos hin, Option.map_some]
    cases lsbFirst num with
    | true => rfl
    | false =>
      have hbyte : (idx - origin num) / 8 = weightByte len (8 * len - 1 - (idx - origin num)) := by
        unfold weightByte
        omega
      have hshift : 7 - (idx - origin num) % 8 = (8 * len - 1 - (idx - origin num)) % 8 := by omega
      simp [hbyte, hshift]
  · rw [if_neg hin, if_neg hin, Option.map_none]

theorem getbit_eq (buf : List Byte) (idx : Nat) (num : Numbering) :
    getbit buf idx num = (indexWeight buf.length idx num).map (be buf).testBit := by
  rw [getbit, locate_eq]
  cases h : indexWeight buf.length idx num with
  | none => rfl
  | some w => simp [testBit_be_of_lt (indexWeight_lt h)]

theorem setbit_eq (buf : List Byte) (idx : Nat) (num : Numbering) (v : Bool) :
    setbit buf idx num v =
      (indexWeight buf.length idx num).map (changeBit (fun b shift => putBit b shift v) buf) := by
  rw [setbit, locate_eq, Option.map_map]
  rfl

/-- `setbit` replaces the bit of the weight that its index names. -/
theorem testBit_of_setbit {buf out : List Byte} {idx w : Nat} {num : Numbering} {v : Bool}
    (h : setbit buf idx num v = some out) (hw : indexWeight buf.length idx num = some w) (j : Nat) :
    (be out).testBit j = if j = w then v else (be buf).testBit j := by
  rw [setbit_eq, hw, Option.map_some, Option.some.injEq] at h
  rw [← h, testBit_be_changeBit (putBit_changesOneBit v) (indexWeight_lt hw)]

theorem getbit_setbit_same {buf out : List Byte} {idx : Nat} {num : Numbering} {v : Bool}
    (h : setbit buf idx num v = some out) : getbit out idx num = some v := by
  rw [getbit_eq, length_setbit h]
  cases hw : indexWeight buf.length idx num with
  | none => simp [setbit_eq, hw] at h
  | some w => simp [testBit_of_setbit h hw]

theorem getbit_setbit_other {buf out : List Byte} {idx idx' : Nat} {num num' : Numbering} {v : Bool}
    (h : setbit buf idx num v = some out)
    (hne : indexWeight buf.length idx' num' ≠ indexWeight buf.length idx num) :
    getbit out idx' num' = getbit buf idx' num' := by
  rw [getbit_eq, getbit_eq, length_setbit h]
  cases hw : indexWeight buf.length idx num with
  | none => simp [setbit_eq, hw] at h
  | some w =>
    refine Option.map_congr fun j hj => ?_
    rw [testBit_of_setbit h hw, if_neg]
    rintro rfl
    exact hne (hj.trans hw.symm)

/-- Settles O30: both go through the weight that the index names, and distinct weights are distinct bits. -/
theorem setbitReplacesOneBit : Obligations.SetbitReplacesOneBit := by
  refine ⟨fun buf idx num byte shift hloc => ⟨?_, fun v => ?_⟩, fun buf idx num v buf' hset => ⟨?_, ?_, ?_⟩⟩
  · rw [getbit, hloc, Option.map_some, BitVec.getLsbD, Nat.testBit_eq_decide_div_mod_eq]
  · exact ⟨_, by rw [setbit, hloc, Option.map_some]⟩
  · exact length_setbit hset
  · exact getbit_setbit_same hset
  · exact fun idx' num' => getbit_setbit_other hset

end Sys2Proof.Machine
end

section
/-! PROOFS. BIT_GET, BIT_SET, BIT_CLR and BIT_TGL: their errors, what they read and what they write back, and the race
of the host with the write back (40_bit_addressing.md R66..R69; 20_memory.md R46, R48; 60_exceptions.md R138). -/

namespace Sys2Proof.Machine

open Sys2Proof.Claim

/-! ### A command at work -/

theorem latch_src (i : Instr) (ops old : Operands) : (latch i ops old).src = ops.src := by cases i <;> rfl
theorem latch_dst (i : Instr) (ops old : Operands) : (latch i ops old).dst = ops.dst := by cases i <;> rfl
theorem latch_len (i : Instr) (ops old : Operands) : (latch i ops old).len = ops.len := by cases i <;> rfl
theorem latch_bitIdx (i : Instr) (ops old : Operands) : (latch i ops old).bitIdx = ops.bitIdx := by cases i <;> rfl
theorem latch_ruleAddr (i : Instr) (ops old : Operands) : (latch i ops old).ruleAddr = ops.ruleAddr := by
  cases i <;> rfl
theorem latch_ruleLen (i : Instr) (ops old : Operands) : (latch i ops old).ruleLen = ops.ruleLen := by
  cases i <;> rfl

/-- The state in which command `i`, accepted in `s`, has only drawn so far: `e` are the answers left, and the sequencer
is `q`. -/
def atWork (i : Instr) (e : Env) (q : Sequencer) (s : State) : State := { accept i s with env := e, seq := q }

theorem accept_eq_atWork (i : Instr) (s : State) : accept i s = atWork i s.env s.seq s := rfl

section
variable (i : Instr) (e : Env) (q : Sequencer) (s : State)

@[simp] theorem atWork_params : (atWork i e q s).params = s.params := rfl
@[simp] theorem atWork_engine : (atWork i e q s).status.engine = .busy := rfl
@[simp] theorem atWork_out : (atWork i e q s).out = s.out := rfl
@[simp] theorem atWork_raced : (atWork i e q s).raced = [] := rfl
@[simp] theorem atWork_mem : (atWork i e q s).mem = s.mem := rfl
@[simp] theorem atWork_env : (atWork i e q s).env = e := rfl
@[simp] theorem atWork_src : (atWork i e q s).latched.src = s.ops.src := latch_src i s.ops s.latched
@[simp] theorem atWork_dst : (atWork i e q s).latched.dst = s.ops.dst := latch_dst i s.ops s.latched
@[simp] theorem atWork_len : (atWork i e q s).latched.len = s.ops.len := latch_len i s.ops s.latched
@[simp] theorem atWork_bitIdx : (atWork i e q s).latched.bitIdx = s.ops.bitIdx := latch_bitIdx i s.ops s.latched
@[simp] theorem atWork_ruleAddr : (atWork i e q s).latched.ruleAddr = s.ops.ruleAddr :=
  latch_ruleAddr i s.ops s.latched
@[simp] theorem atWork_ruleLen : (atWork i e q s).latched.ruleLen = s.ops.ruleLen := latch_ruleLen i s.ops s.latched
@[simp] theorem setEnv_atWork (e' : Env) : setEnv e' (atWork i e q s) = atWork i e' q s := rfl

@[simp] theorem rangeOk_atWork (a n : Nat) : rangeOk (atWork i e q s) a n = rangeOk s a n := rfl

/-- A command at work that ends DONE with memory `m`. -/
theorem terminal_atWork (m : Memory) :
    terminal .done (setMem m (atWork i e q s)) = { finished i s with env := e, mem := m } := rfl

/-- A command at work that ends FAILED has written nothing. -/
theorem raise_atWork (c : ErrorCode) :
    raise c (opcode i) (atWork i e q s) = { failedWith i c s with env := e } := rfl

theorem finishResult_atWork (v : Word) :
    finishResult v (atWork i e q s) = { finished i s with env := e, out := { s.out with result := v } } := rfl

/-- A draw depends on the placed answers alone. -/
theorem drawBus_atWork (u : State) :
    drawBus (atWork i u.env q s) = ((drawBus u).1, atWork i (drawBus u).2.env q s) := by
  unfold drawBus
  rw [atWork_env]
  split <;> rfl

theorem drawChoice_atWork (u : State) :
    drawChoice (atWork i u.env q s) = ((drawChoice u).1, atWork i (drawChoice u).2.env q s) := by
  unfold drawChoice
  rw [atWork_env]
  split <;> rfl

/-- A read of a command at work gives what memory held at its acceptance, if the platform completes it. -/
theorem busRead_atWork (u : State) (a : Nat) {n : Nat} (hn : n ≠ 0) :
    busRead a n (atWork i u.env q s) =
      (if (drawBus u).1 then some (readBytes s.mem a n) else none, atWork i (drawBus u).2.env q s) := by
  rw [busRead, if_neg hn, drawBus_atWork]
  cases (drawBus u).1 <;> rfl

/-- A launched command that has not ended is at work. -/
theorem launch_atWork (cmd : SlowCmd) {k : Nat} (hk : 0 < k) :
    ∃ q', launch cmd (finishSlow cmd) k (atWork i e q s) = atWork i e q' s := by
  obtain ⟨k, rfl⟩ := Nat.exists_eq_add_of_le' hk
  exact ⟨.slow cmd k, rfl⟩

/-- A launched command does its last part `k` engine steps later, still at work. -/
theorem engineSteps_launch_atWork (cmd : SlowCmd) (k : Nat) :
    ∃ q', engineSteps k (launch cmd (finishSlow cmd) k (atWork i e q s)) = finishSlow cmd (atWork i e q' s) := by
  rw [engineSteps_launch]
  split
  · exact ⟨q, rfl⟩
  · exact ⟨.slow cmd 0, rfl⟩

end

/-! ### The four commands as one -/

/-- What a bit command makes of the byte that holds its bit. -/
def bitChange : BitCmd → Byte → Nat → Byte
  | .get => fun b _ => b
  | .set => fun b shift => putBit b shift true
  | .clr => fun b shift => putBit b shift false
  | .tgl => flipBit

/-- What a bit command makes of its bit. -/
def newBit : BitCmd → Bool → Bool
  | .get => id
  | .set => fun _ => true
  | .clr => fun _ => false
  | .tgl => not

/-- A bit command once its range and index are checked. -/
def bitRest (num : Numbering) : BitCmd → Nat → Nat → State → State
  | .get => getBitAt num
  | .set => updateBitAt (.bitSet num) (bitChange .set)
  | .clr => updateBitAt (.bitClr num) (bitChange .clr)
  | .tgl => updateBitAt (.bitTgl num) (bitChange .tgl)

/-- What is left of a bit command after it read byte `v` at address `a`. -/
def bitTail (num : Numbering) (a : Nat) (v : Byte) (shift : Nat) : BitCmd → SlowCmd
  | .get => .bitGet num (v.getLsbD shift)
  | .set => .bitPut (.bitSet num) a (bitChange .set v shift)
  | .clr => .bitPut (.bitClr num) a (bitChange .clr v shift)
  | .tgl => .bitPut (.bitTgl num) a (bitChange .tgl v shift)

theorem bitTail_of_ne_get {c : BitCmd} (hc : c ≠ .get) (num : Numbering) (a : Nat) (v : Byte) (shift : Nat) :
    bitTail num a v shift c = .bitPut (c.instr num) a (bitChange c v shift) := by
  cases c with
  | get => exact absurd rfl hc
  | set | clr | tgl => rfl

theorem exec_bitCmd {s : State} (hacc : CanAccept s) (num : Numbering) (c : BitCmd) :
    exec (c.instr num) s =
      .next (atBit (c.instr num) num (bitRest num c) (atWork (c.instr num) s.env s.seq s)) := by
  rw [← accept_eq_atWork, ← issue_of_canAccept (f := atBit (c.instr num) num (bitRest num c)) hacc]
  cases c <;> rfl

section
variable {s : State} {num : Numbering} {w : Nat} (c : BitCmd)

/-- The range is checked first (R66). -/
theorem exec_bitCmd_outside (hacc : CanAccept s) (hout : outside s s.ops.src.toNat s.ops.len.toNat) :
    exec (c.instr num) s = .next (failedWith (c.instr num) .addrRange s) := by
  rw [exec_bitCmd hacc, atBit, if_pos]
  · rfl
  · simpa [srcOk] using (rangeOk_eq_false_iff s _ _).2 hout

theorem srcOk_atWork (hin : ¬ outside s s.ops.src.toNat s.ops.len.toNat) (i : Instr) (e : Env) (q : Sequencer) :
    srcOk (atWork i e q s) = true := by
  simpa [srcOk] using (rangeOk_iff s _ _).2 hin

/-- The index is checked next. -/
theorem exec_bitCmd_outOfRange (hacc : CanAccept s) (hin : ¬ outside s s.ops.src.toNat s.ops.len.toNat)
    (hw : indexWeight s.ops.len.toNat s.ops.bitIdx.toNat num = none) :
    exec (c.instr num) s = .next (failedWith (c.instr num) .inconsistentArguments s) := by
  rw [exec_bitCmd hacc, atBit, srcOk_atWork hin, atWork_len, atWork_bitIdx, locate_eq, hw]
  rfl

theorem exec_bitCmd_inRange (hacc : CanAccept s) (hin : ¬ outside s s.ops.src.toNat s.ops.len.toNat)
    (hw : indexWeight s.ops.len.toNat s.ops.bitIdx.toNat num = some w) :
    exec (c.instr num) s = .next
      (bitRest num c (s.ops.src.toNat + weightByte s.ops.len.toNat w) (w % 8)
        (atWork (c.instr num) s.env s.seq s)) := by
  rw [exec_bitCmd hacc, atBit, srcOk_atWork hin, atWork_len, atWork_bitIdx, atWork_src, locate_eq, hw]
  rfl

/-- A read that the platform fails ends the command (R66). -/
theorem bitRest_busError (hbus : (drawBus s).1 = false) (a shift : Nat) (q : Sequencer) :
    bitRest num c a shift (atWork (c.instr num) s.env q s) =
      { failedWith (c.instr num) .busError s with env := (drawBus s).2.env } := by
  have hread (i : Instr) : busRead a 1 (atWork i s.env q s) = (none, atWork i (drawBus s).2.env q s) := by
    rw [busRead_atWork i q s s a one_ne_zero, hbus]
    rfl
  cases c <;> simp only [bitRest, getBitAt, updateBitAt, BitCmd.instr, hread] <;> rfl

/-- A read that the platform completes leaves the rest for this step or the next, by a free choice (log 25). -/
theorem bitRest_of_read (hbus : (drawBus s).1 = true) (a shift : Nat) (q : Sequencer) :
    bitRest num c a shift (atWork (c.instr num) s.env q s) =
      launch (bitTail num a (readByte s.mem a) shift c) (finishSlow (bitTail num a (readByte s.mem a) shift c))
        ((drawChoice (drawBus s).2).1 % 2)
        (atWork (c.instr num) (drawChoice (drawBus s).2).2.env q s) := by
  have hread (i : Instr) :
      busRead a 1 (atWork i s.env q s) = (some [readByte s.mem a], atWork i (drawBus s).2.env q s) := by
    rw [busRead_atWork i q s s a one_ne_zero, hbus]
    rfl
  cases c <;> simp only [bitRest, getBitAt, updateBitAt, endBit, BitCmd.instr, hread, drawChoice_atWork] <;> rfl

/-- A bit command whose checks pass and whose read completes is at work until it does its last part. -/
theorem exec_bitCmd_of_read (hacc : CanAccept s) (hin : ¬ outside s s.ops.src.toNat s.ops.len.toNat)
    (hw : indexWeight s.ops.len.toNat s.ops.bitIdx.toNat num = some w) (hbus : (drawBus s).1 = true) :
    let a := s.ops.src.toNat + weightByte s.ops.len.toNat w
    let k := (drawChoice (drawBus s).2).1 % 2
    let e := (drawChoice (drawBus s).2).2.env
    ∃ t q, exec (c.instr num) s = .next t ∧
      (0 < k → t.status.engine = .busy ∧ t.out = s.out ∧ t.mem = s.mem) ∧
      engineSteps k t = finishSlow (bitTail num a (readByte s.mem a) (w % 8) c) (atWork (c.instr num) e q s) := by
  intro a k e
  obtain ⟨q, hq⟩ := engineSteps_launch_atWork (c.instr num) e s.seq s
    (bitTail num a (readByte s.mem a) (w % 8) c) k
  refine ⟨_, q, exec_bitCmd_inRange c hacc hin hw, ?_⟩
  rw [bitRest_of_read c hbus]
  refine ⟨fun hk => ?_, hq⟩
  obtain ⟨q', hq'⟩ := launch_atWork (c.instr num) e s.seq s (bitTail num a (readByte s.mem a) (w % 8) c) hk
  rw [hq']
  exact ⟨rfl, rfl, rfl⟩

end

/-! ### The last part of a bit command -/

/-- The byte that holds the bit of weight `w` of a buffer in data memory. -/
theorem getLsbD_readByte {m : Memory} {a n w : Nat} (hw : w < 8 * n) :
    (readByte m (a + weightByte n w)).getLsbD (w % 8) = (be (readBytes m a n)).testBit w := by
  have hlt : weightByte n w < n := weightByte_lt hw
  rw [testBit_be_of_lt (by simpa using hw), length_readBytes, List.getD_eq_getElem _ _ (by simpa using hlt)]
  simp [readBytes]

theorem finishBitGet_atWork (v : Bool) (i : Instr) (e : Env) (q : Sequencer) (s : State) :
    finishBitGet v (atWork i e q s) =
      { finished i s with env := e, out := { s.out with result := if v then 1 else 0 } } := by
  obtain ⟨e', b, h, hfree⟩ := finishBitGet_cases v (atWork i e q s)
  obtain ⟨rfl, rfl⟩ := hfree rfl
  rw [h, setEnv_atWork, finishResult_atWork]
  cases b <;> rfl

/-- The write back of a bit command that nobody has raced. -/
theorem finishBitPut_atWork (a : Nat) (y : Byte) (i : Instr) (u : State) (q : Sequencer) (s : State) :
    finishBitPut i a y (atWork i u.env q s) =
      if (drawBus u).1 then { finished i s with env := (drawBus u).2.env, mem := writeBytes s.mem a [y] }
      else { failedWith i .busError s with env := (drawBus u).2.env } := by
  have hout : racedOutput [y] (atWork i u.env q s) = ([y], atWork i u.env q s) := rfl
  simp only [finishBitPut, hout, busWrite, drawBus_atWork, List.cons_ne_nil, if_false]
  cases (drawBus u).1 <;> rfl

/-- Settles O31: the byte read holds the bit at the shift that its weight names. -/
theorem bitGetResult : Obligations.BitGetResult := by
  intro s num w hacc hin hw hbus k
  obtain ⟨t, q, hexec, hbusy, hend⟩ := exec_bitCmd_of_read .get hacc hin hw hbus
  refine ⟨t, hexec, fun hk => ?_, ?_⟩
  · obtain ⟨hengine, hout, -⟩ := hbusy hk
    exact ⟨hengine, hout⟩
  · rw [hend, bitTail, getLsbD_readByte (indexWeight_lt hw)]
    exact finishBitGet_atWork _ _ _ _ _

/-- Settles O33: the checks come in the order of R138, and a failed access writes nothing. -/
theorem bitCommandErrors : Obligations.BitCommandErrors := by
  intro s num c hacc range w k s2
  refine ⟨exec_bitCmd_outside c hacc, exec_bitCmd_outOfRange c hacc, fun hin hw hbus => ?_,
    fun hin hw hc hbus hbus2 => ?_⟩
  · obtain ⟨v, hv⟩ := Option.ne_none_iff_exists'.1 hw
    rw [exec_bitCmd_inRange c hacc hin hv, bitRest_busError c hbus]
  · obtain ⟨v, hv⟩ := Option.ne_none_iff_exists'.1 hw
    obtain ⟨t, q, hexec, -, hend⟩ := exec_bitCmd_of_read c hacc hin hv hbus
    refine ⟨t, hexec, hend.trans ?_⟩
    rw [bitTail_of_ne_get hc, finishSlow, finishBitPut_atWork, if_neg (by rw [hbus2]; decide)]

/-! ### The buffer after the write back -/

theorem bitChange_changesOneBit (c : BitCmd) : ChangesOneBit (bitChange c) (newBit c) := by
  cases c with
  | get =>
    intro b shift j _
    by_cases hj : j = shift <;> simp [bitChange, newBit, hj]
  | set => exact putBit_changesOneBit true
  | clr => exact putBit_changesOneBit false
  | tgl => exact flipBit_changesOneBit

/-- The integer that a bit command makes of the buffer, bit by bit. -/
theorem testBit_apply (c : BitCmd) (v w j : Nat) :
    (c.apply v w).testBit j = if j = w then newBit c (v.testBit w) else v.testBit j := by
  cases c with
  | get => by_cases hj : j = w <;> simp [BitCmd.apply, newBit, hj]
  | set =>
    rw [BitCmd.apply, Nat.testBit_or, Nat.testBit_two_pow]
    by_cases hj : j = w
    · simp [newBit, hj]
    · simp [hj, Ne.symm hj]
  | clr =>
    rw [BitCmd.apply]
    split
    · rename_i hv
      exact testBit_sub_two_pow hv j
    · rename_i hv
      by_cases hj : j = w
      · simpa [newBit, hj] using hv
      · simp [hj]
  | tgl =>
    rw [BitCmd.apply, Nat.testBit_xor, Nat.testBit_two_pow]
    by_cases hj : j = w
    · simp [newBit, hj]
    · simp [hj, Ne.symm hj]

/-- Changing one bit of a buffer changes the integer it holds in that bit. -/
theorem be_changeBit (c : BitCmd) {buf : List Byte} {w : Nat} (hw : w < 8 * buf.length) :
    be (changeBit (bitChange c) buf w) = c.apply (be buf) w :=
  Nat.eq_of_testBit_eq fun j => by rw [testBit_be_changeBit (bitChange_changesOneBit c) hw, testBit_apply]

/-- A write of one byte of a buffer in data memory replaces that byte. -/
theorem readBytes_writeBytes_one {m : Memory} (hm : memoryWf m = true) (a n k : Nat) (y : Byte) :
    readBytes (writeBytes m (a + k) [y]) a n = (readBytes m a n).set k y := by
  refine List.ext_getElem (by simp) fun j _ _ => ?_
  rw [List.getElem_set]
  simp only [readBytes, List.getElem_map, List.getElem_range, writeBytes]
  split
  · rename_i hkj
    rw [hkj, readByte_writeByte_same hm]
  · rename_i hkj
    exact readByte_writeByte_other m y (by omega)

/-- The write back changes the bit of weight `w` of the buffer. -/
theorem readBytes_writeBit {m : Memory} (hm : memoryWf m = true) (f : Byte → Nat → Byte) (a : Nat) {n w : Nat}
    (hw : w < 8 * n) :
    readBytes (writeBytes m (a + weightByte n w) [f (readByte m (a + weightByte n w)) (w % 8)]) a n =
      changeBit f (readBytes m a n) w := by
  have hlt : weightByte n w < n := weightByte_lt hw
  rw [readBytes_writeBytes_one hm, changeBit, length_readBytes, List.getD_eq_getElem _ _ (by simpa using hlt)]
  simp [readBytes]

/-! ### The race with the write back (20_memory.md R46) -/

/-- The write back of a raced bit command stores the free byte that is placed. -/
theorem finishBitPut_raced {s : State} (hraced : s.raced ≠ []) {z : Byte} {bus : List Bool}
    (hbytes : s.env.bytes = [z]) (hbus : s.env.bus = true :: bus) (i : Instr) (a : Nat) (y : Byte) :
    ∃ e, finishBitPut i a y s = terminal .done (setMem (writeBytes s.mem a [z]) (setEnv e s)) := by
  have hout : racedOutput [y] s = ([z], setEnv { s.env with bytes := [] } s) := by
    rw [racedOutput, if_neg hraced]
    exact drawBytes_placed [z] [] s hbytes
  have hdraw : drawBus (setEnv { s.env with bytes := [] } s) =
      (true, setEnv { s.env with bytes := [], bus := bus } s) := drawBus_placed hbus
  simp only [finishBitPut, hout, busWrite, hdraw, List.cons_ne_nil, if_false]
  exact ⟨_, rfl⟩

/-- A raced bit command ends DONE, its byte the free one that is placed. -/
theorem engineSteps_bitPut_raced {t : State} {i : Instr} {a k : Nat} {y z : Byte} {bus : List Bool}
    (hseq : t.seq = .slow (.bitPut i a y) k) (hraced : t.raced ≠ []) (hwf : memoryWf t.mem = true)
    (hbytes : t.env.bytes = [z]) (hbus : t.env.bus = true :: bus) :
    (engineSteps (k + 1) t).status.engine = .done ∧ readByte (engineSteps (k + 1) t).mem a = z := by
  obtain ⟨e, he⟩ := finishBitPut_raced (s := { t with seq := .slow (.bitPut i a y) 0 }) hraced hbytes hbus i a y
  rw [engineSteps_slow _ k t hseq, finishSlow, he]
  exact ⟨rfl, readByte_writeByte_same hwf a z⟩

/-- A host write of the byte that a bit command is about to write back is stored and recorded as raced. -/
theorem step_memWrite_bitPut {s : State} (hs : MachineInv s) {i : Instr} {a k : Nat} {y b : Byte}
    {rest : List HostOp} (hseq : s.seq = .slow (.bitPut i a y) k) (hhost : s.host = .memWrite a [b] :: rest) :
    step s = .next (storedAndRaced a [b] rest s) ∧ (storedAndRaced a [b] rest s).raced ≠ [] := by
  obtain ⟨hle, hlt⟩ := hs.bits.byte_inside i a y k hseq
  have hin : ¬ outside s a 1 := by
    have hsize := lt_memSize_of_rangeOk (hs.bits.buffer_fits i a y k hseq) hle hlt
    unfold outside
    omega
  have hinput : isInput s a = true := by simp [isInput, inputRanges, hseq, hle, hlt]
  have hapart : ¬ overlapping a 1 (closedRange s).1 (closedRange s).2 := by
    rw [show closedRange s = (0, 0) by simp [closedRange, hseq]]
    exact not_overlapping_empty a 1 0
  constructor
  · rw [step_memWrite_race hhost hin hapart ⟨a, by simp, hinput⟩, freeOutput,
      show (storedAndRaced a [b] rest s).seq = .slow (.bitPut i a y) k from hseq]
  · have hhit : a ∈ hitInputs a [b].length s := mem_hitInputs.2 ⟨Nat.le_refl a, by simp, hinput⟩
    exact List.ne_nil_of_mem (List.mem_append_right s.raced hhit)

/-- A raced byte ends at the value placed for it. -/
theorem bitPut_race {s : State} (hs : MachineInv s) {i : Instr} {a k : Nat} {y b : Byte} {rest : List HostOp}
    {bus : List Bool} (hseq : s.seq = .slow (.bitPut i a y) k) (hhost : s.host = .memWrite a [b] :: rest)
    (hbus : s.env.bus = true :: bus) (z : Byte) :
    ∃ placed t, step { s with env := { s.env with bytes := placed } } = .next t ∧
      t.status.engine = .busy ∧ readByte t.mem a = b ∧
      (engineSteps (k + 1) t).status.engine = .done ∧ readByte (engineSteps (k + 1) t).mem a = z := by
  obtain ⟨hstep, hraced⟩ :=
    step_memWrite_bitPut (machineInv_setEnv hs { s.env with bytes := [z] }) hseq hhost
  have hbusy : s.status.engine = .busy := hs.control.busy_iff_running.2 (by rw [hseq]; exact Sequencer.noConfusion)
  exact ⟨[z], _, hstep, hbusy, readByte_writeByte_same hs.memory.1 a b,
    engineSteps_bitPut_raced hseq hraced (memoryWf_writeByte hs.memory.1 a b) rfl hbus⟩

/-- Settles O32: the byte written back is the one read with its one bit changed; after a race it is the byte placed. -/
theorem bitUpdateEffect : Obligations.BitUpdateEffect := by
  refine ⟨?_, fun s i a y k b rest bus hs hseq hhost hbus z => bitPut_race hs hseq hhost hbus z⟩
  intro s num w c hc hacc hwf hin hw k s2 hbus hbus2
  have hlt : w < 8 * s.ops.len.toNat := indexWeight_lt hw
  obtain ⟨t, q, hexec, hbusy, hend⟩ := exec_bitCmd_of_read c hacc hin hw hbus
  rw [bitTail_of_ne_get hc, finishSlow, finishBitPut_atWork, if_pos hbus2] at hend
  refine ⟨t, _, hexec, fun hk => ?_, hend, ?_, fun a ha => ?_⟩
  · obtain ⟨hengine, -, hmem⟩ := hbusy hk
    exact ⟨hengine, hmem⟩
  · rw [readBytes_writeBit hwf _ _ hlt, be_changeBit c (by simpa using hlt)]
    rfl
  · refine readByte_writeBytes_outside _ _ _ ?_
    rw [List.length_singleton, weightByte]
    omega

end Sys2Proof.Machine
end

section
/-! PROOFS. PERMUTE: the bits it copies, its accesses under the placed answers of BUS_OK, and its errors in their order
(40_bit_addressing.md R70, R71; 60_exceptions.md R138). -/

namespace Sys2Proof.Machine

open Sys2Proof.Claim

/-! ### The permutation of a buffer (R70) -/

theorem permuteFrom_cons_eq_some {data : List Byte} {num : Numbering} {i idx : Nat} {rest : List Nat}
    {out out' : List Byte} :
    permuteFrom data num i (idx :: rest) out = some out' ↔
      ∃ v out1, getbit data idx num = some v ∧ setbit out (i + 1) (targetNum num) v = some out1 ∧
        permuteFrom data num (i + 1) rest out1 = some out' := by
  rw [permuteFrom]
  cases getbit data idx num with
  | none => simp
  | some v => cases hset : setbit out (i + 1) (targetNum num) v <;> simp [hset]

/-- The numbering of the result counts from 1 in the direction of the rule's numbering. -/
theorem indexWeight_targetNum (len k : Nat) (num : Numbering) :
    indexWeight len (k + 1) (targetNum num) =
      if k < 8 * len then some (if lsbFirst num then k else 8 * len - 1 - k) else none := by
  have horigin : origin (targetNum num) = 1 := by cases num <;> rfl
  have hdir : lsbFirst (targetNum num) = lsbFirst num := by cases num <;> rfl
  simp [indexWeight_eq, horigin, hdir]

/-- Distinct target bits are distinct bits of the result. -/
theorem indexWeight_targetNum_ne {len j k : Nat} (hk : k < 8 * len) (hjk : j ≠ k) (num : Numbering) :
    indexWeight len (j + 1) (targetNum num) ≠ indexWeight len (k + 1) (targetNum num) := by
  rw [indexWeight_targetNum, indexWeight_targetNum, if_pos hk]
  split
  · rw [Ne, Option.some.injEq]
    split <;> omega
  · exact nofun

theorem lt_of_setbit_target {num : Numbering} {out out1 : List Byte} {i : Nat} {v : Bool}
    (h : setbit out (i + 1) (targetNum num) v = some out1) : i < 8 * out.length := by
  by_contra hi
  simp [setbit_eq, indexWeight_targetNum, hi] at h

/-- The loop of `permute` from target bit `i + 1` on copies one bit for each entry and leaves the bits before. -/
theorem getbit_permuteFrom {data : List Byte} {num : Numbering} {i : Nat} {rule : List Nat} {out out' : List Byte}
    (h : permuteFrom data num i rule out = some out') :
    (∀ k, k < i → getbit out' (k + 1) (targetNum num) = getbit out (k + 1) (targetNum num)) ∧
      ∀ k (hk : k < rule.length), getbit out' (i + k + 1) (targetNum num) = getbit data rule[k] num := by
  induction rule generalizing i out with
  | nil =>
    cases h
    exact ⟨fun _ _ => rfl, fun k hk => absurd hk (Nat.not_lt_zero k)⟩
  | cons idx rest ih =>
    obtain ⟨v, out1, hget, hset, hrest⟩ := permuteFrom_cons_eq_some.1 h
    obtain ⟨hbefore, hcopied⟩ := ih hrest
    refine ⟨fun k hk => ?_, fun k hk => ?_⟩
    · have hne := indexWeight_targetNum_ne (lt_of_setbit_target hset) hk.ne num
      exact (hbefore k (by omega)).trans (getbit_setbit_other hset hne)
    · cases k with
      | zero => exact (hbefore i (by omega)).trans ((getbit_setbit_same hset).trans hget.symm)
      | succ k =>
        rw [show i + (k + 1) + 1 = i + 1 + k + 1 by omega]
        exact hcopied k (by simpa using hk)

/-- A rule whose entries are all in range is carried out. -/
theorem permuteFrom_isSome {data : List Byte} {num : Numbering} {rule : List Nat}
    (hrule : ∀ idx ∈ rule, indexWeight data.length idx num ≠ none) {i : Nat} {out : List Byte}
    (hroom : i + rule.length ≤ 8 * out.length) : ∃ out', permuteFrom data num i rule out = some out' := by
  induction rule generalizing i out with
  | nil => exact ⟨out, rfl⟩
  | cons idx rest ih =>
    rw [List.length_cons] at hroom
    obtain ⟨w, hw⟩ := Option.ne_none_iff_exists'.1 (hrule idx List.mem_cons_self)
    have hget : getbit data idx num = some ((be data).testBit w) := by rw [getbit_eq, hw, Option.map_some]
    obtain ⟨out1, hset⟩ : ∃ out1, setbit out (i + 1) (targetNum num) ((be data).testBit w) = some out1 := by
      rw [setbit_eq, indexWeight_targetNum, if_pos (by omega)]
      exact ⟨_, rfl⟩
    obtain ⟨out', hout'⟩ := ih (fun j hj => hrule j (List.mem_cons_of_mem idx hj)) (i := i + 1) (out := out1)
      (by rw [length_setbit hset]; omega)
    exact ⟨out', permuteFrom_cons_eq_some.2 ⟨_, out1, hget, hset, hout'⟩⟩

/-- A rule with an entry out of range is not. -/
theorem permuteFrom_eq_none {data : List Byte} {num : Numbering} {rule : List Nat} {idx : Nat} (hmem : idx ∈ rule)
    (hidx : indexWeight data.length idx num = none) (i : Nat) (out : List Byte) :
    permuteFrom data num i rule out = none := by
  induction rule generalizing i out with
  | nil => cases hmem
  | cons idx' rest ih =>
    refine Option.eq_none_iff_forall_ne_some.2 fun out' h => ?_
    obtain ⟨v, out1, hget, -, hrest⟩ := permuteFrom_cons_eq_some.1 h
    rcases List.mem_cons.1 hmem with rfl | hmem
    · simp [getbit_eq, hidx] at hget
    · rw [ih hmem] at hrest
      cases hrest

/-! ### The rule in data memory (R71) -/

/-- The entry at address `a`. -/
def entryAt (m : Memory) (a : Nat) : Nat := (readByte m a).toNat + 256 * (readByte m (a + 1)).toNat

/-- The `n` entries from address `a` on. -/
def ruleAt (m : Memory) (a n : Nat) : List Nat := (List.range n).map fun k => entryAt m (a + 2 * k)

theorem ruleAt_succ (m : Memory) (a n : Nat) : ruleAt m a (n + 1) = entryAt m a :: ruleAt m (a + 2) n := by
  rw [ruleAt, List.range_succ_eq_map, List.map_cons, List.map_map]
  refine congrArg (entryAt m a :: ·) (List.map_congr_left fun k _ => congrArg (entryAt m) ?_)
  omega

@[simp] theorem length_ruleAt (m : Memory) (a n : Nat) : (ruleAt m a n).length = n := by simp [ruleAt]

/-- The rule of a PERMUTE issued now. -/
def ruleOf (s : State) : List Nat := ruleAt s.mem s.ops.ruleAddr.toNat s.ops.ruleLen.toNat

@[simp] theorem length_ruleOf (s : State) : (ruleOf s).length = s.ops.ruleLen.toNat := length_ruleAt _ _ _

theorem getElem_ruleOf {s : State} {k : Nat} (hk : k < (ruleOf s).length) : (ruleOf s)[k] = ruleEntry s k := by
  simp [ruleOf, ruleAt, entryAt, ruleEntry]

theorem mem_ruleOf {s : State} {idx : Nat} :
    idx ∈ ruleOf s ↔ ∃ k, k < s.ops.ruleLen.toNat ∧ ruleEntry s k = idx := by
  simp [ruleOf, ruleAt, entryAt, ruleEntry]

/-! ### Accesses of a command at work -/

section
variable (i : Instr) (e : Env) (q : Sequencer) (s : State)

theorem drawBus_atWork_placed {b : Bool} {l : List Bool} (h : e.bus = b :: l) :
    drawBus (atWork i e q s) = (b, atWork i { e with bus := l } q s) := drawBus_placed h

/-- How many answers of BUS_OK an access to `n` bytes takes (log 6). -/
def answers (n : Nat) : Nat := if n = 0 then 0 else 1

theorem answers_of_ne_zero {n : Nat} (hn : n ≠ 0) : answers n = 1 := if_neg hn

theorem busRead_completes (a n : Nat) {l : List Bool} (h : e.bus = List.replicate (answers n) true ++ l) :
    busRead a n (atWork i e q s) = (some (readBytes s.mem a n), atWork i { e with bus := l } q s) := by
  by_cases hn : n = 0
  · subst hn h
    rfl
  · rw [answers_of_ne_zero hn] at h
    simp [busRead, hn, drawBus_atWork_placed i e q s h]

theorem busRead_fails (a : Nat) {n : Nat} (hn : n ≠ 0) {l : List Bool} (h : e.bus = false :: l) :
    busRead a n (atWork i e q s) = (none, atWork i { e with bus := l } q s) := by
  simp [busRead, hn, drawBus_atWork_placed i e q s h]

/-- Under any answers a read gives what data memory holds, or fails. -/
theorem busRead_cases (a n : Nat) :
    ∃ e', busRead a n (atWork i e q s) = (some (readBytes s.mem a n), atWork i e' q s) ∨
      busRead a n (atWork i e q s) = (none, atWork i e' q s) := by
  by_cases hn : n = 0
  · subst hn
    exact ⟨e, .inl rfl⟩
  · have hread := busRead_atWork i q s (setEnv e s) a hn
    rw [setEnv_env] at hread
    rw [hread]
    refine ⟨(drawBus (setEnv e s)).2.env, ?_⟩
    cases (drawBus (setEnv e s)).1 with
    | true => exact .inl rfl
    | false => exact .inr rfl

theorem le16_readBytes (m : Memory) (a : Nat) : le16 (readBytes m a 2) = entryAt m a := rfl

theorem peekRule_atWork (n a : Nat) : peekRule n a (atWork i e q s) = (ruleAt s.mem a n, atWork i e q s) := by
  induction n generalizing a with
  | zero => rfl
  | succ n ih =>
    have hentry : readRaced [a, a + 1] (atWork i e q s) = (readBytes s.mem a 2, atWork i e q s) := by
      simp [readRaced, readBytes, List.range_succ]
    simp only [peekRule, hentry, ih, le16_readBytes, ruleAt_succ]

/-- The rule is read entry by entry while the platform completes the accesses. -/
theorem readRule_completes (n a : Nat) {l : List Bool} (h : e.bus = List.replicate n true ++ l) :
    readRule n a (atWork i e q s) = (.ok (ruleAt s.mem a n), atWork i { e with bus := l } q s) := by
  induction n generalizing a e with
  | zero =>
    subst h
    rfl
  | succ n ih =>
    have hread := busRead_completes i e q s a 2 (l := List.replicate n true ++ l)
      (by simpa [answers, List.replicate_succ] using h)
    simp only [readRule, hread, ih { e with bus := List.replicate n true ++ l } (a + 2) rfl, le16_readBytes,
      ruleAt_succ]

/-- An access that fails leaves the entries from there on as they stand (log 8). -/
theorem readRule_fails {n j : Nat} (hj : j < n) (a : Nat) {l : List Bool}
    (h : e.bus = List.replicate j true ++ false :: l) :
    readRule n a (atWork i e q s) = (.error (ruleAt s.mem a n), atWork i { e with bus := l } q s) := by
  induction j generalizing n a e with
  | zero =>
    obtain ⟨n, rfl⟩ := Nat.exists_eq_add_of_le' hj
    simp only [readRule, busRead_fails i e q s a two_ne_zero h, peekRule_atWork]
  | succ j ih =>
    obtain ⟨n, rfl⟩ := Nat.exists_eq_add_of_le' (Nat.zero_lt_of_lt hj)
    have hread := busRead_completes i e q s a 2 (l := List.replicate j true ++ false :: l)
      (by simpa [answers, List.replicate_succ] using h)
    have hrest := ih { e with bus := List.replicate j true ++ false :: l } (n := n) (by omega) (a + 2) rfl
    simp only [readRule, hread, hrest, le16_readBytes, ruleAt_succ]

/-- Under any answers the entries are those of data memory, whether or not an access failed. -/
theorem readRule_cases (n a : Nat) :
    ∃ e', readRule n a (atWork i e q s) = (.ok (ruleAt s.mem a n), atWork i e' q s) ∨
      readRule n a (atWork i e q s) = (.error (ruleAt s.mem a n), atWork i e' q s) := by
  induction n generalizing a e with
  | zero => exact ⟨e, .inl rfl⟩
  | succ n ih =>
    obtain ⟨e1, hread | hread⟩ := busRead_cases i e q s a 2
    · obtain ⟨e2, hrest | hrest⟩ := ih e1 (a + 2)
      · exact ⟨e2, .inl (by simp only [readRule, hread, hrest, le16_readBytes, ruleAt_succ])⟩
      · exact ⟨e2, .inr (by simp only [readRule, hread, hrest, le16_readBytes, ruleAt_succ])⟩
    · exact ⟨e1, .inr (by simp only [readRule, hread, peekRule_atWork])⟩

end

/-! ### The work of PERMUTE -/

/-- A PERMUTE issued now passes the checks of its rule length and its ranges (R71). -/
structure PermuteReady (s : State) : Prop where
  whole : s.ops.ruleLen.toNat % 8 = 0
  src_ok : ¬ outside s s.ops.src.toNat s.ops.len.toNat
  rule_ok : ¬ outside s s.ops.ruleAddr.toNat (2 * s.ops.ruleLen.toNat)
  dst_ok : ¬ outside s s.ops.dst.toNat (s.ops.ruleLen.toNat / 8)

section
variable {num : Numbering} {e e1 e2 : Env} {q : Sequencer} {s : State}

theorem exec_permute (hacc : CanAccept s) (num : Numbering) :
    ∃ t q, exec (.permute num) s = .next t ∧
      engineSteps (drawChoice s).1 t = permuteBody num (atWork (.permute num) (drawChoice s).2.env q s) := by
  obtain ⟨q, hq⟩ :=
    engineSteps_launch_atWork (.permute num) (drawChoice s).2.env s.seq s (.permute num) (drawChoice s).1
  refine ⟨_, q, rfl, ?_⟩
  rw [issue_of_canAccept hacc, accept_eq_atWork, startSlow, drawChoice_atWork]
  exact hq

theorem permuteBody_badLength (h : s.ops.ruleLen.toNat % 8 ≠ 0) :
    permuteBody num (atWork (.permute num) e q s) =
      { failedWith (.permute num) .inconsistentArguments s with env := e } := by
  rw [permuteBody, if_pos (by simpa using h), raise_atWork]

theorem permuteBody_outside (h8 : s.ops.ruleLen.toNat % 8 = 0)
    (hbad : outside s s.ops.src.toNat s.ops.len.toNat ∨ outside s s.ops.ruleAddr.toNat (2 * s.ops.ruleLen.toNat) ∨
      outside s s.ops.dst.toNat (s.ops.ruleLen.toNat / 8)) :
    permuteBody num (atWork (.permute num) e q s) = { failedWith (.permute num) .addrRange s with env := e } := by
  simp only [← rangeOk_eq_false_iff] at hbad
  rw [permuteBody, if_neg (by simpa using h8), if_pos, raise_atWork]
  rcases hbad with h | h | h <;> simp [srcOk, ruleOk, dstOk, h]

/-- The checks at issue, as PERMUTE makes them on its latched copies. -/
theorem PermuteReady.checks (hs : PermuteReady s) (i : Instr) (e : Env) (q : Sequencer) :
    let u := atWork i e q s
    ¬ u.latched.ruleLen.toNat % 8 ≠ 0 ∧
      ¬ (srcOk u && ruleOk u && dstOk u (u.latched.ruleLen.toNat / 8)) = false := by
  simp [srcOk, ruleOk, dstOk, rangeOk_iff, hs.whole, hs.src_ok, hs.rule_ok, hs.dst_ok]

theorem permuteBody_dataFailed (hs : PermuteReady s)
    (hdata : busRead s.ops.src.toNat s.ops.len.toNat (atWork (.permute num) e q s) =
      (none, atWork (.permute num) e1 q s)) :
    permuteBody num (atWork (.permute num) e q s) =
      permuteReadFailed num (ruleOf s) (atWork (.permute num) e1 q s) := by
  obtain ⟨hlen, hranges⟩ := hs.checks (.permute num) e q
  rw [permuteBody, if_neg hlen, if_neg hranges]
  simp only [atWork_src, atWork_len, atWork_ruleAddr, atWork_ruleLen, hdata, peekRule_atWork, ruleOf]

theorem permuteBody_ruleFailed (hs : PermuteReady s)
    (hdata : busRead s.ops.src.toNat s.ops.len.toNat (atWork (.permute num) e q s) =
      (some (source s), atWork (.permute num) e1 q s))
    (hrule : readRule s.ops.ruleLen.toNat s.ops.ruleAddr.toNat (atWork (.permute num) e1 q s) =
      (.error (ruleOf s), atWork (.permute num) e2 q s)) :
    permuteBody num (atWork (.permute num) e q s) =
      permuteReadFailed num (ruleOf s) (atWork (.permute num) e2 q s) := by
  obtain ⟨hlen, hranges⟩ := hs.checks (.permute num) e q
  rw [permuteBody, if_neg hlen, if_neg hranges]
  simp only [atWork_src, atWork_len, atWork_ruleAddr, atWork_ruleLen, hdata, hrule]

theorem permuteBody_of_reads (hs : PermuteReady s)
    (hdata : busRead s.ops.src.toNat s.ops.len.toNat (atWork (.permute num) e q s) =
      (some (source s), atWork (.permute num) e1 q s))
    (hrule : readRule s.ops.ruleLen.toNat s.ops.ruleAddr.toNat (atWork (.permute num) e1 q s) =
      (.ok (ruleOf s), atWork (.permute num) e2 q s)) :
    permuteBody num (atWork (.permute num) e q s) =
      (permute (source s) (ruleOf s) num).elim
        (raise .inconsistentArguments (opcode (.permute num)) (atWork (.permute num) e2 q s))
        fun out => writePermuted num out (atWork (.permute num) e2 q s) := by
  obtain ⟨hlen, hranges⟩ := hs.checks (.permute num) e q
  rw [permuteBody, if_neg hlen, if_neg hranges]
  simp only [atWork_src, atWork_len, atWork_ruleAddr, atWork_ruleLen, hdata, hrule]
  cases permute (source s) (ruleOf s) num <;> rfl

/-- Every entry of the rule is in range (R71). -/
def RuleInRange (num : Numbering) (s : State) : Prop :=
  ∀ k, k < s.ops.ruleLen.toNat → indexWeight s.ops.len.toNat (ruleEntry s k) num ≠ none

/-- The result of a PERMUTE issued now: each bit is the data bit its entry names. -/
theorem permute_of_inRange (h8 : s.ops.ruleLen.toNat % 8 = 0) (hrule : RuleInRange num s) :
    ∃ out, permute (source s) (ruleOf s) num = some out ∧ out.length = s.ops.ruleLen.toNat / 8 ∧
      ∀ k, k < s.ops.ruleLen.toNat →
        getbit out (k + 1) (targetNum num) = getbit (source s) (ruleEntry s k) num := by
  have hmem : ∀ idx ∈ ruleOf s, indexWeight (source s).length idx num ≠ none := by
    intro idx hidx
    obtain ⟨k, hk, rfl⟩ := mem_ruleOf.1 hidx
    rw [source, length_readBytes]
    exact hrule k hk
  obtain ⟨out, hout⟩ := permuteFrom_isSome hmem (i := 0) (out := zeros ((ruleOf s).length / 8))
    (by rw [length_zeros, length_ruleOf]; omega)
  have hperm : permute (source s) (ruleOf s) num = some out := by
    rw [permute, if_pos (by rwa [length_ruleOf]), hout]
  refine ⟨out, hperm, by rw [length_permute hperm, length_ruleOf], fun k hk => ?_⟩
  rw [← getElem_ruleOf (by rwa [length_ruleOf]), ← (getbit_permuteFrom hout).2 k, Nat.zero_add]

theorem permute_of_outOfRange {k : Nat} (hk : k < s.ops.ruleLen.toNat)
    (hentry : indexWeight s.ops.len.toNat (ruleEntry s k) num = none) :
    permute (source s) (ruleOf s) num = none := by
  rw [permute]
  split
  · exact permuteFrom_eq_none (mem_ruleOf.2 ⟨k, hk, rfl⟩) (by rwa [source, length_readBytes]) _ _
  · rfl

/-- A read that fails is reported where every entry is in range (R138). -/
theorem permuteReadFailed_of_inRange (hrule : RuleInRange num s) :
    permuteReadFailed num (ruleOf s) (atWork (.permute num) e q s) =
      { failedWith (.permute num) .busError s with env := e } := by
  rcases permuteReadFailed_cases num (ruleOf s) (atWork (.permute num) e q s) with ⟨-, h⟩ | ⟨⟨idx, hmem, hnone⟩, -⟩
  · rw [h, raise_atWork]
  · obtain ⟨k, hk, rfl⟩ := mem_ruleOf.1 hmem
    rw [atWork_len, locate_eq, Option.map_eq_none_iff] at hnone
    exact absurd hnone (hrule k hk)

/-- An entry out of range is reported before a read that fails (R138; log 8). -/
theorem permuteReadFailed_of_outOfRange {k : Nat} (hk : k < s.ops.ruleLen.toNat)
    (hentry : indexWeight s.ops.len.toNat (ruleEntry s k) num = none) :
    permuteReadFailed num (ruleOf s) (atWork (.permute num) e q s) =
      { failedWith (.permute num) .inconsistentArguments s with env := e } := by
  rcases permuteReadFailed_cases num (ruleOf s) (atWork (.permute num) e q s) with ⟨hall, -⟩ | ⟨-, h⟩
  · refine absurd ?_ (hall _ (mem_ruleOf.2 ⟨k, hk, rfl⟩))
    rw [atWork_len, locate_eq, hentry, Option.map_none]
  · rw [h, raise_atWork]

/-- An entry out of range ends PERMUTE whatever the platform answers. -/
theorem permuteBody_of_outOfRange (hs : PermuteReady s) {k : Nat} (hk : k < s.ops.ruleLen.toNat)
    (hentry : indexWeight s.ops.len.toNat (ruleEntry s k) num = none) (e : Env) (q : Sequencer) :
    ∃ e', permuteBody num (atWork (.permute num) e q s) =
      { failedWith (.permute num) .inconsistentArguments s with env := e' } := by
  obtain ⟨e1, hdata | hdata⟩ := busRead_cases (.permute num) e q s s.ops.src.toNat s.ops.len.toNat
  · obtain ⟨e2, hrule | hrule⟩ :=
      readRule_cases (.permute num) e1 q s s.ops.ruleLen.toNat s.ops.ruleAddr.toNat
    · refine ⟨e2, ?_⟩
      rw [permuteBody_of_reads hs hdata hrule, permute_of_outOfRange hk hentry, Option.elim_none, raise_atWork]
    · refine ⟨e2, ?_⟩
      rw [permuteBody_ruleFailed hs hdata hrule, permuteReadFailed_of_outOfRange hk hentry]
  · refine ⟨e1, ?_⟩
    rw [permuteBody_dataFailed hs hdata, permuteReadFailed_of_outOfRange hk hentry]

/-! ### The write of PERMUTE -/

theorem writePermuted_completes {out : List Byte} {l : List Bool}
    (h : e.bus = List.replicate (answers out.length) true ++ l) :
    ∃ e', writePermuted num out (atWork (.permute num) e q s) =
      { finished (.permute num) s with mem := writeBytes s.mem s.ops.dst.toNat out, env := e' } := by
  have hout : racedOutput out (atWork (.permute num) e q s) = (out, atWork (.permute num) e q s) := rfl
  by_cases hnil : out = []
  · subst hnil
    exact ⟨e, rfl⟩
  · have hlen : out.length ≠ 0 := mt List.length_eq_zero_iff.1 hnil
    rw [answers_of_ne_zero hlen] at h
    refine ⟨{ e with bus := l }, ?_⟩
    simp only [writePermuted, hout, busWrite, if_neg hnil, drawBus_atWork_placed _ e q s h]
    rfl

theorem writePermuted_fails {out : List Byte} (hnil : out ≠ []) {l : List Bool} (h : e.bus = false :: l) :
    ∃ e', writePermuted num out (atWork (.permute num) e q s) =
      { failedWith (.permute num) .busError s with env := e' } := by
  have hout : racedOutput out (atWork (.permute num) e q s) = (out, atWork (.permute num) e q s) := rfl
  refine ⟨{ e with bus := l }, ?_⟩
  simp only [writePermuted, hout, busWrite, if_neg hnil, drawBus_atWork_placed _ e q s h]
  rfl

/-- Once its reads are completed, PERMUTE writes its result. -/
theorem permuteBody_of_bus (hs : PermuteReady s) {l : List Bool}
    (hbus : e.bus =
      List.replicate (answers s.ops.len.toNat) true ++ (List.replicate s.ops.ruleLen.toNat true ++ l))
    {out : List Byte} (hperm : permute (source s) (ruleOf s) num = some out) (q : Sequencer) :
    permuteBody num (atWork (.permute num) e q s) =
      writePermuted num out (atWork (.permute num) { e with bus := l } q s) := by
  have hdata := busRead_completes (.permute num) e q s s.ops.src.toNat s.ops.len.toNat hbus
  have hrule := readRule_completes (.permute num)
    { e with bus := List.replicate s.ops.ruleLen.toNat true ++ l } q s s.ops.ruleLen.toNat s.ops.ruleAddr.toNat rfl
  rw [permuteBody_of_reads hs hdata hrule, hperm, Option.elim_some]

/-- The first access that the platform fails, of those before it completed, ends PERMUTE with BUS_ERROR. -/
theorem permuteBody_busError (hs : PermuteReady s) (hinRange : RuleInRange num s) {j : Nat} {l : List Bool}
    (hj : j < answers s.ops.len.toNat + s.ops.ruleLen.toNat + answers s.ops.ruleLen.toNat)
    (hbus : e.bus = List.replicate j true ++ false :: l) (q : Sequencer) :
    ∃ e', permuteBody num (atWork (.permute num) e q s) =
      { failedWith (.permute num) .busError s with env := e' } := by
  obtain hdata | ⟨j, rfl⟩ : j < answers s.ops.len.toNat ∨ ∃ k, j = answers s.ops.len.toNat + k :=
    (Nat.lt_or_ge j _).imp_right Nat.exists_eq_add_of_le
  · have hlen : s.ops.len.toNat ≠ 0 := fun h0 => by simp [answers, h0] at hdata
    obtain rfl : j = 0 := by
      rw [answers_of_ne_zero hlen] at hdata
      omega
    exact ⟨_, by rw [permuteBody_dataFailed hs (busRead_fails _ e q s _ hlen hbus),
      permuteReadFailed_of_inRange hinRange]⟩
  rw [List.replicate_add, List.append_assoc] at hbus
  by_cases hrule : j < s.ops.ruleLen.toNat
  · have hread := busRead_completes (.permute num) e q s s.ops.src.toNat s.ops.len.toNat hbus
    have hfail := readRule_fails (.permute num) { e with bus := List.replicate j true ++ false :: l } q s hrule
      s.ops.ruleAddr.toNat rfl
    exact ⟨_, by rw [permuteBody_ruleFailed hs hread hfail, permuteReadFailed_of_inRange hinRange]⟩
  · obtain ⟨hn, rfl⟩ : s.ops.ruleLen.toNat ≠ 0 ∧ j = s.ops.ruleLen.toNat := by
      have hn : s.ops.ruleLen.toNat ≠ 0 := fun h0 => by
        rw [h0, show answers 0 = 0 from rfl] at hj
        omega
      rw [answers_of_ne_zero hn] at hj
      exact ⟨hn, by omega⟩
    obtain ⟨out, hperm, hlength, -⟩ := permute_of_inRange hs.whole hinRange
    have hnil : out ≠ [] := by
      rintro rfl
      rw [List.length_nil] at hlength
      have := hs.whole
      omega
    rw [permuteBody_of_bus hs hbus hperm q]
    exact writePermuted_fails hnil rfl

end

theorem drawChoice_bus (s : State) : (drawChoice s).2.env.bus = s.env.bus := by
  unfold drawChoice
  split <;> rfl

/-- Two answers more than the rule has entries are enough for the read of the data, the rule and the write. -/
theorem replicate_true_split (n dataLen outLen : Nat) (rest : List Bool) :
    ∃ left, List.replicate (n + 2) true ++ rest =
      List.replicate (answers dataLen) true ++
        (List.replicate n true ++ (List.replicate (answers outLen) true ++ left)) := by
  have hle (k : Nat) : answers k ≤ 1 := by
    unfold answers
    split <;> omega
  have hdata := hle dataLen
  have hout := hle outLen
  refine ⟨List.replicate (2 - answers dataLen - answers outLen) true ++ rest, ?_⟩
  simp only [← List.append_assoc, List.replicate_append_replicate]
  congr 2
  omega

/-- Settles O34: all reads complete, the permutation answers, and the write stores its result. -/
theorem permuteEffect : Obligations.PermuteEffect := by
  intro s num rest hacc hwf n h8 hsrc hruleRange hdst hrule hbus
  have hs : PermuteReady s := ⟨h8, hsrc, hruleRange, hdst⟩
  obtain ⟨out, hperm, hlength, hbits⟩ := permute_of_inRange h8 hrule
  obtain ⟨t, q, hexec, hend⟩ := exec_permute hacc num
  obtain ⟨left, hsplit⟩ := replicate_true_split n s.ops.len.toNat out.length rest
  have hreads := permuteBody_of_bus hs ((drawChoice_bus s).trans (hbus.trans hsplit)) hperm q
  obtain ⟨e, hwrite⟩ := writePermuted_completes (num := num) (q := q) (s := s)
    (e := { (drawChoice s).2.env with bus := List.replicate (answers out.length) true ++ left }) rfl
  refine ⟨t, _, e, hexec, hend.trans (hreads.trans hwrite), fun k hk => ?_, fun a ha => ?_⟩
  · have hread := readBytes_writeBytes hwf s.ops.dst.toNat out
    rw [hlength] at hread
    rw [hread, ← hbits k hk]
    cases num <;> rfl
  · exact readByte_writeBytes_outside _ _ _ (by rwa [hlength])

/-- Settles O35: rule length, ranges and entries are checked in this order, whatever the accesses answer. -/
theorem permuteErrors : Obligations.PermuteErrors := by
  intro s num rest hacc n bad accesses
  obtain ⟨t, q, hexec, hend⟩ := exec_permute hacc num
  have hready (h8 : n % 8 = 0) (hin : ¬ bad) : PermuteReady s := by
    obtain ⟨hsrc, hin⟩ := not_or.1 hin
    obtain ⟨hrule, hdst⟩ := not_or.1 hin
    exact ⟨h8, hsrc, hrule, hdst⟩
  refine ⟨t, hexec, ?_⟩
  rw [hend]
  refine ⟨fun h8 => permuteBody_badLength h8, fun h8 hbad => permuteBody_outside h8 hbad, ?_, ?_⟩
  · rintro h8 hin ⟨k, hk, hentry⟩
    exact permuteBody_of_outOfRange (hready h8 hin) hk hentry _ q
  · intro h8 hin hrule j hj hbus
    exact permuteBody_busError (hready h8 hin) hrule hj ((drawChoice_bus s).trans hbus) q

end Sys2Proof.Machine
end

section
/-! PROOFS. The polynomials over GF(2) that the GF(2^8) unit computes with, one bit for each coefficient (41_gf256.md
R72): XOR is the sum, a left shift multiplies by a power of x, and cancelling leading terms keeps the residue class. -/

namespace Sys2Proof.Machine

open Sys2Proof.Claim

/-! ### Coefficients -/

theorem coeff_toPoly (n k : Nat) : (toPoly n).coeff k = if k < 16 ∧ n.testBit k = true then 1 else 0 := by
  have hterm (i : Nat) : (if n.testBit i then Polynomial.X ^ i else 0 : Polynomial (ZMod 2)).coeff k =
      if k = i then (if n.testBit k = true then 1 else 0) else 0 := by
    by_cases hki : k = i
    · subst hki
      cases n.testBit k <;> simp
    · cases n.testBit i <;> simp [hki, Polynomial.coeff_X_pow]
  rw [toPoly, Polynomial.finsetSum_coeff, Finset.sum_congr rfl fun i _ => hterm i, Finset.sum_ite_eq, ite_and]
  simp only [Finset.mem_range]

theorem coeff_toPoly_of_lt {n : Nat} (hn : n < 2 ^ 16) (k : Nat) :
    (toPoly n).coeff k = if n.testBit k = true then 1 else 0 := by
  rw [coeff_toPoly]
  by_cases hk : k < 16
  · simp [hk]
  · have hbit : n.testBit k = false :=
      Nat.testBit_lt_two_pow (hn.trans_le (Nat.pow_le_pow_right two_pos (Nat.le_of_not_lt hk)))
    simp [hbit]

/-- Below 2^16 no coefficient is lost. -/
theorem toPoly_injective {m n : Nat} (hm : m < 2 ^ 16) (hn : n < 2 ^ 16) (h : toPoly m = toPoly n) : m = n := by
  refine Nat.eq_of_testBit_eq fun k => ?_
  have hk := congrArg (fun q => q.coeff k) h
  simp only [coeff_toPoly_of_lt hm, coeff_toPoly_of_lt hn] at hk
  cases hbm : m.testBit k <;> cases hbn : n.testBit k <;> simp [hbm, hbn] at hk ⊢

@[simp] theorem toPoly_zero : toPoly 0 = 0 := by simp [toPoly]

@[simp] theorem toPoly_one : toPoly 1 = 1 := by
  ext k
  simp only [coeff_toPoly_of_lt (show 1 < 2 ^ 16 by decide), Polynomial.coeff_one,
    Nat.testBit_one_eq_true_iff_self_eq_zero]

/-- XOR is the sum (R72). -/
theorem toPoly_xor (m n : Nat) : toPoly (m ^^^ n) = toPoly m + toPoly n := by
  ext k
  simp only [Polynomial.coeff_add, coeff_toPoly, Nat.testBit_xor]
  by_cases hk : k < 16
  · have htwo : (1 + 1 : ZMod 2) = 0 := by decide
    cases m.testBit k <;> cases n.testBit k <;> simp [hk, htwo]
  · simp [hk]

/-- A left shift that loses no bit multiplies by a power of x. -/
theorem toPoly_shiftLeft {n k : Nat} (h : n <<< k < 2 ^ 16) : toPoly (n <<< k) = Polynomial.X ^ k * toPoly n := by
  have hn : n < 2 ^ 16 := by
    rw [Nat.shiftLeft_eq] at h
    exact (Nat.le_mul_of_pos_right n (Nat.two_pow_pos k)).trans_lt h
  ext j
  rw [coeff_toPoly_of_lt h, Polynomial.coeff_X_pow_mul', coeff_toPoly_of_lt hn, Nat.testBit_shiftLeft]
  by_cases hj : k ≤ j <;> simp [hj]

/-! ### Degrees -/

theorem degree_toPoly_lt {n k : Nat} (hn : n < 2 ^ k) : (toPoly n).degree < k := by
  refine (Polynomial.degree_lt_iff_coeff_zero _ _).2 fun j hj => ?_
  rw [coeff_toPoly, Nat.testBit_lt_two_pow (hn.trans_le (Nat.pow_le_pow_right two_pos hj))]
  simp

theorem natDegree_toPoly {n : Nat} (h0 : n ≠ 0) (hn : n < 2 ^ 16) : (toPoly n).natDegree = n.log2 := by
  refine Polynomial.natDegree_eq_of_le_of_coeff_ne_zero ?_ ?_
  · exact Polynomial.natDegree_le_iff_degree_le.2 (Order.le_of_lt_succ (degree_toPoly_lt Nat.lt_log2_self))
  · rw [coeff_toPoly_of_lt hn, Nat.testBit_log2 h0]
    simp

theorem monic_toPoly {n : Nat} (h0 : n ≠ 0) (hn : n < 2 ^ 16) : (toPoly n).Monic := by
  rw [Polynomial.Monic, Polynomial.leadingCoeff, natDegree_toPoly h0 hn, coeff_toPoly_of_lt hn, Nat.testBit_log2 h0,
    if_pos rfl]

theorem degree_toPoly {n : Nat} (h0 : n ≠ 0) (hn : n < 2 ^ 16) : (toPoly n).degree = n.log2 := by
  rw [Polynomial.degree_eq_natDegree (monic_toPoly h0 hn).ne_zero, natDegree_toPoly h0 hn]

/-- Every polynomial of degree below `k` is that of a `k`-bit number. -/
theorem exists_toPoly_eq {k : Nat} (hk : k ≤ 16) {q : Polynomial (ZMod 2)} (hq : q.degree < k) :
    ∃ n, n < 2 ^ k ∧ toPoly n = q := by
  refine ⟨Nat.ofBits fun i : Fin k => decide (q.coeff i ≠ 0), Nat.ofBits_lt_two_pow _, ?_⟩
  ext j
  rw [coeff_toPoly_of_lt ((Nat.ofBits_lt_two_pow _).trans_le (Nat.pow_le_pow_right two_pos hk)), Nat.testBit_ofBits]
  by_cases hj : j < k
  · have hbit : ∀ c : ZMod 2, (if decide (c ≠ 0) = true then 1 else 0) = c := by decide
    simpa only [hj, dif_pos] using hbit (q.coeff j)
  · simp [hj, (Polynomial.degree_lt_iff_coeff_zero _ _).1 hq j (Nat.le_of_not_lt hj)]

/-! ### Residue classes -/

/-- Adding a multiple of the modulus keeps the residue class. -/
theorem mk_toPoly_xor_shiftLeft {d k : Nat} (h : d <<< k < 2 ^ 16) (a : Nat) :
    AdjoinRoot.mk (toPoly d) (toPoly (a ^^^ d <<< k)) = AdjoinRoot.mk (toPoly d) (toPoly a) := by
  rw [toPoly_xor, toPoly_shiftLeft h, map_add, map_mul, AdjoinRoot.mk_self, mul_zero, add_zero]

/-- Two numbers of smaller degree than the modulus are in one residue class only if they are the same. -/
theorem eq_of_mk_toPoly_eq {d m n : Nat} (h0 : d ≠ 0) (hd : d < 2 ^ 16) (hm : m < 2 ^ d.log2) (hn : n < 2 ^ d.log2)
    (h : AdjoinRoot.mk (toPoly d) (toPoly m) = AdjoinRoot.mk (toPoly d) (toPoly n)) : m = n := by
  have hle : 2 ^ d.log2 ≤ 2 ^ 16 := (Nat.log2_self_le h0).trans hd.le
  refine toPoly_injective (hm.trans_le hle) (hn.trans_le hle) (sub_eq_zero.1 ?_)
  refine Polynomial.eq_zero_of_dvd_of_degree_lt (AdjoinRoot.mk_eq_mk.1 h) ?_
  rw [degree_toPoly h0 hd]
  exact (Polynomial.degree_sub_le _ _).trans_lt (max_lt (degree_toPoly_lt hm) (degree_toPoly_lt hn))

/-- A shift moves the leading bit of a number to bit `k`. -/
theorem shiftLeft_log2_lt {d k : Nat} (hk : d.log2 ≤ k) : d <<< (k - d.log2) < 2 ^ (k + 1) := by
  have hlt : d < 2 ^ (d.log2 + 1) := Nat.lt_log2_self
  calc d <<< (k - d.log2) = d * 2 ^ (k - d.log2) := Nat.shiftLeft_eq _ _
    _ < 2 ^ (d.log2 + 1) * 2 ^ (k - d.log2) := Nat.mul_lt_mul_of_pos_right hlt (Nat.two_pow_pos _)
    _ = 2 ^ (k + 1) := by rw [← pow_add]; congr 1; omega

/-- Adding the multiple of `d` with the same leading term cancels the leading term. -/
theorem xor_shiftLeft_log2_lt {a d k : Nat} (h0 : d ≠ 0) (hk : d.log2 ≤ k) (ha : a < 2 ^ (k + 1))
    (hbit : a.testBit k = true) : a ^^^ d <<< (k - d.log2) < 2 ^ k := by
  refine Nat.lt_pow_two_of_testBit _ fun j hj => ?_
  obtain rfl | hlt := Nat.eq_or_lt_of_le hj
  · have hlead : (d <<< (k - d.log2)).testBit k = true := by
      rw [Nat.testBit_shiftLeft, Nat.sub_sub_self hk, Nat.testBit_log2 h0]
      simp
    rw [Nat.testBit_xor, hbit, hlead, Bool.xor_self]
  · exact Nat.testBit_lt_two_pow
      ((Nat.xor_lt_two_pow ha (shiftLeft_log2_lt hk)).trans_le (Nat.pow_le_pow_right two_pos hlt))

end Sys2Proof.Machine
end

section
/-! PROOFS. The GF(2^8) unit: its irreducibility test decides irreducibility (41_gf256.md R73), its multiplier computes
in the ring of residues modulo x^8 + p(x) (R74), a field where p is irreducible (R75), and what GF_MUL, GF_IRRED and the
generator of the substitution table do with them (R76, R77, R78). -/

namespace Sys2Proof.Machine

open Sys2Proof.Claim

/-! ### The modulus -/

theorem polyOf_ne_zero (p : Byte) : polyOf p ≠ 0 := by
  unfold polyOf
  omega

theorem polyOf_lt (p : Byte) : polyOf p < 2 ^ 16 := by
  have := p.isLt
  unfold polyOf
  omega

/-- The degree of the modulus is 8. -/
@[simp] theorem log2_polyOf (p : Byte) : (polyOf p).log2 = 8 := by
  have := p.isLt
  refine (Nat.log2_eq_iff (polyOf_ne_zero p)).2 ?_
  unfold polyOf
  omega

theorem monic_toPoly_polyOf (p : Byte) : (toPoly (polyOf p)).Monic := monic_toPoly (polyOf_ne_zero p) (polyOf_lt p)

theorem natDegree_toPoly_polyOf (p : Byte) : (toPoly (polyOf p)).natDegree = 8 := by
  rw [natDegree_toPoly (polyOf_ne_zero p) (polyOf_lt p), log2_polyOf]

theorem degree_toPoly_polyOf (p : Byte) : (toPoly (polyOf p)).degree = (8 : Nat) := by
  rw [degree_toPoly (polyOf_ne_zero p) (polyOf_lt p), log2_polyOf]

/-! ### Division with remainder (R73) -/

/-- With an iteration for every bit of `a` the loop of `pmod` ends at the remainder: of smaller degree than `d`, and in
the residue class of `a`. -/
theorem pmodLoop_spec {fuel a d : Nat} (h0 : d ≠ 0) (hfuel : fuel ≤ 16) (ha : a < 2 ^ fuel) :
    pmodLoop fuel a d < 2 ^ d.log2 ∧
      AdjoinRoot.mk (toPoly d) (toPoly (pmodLoop fuel a d)) = AdjoinRoot.mk (toPoly d) (toPoly a) := by
  induction fuel generalizing a with
  | zero =>
    obtain rfl : a = 0 := by simpa using ha
    exact ⟨Nat.two_pow_pos _, rfl⟩
  | succ fuel ih =>
    rw [pmodLoop]
    split
    · rename_i hgo
      obtain ⟨ha0, hdeg⟩ := hgo
      have hlog : a.log2 < fuel + 1 := (Nat.log2_lt ha0).2 ha
      have hnext := xor_shiftLeft_log2_lt h0 hdeg Nat.lt_log2_self (Nat.testBit_log2 ha0)
      have hshift : d <<< (a.log2 - d.log2) < 2 ^ 16 :=
        (shiftLeft_log2_lt hdeg).trans_le (Nat.pow_le_pow_right two_pos (by omega))
      obtain ⟨hlt, hmk⟩ := ih (Nat.le_of_succ_le hfuel)
        (hnext.trans_le (Nat.pow_le_pow_right two_pos (Nat.le_of_lt_succ hlog)))
      exact ⟨hlt, hmk.trans (mk_toPoly_xor_shiftLeft hshift a)⟩
    · rename_i hstop
      refine ⟨?_, rfl⟩
      by_cases ha0 : a = 0
      · exact ha0 ▸ Nat.two_pow_pos _
      · exact (Nat.log2_lt ha0).1 (by omega)

/-- The remainder is 0 exactly for a multiple of `d`. -/
theorem pmod_eq_zero_iff {a d : Nat} (h0 : d ≠ 0) (hd : d < 2 ^ 16) (ha : a < 2 ^ 16) :
    pmod a d = 0 ↔ toPoly d ∣ toPoly a := by
  obtain ⟨hlt, hmk⟩ : pmod a d < 2 ^ d.log2 ∧
    AdjoinRoot.mk (toPoly d) (toPoly (pmod a d)) = AdjoinRoot.mk (toPoly d) (toPoly a) :=
    pmodLoop_spec h0 le_rfl ha
  rw [← AdjoinRoot.mk_eq_zero, ← hmk]
  constructor
  · intro h
    rw [h, toPoly_zero, map_zero]
  · intro h
    exact eq_of_mk_toPoly_eq h0 hd hlt (Nat.two_pow_pos _) (by rw [h, toPoly_zero, map_zero])

/-- The test tries all divisors of degree 1 to 4. -/
theorem irreducible_iff_no_divisor (p : Byte) :
    irreducible p = true ↔ ∀ d, 2 ≤ d → d < 32 → ¬ toPoly d ∣ toPoly (polyOf p) := by
  have htrial {d : Nat} (h2 : 2 ≤ d) (h32 : d < 32) : pmod (polyOf p) d = 0 ↔ toPoly d ∣ toPoly (polyOf p) :=
    pmod_eq_zero_iff (by omega) (by omega) (polyOf_lt p)
  simp only [irreducible, List.all_eq_true, List.mem_range, bne_iff_ne, ne_eq]
  constructor
  · intro h d h2 h32
    obtain ⟨k, rfl⟩ := Nat.exists_eq_add_of_le' h2
    exact mt (htrial h2 h32).2 (h k (by omega))
  · intro h k hk
    exact mt (htrial (by omega) (by omega)).1 (h (k + 2) (by omega) (by omega))

/-- The monic polynomials of degree 1 to 4 are those of the numbers 2..31. -/
theorem monic_natDegree_le_four_iff {q : Polynomial (ZMod 2)} :
    q.Monic ∧ q.natDegree ∈ Finset.Ioc 0 4 ↔ ∃ d, 2 ≤ d ∧ d < 32 ∧ toPoly d = q := by
  constructor
  · rintro ⟨hmonic, hdeg⟩
    obtain ⟨hpos, hle⟩ := Finset.mem_Ioc.1 hdeg
    obtain ⟨d, hlt, rfl⟩ := exists_toPoly_eq (k := 5) (by decide)
      ((Polynomial.natDegree_lt_iff_degree_lt hmonic.ne_zero).1 (Nat.lt_succ_of_le hle))
    refine ⟨d, ?_, hlt, rfl⟩
    by_contra hd
    obtain rfl | rfl : d = 0 ∨ d = 1 := by omega
    · simp at hpos
    · simp at hpos
  · rintro ⟨d, h2, h32, rfl⟩
    have h0 : d ≠ 0 := by omega
    have hlt : d < 2 ^ 16 := by omega
    have hpos : 1 ≤ d.log2 := (Nat.le_log2 h0).2 h2
    have hle : d.log2 < 5 := (Nat.log2_lt h0).2 h32
    rw [natDegree_toPoly h0 hlt, Finset.mem_Ioc]
    exact ⟨monic_toPoly h0 hlt, hpos, Nat.le_of_lt_succ hle⟩

/-- Settles O28: a polynomial of degree 8 that is reducible has a monic divisor of degree 1 to 4. -/
theorem irreducibleDecidesIrreducibility : Obligations.IrreducibleDecidesIrreducibility := by
  intro p
  have hne : toPoly (polyOf p) ≠ 1 := fun h => by
    have hdeg := natDegree_toPoly_polyOf p
    rw [h, Polynomial.natDegree_one] at hdeg
    cases hdeg
  have hdivisors := (monic_toPoly_polyOf p).irreducible_iff_lt_natDegree_lt hne
  rw [natDegree_toPoly_polyOf] at hdivisors
  rw [irreducible_iff_no_divisor]
  refine Iff.trans ⟨fun h q hmonic hdeg => ?_, fun h d h2 h32 => ?_⟩ hdivisors.symm
  · obtain ⟨d, h2, h32, rfl⟩ := monic_natDegree_le_four_iff.1 ⟨hmonic, hdeg⟩
    exact h d h2 h32
  · obtain ⟨hmonic, hdeg⟩ := monic_natDegree_le_four_iff.2 ⟨d, h2, h32, rfl⟩
    exact h (toPoly d) hmonic hdeg

/-! ### The product (R74) -/

/-- The polynomial of a byte has its coefficients in bits 0 to 7. -/
theorem toPoly_byte (b : Byte) :
    toPoly b.toNat = ∑ k ∈ Finset.range 8, if b.getLsbD k then Polynomial.X ^ k else 0 := by
  refine (Finset.sum_subset (Finset.range_subset_range.2 (by decide)) fun k _ hk => ?_).symm
  have hbit : b.toNat.testBit k = false := BitVec.getLsbD_of_ge b k (by simpa using hk)
  simp [hbit]

/-- What the loop of `clmul` has summed up after `n` bits of `b`. -/
theorem clmul_partial (a b : Byte) {n : Nat} (hn : n ≤ 8) :
    let r := (List.range n).foldl (fun r k => if b.getLsbD k then r ^^^ (a.toNat <<< k) else r) 0
    r < 2 ^ (n + 7) ∧
      toPoly r = toPoly a.toNat * ∑ k ∈ Finset.range n, if b.getLsbD k then Polynomial.X ^ k else 0 := by
  induction n with
  | zero => simp
  | succ n ih =>
    obtain ⟨hlt, hsum⟩ := ih (Nat.le_of_succ_le hn)
    have hshift : a.toNat <<< n < 2 ^ (n + 1 + 7) := by
      rw [Nat.shiftLeft_eq, show n + 1 + 7 = 8 + n by omega, pow_add]
      exact Nat.mul_lt_mul_of_pos_right a.isLt (Nat.two_pow_pos n)
    have hlt' := hlt.trans_le (Nat.pow_le_pow_right two_pos (show n + 7 ≤ n + 1 + 7 by omega))
    simp only [List.range_succ, List.foldl_append, List.foldl_cons, List.foldl_nil, Finset.sum_range_succ]
    cases b.getLsbD n with
    | false => simpa using ⟨hlt', hsum⟩
    | true =>
      refine ⟨Nat.xor_lt_two_pow hlt' hshift, ?_⟩
      rw [if_pos rfl, if_pos rfl, toPoly_xor, hsum,
        toPoly_shiftLeft (hshift.trans_le (Nat.pow_le_pow_right two_pos (by omega)))]
      ring

theorem clmul_lt (a b : Byte) : clmul a b < 2 ^ 15 := (clmul_partial a b le_rfl).1

theorem toPoly_clmul (a b : Byte) : toPoly (clmul a b) = toPoly a.toNat * toPoly b.toNat := by
  rw [toPoly_byte b]
  exact (clmul_partial a b le_rfl).2

/-- One step of the reduction: bit `k` is cancelled by a multiple of the modulus. -/
def reduceBit (p : Byte) (r k : Nat) : Nat := if r.testBit k then r ^^^ (polyOf p <<< (k - 8)) else r

theorem gfReduce_eq (p : Byte) (r : Nat) :
    gfReduce p r = [14, 13, 12, 11, 10, 9, 8].foldl (reduceBit p) r := rfl

theorem reduceBit_lt {p : Byte} {r k : Nat} (hk : 8 ≤ k) (hr : r < 2 ^ (k + 1)) : reduceBit p r k < 2 ^ k := by
  unfold reduceBit
  split
  · rename_i hbit
    simpa using xor_shiftLeft_log2_lt (polyOf_ne_zero p) (by simpa using hk) hr hbit
  · rename_i hbit
    refine Nat.lt_pow_two_of_testBit _ fun j hj => ?_
    obtain rfl | hlt := Nat.eq_or_lt_of_le hj
    · simpa using hbit
    · exact Nat.testBit_lt_two_pow (hr.trans_le (Nat.pow_le_pow_right two_pos hlt))

theorem mk_toPoly_reduceBit (p : Byte) {k : Nat} (hk8 : 8 ≤ k) (hk : k < 16) (r : Nat) :
    AdjoinRoot.mk (toPoly (polyOf p)) (toPoly (reduceBit p r k)) =
      AdjoinRoot.mk (toPoly (polyOf p)) (toPoly r) := by
  unfold reduceBit
  split
  · have hshift := shiftLeft_log2_lt (d := polyOf p) (k := k) (by simpa using hk8)
    rw [log2_polyOf] at hshift
    exact mk_toPoly_xor_shiftLeft (hshift.trans_le (Nat.pow_le_pow_right two_pos hk)) r
  · rfl

theorem gfReduce_lt (p : Byte) {r : Nat} (hr : r < 2 ^ 15) : gfReduce p r < 2 ^ 8 := by
  have h14 : reduceBit p r 14 < 2 ^ 14 := reduceBit_lt (by decide) hr
  have h13 := reduceBit_lt (p := p) (k := 13) (by decide) h14
  have h12 := reduceBit_lt (p := p) (k := 12) (by decide) h13
  have h11 := reduceBit_lt (p := p) (k := 11) (by decide) h12
  have h10 := reduceBit_lt (p := p) (k := 10) (by decide) h11
  have h9 := reduceBit_lt (p := p) (k := 9) (by decide) h10
  exact reduceBit_lt (by decide) h9

theorem mk_toPoly_gfReduce (p : Byte) (r : Nat) :
    AdjoinRoot.mk (toPoly (polyOf p)) (toPoly (gfReduce p r)) =
      AdjoinRoot.mk (toPoly (polyOf p)) (toPoly r) := by
  have hfold (ks : List Nat) (hks : ∀ k ∈ ks, 8 ≤ k ∧ k < 16) (r : Nat) :
      AdjoinRoot.mk (toPoly (polyOf p)) (toPoly (ks.foldl (reduceBit p) r)) =
        AdjoinRoot.mk (toPoly (polyOf p)) (toPoly r) := by
    induction ks generalizing r with
    | nil => rfl
    | cons k ks ih =>
      obtain ⟨hk8, hk16⟩ := hks k List.mem_cons_self
      exact (ih (fun j hj => hks j (List.mem_cons_of_mem k hj)) _).trans (mk_toPoly_reduceBit p hk8 hk16 r)
  rw [gfReduce_eq]
  exact hfold _ (by decide) r

/-! ### Bytes as residues modulo x^8 + p(x) -/

/-- The residue class that a byte names. -/
noncomputable def gfElem (p a : Byte) : AdjoinRoot (toPoly (polyOf p)) :=
  AdjoinRoot.mk (toPoly (polyOf p)) (toPoly a.toNat)

theorem degree_byte_lt (p a : Byte) : (toPoly a.toNat).degree < (toPoly (polyOf p)).degree := by
  rw [degree_toPoly_polyOf]
  exact degree_toPoly_lt a.isLt

/-- Different bytes name different residue classes. -/
theorem gfElem_injective (p : Byte) : Function.Injective (gfElem p) := by
  intro a b h
  refine BitVec.eq_of_toNat_eq (eq_of_mk_toPoly_eq (polyOf_ne_zero p) (polyOf_lt p) ?_ ?_ h)
  · rw [log2_polyOf]
    exact a.isLt
  · rw [log2_polyOf]
    exact b.isLt

/-- Every residue class is named by a byte. -/
theorem gfElem_surjective (p : Byte) : Function.Surjective (gfElem p) := by
  intro x
  obtain ⟨q, rfl⟩ := AdjoinRoot.mk_surjective x
  have hdeg := Polynomial.degree_modByMonic_lt q (monic_toPoly_polyOf p)
  rw [degree_toPoly_polyOf] at hdeg
  obtain ⟨n, hn, hq⟩ := exists_toPoly_eq (by decide) hdeg
  refine ⟨BitVec.ofNat 8 n, ?_⟩
  rw [gfElem, BitVec.toNat_ofNat, Nat.mod_eq_of_lt hn, hq]
  exact AdjoinRoot.mk_leftInverse (monic_toPoly_polyOf p) (AdjoinRoot.mk _ q)

@[simp] theorem gfElem_zero (p : Byte) : gfElem p 0 = 0 := by simp [gfElem]

@[simp] theorem gfElem_one (p : Byte) : gfElem p 1 = 1 := by simp [gfElem]

@[simp] theorem gfElem_xor (p a b : Byte) : gfElem p (a ^^^ b) = gfElem p a + gfElem p b := by
  rw [gfElem, BitVec.toNat_xor, toPoly_xor, map_add, gfElem, gfElem]

/-- The unit multiplies residue classes. -/
theorem gfElem_gfProduct (a b p : Byte) : gfElem p (gfProduct a b p) = gfElem p a * gfElem p b := by
  rw [gfElem, gfProduct, BitVec.toNat_ofNat, Nat.mod_eq_of_lt (gfReduce_lt p (clmul_lt a b)), mk_toPoly_gfReduce,
    toPoly_clmul, map_mul, gfElem, gfElem]

/-! ### `gfmul` -/

theorem gfmul_of_irreducible {p : Byte} (hp : irreducible p = true) (a b : Byte) :
    gfmul a b p = some (gfProduct a b p) := if_pos hp

theorem gfmul_of_reducible {p : Byte} (hp : irreducible p = false) (a b : Byte) : gfmul a b p = none := by
  simp [gfmul, hp]

theorem irreducible_of_gfmul {a b p r : Byte} (h : gfmul a b p = some r) : irreducible p = true := by
  by_contra hp
  simp [gfmul, hp] at h

/-- Where the polynomial is irreducible, the answer is the byte that names the product of the residue classes. -/
theorem gfmul_eq_some_iff {p : Byte} (hp : irreducible p = true) {a b r : Byte} :
    gfmul a b p = some r ↔ gfElem p r = gfElem p a * gfElem p b := by
  rw [gfmul_of_irreducible hp, Option.some.injEq, ← gfElem_gfProduct, (gfElem_injective p).eq_iff, eq_comm]

/-- Settles O27: the remainder is the one polynomial of degree below 8 in the residue class of the product. -/
theorem gfmulIsThePolynomialProduct : Obligations.GfmulIsThePolynomialProduct := by
  intro a b p r h
  have hclass := (gfmul_eq_some_iff (irreducible_of_gfmul h)).1 h
  have hmonic := monic_toPoly_polyOf p
  calc toPoly r.toNat
      = toPoly r.toNat %ₘ toPoly (polyOf p) :=
        ((Polynomial.modByMonic_eq_self_iff hmonic).2 (degree_byte_lt p r)).symm
    _ = AdjoinRoot.modByMonicHom hmonic (gfElem p r) := rfl
    _ = AdjoinRoot.modByMonicHom hmonic (gfElem p a * gfElem p b) := by rw [hclass]
    _ = (toPoly a.toNat * toPoly b.toNat) %ₘ toPoly (polyOf p) := rfl

/-- The residues modulo an irreducible polynomial are a field: a non-zero byte has an inverse. -/
theorem exists_gfElem_mul_eq_one {p : Byte} (hp : irreducible p = true) {a : Byte} (ha : a ≠ 0) :
    ∃ b, gfElem p a * gfElem p b = 1 := by
  have : Fact (Irreducible (toPoly (polyOf p))) := ⟨(irreducibleDecidesIrreducibility p).1 hp⟩
  have hne : gfElem p a ≠ 0 := gfElem_zero p ▸ (gfElem_injective p).ne ha
  obtain ⟨b, hb⟩ := gfElem_surjective p (gfElem p a)⁻¹
  exact ⟨b, by rw [hb, mul_inv_cancel₀ hne]⟩

/-- Settles O29: `gfmul` computes in the field of the residues modulo x^8 + p(x). -/
theorem gfFieldLaws : Obligations.GfFieldLaws := by
  intro p hp
  have hmul (a b : Byte) : ∃ r, gfmul a b p = some r := ⟨_, gfmul_of_irreducible hp a b⟩
  refine ⟨fun a b => ?comm, fun a b c ab bc hab hbc => ?assoc, fun a => ?zero, fun a => ?one,
    fun a b c ab ac hab hac => ?distrib, fun a ha => ?inverse⟩
  case comm =>
    obtain ⟨r, hr⟩ := hmul b a
    rw [hr, gfmul_eq_some_iff hp, mul_comm]
    exact (gfmul_eq_some_iff hp).1 hr
  case assoc =>
    obtain ⟨r, hr⟩ := hmul a bc
    rw [gfmul_eq_some_iff hp] at hab hbc
    rw [hr, gfmul_eq_some_iff hp, hab, mul_assoc, ← hbc]
    exact (gfmul_eq_some_iff hp).1 hr
  case zero => rw [gfmul_eq_some_iff hp, gfElem_zero, mul_zero]
  case one => rw [gfmul_eq_some_iff hp, gfElem_one, mul_one]
  case distrib =>
    rw [gfmul_eq_some_iff hp] at hab hac ⊢
    rw [gfElem_xor, gfElem_xor, hab, hac, mul_add]
  case inverse =>
    simp only [gfmul_eq_some_iff hp, gfElem_one]
    obtain ⟨b, hb⟩ := exists_gfElem_mul_eq_one hp ha
    refine ⟨b, hb.symm, fun c hc => gfElem_injective p ?_⟩
    exact left_inv_eq_right_inv ((mul_comm _ _).trans hc.symm) hb

/-! ### GF_MUL and GF_IRRED (R76, R77) -/

theorem gfMulBody_of_some {u : State} {r : Byte}
    (h : gfmul (gfA u.latched) (gfB u.latched) (gfPoly u.latched) = some r) :
    gfMulBody u = finishResult (r.setWidth 32) u := by
  rw [gfMulBody, h]

theorem gfMulBody_of_none {u : State} (h : gfmul (gfA u.latched) (gfB u.latched) (gfPoly u.latched) = none) :
    gfMulBody u = raise .inconsistentArguments (opcode .gfMul) u := by
  rw [gfMulBody, h]

/-- GF_MUL ends DONE where there is a product. -/
theorem exec_gfMul_of_some {s : State} (hacc : CanAccept s) {r : Byte}
    (h : gfmul (gfA s.ops) (gfB s.ops) (gfPoly s.ops) = some r) :
    exec .gfMul s = .next { finished .gfMul s with out := { s.out with result := r.setWidth 32 } } :=
  congrArg Host.Outcome.next <|
    calc issue .gfMul gfMulBody s
        = gfMulBody (atWork .gfMul s.env s.seq s) := issue_of_canAccept hacc
      _ = finishResult (r.setWidth 32) (atWork .gfMul s.env s.seq s) := gfMulBody_of_some h
      _ = _ := finishResult_atWork .gfMul s.env s.seq s _

/-- GF_MUL ends FAILED where there is none. -/
theorem exec_gfMul_of_none {s : State} (hacc : CanAccept s)
    (h : gfmul (gfA s.ops) (gfB s.ops) (gfPoly s.ops) = none) :
    exec .gfMul s = .next (failedWith .gfMul .inconsistentArguments s) :=
  congrArg Host.Outcome.next <|
    calc issue .gfMul gfMulBody s
        = gfMulBody (atWork .gfMul s.env s.seq s) := issue_of_canAccept hacc
      _ = raise .inconsistentArguments (opcode .gfMul) (atWork .gfMul s.env s.seq s) := gfMulBody_of_none h
      _ = _ := raise_atWork .gfMul s.env s.seq s _

theorem exec_gfIrred {s : State} (hacc : CanAccept s) :
    exec .gfIrred s = .next { finished .gfIrred s with
      out := { s.out with result := if irreducible (gfPoly s.ops) then 1 else 0 } } :=
  congrArg Host.Outcome.next ((issue_of_canAccept hacc).trans (finishResult_atWork .gfIrred s.env s.seq s _))

/-- Settles O25: the operands are the fields of GFARG, and POLY alone decides whether there is a product. -/
theorem gfMulEffect : Obligations.GfMulEffect := by
  refine ⟨by decide, fun s hacc => ⟨fun r hr => ?_, fun hp => ⟨_, gfmul_of_irreducible hp _ _⟩, fun hp => ?_⟩⟩
  · rw [BitVec.ofNat_toNat]
    exact exec_gfMul_of_some hacc hr
  · exact exec_gfMul_of_none hacc (gfmul_of_reducible hp _ _)

/-- Settles O26: POLY is the field [23:16] of GFARG. -/
theorem gfIrredEffect : Obligations.GfIrredEffect :=
  ⟨by decide, fun s hacc => exec_gfIrred hacc⟩

/-! ### Initialisation (R78, R152) -/

/-- The engine counts the initialisation down to its last step. -/
theorem engineSteps_init (k : Nat) (s : State) (h : s.seq = .init k) : engineSteps (k + 1) s = finishInit s := by
  induction k generalizing s with
  | zero =>
    rw [engineSteps_succ, engineSteps_zero, engineStep, h]
    rfl
  | succ k ih =>
    have hstep : engineStep s = { s with seq := .init k } := by rw [engineStep, h]; rfl
    rw [engineSteps_succ, hstep, ih _ rfl]
    rfl

@[simp] theorem getD_powersFrom_zero (k : Nat) (x : Byte) : (powersFrom k x).getD 0 0 = x := by
  cases k <;> rfl

/-- Each entry is the one before, multiplied by MAGENTA_ALPHA. -/
theorem getD_powersFrom_succ {k i : Nat} (hi : i < k) (x : Byte) :
    (powersFrom k x).getD (i + 1) 0 = gfProduct ((powersFrom k x).getD i 0) magentaAlpha magentaPoly := by
  induction k generalizing x i with
  | zero => omega
  | succ k ih =>
    cases i with
    | zero => exact getD_powersFrom_zero k _
    | succ i => exact ih (Nat.lt_of_succ_lt_succ hi) _

theorem getD_ftabGenerated_of_lt {i : Nat} (hi : i < 255) (f255 : Byte) :
    (ftabGenerated f255).getD i 0 = (powersFrom 254 0x01).getD i 0 :=
  List.getD_append _ _ _ _ (by simpa using hi)

/-- Settles O20: the countdown ends in `finishInit`, and the table holds the powers that `gfmul` gives. -/
theorem initialisationEnds : Obligations.InitialisationEnds := by
  refine ⟨fun s k h => engineSteps_init k s h,
    fun f255 => ⟨length_ftabGenerated f255, ?first, fun i hi => ?power, ?last⟩⟩
  case first => rw [getD_ftabGenerated_of_lt (by decide), getD_powersFrom_zero]
  case power =>
    rw [getD_ftabGenerated_of_lt (by omega), getD_ftabGenerated_of_lt (by omega), getD_powersFrom_succ hi]
    exact gfmul_magentaPoly _
  case last =>
    rw [ftabGenerated, List.getD_append_right _ _ _ _ (by simp), length_powersFrom]
    rfl

end Sys2Proof.Machine
end

section
/-! PROOFS. Key adjustment, the parity bits of a DES key, and REKEY (42_key_schedules.md R82, R83, R84, R90). -/

namespace Sys2Proof.Machine

open Sys2Proof.Claim

/-! ### Key adjustment (R82) -/

theorem keySizes_rising (alg : Cipher) : (keySizes alg).Pairwise (· ≤ ·) := by cases alg <;> decide

theorem pos_of_mem_keySizes {alg : Cipher} {n : Nat} (hn : n ∈ keySizes alg) : 0 < n := by
  cases alg <;> simp [keySizes] at hn <;> omega

theorem length_take_of_mem_keySizes {alg : Cipher} {n : Nat} (hn : n ∈ keySizes alg) {key : List Byte}
    (hkey : key.length = 32) : (key.take n).length = n := by
  rw [List.length_take, hkey, Nat.min_eq_left (le_of_mem_keySizes hn)]

theorem getD_take_of_lt (key : List Byte) {n i : Nat} (hi : i < n) : (key.take n).getD i 0 = key.getD i 0 := by
  simp [List.getD_eq_getElem?_getD, List.getElem?_take_of_lt hi]

theorem getD_markKey_zero {k : List Byte} (hk : k ≠ []) : (markKey k).getD 0 0 = k.getD 0 0 ||| 0x80 := by
  cases k with
  | nil => exact absurd rfl hk
  | cons b rest => rfl

theorem getD_markKey_of_pos (k : List Byte) {i : Nat} (hi : 1 ≤ i) : (markKey k).getD i 0 = k.getD i 0 := by
  obtain ⟨j, rfl⟩ := Nat.exists_eq_add_of_le' hi
  cases k <;> rfl

/-- The last of the rising sizes below `l` is the largest of them. -/
theorem largest_of_getLast?_filter {alg : Cipher} {l n : Nat}
    (h : ((keySizes alg).filter (· < l)).getLast? = some n) :
    n ∈ keySizes alg ∧ n < l ∧ ∀ m ∈ keySizes alg, m < l → m ≤ n := by
  obtain ⟨hne, rfl⟩ := List.mem_getLast?_eq_getLast h
  obtain ⟨hmem, hlt⟩ := List.mem_filter.1 (List.getLast_mem hne)
  refine ⟨hmem, by simpa using hlt, fun m hm hml => ?_⟩
  exact ((keySizes_rising alg).filter _).rel_getLast (List.mem_filter.2 ⟨hm, by simpa using hml⟩)

/-- A key is used as it is, too short, or cut to the next smaller size and marked. -/
theorem adjust_cases (alg : Cipher) (l : Nat) (key : List Byte) :
    (l ∈ keySizes alg ∧ adjust alg l key = some (key.take l)) ∨
    ((∀ n ∈ keySizes alg, l < n) ∧ adjust alg l key = none) ∨
    ∃ n ∈ keySizes alg, n < l ∧ (∀ m ∈ keySizes alg, m ≤ l → m ≤ n) ∧
      adjust alg l key = some (markKey (key.take n)) := by
  unfold adjust
  split
  · rename_i hl
    exact .inl ⟨hl, rfl⟩
  · rename_i hl
    have hlt : ∀ m ∈ keySizes alg, m ≤ l → m < l := fun m hm hml => lt_of_le_of_ne hml fun h => hl (h ▸ hm)
    split
    · rename_i hnone
      rw [List.getLast?_eq_none_iff, List.filter_eq_nil_iff] at hnone
      exact .inr (.inl ⟨fun n hn => not_le.1 fun hnl => hnone n hn (by simpa using hlt n hn hnl), rfl⟩)
    · rename_i n hsome
      obtain ⟨hn, hnl, hmax⟩ := largest_of_getLast?_filter hsome
      exact .inr (.inr ⟨n, hn, hnl, fun m hm hml => hmax m hm (hlt m hm hml), rfl⟩)

theorem adjust_eq_none_iff {alg : Cipher} {l : Nat} {key : List Byte} :
    adjust alg l key = none ↔ ∀ n ∈ keySizes alg, l < n := by
  rcases adjust_cases alg l key with ⟨hl, h⟩ | ⟨hshort, h⟩ | ⟨n, hn, hnl, -, h⟩
  · simpa [h] using ⟨l, hl, le_rfl⟩
  · simpa [h] using hshort
  · simpa [h] using ⟨n, hn, hnl.le⟩

theorem adjust_eq_none_iff_lt {alg : Cipher} {l size : Nat} {key : List Byte}
    (hleast : IsLeast {n | n ∈ keySizes alg} size) : adjust alg l key = none ↔ l < size :=
  adjust_eq_none_iff.trans ⟨fun h => h size hleast.1, fun h _ hn => h.trans_le (hleast.2 hn)⟩

/-- Settles O36: by the cases of `adjust`, a supported length, one below every size, and one between. -/
theorem adjustKeepsTheLeadingBytes : Obligations.AdjustKeepsTheLeadingBytes := by
  refine fun alg l key hkey => ⟨adjust_eq_none_iff, fun k hk => ?_⟩
  rcases adjust_cases alg l key with ⟨hl, h⟩ | ⟨-, h⟩ | ⟨n, hn, hnl, hmax, h⟩
  · cases h.symm.trans hk
    have hpos := pos_of_mem_keySizes hl
    rw [length_take_of_mem_keySizes hl hkey, if_pos rfl]
    exact ⟨hl, le_rfl, fun m _ hml => hml, fun i _ hi => getD_take_of_lt key hi, getD_take_of_lt key hpos⟩
  · cases h.symm.trans hk
  · cases h.symm.trans hk
    have hlen := length_take_of_mem_keySizes hn hkey
    have hpos := pos_of_mem_keySizes hn
    rw [length_markKey, hlen, if_neg hnl.ne', getD_markKey_zero (List.ne_nil_of_length_pos (hpos.trans_eq hlen.symm)),
      getD_take_of_lt key hpos]
    refine ⟨hn, hnl.le, hmax, fun i h1 hi => ?_, rfl⟩
    rw [getD_markKey_of_pos _ h1, getD_take_of_lt key hi]

/-! ### The parity bits of a DES key (R83, R84) -/

/-- A permutation reads no bit but those that its rule names. -/
theorem permuteFrom_congr {data data' : List Byte} {num : Numbering} {rule : List Nat}
    (h : ∀ idx ∈ rule, getbit data idx num = getbit data' idx num) (i : Nat) (out : List Byte) :
    permuteFrom data num i rule out = permuteFrom data' num i rule out := by
  induction rule generalizing i out with
  | nil => rfl
  | cons idx rest ih =>
    obtain ⟨hidx, hrest⟩ := List.forall_mem_cons.1 h
    simp only [permuteFrom, hidx, ih hrest]

theorem permuteTable_congr {data data' : List Byte} {table : List Nat}
    (h : ∀ idx ∈ table, getbit data idx .msb1 = getbit data' idx .msb1) :
    permuteTable data table = permuteTable data' table := by
  rw [permuteTable, permuteTable, permute, permute, permuteFrom_congr h]

theorem getLsbD_clearParity (b : Byte) {shift : Nat} (hshift : shift ≠ 0) :
    (b &&& 0xFE).getLsbD shift = b.getLsbD shift := by
  by_cases h8 : shift < 8
  · have hmask : ∀ j < 8, j ≠ 0 → (0xFE : Byte).getLsbD j = true := by decide
    rw [BitVec.getLsbD_and, hmask shift h8 hshift, Bool.and_true]
  · rw [BitVec.getLsbD_of_ge _ _ (not_lt.1 h8), BitVec.getLsbD_of_ge _ _ (not_lt.1 h8)]

theorem getD_stripParity (k : List Byte) (i : Nat) : (stripParity k).getD i 0 = k.getD i 0 &&& 0xFE :=
  List.getD_map (l := k) (d := 0) (· &&& 0xFE)

/-- In MSB-1 numbering only a multiple of 8 is the index of a parity bit, the one of shift 0. -/
theorem shift_ne_zero_of_locate_msb1 {len idx : Nat} {p : Nat × Nat} (h : locate len idx .msb1 = some p)
    (hidx : idx % 8 ≠ 0) : p.2 ≠ 0 := by
  unfold locate at h
  split at h
  · obtain rfl := Option.some.inj h
    simp only [origin]
    omega
  · cases h

theorem getbit_stripParity (k : List Byte) {idx : Nat} (hidx : idx % 8 ≠ 0) :
    getbit (stripParity k) idx .msb1 = getbit k idx .msb1 := by
  have hlen : (stripParity k).length = k.length := List.length_map _
  rw [getbit, getbit, hlen]
  refine Option.map_congr fun p hp => ?_
  rw [getD_stripParity, getLsbD_clearParity _ (shift_ne_zero_of_locate_msb1 hp hidx)]

/-- Settles O37: PC1 names no multiple of 8. -/
theorem desIgnoresParity : Obligations.DesIgnoresParity := by
  intro k _
  have hpc1 : ∀ idx ∈ desPC1, idx % 8 ≠ 0 := by decide
  rw [desKs, desKs, permuteTable_congr fun idx hidx => getbit_stripParity k (hpc1 idx hidx)]

/-! ### REKEY (R90) -/

/-- A command that runs for a drawn number of engine steps does its last part in the last of them (93 I6). -/
theorem engineSteps_issue_startSlow {s : State} (hacc : CanAccept s) (i : Instr) (cmd : SlowCmd) :
    ∃ q, engineSteps (drawChoice s).1 (issue i (startSlow cmd) s) =
      finishSlow cmd (atWork i (drawChoice s).2.env q s) := by
  rw [issue_of_canAccept hacc, accept_eq_atWork, startSlow, drawChoice_atWork]
  exact engineSteps_launch_atWork i (drawChoice s).2.env s.seq s cmd (drawChoice s).1

theorem rekeyBody_of_unkeyed {u : State} (hkeyed : u.status.keyed = false) :
    rekeyBody u = raise .notKeyed (opcode .rekey) u := if_pos hkeyed

theorem rekeyBody_of_adjust_eq_none {u : State} (hkeyed : u.status.keyed = true)
    (h : adjust u.ctx.alg u.latched.keyLen.toNat (keyBytes u.latched) = none) :
    rekeyBody u = raise .keyTooShort (opcode .rekey) u := by
  simp [rekeyBody, hkeyed, h]

theorem rekeyBody_of_adjust_eq_some {u : State} (hkeyed : u.status.keyed = true) {k : List Byte}
    (h : adjust u.ctx.alg u.latched.keyLen.toNat (keyBytes u.latched) = some k) :
    rekeyBody u = terminal .done { u with ctx := { u.ctx with key := k, rkt := schedule u.params u.ctx.alg k } } := by
  simp [rekeyBody, hkeyed, h]

/-- Settles O46: the drawn number of steps ends in `rekeyBody`, for which a key is too short where it is below the least
size of the cipher. -/
theorem rekeyReplacesTheKeyAlone : Obligations.RekeyReplacesTheKeyAlone := by
  refine ⟨by decide, fun s hacc => ?_⟩
  obtain ⟨q, hend⟩ := engineSteps_issue_startSlow hacc .rekey .rekey
  refine ⟨_, rfl, ?_⟩
  intro u e size
  let v := atWork .rekey e q s
  have hu : u = rekeyBody v := hend
  have hleast : IsLeast {n | n ∈ keySizes s.ctx.alg} size := by
    unfold size
    cases s.ctx.alg <;> simp [IsLeast, lowerBounds, keySizes, minKey]
  rw [hu]
  refine ⟨fun hkeyed => ?unkeyed, fun hkeyed hshort => ?tooShort, fun hkeyed hlong => ?done⟩
  case unkeyed => exact (rekeyBody_of_unkeyed (u := v) hkeyed).trans (raise_atWork ..)
  case tooShort =>
    have hnone := (adjust_eq_none_iff_lt (key := keyBytes s.ops) hleast).2 hshort
    exact (rekeyBody_of_adjust_eq_none (u := v) hkeyed hnone).trans (raise_atWork ..)
  case done =>
    obtain ⟨k, hk⟩ := Option.ne_none_iff_exists'.1 fun h => hlong.not_gt ((adjust_eq_none_iff_lt hleast).1 h)
    exact ⟨k, hk, rekeyBody_of_adjust_eq_some (u := v) hkeyed hk⟩

end Sys2Proof.Machine
end

section
/-! PROOFS. The Feistel core undoes itself under the reversed keys, and with it E and D of DES, DEAL and MAGENTA undo
each other (40_bit_addressing.md R70; 43_feistel.md R91..R102). -/

namespace Sys2Proof.Machine

/-! ### Fixed permutations (R70) -/

theorem getbit_msb1_succ {b : List Byte} {k : Nat} (hk : k < 8 * b.length) :
    getbit b (k + 1) .msb1 = some ((b.getD (k / 8) 0).getLsbD (7 - k % 8)) := by
  rw [getbit, locate_msb1 (by omega) (by omega)]
  rfl

/-- A buffer is the bits that MSB-1 numbers. -/
theorem eq_of_getbit_msb1 {a b : List Byte} (hlen : a.length = b.length)
    (h : ∀ k < 8 * b.length, getbit a (k + 1) .msb1 = getbit b (k + 1) .msb1) : a = b := by
  refine List.ext_getElem hlen fun i hia hib => BitVec.eq_of_getLsbD_eq fun j hj => ?_
  have hk : 8 * i + (7 - j) < 8 * b.length := by omega
  have hbit := h _ hk
  rw [getbit_msb1_succ (hlen ▸ hk), getbit_msb1_succ hk, show (8 * i + (7 - j)) / 8 = i by omega,
    show 7 - (8 * i + (7 - j)) % 8 = j by omega, Option.some.injEq] at hbit
  simpa [hia, hib] using hbit

/-- A table of whole bytes whose entries are in range copies the bit that each entry names. -/
theorem getbit_permuteTable {data : List Byte} {table : List Nat} (h8 : table.length % 8 = 0)
    (htable : ∀ idx ∈ table, 1 ≤ idx ∧ idx ≤ 8 * data.length) {k : Nat} (hk : k < table.length) :
    getbit (permuteTable data table) (k + 1) .msb1 = getbit data table[k] .msb1 := by
  obtain ⟨out, hout⟩ := permuteFrom_msb1 htable (i := 0) (out := zeros (table.length / 8)) (by
    rw [length_zeros]
    omega)
  have hcopied := (getbit_permuteFrom hout).2 k hk
  rw [Nat.zero_add] at hcopied
  rw [permuteTable, permute, if_pos h8, hout]
  exact hcopied

/-- Two permutations of `n` bytes, the second undoing the first: entry k of `inv` names the target bit of `table` that
copies bit k + 1 (R11). -/
def TableUndone (n : Nat) (table inv : List Nat) : Prop :=
  table.length = 8 * n ∧ inv.length = 8 * n ∧ (∀ idx ∈ table, 1 ≤ idx ∧ idx ≤ 8 * n) ∧
    ∀ k < 8 * n, 1 ≤ inv.getD k 0 ∧ inv.getD k 0 ≤ 8 * n ∧ table.getD (inv.getD k 0 - 1) 0 = k + 1

theorem permuteTable_permuteTable {n : Nat} {table inv : List Nat} (h : TableUndone n table inv) {x : List Byte}
    (hx : x.length = n) : permuteTable (permuteTable x table) inv = x := by
  obtain ⟨htable, hinv, hrange, hundone⟩ := h
  have hrange : ∀ idx ∈ table, 1 ≤ idx ∧ idx ≤ 8 * x.length := by rwa [hx]
  have hmid : (permuteTable x table).length = n := by
    rw [length_permuteTable (by omega) hrange]
    omega
  have hinvRange : ∀ idx ∈ inv, 1 ≤ idx ∧ idx ≤ 8 * (permuteTable x table).length := by
    intro idx hidx
    obtain ⟨k, hk, rfl⟩ := List.getElem_of_mem hidx
    obtain ⟨h1, h2, -⟩ := hundone k (by omega)
    rw [List.getD_eq_getElem _ _ hk] at h1 h2
    exact ⟨h1, by omega⟩
  refine eq_of_getbit_msb1 ?_ fun k hk => ?_
  · rw [length_permuteTable (by omega) hinvRange]
    omega
  · have hkinv : k < inv.length := by omega
    obtain ⟨h1, h2, h3⟩ := hundone k (by omega)
    rw [List.getD_eq_getElem _ _ hkinv] at h1 h2 h3
    have hin : inv[k] - 1 < table.length := by omega
    rw [List.getD_eq_getElem _ _ hin] at h3
    rw [getbit_permuteTable (by omega) hinvRange hkinv]
    calc getbit (permuteTable x table) inv[k] .msb1
      _ = getbit (permuteTable x table) (inv[k] - 1 + 1) .msb1 := by rw [Nat.sub_add_cancel h1]
      _ = getbit x (k + 1) .msb1 := by rw [getbit_permuteTable (by omega) hrange hin, h3]

/-! ### Rounds run backwards -/

/-- Where `g` undoes each step of `f` behind a change of form `σ`, running the keys backwards undoes the run. -/
theorem foldl_reverse_of_undone {α β κ : Type} {f : α → κ → α} {g : β → κ → β} {σ : α → β} {P : α → Prop}
    {keys : List κ} (hkeep : ∀ k ∈ keys, ∀ a, P a → P (f a k))
    (hundo : ∀ k ∈ keys, ∀ a, P a → g (σ (f a k)) k = σ a) {a : α} (ha : P a) :
    keys.reverse.foldl g (σ (keys.foldl f a)) = σ a := by
  induction keys generalizing a with
  | nil => rfl
  | cons k keys ih =>
    obtain ⟨hkeepHead, hkeepTail⟩ := List.forall_mem_cons.1 hkeep
    obtain ⟨hundoHead, hundoTail⟩ := List.forall_mem_cons.1 hundo
    rw [List.reverse_cons, List.foldl_append, List.foldl_cons (f := f),
      ih hkeepTail hundoTail (hkeepHead a ha)]
    exact hundoHead a ha

/-! ### The core (R91, R92) -/

theorem xorBytes_xorBytes {a b : List Byte} (h : a.length = b.length) : xorBytes (xorBytes a b) b = a := by
  refine List.ext_getElem (by simp [xorBytes, h]) fun i h1 h2 => ?_
  simp [xorBytes]

theorem length_take_drop {x : List Byte} {h : Nat} (hx : x.length = 2 * h) :
    (x.take h).length = h ∧ (x.drop h).length = h := by
  rw [List.length_take, List.length_drop]
  omega

section
variable {κ : Type} {h : Nat} {f : List Byte → κ → List Byte}

/-- A round on the halves exchanged undoes the round. -/
theorem feistelRound_swap_feistelRound {lr : List Byte × List Byte} {k : κ}
    (hlen : lr.1.length = (f lr.2 k).length) :
    feistelRound f (feistelRound f lr k).swap k = lr.swap := by
  rw [feistelRound, feistelRound, Prod.fst_swap, Prod.snd_swap, xorBytes_xorBytes hlen, Prod.swap]

/-- The recombination exchanges the halves, so the core starts again from them exchanged. -/
theorem coreHalves_recombine (keys : List κ) {lr : List Byte × List Byte} (hr : lr.2.length = h) :
    coreHalves h f keys (recombine lr) = keys.foldl (feistelRound f) lr.swap := by
  simp [coreHalves, recombine, ← hr, Prod.swap]

theorem length_core_eq (hf : ∀ r k, r.length = h → (f r k).length = h) (keys : List κ) {x : List Byte}
    (hx : x.length = 2 * h) : (core h f keys x).length = 2 * h := length_core hf keys hx

theorem core_reverse_core (hf : ∀ r k, r.length = h → (f r k).length = h) (keys : List κ) {x : List Byte}
    (hx : x.length = 2 * h) : core h f keys.reverse (core h f keys x) = x := by
  have hundo : keys.reverse.foldl (feistelRound f) (coreHalves h f keys x).swap = (x.take h, x.drop h).swap :=
    foldl_reverse_of_undone (P := fun lr => lr.1.length = h ∧ lr.2.length = h)
      (fun k _ lr ⟨hl, hr⟩ => ⟨hr, length_xorBytes hl (hf lr.2 k hr)⟩)
      (fun k _ lr ⟨hl, hr⟩ => feistelRound_swap_feistelRound (hl.trans (hf lr.2 k hr).symm))
      (length_take_drop hx)
  rw [core, core, coreHalves_recombine _ (length_coreHalves hf keys hx).2, hundo]
  exact List.take_append_drop h x

theorem core_core_reverse (hf : ∀ r k, r.length = h → (f r k).length = h) (keys : List κ) {x : List Byte}
    (hx : x.length = 2 * h) : core h f keys (core h f keys.reverse x) = x := by
  simpa using core_reverse_core hf keys.reverse hx

end

/-- Settles O38: a round on exchanged halves undoes the round, and the recombination exchanges them. -/
theorem coreUndoneByReversedKeys : Obligations.CoreUndoneByReversedKeys :=
  fun _ _ keys _ hf hx => core_reverse_core hf keys hx

/-! ### DES, DEAL and MAGENTA -/

theorem desIP_undone_desFP : TableUndone 8 desIP desFP := by
  unfold TableUndone
  decide

theorem desFP_undone_desIP : TableUndone 8 desFP desIP := by
  unfold TableUndone
  decide

theorem length_permuteTable_desIP {x : List Byte} (hx : x.length = 8) : (permuteTable x desIP).length = 8 := by
  rw [length_permuteTable (by decide) (by rw [hx]; decide)]
  decide

theorem desCrypt_eq (ks : List (List Byte)) (x : List Byte) :
    desCrypt ks x = permuteTable (core 4 desF ks (permuteTable x desIP)) desFP := rfl

/-- DES decrypts with its round keys reversed (R98): IP and FP cancel, then the core. -/
theorem desCrypt_reverse_desCrypt (ks : List (List Byte)) {x : List Byte} (hx : x.length = 8) :
    desCrypt ks.reverse (desCrypt ks x) = x := by
  have hf : ∀ r k : List Byte, r.length = 4 → (desF r k).length = 4 := fun r k _ => length_desF r k
  have hin : (permuteTable x desIP).length = 2 * 4 := length_permuteTable_desIP hx
  rw [desCrypt_eq, desCrypt_eq, permuteTable_permuteTable desFP_undone_desIP (length_core_eq hf ks hin),
    core_reverse_core hf ks hin, permuteTable_permuteTable desIP_undone_desFP hx]

theorem desCrypt_desCrypt_reverse (ks : List (List Byte)) {x : List Byte} (hx : x.length = 8) :
    desCrypt ks (desCrypt ks.reverse x) = x := by
  simpa using desCrypt_reverse_desCrypt ks.reverse hx

theorem swapHalves_swapHalves {h : Nat} {x : List Byte} (hx : x.length = 2 * h) :
    swapHalves h (swapHalves h x) = x := by
  obtain ⟨-, hdrop⟩ := length_take_drop hx
  rw [swapHalves, swapHalves, List.drop_left' hdrop, List.take_left' hdrop, List.take_append_drop]

/-- Maps that undo each other between exchanges of the halves do so before and after them. -/
theorem swapHalves_undone {h : Nat} {c d : List Byte → List Byte} (hundo : ∀ y, y.length = 2 * h → d (c y) = y)
    {x : List Byte} (hx : x.length = 2 * h) : swapHalves h (d (c (swapHalves h x))) = x := by
  rw [hundo _ ((length_swapHalves h x).trans hx), swapHalves_swapHalves hx]

theorem undone_swapHalves {h : Nat} {c d : List Byte → List Byte} {x : List Byte} (hundo : d (c x) = x)
    (hc : (c x).length = 2 * h) : d (swapHalves h (swapHalves h (c x))) = x := by
  rw [swapHalves_swapHalves hc, hundo]

section
variable (ks : List DealKey) {x : List Byte} (hx : x.length = 2 * 8)
include hx

/-- DEAL exchanges the halves before the core of E and after the core of D (R100). -/
theorem dealDec_dealEnc : dealDec ks (dealEnc ks x) = x :=
  swapHalves_undone (c := core 8 dealF ks) (d := core 8 dealF ks.reverse)
    (fun _ => core_reverse_core length_dealF ks) hx

theorem dealEnc_dealDec : dealEnc ks (dealDec ks x) = x :=
  undone_swapHalves (c := core 8 dealF ks.reverse) (d := core 8 dealF ks)
    (core_core_reverse length_dealF ks hx) (length_core_eq length_dealF ks.reverse hx)

end

section
variable (ftab : List Byte) (ks : List (List Byte)) {x : List Byte} (hx : x.length = 2 * 8)
include hx

/-- MAGENTA exchanges the halves after the core of E and before the core of D (R102). -/
theorem magentaDec_magentaEnc : magentaDec ftab ks (magentaEnc ftab ks x) = x :=
  have hf := fun r k (_ : r.length = 8) => length_magentaF ftab r k
  undone_swapHalves (c := core 8 (magentaF ftab) ks) (d := core 8 (magentaF ftab) ks.reverse)
    (core_reverse_core hf ks hx) (length_core_eq hf ks hx)

theorem magentaEnc_magentaDec : magentaEnc ftab ks (magentaDec ftab ks x) = x :=
  have hf := fun r k (_ : r.length = 8) => length_magentaF ftab r k
  swapHalves_undone (c := core 8 (magentaF ftab) ks.reverse) (d := core 8 (magentaF ftab) ks)
    (fun _ => core_core_reverse hf ks) hx

end

end Sys2Proof.Machine
end

section
/-! PROOFS. The slicing through an S-box, the linear transform and the rounds of SERPENT, and what undoes each of them
(44_serpent.md R106..R113); E and D of every cipher undo each other (43_feistel.md R103). -/

namespace Sys2Proof.Machine

/-! ### Blocks as words (R106) -/

theorem le32bytes_le32 {b : List Byte} (hb : b.length = 4) : le32bytes (le32 b) = b := by
  obtain ⟨b0, b1, b2, b3, rfl⟩ := List.length_eq_four.1 hb
  simp only [le32, le32bytes, List.getD_cons_zero, List.getD_cons_succ, List.cons.injEq]
  refine ⟨?_, ?_, ?_, ?_, trivial⟩
  all_goals
    refine BitVec.eq_of_getLsbD_eq fun i hi => ?_
    simp only [BitVec.getLsbD_extractLsb', BitVec.getLsbD_append]
    grind

theorem le32_le32bytes (w : Word) : le32 (le32bytes w) = w := by
  refine BitVec.eq_of_getLsbD_eq fun i hi => ?_
  simp only [le32, le32bytes, List.getD_cons_zero, List.getD_cons_succ, BitVec.getLsbD_append,
    BitVec.getLsbD_extractLsb']
  grind

theorem wordsOf_bytesOf (q : Quad) : wordsOf (bytesOf q) = q :=
  calc wordsOf (bytesOf q)
    _ = ⟨le32 (le32bytes q.x0), le32 (le32bytes q.x1), le32 (le32bytes q.x2), le32 (le32bytes q.x3)⟩ := rfl
    _ = q := by simp only [le32_le32bytes]

theorem length_sub {b : List Byte} {i j : Nat} (hj : j ≤ b.length) : (sub b i j).length = j - i := by
  rw [sub, List.length_take, List.length_drop]
  omega

theorem sub_append_sub (b : List Byte) {i j k : Nat} (hij : i ≤ j) (hjk : j ≤ k) :
    sub b i j ++ sub b j k = sub b i k := by
  rw [sub, sub, sub, show k - i = (j - i) + (k - j) by omega, List.take_add, List.drop_drop,
    Nat.add_sub_cancel' hij]

theorem bytesOf_wordsOf {b : List Byte} (hb : b.length = 16) : bytesOf (wordsOf b) = b :=
  calc bytesOf (wordsOf b)
    _ = sub b 0 4 ++ sub b 4 8 ++ sub b 8 12 ++ sub b 12 16 := by
      simp [bytesOf, wordsOf, le32bytes_le32, length_sub, hb]
    _ = sub b 0 16 := by simp [sub_append_sub]
    _ = b := List.take_of_length_le hb.le

/-! ### Slicing (R107, R108, R109) -/

/-- Bits set one after the other are all that an OR of shifted ones holds. -/
theorem getLsbD_foldl_or (p : Nat → Bool) (n : Nat) {i : Nat} (hi : i < 32) :
    ((List.range n).foldl (fun (y : Word) k => if p k then y ||| (1#32 <<< k) else y) 0).getLsbD i =
      (decide (i < n) && p i) := by
  induction n with
  | zero => simp
  | succ n ih =>
    rw [List.range_succ, List.foldl_append, List.foldl_cons, List.foldl_nil]
    split <;> grind

theorem getLsbD_sliceWord (s : List Nat) (x : Quad) (j : Nat) {i : Nat} (hi : i < 32) :
    (sliceWord s x j).getLsbD i = (s.getD (nibbleAt x i) 0).testBit j := by
  rw [sliceWord, getLsbD_foldl_or (fun k => (s.getD (nibbleAt x k) 0).testBit j) 32 hi, decide_eq_true hi,
    Bool.true_and]

theorem nibbleAt_lt (x : Quad) (i : Nat) : nibbleAt x i < 16 := by
  have h (b : Bool) : b.toNat ≤ 1 := Bool.toNat_le b
  have h0 := h (x.x0.getLsbD i)
  have h1 := h (x.x1.getLsbD i)
  have h2 := h (x.x2.getLsbD i)
  have h3 := h (x.x3.getLsbD i)
  unfold nibbleAt
  omega

/-- Four bits are the bits of their nibble, and a nibble is its four bits. -/
theorem nibble_of_testBits {n : Nat} (hn : n < 16) :
    (n.testBit 0).toNat + 2 * (n.testBit 1).toNat + 4 * (n.testBit 2).toNat + 8 * (n.testBit 3).toNat = n := by
  revert n
  decide

theorem nibbleAt_slice {s : List Nat} {x : Quad} {i : Nat} (hi : i < 32) (hs : s.getD (nibbleAt x i) 0 < 16) :
    nibbleAt (slice s x) i = s.getD (nibbleAt x i) 0 := by
  rw [← nibble_of_testBits hs]
  simp only [nibbleAt, slice, getLsbD_sliceWord _ _ _ hi]

theorem nibble_inj (a b c d a' b' c' d' : Bool)
    (h : a.toNat + 2 * b.toNat + 4 * c.toNat + 8 * d.toNat = a'.toNat + 2 * b'.toNat + 4 * c'.toNat + 8 * d'.toNat) :
    a = a' ∧ b = b' ∧ c = c' ∧ d = d' := by
  revert a b c d a' b' c' d'
  decide

theorem quad_ext_nibbleAt {x y : Quad} (h : ∀ i < 32, nibbleAt x i = nibbleAt y i) : x = y := by
  cases x
  cases y
  rw [Quad.mk.injEq]
  refine ⟨?_, ?_, ?_, ?_⟩
  all_goals
    refine BitVec.eq_of_getLsbD_eq fun i hi => ?_
    obtain ⟨h0, h1, h2, h3⟩ := nibble_inj _ _ _ _ _ _ _ _ (h i hi)
    assumption

/-- The table `t` takes every answer of `s` on a nibble back to the nibble. -/
def SboxUndone (s t : List Nat) : Prop := ∀ n < 16, s.getD n 0 < 16 ∧ t.getD (s.getD n 0) 0 = n

theorem slice_slice {s t : List Nat} (h : SboxUndone s t) (x : Quad) : slice t (slice s x) = x := by
  refine quad_ext_nibbleAt fun i hi => ?_
  obtain ⟨hlt, hundone⟩ := h (nibbleAt x i) (nibbleAt_lt x i)
  have hs : nibbleAt (slice s x) i = s.getD (nibbleAt x i) 0 := nibbleAt_slice hi hlt
  have hback : t.getD (nibbleAt (slice s x) i) 0 = nibbleAt x i := by rw [hs, hundone]
  rw [nibbleAt_slice hi (hback ▸ nibbleAt_lt x i), hback]

theorem sbox_undone_invSbox {k : Nat} (hk : k < 8) : SboxUndone (sbox k) (invSbox k) := by
  unfold SboxUndone
  revert k
  decide

theorem invSbox_undone_sbox {k : Nat} (hk : k < 8) : SboxUndone (invSbox k) (sbox k) := by
  unfold SboxUndone
  revert k
  decide

/-! ### The linear transform (R110, R111) -/

theorem ror32_rol32 (w : Word) {n : Nat} (hn : n < 32) : ror32 (rol32 w n) n = w := by
  refine BitVec.eq_of_getLsbD_eq fun i hi => ?_
  simp only [ror32, rol32, BitVec.getLsbD_or, BitVec.getLsbD_shiftLeft, BitVec.getLsbD_ushiftRight]
  grind

theorem rol32_ror32 (w : Word) {n : Nat} (hn : n < 32) : rol32 (ror32 w n) n = w := by
  refine BitVec.eq_of_getLsbD_eq fun i hi => ?_
  simp only [ror32, rol32, BitVec.getLsbD_or, BitVec.getLsbD_shiftLeft, BitVec.getLsbD_ushiftRight]
  grind

theorem xor_xor_cancel (a b : Word) : a ^^^ b ^^^ b = a := by
  rw [BitVec.xor_assoc, BitVec.xor_self, BitVec.xor_zero]

theorem xor_pair_cancel (a b c : Word) : a ^^^ b ^^^ c ^^^ b ^^^ c = a := by
  rw [BitVec.xor_assoc a b c, BitVec.xor_assoc _ b c, xor_xor_cancel]

theorem invLinear_linear (x : Quad) : invLinear (linear x) = x := by
  simp [linear, invLinear, ror32_rol32, xor_pair_cancel]

theorem linear_invLinear (x : Quad) : linear (invLinear x) = x := by
  simp [linear, invLinear, rol32_ror32, xor_pair_cancel]

/-! ### The rounds (R112, R113) -/

theorem xorQuad_xorQuad (a b : Quad) : xorQuad (xorQuad a b) b = a := by
  simp only [xorQuad, xor_xor_cancel]

section
variable (ks : List Quad) (x : Quad)

theorem serpentRound_of_lt {r : Nat} (hr : r < 31) :
    serpentRound ks x r = linear (slice (sbox (r % 8)) (xorQuad x (roundKey ks r))) := if_pos hr

theorem serpentRound_last :
    serpentRound ks x 31 = xorQuad (slice (sbox 7) (xorQuad x (roundKey ks 31))) (roundKey ks 32) := rfl

theorem serpentInvRound_of_lt {r : Nat} (hr : r < 31) :
    serpentInvRound ks x r = xorQuad (slice (invSbox (r % 8)) (invLinear x)) (roundKey ks r) := by
  rw [serpentInvRound, if_neg hr.ne]

theorem serpentInvRound_last :
    serpentInvRound ks x 31 = xorQuad (slice (invSbox 7) (xorQuad x (roundKey ks 32))) (roundKey ks 31) := rfl

theorem serpentInvRound_serpentRound {r : Nat} (hr : r < 32) : serpentInvRound ks (serpentRound ks x r) r = x := by
  obtain hlt | rfl : r < 31 ∨ r = 31 := by omega
  · rw [serpentRound_of_lt ks x hlt, serpentInvRound_of_lt ks _ hlt, invLinear_linear,
      slice_slice (sbox_undone_invSbox (Nat.mod_lt r (by decide))), xorQuad_xorQuad]
  · rw [serpentRound_last, serpentInvRound_last, xorQuad_xorQuad, slice_slice (sbox_undone_invSbox (by decide)),
      xorQuad_xorQuad]

theorem serpentRound_serpentInvRound {r : Nat} (hr : r < 32) : serpentRound ks (serpentInvRound ks x r) r = x := by
  obtain hlt | rfl : r < 31 ∨ r = 31 := by omega
  · rw [serpentInvRound_of_lt ks x hlt, serpentRound_of_lt ks _ hlt, xorQuad_xorQuad,
      slice_slice (invSbox_undone_sbox (Nat.mod_lt r (by decide))), linear_invLinear]
  · rw [serpentInvRound_last, serpentRound_last, xorQuad_xorQuad, slice_slice (invSbox_undone_sbox (by decide)),
      xorQuad_xorQuad]

end

theorem serpentDec_serpentEnc (ks : List Quad) {x : List Byte} (hx : x.length = 16) :
    serpentDec ks (serpentEnc ks x) = x := by
  have hrounds : (List.range 32).reverse.foldl (serpentInvRound ks) (serpentEncWords ks x) = wordsOf x :=
    foldl_reverse_of_undone (σ := id) (P := fun _ => True) (fun _ _ _ h => h)
      (fun r hr y _ => serpentInvRound_serpentRound ks y (List.mem_range.1 hr)) trivial
  rw [serpentDec, serpentDecWords, serpentEnc, wordsOf_bytesOf, hrounds, bytesOf_wordsOf hx]

theorem serpentEnc_serpentDec (ks : List Quad) {x : List Byte} (hx : x.length = 16) :
    serpentEnc ks (serpentDec ks x) = x := by
  have hrounds : (List.range 32).reverse.reverse.foldl (serpentRound ks) (serpentDecWords ks x) = wordsOf x :=
    foldl_reverse_of_undone (σ := id) (P := fun _ => True) (fun _ _ _ h => h)
      (fun r hr y _ => serpentRound_serpentInvRound ks y (by simpa using hr)) trivial
  rw [List.reverse_reverse] at hrounds
  rw [serpentEnc, serpentEncWords, serpentDec, wordsOf_bytesOf, hrounds, bytesOf_wordsOf hx]

/-! ### Every cipher (R103) -/

section
variable (ftab : List Byte) (p : Params) (alg : Cipher) (k : List Byte) {x : List Byte} (hx : x.length = blockSize alg)
include hx

theorem decryptBlock_encryptBlock :
    decryptBlock ftab (schedule p alg k) (encryptBlock ftab (schedule p alg k) x) = x := by
  cases alg with
  | des => exact desCrypt_reverse_desCrypt _ hx
  | deal => exact dealDec_dealEnc _ hx
  | magenta => exact magentaDec_magentaEnc ftab _ hx
  | serpent => exact serpentDec_serpentEnc _ hx

theorem encryptBlock_decryptBlock :
    encryptBlock ftab (schedule p alg k) (decryptBlock ftab (schedule p alg k) x) = x := by
  cases alg with
  | des => exact desCrypt_desCrypt_reverse _ hx
  | deal => exact dealEnc_dealDec _ hx
  | magenta => exact magentaEnc_magentaDec ftab _ hx
  | serpent => exact serpentEnc_serpentDec _ hx

end

/-- Settles O41: cipher by cipher, the rounds of D undo those of E. -/
theorem ciphersAreBijections : Obligations.CiphersAreBijections :=
  fun p ftab alg k _ _ hx =>
    ⟨length_encryptBlock p alg k ftab hx, length_decryptBlock p alg k ftab hx,
      decryptBlock_encryptBlock ftab p alg k hx, encryptBlock_decryptBlock ftab p alg k hx⟩

end Sys2Proof.Machine
end

section
/-! PROOFS. BLK_ENC and BLK_DEC: what they write, and that the second undoes the first (10_state.md R16; 43_feistel.md
R103, R104, R105). -/

namespace Sys2Proof.Machine

open Sys2Proof.Claim

/-! ### Packed arrays (R16) -/

theorem packBytes_cons (n : Nat) (x : Byte) (b : List Byte) :
    packBytes n (x :: b) = packBytes n b <<< 8 ||| x.setWidth n := rfl

theorem getLsbD_packBytes (n : Nat) (b : List Byte) (j : Nat) :
    (packBytes n b).getLsbD j = (decide (j < n) && (b.getD (j / 8) 0).getLsbD (j % 8)) := by
  induction b generalizing j with
  | nil => simp [packBytes]
  | cons x b ih =>
    rw [packBytes_cons, BitVec.getLsbD_or, BitVec.getLsbD_shiftLeft, BitVec.getLsbD_setWidth, ih]
    by_cases hj : j < 8
    · simp [hj, Nat.div_eq_of_lt hj, Nat.mod_eq_of_lt hj]
    · obtain ⟨k, rfl⟩ := Nat.exists_eq_add_of_le' (Nat.le_of_not_lt hj)
      rw [Nat.add_sub_cancel, Nat.add_div_right k (by decide), Nat.add_mod_right, List.getD_cons_succ,
        x.getLsbD_of_ge _ (by omega)]
      grind

theorem arrByte_packBytes {n k : Nat} (hk : 8 * (k + 1) ≤ n) (b : List Byte) :
    arrByte (packBytes n b) k = b.getD k 0 := by
  refine BitVec.eq_of_getLsbD_eq fun i hi => ?_
  rw [arrByte, BitVec.getLsbD_extractLsb', getLsbD_packBytes, show (8 * k + i) / 8 = k by omega,
    show (8 * k + i) % 8 = i by omega]
  simp [hi, show 8 * k + i < n by omega]

theorem arrBytes_packBytes {n len : Nat} {b : List Byte} (hb : b.length = len) (hn : 8 * len ≤ n) :
    arrBytes len (packBytes n b) = b := by
  refine List.ext_getElem (by rw [length_arrBytes, hb]) fun k h1 h2 => ?_
  have hk : 8 * (k + 1) ≤ n := by omega
  simp [arrBytes, arrByte_packBytes hk, h2]

theorem arrBytes_eq_take {n m len : Nat} (h : m ≤ len) (v : BitVec n) : arrBytes m v = (arrBytes len v).take m := by
  rw [arrBytes, arrBytes, ← List.map_take, List.take_range, Nat.min_eq_left h]

/-! ### BLK_ENC and BLK_DEC (R104, R105) -/

theorem ctxB_le (s : State) : ctxB s ≤ 16 := by
  unfold ctxB
  cases s.ctx.alg <;> decide

theorem latch_blkIn (i : Instr) (ops old : Operands) : (latch i ops old).blkIn = ops.blkIn := by cases i <;> rfl

section
variable (i : Instr) (e : Env) (q : Sequencer) (s : State)

@[simp] theorem atWork_keyed : (atWork i e q s).status.keyed = s.status.keyed := rfl
@[simp] theorem ctxB_atWork : ctxB (atWork i e q s) = ctxB s := rfl
@[simp] theorem crypt_atWork (dir : Direction) (x : List Byte) : crypt (atWork i e q s) dir x = crypt s dir x := rfl
@[simp] theorem blkInBytes_atWork (b : Nat) : blkInBytes (atWork i e q s).latched b = arrBytes b s.ops.blkIn :=
  congrArg (arrBytes b) (latch_blkIn i s.ops s.latched)

/-- A command at work that ends DONE with BLK_OUT and a lane's registers written. -/
theorem finishBlkOut_setLane_atWork (y : List Byte) (l : Nat) (r : LaneRegs) :
    finishBlkOut y (setLane l r (atWork i e q s)) =
      { finished i s with
        env := e
        dp := (setLane l r s).dp
        out := { s.out with blkOut := packBytes 128 (y ++ zeros (16 - y.length)) } } := rfl

end

theorem blockCommand_of_unkeyed {s : State} (h : s.status.keyed = false) (i : Instr) (dir : Direction) :
    blockCommand i dir s = raise .notKeyed (opcode i) s := if_pos h

theorem blockCommand_of_keyed {s : State} (h : s.status.keyed = true) (i : Instr) (dir : Direction) :
    ∃ r, blockCommand i dir s = finishBlkOut (crypt s dir (blkInBytes s.latched (ctxB s))) (setLane 0 r s) :=
  ⟨_, if_neg (by simp [h])⟩

/-- The block command of a direction. -/
def blockInstr : Direction → Instr
  | .encrypt => .blkEnc
  | .decrypt => .blkDec

section
variable {s : State} (hacc : CanAccept s) (dir : Direction)
include hacc

theorem exec_blockInstr :
    exec (blockInstr dir) s =
      .next (blockCommand (blockInstr dir) dir (atWork (blockInstr dir) s.env s.seq s)) := by
  rw [← accept_eq_atWork, ← issue_of_canAccept (f := blockCommand (blockInstr dir) dir) hacc]
  cases dir <;> rfl

theorem exec_blockInstr_of_unkeyed (hkeyed : s.status.keyed = false) :
    exec (blockInstr dir) s = .next (failedWith (blockInstr dir) .notKeyed s) := by
  rw [exec_blockInstr hacc, blockCommand_of_unkeyed ((atWork_keyed ..).trans hkeyed)]
  exact congrArg Host.Outcome.next (raise_atWork ..)

/-- With a keyed cipher a block command leaves E or D of the block in BLK_OUT, zeros after it. -/
theorem exec_blockInstr_of_keyed (hkeyed : s.status.keyed = true) (hctx : ContextOk s.params s.ctx) :
    ∃ dp blkOut,
      exec (blockInstr dir) s =
        .next { finished (blockInstr dir) s with dp := dp, out := { s.out with blkOut := blkOut } } ∧
      arrBytes 16 blkOut = crypt s dir (arrBytes (ctxB s) s.ops.blkIn) ++ zeros (16 - ctxB s) := by
  have hlen : (crypt s dir (arrBytes (ctxB s) s.ops.blkIn)).length = ctxB s :=
    length_crypt hctx dir (length_arrBytes _ _)
  obtain ⟨r, hr⟩ :=
    blockCommand_of_keyed (s := atWork (blockInstr dir) s.env s.seq s) hkeyed (blockInstr dir) dir
  rw [ctxB_atWork, blkInBytes_atWork, crypt_atWork, finishBlkOut_setLane_atWork, hlen] at hr
  refine ⟨_, _, (exec_blockInstr hacc dir).trans (congrArg Host.Outcome.next hr), arrBytes_packBytes ?_ (by decide)⟩
  rw [List.length_append, hlen, length_zeros, Nat.add_sub_cancel' (ctxB_le s)]

end

/-- Settles O42: what a block command does without and with a keyed cipher, for BLK_ENC and for BLK_DEC. -/
theorem blockCommandEffect : Obligations.BlockCommandEffect := by
  refine ⟨by decide, by decide, fun s dir hacc => ?_⟩
  cases dir with
  | encrypt => exact ⟨exec_blockInstr_of_unkeyed hacc .encrypt, exec_blockInstr_of_keyed hacc .encrypt⟩
  | decrypt => exact ⟨exec_blockInstr_of_unkeyed hacc .decrypt, exec_blockInstr_of_keyed hacc .decrypt⟩

theorem crypt_decrypt_encrypt {s : State} (hctx : ContextOk s.params s.ctx) {x : List Byte}
    (hx : x.length = ctxB s) : crypt s .decrypt (crypt s .encrypt x) = x := by
  rw [crypt, crypt, hctx.rkt_eq]
  exact decryptBlock_encryptBlock _ _ _ _ hx

/-- Settles O43: BLK_ENC keeps the context and FTAB, and D undoes E. -/
theorem blkDecUndoesBlkEnc : Obligations.BlkDecUndoesBlkEnc := by
  intro s hacc hkeyed hctx
  obtain ⟨dp, y, hexec, hy⟩ := exec_blockInstr_of_keyed hacc .encrypt hkeyed hctx
  let t : State := { finished .blkEnc s with dp := dp, out := { s.out with blkOut := y } }
  let v : State := { t with ops := { t.ops with blkIn := y } }
  have hin : arrBytes (ctxB s) y = crypt s .encrypt (arrBytes (ctxB s) s.ops.blkIn) := by
    rw [arrBytes_eq_take (ctxB_le s), hy, List.take_left' (length_crypt hctx .encrypt (length_arrBytes _ _))]
  have hacc' : CanAccept v := ⟨hacc.1, EngineState.noConfusion⟩
  obtain ⟨dp', z, hexec', hz⟩ := exec_blockInstr_of_keyed hacc' .decrypt hkeyed hctx
  refine ⟨t, _, hexec, hexec', ?_⟩
  calc arrBytes 16 z
    _ = crypt s .decrypt (arrBytes (ctxB s) y) ++ zeros (16 - ctxB s) := hz
    _ = arrBytes (ctxB s) s.ops.blkIn ++ zeros (16 - ctxB s) := by
      rw [hin, crypt_decrypt_encrypt hctx (length_arrBytes _ _)]

end Sys2Proof.Machine
end

section
/-! PROOFS. The layers of a SERPENT round have inverses: the linear transform and the slicing through an S-box
(44_serpent.md R107..R111), by the laws that E and D of SERPENT rest on. -/

namespace Sys2Proof.Machine

/-- Settles O39: every rotation is rotated back, and every word's mix of the other words is cancelled by the same mix. -/
theorem linearTransformUndone : Obligations.LinearTransformUndone := fun x =>
  ⟨invLinear_linear x, linear_invLinear x⟩

/-- Settles O40: a slice applies its table to each nibble, and the two tables take each other's answers back. -/
theorem sliceUndone : Obligations.SliceUndone := fun _ x hk =>
  ⟨slice_slice (sbox_undone_invSbox hk) x, slice_slice (invSbox_undone_sbox hk) x⟩

end Sys2Proof.Machine
end

section
/-! PROOFS. The padding unit: the bytes `fill` writes and those `scan` counts (45_padding.md R115, R116, R117), and the
effect of PAD_SET and PAD_CLR (R118, R119). -/

namespace Sys2Proof.Machine

open Sys2Proof.Claim

/-! ### Trailing zeros (R116) -/

@[simp] theorem getD_zeros (n k : Nat) : (zeros n).getD k 0 = 0 := by
  by_cases hk : k < n
  · exact List.getD_replicate 0 hk
  · exact List.getD_eq_default _ _ (by simpa using hk)

theorem zeros_succ (n : Nat) : zeros (n + 1) = zeros n ++ [0] := List.replicate_succ'

@[simp] theorem trailingZeros_nil : trailingZeros [] = 0 := rfl

theorem trailingZeros_concat (a : List Byte) (x : Byte) :
    trailingZeros (a ++ [x]) = if x = 0 then trailingZeros a + 1 else 0 := by
  simp only [trailingZeros, List.reverse_concat, List.takeWhile_cons, decide_eq_true_eq]
  split <;> rfl

theorem trailingZeros_append_zeros (a : List Byte) (n : Nat) :
    trailingZeros (a ++ zeros n) = trailingZeros a + n := by
  induction n with
  | zero => simp [zeros]
  | succ n ih => rw [zeros_succ, ← List.append_assoc, trailingZeros_concat, if_pos rfl, ih, Nat.add_assoc]

/-- A string has no trailing zero when it is empty or its last byte is not 0. -/
theorem trailingZeros_eq_zero_iff {a : List Byte} :
    trailingZeros a = 0 ↔ a.length = 0 ∨ a.getD (a.length - 1) 0 ≠ 0 := by
  induction a using List.reverseRecOn with
  | nil => simp
  | append_singleton a x _ =>
    rw [trailingZeros_concat, List.length_append, List.length_singleton, Nat.add_sub_cancel,
      List.getD_append_right _ _ _ _ le_rfl, Nat.sub_self]
    by_cases hx : x = 0 <;> simp [hx]

/-- A string ends in its trailing zeros, and what stands before them has none. -/
theorem exists_eq_append_zeros (blk : List Byte) :
    ∃ a, blk = a ++ zeros (trailingZeros blk) ∧ trailingZeros a = 0 := by
  induction blk using List.reverseRecOn with
  | nil => exact ⟨[], rfl, rfl⟩
  | append_singleton a x ih =>
    rw [trailingZeros_concat]
    split
    case isTrue hx =>
      obtain ⟨d, had, hd⟩ := ih
      exact ⟨d, by rw [zeros_succ, ← List.append_assoc, ← had, hx], hd⟩
    case isFalse hx => exact ⟨a ++ [x], (List.append_nil _).symm, by rw [trailingZeros_concat, if_neg hx]⟩

theorem trailingZeros_le (blk : List Byte) : trailingZeros blk ≤ blk.length := by
  obtain ⟨a, h, -⟩ := exists_eq_append_zeros blk
  have hlen := congrArg List.length h
  rw [List.length_append, length_zeros] at hlen
  omega

/-- The counted bytes are 0, and the byte before them is not. -/
theorem trailingZeros_spec (blk : List Byte) :
    (∀ k, blk.length - trailingZeros blk ≤ k → blk.getD k 0 = 0) ∧
    (trailingZeros blk < blk.length → blk.getD (blk.length - trailingZeros blk - 1) 0 ≠ 0) := by
  obtain ⟨a, h, ha⟩ := exists_eq_append_zeros blk
  generalize trailingZeros blk = z at h
  subst h
  rw [List.length_append, length_zeros, Nat.add_sub_cancel]
  refine ⟨fun k hk => ?_, fun hz => ?_⟩
  · rw [List.getD_append_right _ _ _ _ hk, getD_zeros]
  · have hpos : 0 < a.length := by omega
    rw [List.getD_append _ _ _ _ (by omega)]
    exact (trailingZeros_eq_zero_iff.1 ha).resolve_left hpos.ne'

/-! ### What `fill` writes (R115) -/

/-- The bytes a fill puts where the bytes `rest` of the block stood. -/
def padTail (pad : Padding) (rest random : List Byte) : List Byte :=
  match pad with
  | .noPadding => rest
  | .zeros => zeros rest.length
  | .ansiX923 => zeros (rest.length - 1) ++ [BitVec.ofNat 8 rest.length]
  | .pkcs7 => List.replicate rest.length (BitVec.ofNat 8 rest.length)
  | .iso10126 => random ++ [BitVec.ofNat 8 rest.length]

theorem fill_length (pad : Padding) (blk random : List Byte) : fill pad blk blk.length random = blk := if_pos rfl

section
variable {blk : List Byte} {u : Nat} (pad : Padding) (random : List Byte)

/-- A fill keeps the data bytes and writes a tail after them. -/
theorem fill_eq_take_append_padTail (hu : u < blk.length) :
    fill pad blk u random = blk.take u ++ padTail pad (blk.drop u) random := by
  rw [fill, if_neg hu.ne]
  cases pad with
  | noPadding => exact (List.take_append_drop u blk).symm
  | zeros | pkcs7 => simp only [padTail, List.length_drop]
  | ansiX923 | iso10126 => simp only [padTail, List.length_drop, List.append_assoc]

theorem take_fill (hu : u < blk.length) : (fill pad blk u random).take u = blk.take u := by
  rw [fill_eq_take_append_padTail pad random hu]
  exact List.take_left' (List.length_take_of_le hu.le)

theorem getD_fill (hu : u < blk.length) {k : Nat} (hk : u ≤ k) :
    (fill pad blk u random).getD k 0 = (padTail pad (blk.drop u) random).getD (k - u) 0 := by
  have hlen : (blk.take u).length = u := List.length_take_of_le hu.le
  rw [fill_eq_take_append_padTail pad random hu, List.getD_append_right _ _ _ _ (hlen.le.trans hk), hlen]

end

theorem getD_concat (a : List Byte) (x : Byte) {k : Nat} (hk : k ≤ a.length) :
    (a ++ [x]).getD k 0 = if k = a.length then x else a.getD k 0 := by
  split
  case isTrue h => rw [h, List.getD_append_right _ _ _ _ le_rfl, Nat.sub_self, List.getD_cons_zero]
  case isFalse h => rw [List.getD_append _ _ _ _ (by omega)]

/-- The byte at index `k` of the tail that a fill of a block with `u` data bytes writes (R115). -/
def tailByte (pad : Padding) (blk random : List Byte) (u k : Nat) : Byte :=
  match pad with
  | .noPadding => blk.getD k 0
  | .zeros => 0
  | .ansiX923 => if k + 1 = blk.length then BitVec.ofNat 8 (blk.length - u) else 0
  | .pkcs7 => BitVec.ofNat 8 (blk.length - u)
  | .iso10126 => if k + 1 = blk.length then BitVec.ofNat 8 (blk.length - u) else random.getD (k - u) 0

theorem getD_fill_eq_tailByte {pad : Padding} {blk random : List Byte} {u k : Nat} (hu : u < blk.length)
    (hr : random.length = randomCount pad blk.length u) (hk : u ≤ k) (hlt : k < blk.length) :
    (fill pad blk u random).getD k 0 = tailByte pad blk random u k := by
  rw [getD_fill pad random hu hk]
  have hlast : k - u = blk.length - u - 1 ↔ k + 1 = blk.length := by omega
  have hin : k - u ≤ blk.length - u - 1 := by omega
  cases pad with
  | noPadding =>
    rw [padTail, List.getD_eq_getElem?_getD, List.getElem?_drop, Nat.add_sub_cancel' hk]
    exact (List.getD_eq_getElem?_getD ..).symm
  | zeros => exact getD_zeros _ _
  | ansiX923 =>
    rw [padTail, List.length_drop, getD_concat _ _ (hin.trans_eq (length_zeros _).symm), length_zeros, getD_zeros]
    exact if_congr hlast rfl rfl
  | pkcs7 =>
    rw [padTail, List.length_drop]
    exact List.getD_replicate _ (by omega)
  | iso10126 =>
    replace hr : random.length = blk.length - u - 1 := hr
    rw [padTail, List.length_drop, getD_concat _ _ (hin.trans_eq hr.symm), hr]
    exact if_congr hlast rfl rfl

/-! ### What `scan` counts (R116) -/

/-- A padding whose last byte is the number of bytes to strip. -/
def Counted (pad : Padding) : Prop := pad = .ansiX923 ∨ pad = .pkcs7 ∨ pad = .iso10126

theorem scan_of_counted {pad : Padding} (hpad : Counted pad) (blk : List Byte) :
    scan pad blk =
      if blk.length < (blk.getD (blk.length - 1) 0).toNat then (blk.length, true)
      else ((blk.getD (blk.length - 1) 0).toNat, false) := by
  rcases hpad with rfl | rfl | rfl <;> rfl

/-- `scan` strips no more bytes than the block has. -/
theorem scan_le_length (pad : Padding) (blk : List Byte) : (scan pad blk).1 ≤ blk.length := by
  have hcounted (h : Counted pad) : (scan pad blk).1 ≤ blk.length := by
    rw [scan_of_counted h]
    split
    case isTrue => exact le_rfl
    case isFalse hc => exact Nat.le_of_not_lt hc
  cases pad with
  | noPadding => exact Nat.zero_le _
  | zeros => exact trailingZeros_le blk
  | ansiX923 => exact hcounted (.inl rfl)
  | pkcs7 => exact hcounted (.inr (.inl rfl))
  | iso10126 => exact hcounted (.inr (.inr rfl))

/-! ### `scan` strips what `fill` added (R117) -/

/-- The last byte of a fill with a count is the count, so `scan` strips the tail and no more. -/
theorem scan_fill_of_counted {pad : Padding} {blk random : List Byte} {u : Nat} (hpad : Counted pad)
    (hu : u < blk.length) (hr : random.length = randomCount pad blk.length u) (hlen : blk.length < 256) :
    scan pad (fill pad blk u random) = (blk.length - u, false) := by
  have hlast : (fill pad blk u random).getD (blk.length - 1) 0 = BitVec.ofNat 8 (blk.length - u) := by
    rw [getD_fill_eq_tailByte hu hr (by omega) (by omega)]
    have hend : blk.length - 1 + 1 = blk.length := by omega
    rcases hpad with rfl | rfl | rfl
    case inl | inr.inr => exact if_pos hend
    case inr.inl => rfl
  have hcount : (BitVec.ofNat 8 (blk.length - u)).toNat = blk.length - u := Nat.mod_eq_of_lt (by omega)
  rw [scan_of_counted hpad, length_fill hu.le hr, hlast, hcount, if_neg (by omega)]

/-- `scan` counts the zeros of the tail and those the data bytes end in. -/
theorem scan_fill_zeros {blk : List Byte} {u : Nat} (hu : u < blk.length) (random : List Byte) :
    scan .zeros (fill .zeros blk u random) = (trailingZeros (blk.take u) + (blk.length - u), false) := by
  rw [fill_eq_take_append_padTail .zeros random hu, padTail, List.length_drop, scan, trailingZeros_append_zeros]

/-- Data bytes that are none, or that do not end in 0, have no trailing zero. -/
theorem trailingZeros_take {blk : List Byte} {u : Nat} (hu : u < blk.length) (h : u = 0 ∨ blk.getD (u - 1) 0 ≠ 0) :
    trailingZeros (blk.take u) = 0 := by
  rw [trailingZeros_eq_zero_iff, List.length_take_of_le hu.le]
  rcases Nat.eq_zero_or_pos u with h0 | hpos
  · exact .inl h0
  · exact .inr (by rw [getD_take_of_lt blk (by omega)]; exact h.resolve_left hpos.ne')

theorem getD_last_of_getLast? {blk : List Byte} {c : Byte} (h : blk.getLast? = some c) :
    blk.getD (blk.length - 1) 0 = c := by
  rw [List.getD_eq_getElem?_getD, ← List.getLast?_eq_getElem?, h, Option.getD_some]

/-- Settles O47: a fill keeps the data and writes the tail byte by byte, and the count `scan` reads at its end is the
tail's length. -/
theorem scanUndoesFill : Obligations.ScanUndoesFill := by
  refine ⟨fun pad blk _ => ⟨fill_length pad blk, ?none, ?counted, ?zeros⟩, fun pad blk u random hblk hu hr =>
    ⟨fun k => getD_fill_eq_tailByte hu hr, length_fill hu.le hr, take_fill pad random hu,
      fun hpad => scan_fill_of_counted hpad hu hr (by omega), ?zerosFilled⟩⟩
  case none => rintro rfl; rfl
  case counted =>
    intro hpad c hc
    rw [scan_of_counted hpad, getD_last_of_getLast? hc]
    exact ⟨fun h => if_pos h, fun h => if_neg h.not_gt⟩
  case zeros =>
    rintro rfl
    obtain ⟨hzero, hne⟩ := trailingZeros_spec blk
    exact ⟨trailingZeros blk, rfl, trailingZeros_le blk, fun k hk _ => hzero k hk, hne⟩
  case zerosFilled =>
    rintro rfl
    rw [scan_fill_zeros hu random]
    exact ⟨rfl, Nat.le_add_left _ _, fun h => by rw [trailingZeros_take hu h, Nat.zero_add]⟩

/-! ### PAD_SET and PAD_CLR (R118, R119) -/

/-- The 16 bytes of BLK_OUT after a command that leaves up to 16 bytes there. -/
theorem arrBytes_blkOut {y : List Byte} (hy : y.length ≤ 16) :
    arrBytes 16 (packBytes 128 (y ++ zeros (16 - y.length))) = y ++ zeros (16 - y.length) :=
  arrBytes_packBytes (by rw [List.length_append, length_zeros, Nat.add_sub_cancel' hy]) (by decide)

theorem latch_padUsed (i : Instr) (ops old : Operands) : (latch i ops old).padUsed = ops.padUsed := by
  cases i <;> rfl

section
variable (i : Instr) (e : Env) (q : Sequencer) (s : State)

@[simp] theorem atWork_configured : (atWork i e q s).status.configured = s.status.configured := rfl
@[simp] theorem atWork_ctx : (atWork i e q s).ctx = s.ctx := rfl
@[simp] theorem atWork_padUsed : (atWork i e q s).latched.padUsed = s.ops.padUsed :=
  latch_padUsed i s.ops s.latched

/-- A command at work that ends DONE with BLK_OUT written. -/
theorem finishBlkOut_atWork (y : List Byte) :
    finishBlkOut y (atWork i e q s) =
      { finished i s with
        env := e
        out := { s.out with blkOut := packBytes 128 (y ++ zeros (16 - y.length)) } } := rfl

end

/-- What PAD_CLR writes besides BLK_OUT: RESULT and PAD_WARN. -/
def reportScan (left : Nat) (warn : Bool) (s : State) : State :=
  { s with
    out := { s.out with result := BitVec.ofNat 32 left }
    status := { s.status with padWarn := s.status.padWarn || warn } }

section
variable {s : State}

theorem padSetBody_of_unconfigured (hconf : s.status.configured = false) :
    padSetBody s = raise .notConfigured (opcode .padSet) s := if_pos hconf

theorem padSetBody_of_lt (hconf : s.status.configured = true) (hu : ctxB s < s.latched.padUsed.toNat) :
    padSetBody s = raise .padUsedRange (opcode .padSet) s := (if_neg (by simp [hconf])).trans (if_pos hu)

/-- With PADUSED in range PAD_SET fills BLK_IN, with as many drawn bytes as the padding takes. -/
theorem padSetBody_of_le (hconf : s.status.configured = true) (hu : s.latched.padUsed.toNat ≤ ctxB s) :
    ∃ random e, random.length = randomCount s.ctx.pad (ctxB s) s.latched.padUsed.toNat ∧
      padSetBody s =
        finishBlkOut (fill s.ctx.pad (blkInBytes s.latched (ctxB s)) s.latched.padUsed.toNat random) (setEnv e s) := by
  obtain ⟨⟨e, he⟩, hlen⟩ := drawBytes_spec (randomCount s.ctx.pad (ctxB s) s.latched.padUsed.toNat) s
  refine ⟨_, e, hlen, ?_⟩
  rw [← he]
  exact (if_neg (by simp [hconf])).trans (if_neg hu.not_gt)

theorem padClrBody_of_unconfigured (hconf : s.status.configured = false) :
    padClrBody s = raise .notConfigured (opcode .padClr) s := if_pos hconf

theorem padClrBody_of_configured (hconf : s.status.configured = true) {n : Nat} {warn : Bool}
    (hscan : scan s.ctx.pad (blkInBytes s.latched (ctxB s)) = (n, warn)) :
    padClrBody s =
      finishBlkOut ((blkInBytes s.latched (ctxB s)).take (ctxB s - n)) (reportScan (ctxB s - n) warn s) := by
  rw [padClrBody, if_neg (by simp [hconf]), hscan]
  rfl

end

section
variable {s : State} (hacc : CanAccept s)
include hacc

theorem exec_padSet : exec .padSet s = .next (padSetBody (atWork .padSet s.env s.seq s)) :=
  congrArg Host.Outcome.next (issue_of_canAccept hacc)

theorem exec_padSet_of_unconfigured (hconf : s.status.configured = false) :
    exec .padSet s = .next (failedWith .padSet .notConfigured s) := by
  rw [exec_padSet hacc, padSetBody_of_unconfigured (s := atWork .padSet s.env s.seq s) hconf]
  exact congrArg Host.Outcome.next (raise_atWork ..)

theorem exec_padSet_of_lt (hconf : s.status.configured = true) (hu : ctxB s < s.ops.padUsed.toNat) :
    exec .padSet s = .next (failedWith .padSet .padUsedRange s) := by
  rw [exec_padSet hacc, padSetBody_of_lt (s := atWork .padSet s.env s.seq s) hconf hu]
  exact congrArg Host.Outcome.next (raise_atWork ..)

/-- With PADUSED in range PAD_SET leaves the filled block in BLK_OUT, zeros after it. -/
theorem exec_padSet_of_le (hconf : s.status.configured = true) (hu : s.ops.padUsed.toNat ≤ ctxB s) :
    ∃ random blkOut e, random.length = randomCount s.ctx.pad (ctxB s) s.ops.padUsed.toNat ∧
      exec .padSet s = .next { finished .padSet s with env := e, out := { s.out with blkOut := blkOut } } ∧
      arrBytes 16 blkOut =
        fill s.ctx.pad (arrBytes (ctxB s) s.ops.blkIn) s.ops.padUsed.toNat random ++ zeros (16 - ctxB s) := by
  obtain ⟨random, e, hr, hbody⟩ := padSetBody_of_le (s := atWork .padSet s.env s.seq s) hconf hu
  rw [atWork_ctx, ctxB_atWork, atWork_padUsed] at hr hbody
  rw [blkInBytes_atWork, setEnv_atWork, finishBlkOut_atWork] at hbody
  have hfill : (fill s.ctx.pad (arrBytes (ctxB s) s.ops.blkIn) s.ops.padUsed.toNat random).length = ctxB s := by
    rw [length_fill (by rwa [length_arrBytes]) (by rwa [length_arrBytes]), length_arrBytes]
  refine ⟨random, _, e, hr, (exec_padSet hacc).trans (congrArg Host.Outcome.next hbody), ?_⟩
  rw [arrBytes_blkOut (hfill.trans_le (ctxB_le s)), hfill]

theorem exec_padClr : exec .padClr s = .next (padClrBody (atWork .padClr s.env s.seq s)) :=
  congrArg Host.Outcome.next (issue_of_canAccept hacc)

theorem exec_padClr_of_unconfigured (hconf : s.status.configured = false) :
    exec .padClr s = .next (failedWith .padClr .notConfigured s) := by
  rw [exec_padClr hacc, padClrBody_of_unconfigured (s := atWork .padClr s.env s.seq s) hconf]
  exact congrArg Host.Outcome.next (raise_atWork ..)

/-- PAD_CLR of a configured engine leaves the block less its last `n` bytes in BLK_OUT, zeros after it. -/
theorem exec_padClr_of_configured (hconf : s.status.configured = true) {n : Nat} {warn : Bool}
    (hscan : scan s.ctx.pad (arrBytes (ctxB s) s.ops.blkIn) = (n, warn)) (hn : n ≤ ctxB s) :
    ∃ blkOut,
      exec .padClr s = .next
        { finished .padClr s with
          status := { s.status with engine := .done, cancelPending := false, padWarn := s.status.padWarn || warn }
          out := { s.out with result := BitVec.ofNat 32 (ctxB s - n), blkOut := blkOut } } ∧
      arrBytes 16 blkOut = (arrBytes (ctxB s) s.ops.blkIn).take (ctxB s - n) ++ zeros (16 - ctxB s + n) := by
  have hB := ctxB_le s
  have hleft : ((arrBytes (ctxB s) s.ops.blkIn).take (ctxB s - n)).length = ctxB s - n := by
    rw [List.length_take, length_arrBytes, Nat.min_eq_left (Nat.sub_le _ _)]
  have hbody := padClrBody_of_configured (s := atWork .padClr s.env s.seq s) hconf hscan
  rw [ctxB_atWork, blkInBytes_atWork] at hbody
  refine ⟨_, (exec_padClr hacc).trans (congrArg Host.Outcome.next hbody), ?_⟩
  rw [arrBytes_blkOut (by omega), hleft, show 16 - (ctxB s - n) = 16 - ctxB s + n by omega]

end

/-- Settles O48: the two errors in their order, and the fill of BLK_IN, which is a whole block. -/
theorem padSetEffect : Obligations.PadSetEffect :=
  ⟨by decide, fun _ hacc =>
    ⟨exec_padSet_of_unconfigured hacc, exec_padSet_of_lt hacc, exec_padSet_of_le hacc⟩⟩

/-- Settles O49: the error, and what is left of BLK_IN when the counted bytes are stripped. -/
theorem padClrEffect : Obligations.PadClrEffect := by
  refine ⟨by decide, fun s hacc => ⟨exec_padClr_of_unconfigured hacc, fun hconf => ?_⟩⟩
  have hn := (scan_le_length s.ctx.pad (arrBytes (ctxB s) s.ops.blkIn)).trans_eq (length_arrBytes _ _)
  exact ⟨hn, exec_padClr_of_configured hacc hconf Prod.mk.eta.symm hn⟩

end Sys2Proof.Machine
end

section
/-! PROOFS. ACK and CANCEL: what each of them does at once, in every state (46_modes.md R131, R132; 30_encoding.md
R60). -/

namespace Sys2Proof.Machine

open Sys2Proof.Claim

/-! ### ACK -/

/-- Settles O7: ACK is performed by `acknowledge` where a command can be accepted, and dropped elsewhere. -/
theorem ackReturnsToIdle : Obligations.AckReturnsToIdle :=
  ⟨by decide, fun _ =>
    ⟨fun hacc => congrArg Host.Outcome.next (guarded_of_canAccept hacc),
      fun hacc => exec_of_not_canAccept hacc (by simp) (.inr (by simp))⟩⟩

/-! ### CANCEL -/

section
variable {s : State} (hinit : s.status.initDone = true)
include hinit

theorem exec_cancel_of_not_busy (hbusy : s.status.engine ≠ .busy) : exec .cancel s = .next s := by
  simp [exec, execCancel, hinit, hbusy]

theorem exec_cancel_of_busy (hbusy : s.status.engine = .busy) : exec .cancel s = .next (cancelRunning s) := by
  simp [exec, execCancel, hinit, hbusy]

end

theorem cancelRunning_of_pending {s : State} (h : s.status.cancelPending = true) : cancelRunning s = s := if_pos h

/-- A command that is no message goes on, the cancel pending. -/
theorem cancelRunning_of_not_msg {s : State} (h : s.status.cancelPending = false) (hseq : ∀ m, s.seq ≠ .msg m) :
    cancelRunning s = { s with status := { s.status with cancelPending := true } } := by
  rw [cancelRunning, if_neg (by simp [h])]
  dsimp only
  split
  · rename_i m hm
    exact absurd hm (hseq m)
  all_goals rfl

/-- A message goes on with a drawn set of lanes in flight. -/
theorem cancelRunning_of_msg {s : State} {m : MsgRun} (h : s.status.cancelPending = false) (hseq : s.seq = .msg m) :
    ∃ c e, cancelRunning s =
      { s with
        status := { s.status with cancelPending := true }
        env := e
        seq := .msg { m with inFlight := some (inFlightSet s m c) } } := by
  obtain ⟨e, he⟩ := drawChoice_spec { s with status := { s.status with cancelPending := true } }
  rw [cancelRunning, if_neg (by simp [h])]
  simp only [hseq] at he ⊢
  rw [he]
  exact ⟨_, e, rfl⟩

/-- The lanes in flight are listed as `eligible` lists them, some of them left out. -/
theorem inFlightSet_sublist (s : State) (m : MsgRun) (c : Nat) : (inFlightSet s m c).Sublist (eligible s m) :=
  List.filter_sublist

/-- Settles O8: by what runs, and for a message by the drawn set, which is a part of the eligible lanes. -/
theorem cancelEffect : Obligations.CancelEffect := by
  refine fun s hinit => ⟨exec_cancel_of_not_busy hinit, fun hbusy hpending => ?pending,
    fun hbusy hpending hseq => ?other, fun m hbusy hpending hseq => ?message⟩
  case pending => rw [exec_cancel_of_busy hinit hbusy, cancelRunning_of_pending hpending]
  case other => rw [exec_cancel_of_busy hinit hbusy, cancelRunning_of_not_msg hpending hseq]
  case message =>
    obtain ⟨c, e, h⟩ := cancelRunning_of_msg hpending hseq
    have hsub := inFlightSet_sublist s m c
    refine ⟨_, e, hsub, fun l hl => mem_eligible.1 (hsub.subset hl), ?_⟩
    rw [exec_cancel_of_busy hinit hbusy, h]

end Sys2Proof.Machine
end

section
/-! PROOFS. CONFIGURE: the first check of the registers that fails, and the context that registers without a fault build
(46_modes.md R120, R121; 60_exceptions.md R138). -/

namespace Sys2Proof.Machine

open Sys2Proof.Claim

/-! ### Codes (R54, R55, R56) -/

theorem cipherOf_eq_none_iff (c : Byte) : cipherOf c = none ↔ 3 < c.toNat := by
  unfold cipherOf
  grind

theorem modeOf_eq_none_iff (c : Byte) : modeOf c = none ↔ 6 < c.toNat := by
  unfold modeOf
  grind

theorem paddingOf_eq_none_iff (c : Byte) : paddingOf c = none ↔ 4 < c.toNat := by
  unfold paddingOf
  grind

/-- The block size and the least key size go by the ALG code. -/
theorem sizes_of_cipherOf {c : Byte} {alg : Cipher} (h : cipherOf c = some alg) :
    blockSize alg = blockOf c.toNat ∧ IsLeast {n | n ∈ keySizes alg} (minKey c.toNat) := by
  unfold cipherOf at h
  split at h
  case h_5 => cases h
  all_goals
    rename_i hc
    cases h
    simp [hc, blockSize, blockOf, IsLeast, lowerBounds, keySizes, minKey]

/-- The modes that the configuration checks ask for, by their MODE codes. -/
theorem mode_of_modeOf {c : Byte} {mode : Mode} (h : modeOf c = some mode) :
    (mode = .ecb ↔ c.toNat = 0) ∧ (mode = .rd ↔ c.toNat = 6) := by
  unfold modeOf at h
  split at h
  case h_8 => cases h
  all_goals
    rename_i hc
    cases h
    simp [hc]

/-! ### The bytes of a delta (R120) -/

theorem getD_beBytes {n k : Nat} (hk : k < n) (v : Nat) :
    (beBytes n v).getD k 0 = BitVec.ofNat 8 (v / 256 ^ (n - 1 - k)) := by
  simp [beBytes, hk]

/-- The last `n` bytes of a string are the n-byte big-endian form of its value, cut to 8n bits (R8). -/
theorem getD_beBytes_be {n k : Nat} {l : List Byte} (hk : k < n) (hn : n ≤ l.length) :
    (beBytes n (be l % 2 ^ (8 * n))).getD k 0 = l.getD (l.length - n + k) 0 := by
  refine BitVec.eq_of_getLsbD_eq fun j hj => ?_
  have hweight : weightByte l.length (8 * (n - 1 - k) + j) = l.length - n + k := by
    unfold weightByte
    omega
  have hmod : (8 * (n - 1 - k) + j) % 8 = j := by omega
  rw [getD_beBytes hk, BitVec.getLsbD_ofNat, show 256 ^ (n - 1 - k) = 2 ^ (8 * (n - 1 - k)) by rw [Nat.pow_mul],
    Nat.testBit_div_two_pow, Nat.testBit_mod_two_pow, Nat.add_comm j, testBit_be_of_lt (by omega), hweight, hmod]
  simp [hj, show 8 * (n - 1 - k) + j < 8 * n by omega]

theorem getD_arrBytes {n len k : Nat} (hk : k < len) (v : BitVec n) : (arrBytes len v).getD k 0 = arrByte v k := by
  simp [arrBytes, hk]

/-- A masked delta is unsafe where the first or the last of the DELTA bytes that it takes is zero. -/
theorem deltaUnsafe_iff {b : Nat} (hpos : 0 < b) (hle : b ≤ 16) (o : Operands) :
    deltaUnsafe b (be (deltaBytes o) % 2 ^ (8 * b)) = true ↔
      arrByte o.delta (16 - b) = 0 ∨ arrByte o.delta 15 = 0 := by
  have hlen : (deltaBytes o).length = 16 := length_arrBytes 16 o.delta
  have hbyte {k : Nat} (hk : k < b) :
      (beBytes b (be (deltaBytes o) % 2 ^ (8 * b))).getD k 0 = arrByte o.delta (16 - b + k) := by
    rw [getD_beBytes_be hk (hle.trans_eq hlen.symm), hlen]
    exact getD_arrBytes (by omega) o.delta
  rw [deltaUnsafe, decide_eq_true_iff, hbyte hpos, hbyte (Nat.sub_one_lt_of_lt hpos), Nat.add_zero,
    show 16 - b + (b - 1) = 15 by omega]

/-! ### The configuration checks (R120, R138) -/

/-- The error that a check reports. -/
def errorOf {α : Type} : Except ErrorCode α → Option ErrorCode
  | .ok _ => none
  | .error e => some e

theorem errorOf_eq_some_iff {α : Type} {x : Except ErrorCode α} {e : ErrorCode} :
    errorOf x = some e ↔ x = .error e := by
  cases x <;> simp [errorOf]

theorem errorOf_eq_none_iff {α : Type} {x : Except ErrorCode α} : errorOf x = none ↔ ∃ c, x = .ok c := by
  cases x <;> simp [errorOf]

theorem errorOf_cfgIv (mode : Mode) (o : Operands) (b : Nat) :
    errorOf (cfgIv mode o b) =
      if mode = .ecb ∧ o.ivLen.toNat ≠ 0 then some .ivForbidden
      else if mode ≠ .ecb ∧ o.ivLen.toNat = 0 then some .ivMissing
      else if mode ≠ .ecb ∧ o.ivLen.toNat ≠ b then some .ivWrongLength
      else none := by
  have hzero : o.ivLen = 0 ↔ o.ivLen.toNat = 0 := BitVec.toNat_inj.symm
  unfold cfgIv
  grind [errorOf]

theorem errorOf_cfgDelta (mode : Mode) (o : Operands) {b : Nat} (hpos : 0 < b) (hle : b ≤ 16) :
    errorOf (cfgDelta mode o b) =
      if mode = .rd ∧ o.deltaValid = false then some .deltaMissing
      else if mode = .rd ∧ (arrByte o.delta (16 - b) = 0 ∨ arrByte o.delta 15 = 0) then some .deltaUnsafe
      else none := by
  have hunsafe := deltaUnsafe_iff hpos hle o
  unfold cfgDelta
  grind [errorOf]

theorem blockSize_bounds (alg : Cipher) : 0 < blockSize alg ∧ blockSize alg ≤ 16 := by cases alg <;> decide

/-- The error of `cfg_check` is the first of the failing checks. -/
theorem errorOf_cfgCheck (p : Params) (o : Operands) : errorOf (cfgCheck p o) = firstConfigError o := by
  unfold cfgCheck firstConfigError
  dsimp only
  split
  · rename_i halg
    rw [if_pos ((cipherOf_eq_none_iff _).1 halg)]
    rfl
  rename_i alg halg
  obtain ⟨hsize, hleast⟩ := sizes_of_cipherOf halg
  rw [if_neg fun h => by simp [(cipherOf_eq_none_iff _).2 h] at halg]
  split
  · rename_i hmode
    rw [if_pos ((modeOf_eq_none_iff _).1 hmode)]
    rfl
  rename_i mode hmode
  obtain ⟨hecb, hrd⟩ := mode_of_modeOf hmode
  rw [if_neg fun h => by simp [(modeOf_eq_none_iff _).2 h] at hmode]
  split
  · rename_i hpad
    rw [if_pos ((paddingOf_eq_none_iff _).1 hpad)]
    rfl
  rename_i pad hpad
  rw [if_neg fun h => by simp [(paddingOf_eq_none_iff _).2 h] at hpad]
  split
  · rename_i hkey
    rw [if_pos ((adjust_eq_none_iff_lt hleast).1 hkey)]
    rfl
  rename_i k hkey
  rw [if_neg fun h => by simp [(adjust_eq_none_iff_lt hleast).2 h] at hkey, ← hsize]
  have hiv := errorOf_cfgIv mode o (blockSize alg)
  have hdelta := errorOf_cfgDelta mode o (blockSize_bounds alg).1 (blockSize_bounds alg).2
  simp only [hecb, hrd, ne_eq] at hiv hdelta
  split
  · rename_i e he
    rw [he] at hiv
    grind [errorOf]
  rename_i iv he
  rw [he] at hiv
  split
  · rename_i e he'
    rw [he'] at hdelta
    grind [errorOf]
  · rename_i delta he'
    rw [he'] at hdelta
    grind [errorOf]

/-- A context that passes the checks is made of what the registers name (R121). -/
theorem fields_of_cfgCheck {p : Params} {o : Operands} {c : Context} (h : cfgCheck p o = .ok c) :
    cipherOf o.alg = some c.alg ∧ modeOf o.mode = some c.mode ∧ paddingOf o.padding = some c.pad ∧
      adjust c.alg o.keyLen.toNat (keyBytes o) = some c.key ∧ cfgIv c.mode o (blockSize c.alg) = .ok c.iv ∧
      cfgDelta c.mode o (blockSize c.alg) = .ok c.delta := by
  unfold cfgCheck at h
  split at h
  · cases h
  rename_i halg
  split at h
  · cases h
  rename_i hmode
  split at h
  · cases h
  rename_i hpad
  split at h
  · cases h
  rename_i hkey
  split at h
  · cases h
  rename_i hiv
  split at h
  · cases h
  rename_i hdelta
  cases h
  exact ⟨halg, hmode, hpad, hkey, hiv, hdelta⟩

theorem eq_ivBytes_of_cfgIv {mode : Mode} {o : Operands} {b : Nat} {iv : Option (List Byte)}
    (h : cfgIv mode o b = .ok iv) (hmode : mode ≠ .ecb) : iv = some (ivBytes o b) := by
  unfold cfgIv at h
  grind

theorem eq_delta_of_cfgDelta {o : Operands} {b : Nat} {delta : Option Nat} (h : cfgDelta .rd o b = .ok delta) :
    delta = some (be (deltaBytes o) % 2 ^ (8 * b)) := by
  unfold cfgDelta at h
  grind

/-! ### CONFIGURE (R121) -/

theorem configureBody_of_ok {u : State} {c : Context} (h : cfgCheck u.params u.latched = .ok c) :
    configureBody u =
      terminal .done { u with ctx := c, status := { u.status with keyed := true, configured := true } } := by
  rw [configureBody, h]

theorem configureBody_of_error {u : State} {c : ErrorCode} (h : cfgCheck u.params u.latched = .error c) :
    configureBody u = raise c (opcode .configure) u := by
  rw [configureBody, h]

/-- The checks look at the configuration registers alone, all of which CONFIGURE copies (R20). -/
theorem cfgCheck_atWork_configure (e : Env) (q : Sequencer) (s : State) :
    cfgCheck (atWork .configure e q s).params (atWork .configure e q s).latched = cfgCheck s.params s.ops := rfl

/-- CONFIGURE does its work the drawn number of engine steps after its acceptance, the context dropped (93 I6). -/
theorem exec_configure {s : State} (hacc : CanAccept s) :
    ∃ t q, exec .configure s = .next t ∧
      engineSteps (drawChoice s).1 t = configureBody (atWork .configure (drawChoice s).2.env q (dropContext s)) := by
  obtain ⟨q, hq⟩ := engineSteps_launch_atWork .configure (drawChoice s).2.env s.seq (dropContext s) .configure
    (drawChoice s).1
  have hstart : startSlow .configure (atWork .configure s.env s.seq (dropContext s)) =
      launch .configure (finishSlow .configure) (drawChoice s).1
        (atWork .configure (drawChoice s).2.env s.seq (dropContext s)) := by
    rw [startSlow, drawChoice_atWork]
  exact ⟨_, q, congrArg Host.Outcome.next ((issue_of_canAccept hacc).trans hstart), hq⟩

/-- Settles O44: no check fails, so that the body of CONFIGURE builds the context, which is valid. -/
theorem configureBuildsTheContext : Obligations.ConfigureBuildsTheContext := by
  intro s hacc hnone
  obtain ⟨t, q, hexec, hend⟩ := exec_configure hacc
  obtain ⟨c, hc⟩ := errorOf_eq_none_iff.1 ((errorOf_cfgCheck s.params s.ops).trans hnone)
  obtain ⟨halg, hmode, hpad, hkey, hiv, hdelta⟩ := fields_of_cfgCheck hc
  have hbody := configureBody_of_ok
    ((cfgCheck_atWork_configure (drawChoice s).2.env q (dropContext s)).trans hc)
  refine ⟨t, c, hexec, hend.trans hbody, contextOk_of_cfgCheck hc, halg, hmode, hpad, hkey, eq_ivBytes_of_cfgIv hiv,
    fun hrd => ?_⟩
  rw [hrd] at hdelta
  exact eq_delta_of_cfgDelta hdelta

/-- Settles O45: the body of CONFIGURE raises the error of its checks, the context dropped at acceptance. -/
theorem configureReportsTheFirstError : Obligations.ConfigureReportsTheFirstError := by
  intro s c hacc hfirst
  obtain ⟨t, q, hexec, hend⟩ := exec_configure hacc
  have hc := errorOf_eq_some_iff.1 ((errorOf_cfgCheck s.params s.ops).trans hfirst)
  exact ⟨t, hexec, hend.trans (configureBody_of_error
    ((cfgCheck_atWork_configure (drawChoice s).2.env q (dropContext s)).trans hc))⟩

end Sys2Proof.Machine
end

section
/-! PROOFS. How a message command starts, and its issue-time errors in their order (46_modes.md R122, R127, R129, R130;
60_exceptions.md R138). -/

namespace Sys2Proof.Machine

open Sys2Proof.Claim

/-! ### The block count (R122) -/

/-- What a message command reports of a length that it does not accept. -/
def lengthError : Direction → ErrorCode
  | .encrypt => .unalignedNoPadding
  | .decrypt => .ciphertextLength

theorem blockCount_of_badLength {dir : Direction} {pad : Padding} {b l : Nat} (h : badLength dir pad b l) :
    blockCount dir pad b l = .error (lengthError dir) := by
  obtain ⟨hmod, hdir⟩ := h
  cases dir with
  | decrypt => exact if_pos hmod
  | encrypt =>
    obtain rfl := hdir.resolve_left Direction.noConfusion
    exact if_pos hmod

theorem blockCount_of_not_badLength {dir : Direction} {pad : Padding} {b l : Nat} (h : ¬ badLength dir pad b l) :
    blockCount dir pad b l = .ok (messageBlocks dir pad b l) := by
  unfold badLength at h
  cases dir with
  | decrypt => exact if_neg fun hmod => h ⟨hmod, .inl rfl⟩
  | encrypt =>
    cases pad with
    | noPadding => exact if_neg fun hmod => h ⟨hmod, .inr rfl⟩
    | zeros =>
      simp only [blockCount, messageBlocks]
      split <;> simp_all
    | ansiX923 | pkcs7 | iso10126 => rfl

theorem eight_le_ctxB (s : State) : 8 ≤ ctxB s := by
  unfold ctxB
  cases s.ctx.alg <;> decide

/-- A message of 32-bit length has fewer than 2^31 blocks, so that TOO_LARGE cannot occur (log 19). -/
theorem messageBlocks_lt (dir : Direction) (pad : Padding) {b : Nat} (hb : 8 ≤ b) (len : Word) :
    messageBlocks dir pad b len.toNat < 2 ^ 31 := by
  have hlen := len.isLt
  have hdiv : len.toNat / b ≤ len.toNat / 8 := Nat.div_le_div_left hb (by decide)
  have hle : messageBlocks dir pad b len.toNat ≤ len.toNat / b + 1 := by
    unfold messageBlocks
    grind
  omega

/-! ### The issue-time checks (R129, R130) -/

section
variable {dir : Direction} {u : State}

theorem startMsg_of_unconfigured (hconf : u.status.configured = false) :
    startMsg dir u = raise .notConfigured (opcode (msgInstr dir)) u := if_pos hconf

variable (hconf : u.status.configured = true)
include hconf

theorem startMsg_of_badLength (hbad : badLength dir u.ctx.pad (ctxB u) u.latched.len.toNat) :
    startMsg dir u = raise (lengthError dir) (opcode (msgInstr dir)) u := by
  simp [startMsg, hconf, blockCount_of_badLength hbad]

variable {n : Nat} (hlen : ¬ badLength dir u.ctx.pad (ctxB u) u.latched.len.toNat)
  (hn : messageBlocks dir u.ctx.pad (ctxB u) u.latched.len.toNat = n)
include hlen hn

/-- With a length that it accepts, a message command checks its ranges, then that they are apart. -/
theorem startMsg_of_not_badLength :
    startMsg dir u =
      if (srcOk u && dstOk u (n * ctxB u)) = false then raise .addrRange (opcode (msgInstr dir)) u
      else if intersect u.latched.src.toNat u.latched.len.toNat u.latched.dst.toNat (n * ctxB u) then
        raise .overlap (opcode (msgInstr dir)) u
      else loadMsg dir n u := by
  subst hn
  have hmax : ¬ maxBlocks < messageBlocks dir u.ctx.pad (ctxB u) u.latched.len.toNat :=
    Nat.not_lt.2 (Nat.le_of_lt_succ (messageBlocks_lt dir u.ctx.pad (eight_le_ctxB u) u.latched.len))
  simp only [startMsg, hconf, Bool.true_eq_false, if_false, blockCount_of_not_badLength hlen, if_neg hmax]

theorem startMsg_of_outside
    (hrange : outside u u.latched.src.toNat u.latched.len.toNat ∨ outside u u.latched.dst.toNat (n * ctxB u)) :
    startMsg dir u = raise .addrRange (opcode (msgInstr dir)) u := by
  rw [startMsg_of_not_badLength hconf hlen hn, if_pos]
  rw [Bool.and_eq_false_iff]
  exact hrange.imp (rangeOk_eq_false_iff ..).2 (rangeOk_eq_false_iff ..).2

variable (hsrc : ¬ outside u u.latched.src.toNat u.latched.len.toNat)
  (hdst : ¬ outside u u.latched.dst.toNat (n * ctxB u))
include hsrc hdst

theorem startMsg_of_overlapping
    (hmeet : overlapping u.latched.src.toNat u.latched.len.toNat u.latched.dst.toNat (n * ctxB u)) :
    startMsg dir u = raise .overlap (opcode (msgInstr dir)) u := by
  rw [startMsg_of_not_badLength hconf hlen hn, if_neg, if_pos ((intersect_iff ..).2 hmeet)]
  rw [srcOk, dstOk, (rangeOk_iff ..).2 hsrc, (rangeOk_iff ..).2 hdst]
  decide

theorem startMsg_of_apart
    (hapart : ¬ overlapping u.latched.src.toNat u.latched.len.toNat u.latched.dst.toNat (n * ctxB u)) :
    startMsg dir u = loadMsg dir n u := by
  rw [startMsg_of_not_badLength hconf hlen hn, if_neg, (intersect_eq_false_iff ..).2 hapart, if_neg (by decide)]
  rw [srcOk, dstOk, (rangeOk_iff ..).2 hsrc, (rangeOk_iff ..).2 hdst]
  decide

end

/-! ### Acceptance (R127) -/

/-- A message command accepted in `s`, before its checks. -/
def issuedMsg (dir : Direction) (s : State) : State := atWork (msgInstr dir) s.env s.seq s

/-- The message that runs after the start: no block is done, no CANCEL is accepted. -/
def startRun (dir : Direction) (n : Nat) : MsgRun := { dir := dir, n := n, counts := [], inFlight := none }

/-- The number of blocks of a message command issued now. -/
def issuedBlocks (s : State) (dir : Direction) : Nat := messageBlocks dir s.ctx.pad (ctxB s) s.ops.len.toNat

section
variable {s : State} {dir : Direction}

theorem exec_msgInstr (hacc : CanAccept s) (dir : Direction) :
    exec (msgInstr dir) s = .next (startMsg dir (issuedMsg dir s)) := by
  rw [issuedMsg, ← accept_eq_atWork, ← issue_of_canAccept (f := startMsg dir) hacc]
  cases dir <;> rfl

/-- A message command that raises an error after its acceptance has written nothing else. -/
theorem exec_msgInstr_of_raise (hacc : CanAccept s) {c : ErrorCode}
    (h : startMsg dir (issuedMsg dir s) = raise c (opcode (msgInstr dir)) (issuedMsg dir s)) :
    exec (msgInstr dir) s = .next (failedWith (msgInstr dir) c s) := by
  rw [exec_msgInstr hacc, h]
  exact congrArg Host.Outcome.next (raise_atWork ..)

theorem issuedMsg_src : (issuedMsg dir s).latched.src = s.ops.src := atWork_src ..
theorem issuedMsg_dst : (issuedMsg dir s).latched.dst = s.ops.dst := atWork_dst ..
theorem issuedMsg_len : (issuedMsg dir s).latched.len = s.ops.len := atWork_len ..

/-- A message command that passes its checks starts (R129, R130). -/
theorem exec_msgInstr_of_ready (h : MessageReady s dir) :
    exec (msgInstr dir) s = .next (loadMsg dir (issuedBlocks s dir) (issuedMsg dir s)) := by
  obtain ⟨hacc, hconf, hlen, hsrc, hdst, hapart⟩ := h
  have hstart := @startMsg_of_apart dir (issuedMsg dir s) hconf (issuedBlocks s dir)
  rw [issuedMsg_src, issuedMsg_len, issuedMsg_dst] at hstart
  exact (exec_msgInstr hacc dir).trans (congrArg Host.Outcome.next (hstart hlen rfl hsrc hdst hapart))

theorem exec_msgInstr_of_unconfigured (hacc : CanAccept s) (hconf : s.status.configured = false) :
    exec (msgInstr dir) s = .next (failedWith (msgInstr dir) .notConfigured s) :=
  exec_msgInstr_of_raise hacc (startMsg_of_unconfigured hconf)

theorem exec_msgInstr_of_badLength (hacc : CanAccept s) (hconf : s.status.configured = true)
    (hbad : badLength dir s.ctx.pad (ctxB s) s.ops.len.toNat) :
    exec (msgInstr dir) s = .next (failedWith (msgInstr dir) (lengthError dir) s) := by
  have hstart := @startMsg_of_badLength dir (issuedMsg dir s) hconf
  rw [issuedMsg_len] at hstart
  exact exec_msgInstr_of_raise hacc (hstart hbad)

theorem exec_msgInstr_of_outside (hacc : CanAccept s) (hconf : s.status.configured = true)
    (hlen : ¬ badLength dir s.ctx.pad (ctxB s) s.ops.len.toNat)
    (hrange : outside s s.ops.src.toNat s.ops.len.toNat ∨
      outside s s.ops.dst.toNat (issuedBlocks s dir * ctxB s)) :
    exec (msgInstr dir) s = .next (failedWith (msgInstr dir) .addrRange s) := by
  have hstart := @startMsg_of_outside dir (issuedMsg dir s) hconf (issuedBlocks s dir)
  rw [issuedMsg_src, issuedMsg_len, issuedMsg_dst] at hstart
  exact exec_msgInstr_of_raise hacc (hstart hlen rfl hrange)

theorem exec_msgInstr_of_overlapping (hacc : CanAccept s) (hconf : s.status.configured = true)
    (hlen : ¬ badLength dir s.ctx.pad (ctxB s) s.ops.len.toNat)
    (hrange : ¬ (outside s s.ops.src.toNat s.ops.len.toNat ∨
      outside s s.ops.dst.toNat (issuedBlocks s dir * ctxB s)))
    (hmeet : overlapping s.ops.src.toNat s.ops.len.toNat s.ops.dst.toNat (issuedBlocks s dir * ctxB s)) :
    exec (msgInstr dir) s = .next (failedWith (msgInstr dir) .overlap s) := by
  obtain ⟨hsrc, hdst⟩ := not_or.1 hrange
  have hstart := @startMsg_of_overlapping dir (issuedMsg dir s) hconf (issuedBlocks s dir)
  rw [issuedMsg_src, issuedMsg_len, issuedMsg_dst] at hstart
  exact exec_msgInstr_of_raise hacc (hstart hlen rfl hsrc hdst hmeet)

end

/-- Settles O50: the checks pass, and the start is `loadMsg`. -/
theorem messageStarts : Obligations.MessageStarts := by
  intro s dir hready
  have hexec := exec_msgInstr_of_ready hready
  refine ⟨(loadMsg dir (issuedBlocks s dir) (issuedMsg dir s)).dp, ?_, messageBlocks_lt _ _ (eight_le_ctxB s) _,
    fun iv hiv => ?_, rfl⟩
  · cases dir <;> exact hexec
  · rw [loadMsg_dp, show (issuedMsg dir s).ctx = s.ctx from rfl, hiv]
    exact ⟨rfl, rfl⟩

end Sys2Proof.Machine
end

section
/-! PROOFS. The accesses of a running message under the answers of BUS_OK: a block completes where the platform completes
its accesses, and the first access that fails ends the message (20_memory.md R32; 46_modes.md R123, R126; 60_exceptions.md
R135, R137). -/

namespace Sys2Proof.Machine

open Sys2Proof.Claim

/-! ### What a draw leaves of the placed answers -/

theorem drawByte_bus (s : State) : (drawByte s).2.env.bus = s.env.bus := by
  unfold drawByte
  split <;> rfl

theorem drawBytes_bus (n : Nat) (s : State) : (drawBytes n s).2.env.bus = s.env.bus := by
  induction n generalizing s with
  | zero => rfl
  | succ n ih => exact (ih _).trans (drawByte_bus s)

theorem readRaced_bus (as : List Nat) (s : State) : (readRaced as s).2.env.bus = s.env.bus := by
  induction as generalizing s with
  | nil => rfl
  | cons a rest ih =>
    by_cases ha : a ∈ s.raced
    · simpa [readRaced, ha] using (ih _).trans (drawByte_bus s)
    · simpa [readRaced, ha] using ih s

theorem racedOutput_bus (y : List Byte) (s : State) : (racedOutput y s).2.env.bus = s.env.bus := by
  unfold racedOutput
  split
  · rfl
  · exact drawBytes_bus _ s

theorem drawBus_bytes (s : State) : (drawBus s).2.env.bytes = s.env.bytes := by
  unfold drawBus
  split <;> rfl

theorem drawLane_env (lanes : List Nat) (s : State) :
    (drawLane lanes s).2.env.bus = s.env.bus ∧ (drawLane lanes s).2.env.bytes = s.env.bytes := by
  have hchoice : (drawChoice s).2.env.bus = s.env.bus ∧ (drawChoice s).2.env.bytes = s.env.bytes := by
    unfold drawChoice
    split <;> exact ⟨rfl, rfl⟩
  match lanes with
  | [] => exact ⟨rfl, rfl⟩
  | [l] => exact ⟨rfl, rfl⟩
  | l :: k :: rest => exact hchoice

/-- Choosing the lane of the next block takes no answer of BUS_OK and no free byte. -/
theorem msgStep_of_ready {m : MsgRun} {s : State} (h : readyLanes s m ≠ []) :
    ∃ l e, l ∈ readyLanes s m ∧ e.bus = s.env.bus ∧ e.bytes = s.env.bytes ∧
      msgStep m s = blockStep m l (setEnv e s) := by
  obtain ⟨l, rest, hready⟩ := List.exists_cons_of_ne_nil h
  obtain ⟨⟨e, he⟩, hmem⟩ := drawLane_spec (readyLanes s m) s
  obtain ⟨hbus, hbytes⟩ := drawLane_env (readyLanes s m) s
  rw [he] at hbus hbytes
  refine ⟨_, e, hmem h, hbus, hbytes, ?_⟩
  rw [← he, msgStep, hready]

theorem msgStep_of_not_ready {m : MsgRun} {s : State} (h : readyLanes s m = []) : msgStep m s = finishMsg m s := by
  rw [msgStep, h]

/-! ### Accesses that the platform completes -/

/-- The platform completes the engine's next `k` accesses, by placed answers. -/
def Completes (k : Nat) (s : State) : Prop := ∃ rest, s.env.bus = List.replicate k true ++ rest

theorem Completes.congr {k : Nat} {s t : State} (h : Completes k s) (hbus : t.env.bus = s.env.bus) :
    Completes k t := by rwa [Completes, hbus]

theorem Completes.mono {j k : Nat} {s : State} (h : Completes k s) (hle : j ≤ k) : Completes j s := by
  obtain ⟨rest, hbus⟩ := h
  obtain ⟨d, rfl⟩ := Nat.exists_eq_add_of_le hle
  exact ⟨List.replicate d true ++ rest, by rw [hbus, List.replicate_add, List.append_assoc]⟩

theorem drawBus_of_completes {k : Nat} {s : State} (h : Completes (k + 1) s) :
    ∃ e, drawBus s = (true, setEnv e s) ∧ Completes k (setEnv e s) := by
  obtain ⟨rest, hbus⟩ := h
  exact ⟨_, drawBus_placed hbus, rest, rfl⟩

theorem busRead_of_completes {k : Nat} {s : State} (h : Completes (k + 1) s) (a n : Nat) :
    ∃ b s1, busRead a n s = (some b, s1) ∧ Completes k s1 := by
  by_cases hn : n = 0
  · exact ⟨[], s, if_pos hn, h.mono (Nat.le_succ k)⟩
  obtain ⟨e, hdraw, hk⟩ := drawBus_of_completes h
  simp only [busRead, hn, if_false, hdraw, if_true]
  split
  · exact ⟨_, _, rfl, hk⟩
  · exact ⟨_, _, rfl, hk.congr (readRaced_bus _ _)⟩

theorem busWrite_of_completes {k : Nat} {s : State} (h : Completes (k + 1) s) (a : Nat) (b : List Byte) :
    ∃ s1, busWrite a b s = (true, s1) ∧ Completes k s1 := by
  by_cases hb : b = []
  · exact ⟨s, if_pos hb, h.mono (Nat.le_succ k)⟩
  obtain ⟨e, hdraw, hk⟩ := drawBus_of_completes h
  simp only [busWrite, hb, if_false, hdraw, if_true]
  exact ⟨_, rfl, hk.congr rfl⟩

/-! ### The state after a block (R126, R127) -/

section
variable (m : MsgRun) (l i : Nat) (x c y : List Byte) (s : State)

@[simp] theorem completeBlock_params : (completeBlock m l i x c y s).params = s.params := rfl
@[simp] theorem completeBlock_status : (completeBlock m l i x c y s).status = s.status := rfl
@[simp] theorem completeBlock_error : (completeBlock m l i x c y s).error = s.error := rfl
@[simp] theorem completeBlock_out :
    (completeBlock m l i x c y s).out = { s.out with doneBlocks := s.out.doneBlocks + 1 } := rfl
@[simp] theorem completeBlock_latched : (completeBlock m l i x c y s).latched = s.latched := rfl
@[simp] theorem completeBlock_ctx : (completeBlock m l i x c y s).ctx = s.ctx := rfl
@[simp] theorem completeBlock_ftab : (completeBlock m l i x c y s).ftab = s.ftab := rfl
@[simp] theorem completeBlock_seq : (completeBlock m l i x c y s).seq = .msg (advanceRun m l) := rfl
@[simp] theorem completeBlock_raced : (completeBlock m l i x c y s).raced = s.raced := rfl
@[simp] theorem completeBlock_mem : (completeBlock m l i x c y s).mem = s.mem := rfl
@[simp] theorem completeBlock_env : (completeBlock m l i x c y s).env = s.env := rfl

end

/-! ### The parts of a block (R123, R126) -/

/-- Block `i` is a whole block of the source, and no tail that an encryption fills (R123). -/
def WholeInput (s : State) (m : MsgRun) (i : Nat) : Prop := m.dir = .encrypt → i < s.latched.len.toNat / ctxB s

theorem readBlock_of_whole {m : MsgRun} {i : Nat} {s : State} (h : WholeInput s m i) :
    readBlock m i s = busRead (s.latched.src.toNat + i * ctxB s) (ctxB s) s := by
  unfold readBlock
  split
  · rfl
  · rename_i hdir
    exact if_pos (h hdir)

/-- A tail is read in one access to what the source has left, and filled. -/
theorem readBlock_of_tail {m : MsgRun} {i : Nat} {s : State} (h : ¬ WholeInput s m i) :
    m.dir = .encrypt ∧
      (∀ s1, busRead (s.latched.src.toNat + s.latched.len.toNat / ctxB s * ctxB s) (s.latched.len.toNat % ctxB s) s =
          (none, s1) → readBlock m i s = (none, s1)) ∧
      ∀ d s1, busRead (s.latched.src.toNat + s.latched.len.toNat / ctxB s * ctxB s) (s.latched.len.toNat % ctxB s) s =
          (some d, s1) →
        readBlock m i s =
          (some (fill s.ctx.pad (d ++ zeros (ctxB s - s.latched.len.toNat % ctxB s)) (s.latched.len.toNat % ctxB s)
              (drawBytes (randomCount s.ctx.pad (ctxB s) (s.latched.len.toNat % ctxB s)) s1).1),
            (drawBytes (randomCount s.ctx.pad (ctxB s) (s.latched.len.toNat % ctxB s)) s1).2) := by
  obtain ⟨hdir, hi⟩ := Classical.not_imp.1 h
  refine ⟨hdir, fun s1 hread => ?_, fun d s1 hread => ?_⟩
  · simp only [readBlock, hdir, hi, if_false, hread]
  · simp only [readBlock, hdir, hi, if_false, hread]

/-- What a block step does once the input of block `i` is read: it writes the output and counts. -/
def storeBlock (m : MsgRun) (l i : Nat) (x c : List Byte) (s : State) : State :=
  let (y, s1) := racedOutput (msgOutput s m i x c) s
  match busWrite (s1.latched.dst.toNat + i * ctxB s1) y s1 with
  | (false, s2) => raise .busError (opcode (msgInstr m.dir)) s2
  | (true, s2) => completeBlock m l i x c y s2

section
variable {m : MsgRun} {l : Nat} {s s1 s2 : State} {x c : List Byte}

theorem blockStep_of_readBlock_none (h : readBlock m (nextBlock s m l) s = (none, s1)) :
    blockStep m l s = raise .busError (opcode (msgInstr m.dir)) s1 := by
  simp only [blockStep, h]

theorem blockStep_of_readCarried_none (h : readBlock m (nextBlock s m l) s = (some x, s1))
    (hc : readCarried m (nextBlock s m l) s1 = (none, s2)) :
    blockStep m l s = raise .busError (opcode (msgInstr m.dir)) s2 := by
  simp only [blockStep, h, hc]

theorem blockStep_of_reads (h : readBlock m (nextBlock s m l) s = (some x, s1))
    (hc : readCarried m (nextBlock s m l) s1 = (some c, s2)) :
    blockStep m l s = storeBlock m l (nextBlock s m l) x c s2 := by
  simp only [blockStep, h, hc]
  rfl

end

/-! ### Blocks that the platform completes -/

section
variable {k : Nat} {s : State}

theorem readBlock_of_completes (h : Completes (k + 1) s) (m : MsgRun) (i : Nat) :
    ∃ x s1, readBlock m i s = (some x, s1) ∧ Completes k s1 := by
  by_cases hwhole : WholeInput s m i
  · rw [readBlock_of_whole hwhole]
    exact busRead_of_completes h _ _
  · obtain ⟨-, -, hsome⟩ := readBlock_of_tail hwhole
    obtain ⟨d, s1, hread, hk⟩ := busRead_of_completes h _ _
    exact ⟨_, _, hsome d s1 hread, hk.congr (drawBytes_bus _ s1)⟩

theorem readCarried_of_completes (h : Completes (k + 1) s) (m : MsgRun) (i : Nat) :
    ∃ c s1, readCarried m i s = (some c, s1) ∧ Completes k s1 := by
  have hrest := h.mono (Nat.le_succ k)
  unfold readCarried
  split
  · split
    · exact ⟨_, _, rfl, hrest⟩
    · exact busRead_of_completes h _ _
  · exact ⟨_, _, rfl, hrest⟩

theorem storeBlock_of_completes (h : Completes (k + 1) s) (m : MsgRun) (l i : Nat) (x c : List Byte) :
    (storeBlock m l i x c s).seq = .msg (advanceRun m l) ∧ Completes k (storeBlock m l i x c s) := by
  obtain ⟨y, s1, hout⟩ : ∃ y s1, racedOutput (msgOutput s m i x c) s = (y, s1) := ⟨_, _, rfl⟩
  have hs1 : Completes (k + 1) s1 := h.congr (by rw [← racedOutput_bus (msgOutput s m i x c) s, hout])
  obtain ⟨s2, hwrite, hk⟩ := busWrite_of_completes hs1 (s1.latched.dst.toNat + i * ctxB s1) y
  simp only [storeBlock, hout, hwrite]
  exact ⟨rfl, hk⟩

/-- A block takes at most three accesses: the message goes on where the platform completes them. -/
theorem blockStep_of_completes (h : Completes (k + 3) s) (m : MsgRun) (l : Nat) :
    (blockStep m l s).seq = .msg (advanceRun m l) ∧ Completes k (blockStep m l s) := by
  obtain ⟨x, s1, hx, h1⟩ := readBlock_of_completes h m (nextBlock s m l)
  obtain ⟨c, s2, hc, h2⟩ := readCarried_of_completes h1 m (nextBlock s m l)
  rw [blockStep_of_reads hx hc]
  exact storeBlock_of_completes h2 ..

end

/-! ### Accesses that fail -/

/-- The platform does not complete the engine's next access, by a placed answer. -/
def FailsNext (s : State) : Prop := s.env.bus.head? = some false

theorem FailsNext.congr {s t : State} (h : FailsNext s) (hbus : t.env.bus = s.env.bus) : FailsNext t := by
  rwa [FailsNext, hbus]

theorem drawBus_of_failsNext {s : State} (h : FailsNext s) : (drawBus s).1 = false := by
  obtain ⟨rest, hbus⟩ := List.head?_eq_some_iff.1 h
  rw [drawBus_placed hbus]

theorem busRead_of_failsNext {s : State} (h : FailsNext s) (a : Nat) {n : Nat} (hn : n ≠ 0) :
    ∃ s1, busRead a n s = (none, s1) := ⟨(drawBus s).2, by simp [busRead, hn, drawBus_of_failsNext h]⟩

theorem busWrite_of_failsNext {s : State} (h : FailsNext s) (a : Nat) {b : List Byte} (hb : b ≠ []) :
    ∃ s1, busWrite a b s = (false, s1) := ⟨(drawBus s).2, by simp [busWrite, hb, drawBus_of_failsNext h]⟩

/-- The read of a block fails, but for an empty tail, which takes no access. -/
theorem readBlock_of_failsNext {s : State} (h : FailsNext s) (m : MsgRun) (i : Nat) :
    (∃ s1, readBlock m i s = (none, s1)) ∨
      m.dir = .encrypt ∧ ∃ x s1, readBlock m i s = (some x, s1) ∧ FailsNext s1 := by
  by_cases hwhole : WholeInput s m i
  · rw [readBlock_of_whole hwhole]
    exact .inl (busRead_of_failsNext h _ (ctxB_pos s).ne')
  obtain ⟨hdir, hnone, hsome⟩ := readBlock_of_tail hwhole
  by_cases hr : s.latched.len.toNat % ctxB s = 0
  · exact .inr ⟨hdir, _, _, hsome [] s (if_pos hr), h.congr (drawBytes_bus _ s)⟩
  · obtain ⟨s1, hread⟩ := busRead_of_failsNext h _ hr
    exact .inl ⟨s1, hnone s1 hread⟩

/-- An encryption reads no block but its own. -/
theorem readCarried_of_encrypt {m : MsgRun} (hdir : m.dir = .encrypt) (i : Nat) (s : State) :
    readCarried m i s = (some s.dp.chain, s) := by
  have hprev : readsPrevious s.ctx.mode .encrypt = false := by cases s.ctx.mode <;> rfl
  simp [readCarried, hdir, hprev]

theorem storeBlock_of_failsNext {s : State} (h : FailsNext s) {m : MsgRun} (l i : Nat) {x c : List Byte}
    (hout : 0 < (msgOutput s m i x c).length) : (storeBlock m l i x c s).status.engine = .failed := by
  obtain ⟨y, s1, hraced⟩ : ∃ y s1, racedOutput (msgOutput s m i x c) s = (y, s1) := ⟨_, _, rfl⟩
  have hs1 : FailsNext s1 := h.congr (by rw [← racedOutput_bus (msgOutput s m i x c) s, hraced])
  have hlen : y.length = (msgOutput s m i x c).length := by
    rw [← (racedOutput_spec (msgOutput s m i x c) s).2.1, hraced]
  obtain ⟨s2, hwrite⟩ := busWrite_of_failsNext hs1 (s1.latched.dst.toNat + i * ctxB s1)
    (List.ne_nil_of_length_pos (hlen ▸ hout))
  simp only [storeBlock, hraced, hwrite]
  rfl

/-- Every block takes an access, so that a platform that fails the next one ends the message. -/
theorem blockStep_of_failsNext {s : State} (h : FailsNext s) (hchain : ChainOk s) (m : MsgRun) (l : Nat) :
    (blockStep m l s).status.engine = .failed := by
  rcases readBlock_of_failsNext h m (nextBlock s m l) with ⟨s1, hx⟩ | ⟨hdir, x, s1, hx, h1⟩
  · rw [blockStep_of_readBlock_none hx]
    rfl
  obtain ⟨e, he⟩ := readBlock_env m (nextBlock s m l) s
  obtain rfl : s1 = setEnv e s := by rw [← he, hx]
  have hc := readCarried_of_encrypt hdir (nextBlock s m l) (setEnv e s)
  have hout : (msgOutput s m (nextBlock s m l) x s.dp.chain).length = ctxB s :=
    hchain.length_msgOutput (length_readBlock (by rw [hx])) (carriedFrom_readCarried (s := setEnv e s) (by rw [hc]; rfl))
  rw [blockStep_of_reads hx hc]
  exact storeBlock_of_failsNext h1 l _ (hout.symm ▸ ctxB_pos s)

/-! ### The end of a message that fails -/

theorem engineStep_of_msg {s : State} {m : MsgRun} (hseq : s.seq = .msg m) : engineStep s = msgStep m s := by
  rw [engineStep, hseq]

theorem engineSteps_of_idle {s : State} (h : s.seq = .idle) (k : Nat) : engineSteps k s = s := by
  induction k with
  | zero => rfl
  | succ k ih => rw [engineSteps_succ, engineStep, h, ih]

/-- A running message fails only by an access, with nothing written but the error. -/
theorem msgStep_of_failed {s : State} {m : MsgRun} (hbusy : s.status.engine = .busy)
    (h : (msgStep m s).status.engine = .failed) :
    ∃ e, msgStep m s = raise .busError (opcode (msgInstr m.dir)) (setEnv e s) := by
  rcases msgStep_cases m s with ⟨-, hstep⟩ | ⟨l, e, -, hstep⟩
  · rcases finishMsg_cases m s with ⟨-, n, w, hfinish⟩ | ⟨-, hfinish⟩
    · rw [hstep, hfinish] at h
      cases h
    · rw [hstep, hfinish] at h
      cases h
  · rcases blockStep_cases m l (setEnv e s) with ⟨e', hblock⟩ | ⟨e', x, c, y, hblock, -⟩
    · exact ⟨e', hstep.trans hblock⟩
    · rw [hstep, hblock] at h
      cases hbusy.symm.trans h

theorem opcode_msgInstr (dir : Direction) :
    opcode (msgInstr dir) = match dir with | .encrypt => 0x20 | .decrypt => 0x21 := by cases dir <;> rfl

/-- Settles O51: the checks in their order; and a running message fails by an access alone, which writes nothing. -/
theorem messageErrors : Obligations.MessageErrors := by
  refine ⟨fun s dir hacc => ?issue, fun s m hinv hseq => ⟨fun hready hfails => ?fails, fun hfailed => ?failed⟩⟩
  case issue =>
    cases dir with
    | encrypt =>
      exact ⟨exec_msgInstr_of_unconfigured (dir := .encrypt) hacc, exec_msgInstr_of_badLength (dir := .encrypt) hacc,
        exec_msgInstr_of_outside (dir := .encrypt) hacc, exec_msgInstr_of_overlapping (dir := .encrypt) hacc⟩
    | decrypt =>
      exact ⟨exec_msgInstr_of_unconfigured (dir := .decrypt) hacc, exec_msgInstr_of_badLength (dir := .decrypt) hacc,
        exec_msgInstr_of_outside (dir := .decrypt) hacc, exec_msgInstr_of_overlapping (dir := .decrypt) hacc⟩
  case fails =>
    obtain ⟨l, e, -, hbus, -, hstep⟩ := msgStep_of_ready hready
    rw [engineStep_of_msg hseq, hstep]
    have hfails' : FailsNext (setEnv e s) := FailsNext.congr hfails hbus
    exact blockStep_of_failsNext hfails' ((machineInv_setEnv hinv e).chainOk hseq) m l
  case failed =>
    have hbusy : s.status.engine = .busy := hinv.control.busy_iff_running.2 (by simp [hseq])
    rw [engineStep_of_msg hseq] at hfailed ⊢
    obtain ⟨e, hstep⟩ := msgStep_of_failed hbusy hfailed
    refine ⟨⟨e, ?_⟩, hinv.progress.outLen_zero m hseq, ?_, fun k => engineSteps_of_idle (by rw [hstep]; rfl) k⟩
    · rw [hstep, opcode_msgInstr]
      rfl
    · rw [← hinv.progress.done_eq m hseq, BitVec.ofNat_toNat, BitVec.setWidth_eq]

end Sys2Proof.Machine
end

section
/-! PROOFS. What a block of a running message is when the platform completes its accesses: its input, its output by the
mode equation, and the state that it leaves (46_modes.md R122..R126; 45_padding.md R115). -/

namespace Sys2Proof.Machine

open Sys2Proof.Claim

/-! ### The input blocks (R123) -/

/-- The bytes of the source of a running message. -/
def sourceOf (s : State) : List Byte := readBytes s.mem s.latched.src.toNat s.latched.len.toNat

/-- Input block `i` of a running message whose tail is filled with `random`. -/
def inputOf (s : State) (m : MsgRun) (random : List Byte) (i : Nat) : List Byte :=
  inputBlock m.dir s.ctx.pad (ctxB s) (sourceOf s) random i

/-- C_(i-1) or O_(i-1) of block `i`: CHAIN, or the input block before where the mode reads it again (R124). -/
def carriedOf (s : State) (m : MsgRun) (random : List Byte) (i : Nat) : List Byte :=
  if readsPrevious s.ctx.mode m.dir then if i = 0 then s.ctx.iv.getD [] else inputOf s m random (i - 1)
  else s.dp.chain

/-- How many bytes a fill of the message's tail draws (R115). -/
def tailCount (s : State) : Nat := randomCount s.ctx.pad (ctxB s) (s.latched.len.toNat % ctxB s)

/-- `random` may be what a fill of the tail draws now: the first placed bytes, where enough are placed. -/
structure TailDraw (s : State) (random : List Byte) : Prop where
  length_eq : random.length = tailCount s
  placed : tailCount s ≤ s.env.bytes.length → random = s.env.bytes.take (tailCount s)

theorem TailDraw.congr {s t : State} {random : List Byte} (h : TailDraw s random) (hctx : t.ctx = s.ctx)
    (hlatched : t.latched = s.latched) (hbytes : t.env.bytes = s.env.bytes) : TailDraw t random := by
  have hcount : tailCount t = tailCount s := by simp [tailCount, ctxB, hctx, hlatched]
  exact ⟨h.length_eq.trans hcount.symm, by rw [hcount, hbytes]; exact h.placed⟩

theorem tailDraw_drawBytes (s : State) : TailDraw s (drawBytes (tailCount s) s).1 := by
  refine ⟨(drawBytes_spec _ s).2, fun h => ?_⟩
  have hdraw := drawBytes_placed (s.env.bytes.take (tailCount s)) (s.env.bytes.drop (tailCount s)) s
    (List.take_append_drop _ _).symm
  rw [List.length_take_of_le h] at hdraw
  rw [hdraw]

theorem exists_tailDraw (s : State) : ∃ random, TailDraw s random := ⟨_, tailDraw_drawBytes s⟩

/-- A part of a byte string read from memory is read from further on. -/
theorem sub_readBytes (mem : Memory) (a : Nat) {n i j : Nat} (hj : j ≤ n) :
    sub (readBytes mem a n) i j = readBytes mem (a + i) (j - i) := by
  refine List.ext_getElem (by simp [sub]; omega) fun k h1 h2 => ?_
  simp [sub, readBytes, Nat.add_assoc]

/-- A whole block is a part of the source, in either direction. -/
theorem inputBlock_of_whole {dir : Direction} {pad : Padding} {b i : Nat} {data : List Byte}
    (h : dir = .encrypt → i < data.length / b) (random : List Byte) :
    inputBlock dir pad b data random i = sub data (i * b) (i * b + b) := by
  cases dir with
  | decrypt => rfl
  | encrypt => exact if_pos (h rfl)

theorem length_sourceOf (s : State) : (sourceOf s).length = s.latched.len.toNat := length_readBytes ..

section
variable {s : State} {m : MsgRun} {i : Nat}

theorem inputOf_of_whole (h : WholeInput s m i) (random : List Byte) :
    inputOf s m random i = sub (sourceOf s) (i * ctxB s) (i * ctxB s + ctxB s) :=
  inputBlock_of_whole (by rw [length_sourceOf]; exact h) random

/-- A decryption reads whole blocks alone. -/
theorem wholeInput_of_decrypt (h : m.dir = .decrypt) (i : Nat) : WholeInput s m i := fun hdir => by
  cases h.symm.trans hdir

theorem readsPrevious_decrypt {mode : Mode} {dir : Direction} (h : readsPrevious mode dir = true) : dir = .decrypt := by
  cases dir with
  | decrypt => rfl
  | encrypt => cases mode <;> cases h

theorem carriedOf_congr_random (s : State) (m : MsgRun) (random random' : List Byte) (i : Nat) :
    carriedOf s m random i = carriedOf s m random' i := by
  unfold carriedOf
  split
  · rename_i hprev
    have hwhole := wholeInput_of_decrypt (s := s) (readsPrevious_decrypt hprev) (i - 1)
    rw [inputOf_of_whole hwhole, inputOf_of_whole hwhole]
  · rfl

end

/-! ### Output blocks (R124) -/

/-- The equation of a block, from its parts. -/
def equation (s : State) (m : MsgRun) (i : Nat) (x c : List Byte) : List Byte :=
  let e := encryptBlock s.ftab s.ctx.rkt
  let ctr := counter (ctxB s) (s.ctx.iv.getD []) (s.ctx.delta.getD 0) i
  match m.dir with
  | .encrypt => encEquation e s.ctx.mode x s.dp.chainP c (e s.dp.chain) ctr
  | .decrypt => decEquation e (decryptBlock s.ftab s.ctx.rkt) s.ctx.mode x s.dp.chainP c (e s.dp.chain) ctr

theorem readsPrevious_iff (mode : Mode) (dir : Direction) :
    readsPrevious mode dir = true ↔ dir = .decrypt ∧ (mode = .cbc ∨ mode = .cfb) := by
  cases dir <;> cases mode <;> simp [readsPrevious]

theorem runningOutput_eq (s : State) (m : MsgRun) (random : List Byte) (i : Nat) :
    runningOutput s m random i = equation s m i (inputOf s m random i) (carriedOf s m random i) := by
  unfold runningOutput equation carriedOf
  simp only [readsPrevious_iff]
  rfl

/-- The sequencer's output is the mode equation, where the counter starts from the IV. -/
theorem msgOutput_eq_equation {s : State} {m : MsgRun}
    (hctr : s.ctx.mode = .ctr ∨ s.ctx.mode = .rd → s.dp.ctrBase = be (s.ctx.iv.getD [])) (i : Nat) (x c : List Byte)
    (hc : s.ctx.mode = .ofb → c = s.dp.chain) : msgOutput s m i x c = equation s m i x c := by
  have hcounter (h : s.ctx.mode = .ctr ∨ s.ctx.mode = .rd) :
      counterBlock (ctxB s) s.dp.ctrBase (s.ctx.delta.getD 0) i =
        counter (ctxB s) (s.ctx.iv.getD []) (s.ctx.delta.getD 0) i := by
    rw [counterBlock, hctr h, counter]
  unfold msgOutput msgCipherInput equation
  cases hdir : m.dir with
  | encrypt =>
    cases hmode : s.ctx.mode with
    | ecb | cbc | pcbc | cfb => rfl
    | ofb =>
      rw [hc hmode]
      rfl
    | ctr =>
      rw [hcounter (.inl hmode)]
      rfl
    | rd =>
      rw [hcounter (.inr hmode)]
      rfl
  | decrypt =>
    cases hmode : s.ctx.mode with
    | ecb | cbc | pcbc | cfb => rfl
    | ofb =>
      rw [hc hmode]
      rfl
    | ctr =>
      rw [hcounter (.inl hmode)]
      rfl
    | rd =>
      rw [hcounter (.inr hmode)]
      rfl

theorem runningOutput_of_whole {s : State} {m : MsgRun} {i : Nat} (h : WholeInput s m i) (random random' : List Byte) :
    runningOutput s m random i = runningOutput s m random' i := by
  rw [runningOutput_eq, runningOutput_eq, inputOf_of_whole h, inputOf_of_whole h, carriedOf_congr_random]

/-- The output goes by the context, the tables, the source and the chain registers. -/
theorem runningOutput_congr {s t : State} {m m' : MsgRun} (hctx : t.ctx = s.ctx) (hftab : t.ftab = s.ftab)
    (hsource : sourceOf t = sourceOf s) (hchain : t.dp.chain = s.dp.chain) (hchainP : t.dp.chainP = s.dp.chainP)
    (hdir : m'.dir = m.dir) (random : List Byte) (i : Nat) :
    runningOutput t m' random i = runningOutput s m random i := by
  have hB : ctxB t = ctxB s := ctxB_congr hctx
  simp only [runningOutput_eq, equation, carriedOf, inputOf, hctx, hftab, hsource, hchain, hchainP, hdir, hB]

/-! ### The accesses of a block -/

section
variable {s : State} {m : MsgRun} {i : Nat}

/-- What a running message goes by: its context and its issue-time checks, a sequencer that its steps can have led to, a
source that the host has not raced, and data memory in its canonical form. -/
structure Going (s : State) (m : MsgRun) : Prop where
  seq : s.seq = .msg m
  context : ContextOk s.params s.ctx
  running : MessageRunning s m
  run : RunOk s m
  raced : s.raced = []
  canonical : memoryWf s.mem = true

theorem Going.chainOk (h : Going s m) : ChainOk s where
  context := h.context
  chain_block := h.running.chain_block
  chainP_block := h.running.chainP_block

theorem Going.setEnv (h : Going s m) (e : Env) : Going (setEnv e s) m where
  seq := h.seq
  context := h.context
  running := h.running.congr rfl rfl rfl rfl rfl h.running.chain_block h.running.chainP_block rfl
  run := h.run.congr rfl rfl
  raced := h.raced
  canonical := h.canonical

/-- A message has one block for each whole block of its source, and at most one more, a tail to encrypt (R122). -/
theorem blockCount_bounds {dir : Direction} {pad : Padding} {b l n : Nat} (h : blockCount dir pad b l = .ok n) :
    n ≤ l / b + 1 ∧ (dir = .decrypt → n = l / b) := by
  unfold blockCount at h
  grind

theorem mul_add_le_of_lt_div {i l b : Nat} (h : i < l / b) : i * b + b ≤ l := by
  rw [← Nat.succ_mul]
  exact (Nat.mul_le_mul_right b h).trans (Nat.div_mul_le_self l b)

theorem Going.block_fits (h : Going s m) (hi : i < m.n) (hwhole : WholeInput s m i) :
    i * ctxB s + ctxB s ≤ s.latched.len.toNat := by
  refine mul_add_le_of_lt_div ?_
  cases hdir : m.dir with
  | encrypt => exact hwhole hdir
  | decrypt => exact hi.trans_eq ((blockCount_bounds h.running.count_eq).2 hdir)

/-- No block of a message but its last can be a tail. -/
theorem Going.eq_of_not_whole (h : Going s m) (hi : i < m.n) (htail : ¬ WholeInput s m i) :
    i = s.latched.len.toNat / ctxB s := by
  obtain ⟨-, hge⟩ := Classical.not_imp.1 htail
  have hle := (blockCount_bounds h.running.count_eq).1
  omega

theorem busRead_bytes (hr : s.raced = []) (a n : Nat) : (busRead a n s).2.env.bytes = s.env.bytes := by
  obtain ⟨e, he⟩ := drawBus_spec s
  have hbytes := drawBus_bytes s
  rw [he] at hbytes
  by_cases hn : n = 0
  · simp [busRead, hn]
  · cases hok : (drawBus s).1 <;> simpa [busRead, hn, hok, he, hr] using hbytes

theorem busWrite_bytes (a : Nat) (b : List Byte) (s : State) : (busWrite a b s).2.env.bytes = s.env.bytes := by
  have hbytes := drawBus_bytes s
  unfold busWrite
  split
  · rfl
  · dsimp only
    split <;> exact hbytes

/-- A completed read of block `i` gives the input block of R123, the tail filled with bytes drawn now. -/
theorem Going.eq_inputOf (h : Going s m) (hi : i < m.n) {x : List Byte} {s1 : State}
    (hx : readBlock m i s = (some x, s1)) :
    ∃ random, TailDraw s random ∧ x = inputOf s m random i ∧ (WholeInput s m i → s1.env.bytes = s.env.bytes) := by
  by_cases hwhole : WholeInput s m i
  · obtain ⟨random, hrandom⟩ := exists_tailDraw s
    rw [readBlock_of_whole hwhole] at hx
    refine ⟨random, hrandom, ?_, fun _ => by rw [← busRead_bytes h.raced, hx]⟩
    rw [inputOf_of_whole hwhole, sourceOf, sub_readBytes _ _ (h.block_fits hi hwhole), Nat.add_sub_cancel_left]
    exact busRead_value h.raced (by rw [hx])
  · obtain ⟨hdir, hnone, hsome⟩ := readBlock_of_tail hwhole
    rcases hread : busRead (s.latched.src.toNat + s.latched.len.toNat / ctxB s * ctxB s)
        (s.latched.len.toNat % ctxB s) s with ⟨_ | d, s2⟩
    · cases (hnone s2 hread).symm.trans hx
    · obtain ⟨e, he⟩ := (busRead_spec (s.latched.src.toNat + s.latched.len.toNat / ctxB s * ctxB s)
        (s.latched.len.toNat % ctxB s) s).1
      obtain rfl : s2 = Machine.setEnv e s := by rw [← he, hread]
      have hbytes : e.bytes = s.env.bytes := by
        have := busRead_bytes h.raced (s.latched.src.toNat + s.latched.len.toNat / ctxB s * ctxB s)
          (s.latched.len.toNat % ctxB s)
        rwa [hread] at this
      have hdata : d = sub (sourceOf s) (s.latched.len.toNat / ctxB s * ctxB s) s.latched.len.toNat := by
        rw [sourceOf, sub_readBytes _ _ le_rfl, ← Nat.mod_eq_sub_div_mul]
        exact busRead_value h.raced (by rw [hread])
      cases (hsome d _ hread).symm.trans hx
      refine ⟨_, (tailDraw_drawBytes (Machine.setEnv e s)).congr rfl rfl hbytes.symm, ?_, fun hw => absurd hw hwhole⟩
      have hge : ¬ i < (sourceOf s).length / ctxB s := by
        rw [length_sourceOf]
        exact (Classical.not_imp.1 hwhole).2
      rw [inputOf, hdir, inputBlock, if_neg hge, length_sourceOf, hdata]
      rfl

/-- A completed read of what block `i` takes over gives C_(i-1) or O_(i-1). -/
theorem Going.eq_carriedOf (h : Going s m) (hi : i < m.n) {c : List Byte} {s1 : State}
    (hc : readCarried m i s = (some c, s1)) (random : List Byte) :
    c = carriedOf s m random i ∧ s1.env.bytes = s.env.bytes := by
  unfold readCarried at hc
  unfold carriedOf
  split at hc
  · rename_i hprev
    rw [if_pos hprev]
    split at hc
    · rename_i hzero
      cases hc
      exact ⟨(if_pos hzero).symm, rfl⟩
    · rename_i hzero
      have hwhole := wholeInput_of_decrypt (s := s) (readsPrevious_decrypt hprev) (i - 1)
      refine ⟨?_, by rw [← busRead_bytes h.raced, hc]⟩
      rw [if_neg hzero, inputOf_of_whole hwhole, sourceOf, sub_readBytes _ _ (h.block_fits (by omega) hwhole),
        Nat.add_sub_cancel_left]
      exact busRead_value h.raced (by rw [hc])
  · rename_i hprev
    cases hc
    exact ⟨(if_neg hprev).symm, rfl⟩

end

/-! ### A completed block -/

/-- The running message `s` after lane `l` has completed its next block, the tail filled with `random`; `e` are the
placed answers left. -/
def blockDone (m : MsgRun) (l : Nat) (random : List Byte) (e : Env) (s : State) : State :=
  let i := nextBlock s m l
  completeBlock m l i (inputOf s m random i) (carriedOf s m random i) (runningOutput s m random i)
    (setMem (writeBytes s.mem (s.latched.dst.toNat + i * ctxB s) (runningOutput s m random i)) (setEnv e s))

section
variable (m : MsgRun) (l : Nat) (random : List Byte) (e : Env) (s : State)

@[simp] theorem blockDone_params : (blockDone m l random e s).params = s.params := completeBlock_params ..
@[simp] theorem blockDone_status : (blockDone m l random e s).status = s.status := completeBlock_status ..
@[simp] theorem blockDone_error : (blockDone m l random e s).error = s.error := completeBlock_error ..
@[simp] theorem blockDone_out :
    (blockDone m l random e s).out = { s.out with doneBlocks := s.out.doneBlocks + 1 } := completeBlock_out ..
@[simp] theorem blockDone_latched : (blockDone m l random e s).latched = s.latched := completeBlock_latched ..
@[simp] theorem blockDone_ctx : (blockDone m l random e s).ctx = s.ctx := completeBlock_ctx ..
@[simp] theorem blockDone_ftab : (blockDone m l random e s).ftab = s.ftab := completeBlock_ftab ..
@[simp] theorem blockDone_seq : (blockDone m l random e s).seq = .msg (advanceRun m l) := completeBlock_seq ..
@[simp] theorem blockDone_raced : (blockDone m l random e s).raced = s.raced := completeBlock_raced ..
@[simp] theorem blockDone_env : (blockDone m l random e s).env = e := completeBlock_env ..

theorem blockDone_mem :
    (blockDone m l random e s).mem =
      writeBytes s.mem (s.latched.dst.toNat + nextBlock s m l * ctxB s) (runningOutput s m random (nextBlock s m l)) :=
  completeBlock_mem ..

@[simp] theorem ctxB_blockDone : ctxB (blockDone m l random e s) = ctxB s := ctxB_congr (blockDone_ctx ..)

@[simp] theorem runWidth_blockDone (m' : MsgRun) : runWidth (blockDone m l random e s) m' = runWidth s m' :=
  runWidth_congr (blockDone_params ..) (blockDone_ctx ..) m'

@[simp] theorem runWidth_advanceRun : runWidth s (advanceRun m l) = runWidth s m := rfl

end

/-- Lane `l` may complete its next block in `s`, a tail filled with `random`, and `e` is left of the placed answers: input
and output are whole blocks, and only a tail takes free bytes. -/
structure BlockTaken (s : State) (m : MsgRun) (l : Nat) (random : List Byte) (e : Env) : Prop where
  ready : l ∈ readyLanes s m
  bytes : WholeInput s m (nextBlock s m l) → e.bytes = s.env.bytes
  input_length : (inputOf s m random (nextBlock s m l)).length = ctxB s
  carried : CarriedFrom s m (carriedOf s m random (nextBlock s m l))
  output_length : (runningOutput s m random (nextBlock s m l)).length = ctxB s

section
variable {s : State} {m : MsgRun}

theorem storeBlock_of_unraced {k : Nat} (hr : s.raced = []) (hk : Completes (k + 1) s) (l i : Nat) (x c : List Byte) :
    ∃ e, e.bytes = s.env.bytes ∧
      storeBlock m l i x c s =
        completeBlock m l i x c (msgOutput s m i x c)
          (setMem (writeBytes s.mem (s.latched.dst.toNat + i * ctxB s) (msgOutput s m i x c)) (setEnv e s)) := by
  have hout : racedOutput (msgOutput s m i x c) s = (msgOutput s m i x c, s) := (racedOutput_spec _ s).2.2 hr
  obtain ⟨s1, hwrite, -⟩ := busWrite_of_completes hk (s.latched.dst.toNat + i * ctxB s) (msgOutput s m i x c)
  obtain ⟨e, he⟩ := busWrite_spec (s.latched.dst.toNat + i * ctxB s) (msgOutput s m i x c) s
  have hbytes := busWrite_bytes (s.latched.dst.toNat + i * ctxB s) (msgOutput s m i x c) s
  rw [hwrite] at he hbytes
  obtain rfl : s1 = setMem (writeBytes s.mem (s.latched.dst.toNat + i * ctxB s) (msgOutput s m i x c)) (setEnv e s) :=
    he
  refine ⟨e, hbytes, ?_⟩
  simp only [storeBlock, hout, hwrite]

theorem Going.msgOutput_eq_runningOutput (h : Going s m) (random : List Byte) (i : Nat) :
    msgOutput s m i (inputOf s m random i) (carriedOf s m random i) = runningOutput s m random i := by
  rw [runningOutput_eq]
  refine msgOutput_eq_equation (fun hmode => ?_) _ _ _ fun hmode => ?_
  · obtain ⟨iv, hiv, -⟩ := h.context.iv_present (by rcases hmode with hmode | hmode <;> simp [hmode])
    rw [h.running.ctrBase_eq iv hiv, hiv]
    rfl
  · have hprev : ¬ readsPrevious s.ctx.mode m.dir = true := by simp [readsPrevious_iff, hmode]
    exact if_neg hprev

/-- A step of a ready lane completes its block where the platform completes three accesses. -/
theorem Going.blockStep_eq (h : Going s m) {l k : Nat} (hl : l ∈ readyLanes s m) (hk : Completes (k + 3) s) :
    ∃ random e, TailDraw s random ∧ BlockTaken s m l random e ∧ blockStep m l s = blockDone m l random e s := by
  have hi : nextBlock s m l < m.n := (mem_eligible.1 (h.run.eligible_of_ready hl)).2
  obtain ⟨x, s1, hx, hk1⟩ := readBlock_of_completes hk m (nextBlock s m l)
  obtain ⟨random, hdraw, hinput, hbytes⟩ := h.eq_inputOf hi hx
  obtain ⟨e1, he1⟩ := readBlock_env m (nextBlock s m l) s
  obtain rfl : s1 = Machine.setEnv e1 s := by rw [← he1, hx]
  obtain ⟨c, s2, hc, hk2⟩ := readCarried_of_completes hk1 m (nextBlock s m l)
  obtain ⟨hcarried, hbytes2⟩ := (h.setEnv e1).eq_carriedOf hi hc random
  obtain ⟨e2, he2⟩ := readCarried_env m (nextBlock s m l) (Machine.setEnv e1 s)
  obtain rfl : s2 = Machine.setEnv e2 s := by rw [← setEnv_setEnv e2 e1 s, ← he2, hc]
  obtain ⟨e, he, hstore⟩ := storeBlock_of_unraced (s := Machine.setEnv e2 s) (m := m) h.raced hk2 l (nextBlock s m l) x c
  have hcarried : c = carriedOf s m random (nextBlock s m l) := hcarried
  have hout : msgOutput s m (nextBlock s m l) x c = runningOutput s m random (nextBlock s m l) := by
    rw [hinput, hcarried]
    exact h.msgOutput_eq_runningOutput random _
  have hlen : x.length = ctxB s := length_readBlock (by rw [hx])
  have hfrom : CarriedFrom s m c := carriedFrom_readCarried (s := Machine.setEnv e1 s) (by rw [hc])
  refine ⟨random, e, hdraw, ?_, ?_⟩
  · exact
      { ready := hl
        bytes := fun hwhole => he.trans (hbytes2.trans (hbytes hwhole))
        input_length := hinput ▸ hlen
        carried := hcarried ▸ hfrom
        output_length := hout ▸ h.chainOk.length_msgOutput hlen hfrom }
  · rw [blockStep_of_reads hx hc, hstore]
    rw [show msgOutput (Machine.setEnv e2 s) m (nextBlock s m l) x c = _ from hout, hinput, hcarried]
    rfl

/-- The bytes that fill a tail are nothing to a whole block. -/
theorem BlockTaken.congr_random {l : Nat} {random : List Byte} {e : Env} (ht : BlockTaken s m l random e)
    (hwhole : WholeInput s m (nextBlock s m l)) (random' : List Byte) :
    BlockTaken s m l random' e ∧ blockDone m l random e s = blockDone m l random' e s := by
  have hinput : inputOf s m random (nextBlock s m l) = inputOf s m random' (nextBlock s m l) := by
    rw [inputOf_of_whole hwhole, inputOf_of_whole hwhole]
  have hcarried := carriedOf_congr_random s m random random' (nextBlock s m l)
  have houtput := runningOutput_of_whole hwhole random random'
  refine ⟨?_, by simp only [blockDone, hinput, hcarried, houtput]⟩
  exact { ht with
    input_length := hinput ▸ ht.input_length
    carried := hcarried ▸ ht.carried
    output_length := houtput ▸ ht.output_length }

/-- A message goes on from block to block. -/
theorem Going.blockDone (h : Going s m) {l : Nat} {random : List Byte} {e : Env} (ht : BlockTaken s m l random e) :
    Going (blockDone m l random e s) (advanceRun m l) where
  seq := blockDone_seq ..
  context := by
    rw [blockDone_params, blockDone_ctx]
    exact h.context
  running :=
    (completeBlock_messageInv (h.running.messageInv h.seq) h.chainOk h.seq ht.input_length ht.carried l _ _ _ e).running
      (completeBlock_seq ..)
  run := (h.run.advance ht.ready).congr (blockDone_params ..) (blockDone_ctx ..)
  raced := (blockDone_raced ..).trans h.raced
  canonical := by
    rw [blockDone_mem]
    exact memoryWf_writeBytes h.canonical _ _

/-- A step of a message that has a block left completes one, where the platform completes three accesses. -/
theorem Going.engineStep_eq (h : Going s m) (hready : readyLanes s m ≠ []) {k : Nat} (hk : Completes (k + 3) s) :
    ∃ l random e, TailDraw s random ∧ BlockTaken s m l random e ∧
      engineStep s = Machine.blockDone m l random e s ∧ Completes k (Machine.blockDone m l random e s) := by
  obtain ⟨l, e0, hl, hbus, hbytes, hstep⟩ := msgStep_of_ready hready
  have hk0 : Completes (k + 3) (Machine.setEnv e0 s) := hk.congr hbus
  obtain ⟨random, e, hdraw, ht, hblock⟩ := (h.setEnv e0).blockStep_eq hl hk0
  have hstep' : engineStep s = Machine.blockDone m l random e s :=
    (engineStep_of_msg h.seq).trans (hstep.trans hblock)
  refine ⟨l, random, e, hdraw.congr rfl rfl hbytes.symm, ?_, hstep', ?_⟩
  · exact { ht with bytes := fun hwhole => (ht.bytes hwhole).trans hbytes }
  · rw [← hstep', engineStep_of_msg h.seq, hstep]
    exact (blockStep_of_completes hk0 m l).2

end

end Sys2Proof.Machine
end

section
/-! PROOFS. What completing one block does to data memory, and the end of a cancelled message (46_modes.md R126, R131,
R136; 20_memory.md R45). -/

namespace Sys2Proof.Machine

open Sys2Proof.Claim

/-! ### Data memory after a block -/

/-- Where output block `i` of a running message stands. -/
def blockPlace (s : State) (i : Nat) : Nat := s.latched.dst.toNat + i * ctxB s

/-- Address `x` lies in output block `i`. -/
def inBlock (s : State) (i x : Nat) : Prop := blockPlace s i ≤ x ∧ x < blockPlace s i + ctxB s

@[simp] theorem blockPlace_blockDone (m : MsgRun) (l : Nat) (random : List Byte) (e : Env) (s : State) (i : Nat) :
    blockPlace (blockDone m l random e s) i = blockPlace s i := by
  rw [blockPlace, blockPlace, blockDone_latched, ctxB_blockDone]

@[simp] theorem inBlock_blockDone (m : MsgRun) (l : Nat) (random : List Byte) (e : Env) (s : State) (i x : Nat) :
    inBlock (blockDone m l random e s) i x ↔ inBlock s i x := by
  rw [inBlock, inBlock, blockPlace_blockDone, ctxB_blockDone]

theorem not_inBlock_of_inBlock {s : State} {i j x : Nat} (hij : i ≠ j) (h : inBlock s i x) : ¬ inBlock s j x := by
  have hmul {p q : Nat} (hpq : p < q) : p * ctxB s + ctxB s ≤ q * ctxB s := by
    rw [← Nat.succ_mul]
    exact Nat.mul_le_mul_right _ hpq
  unfold inBlock blockPlace at *
  rcases Nat.lt_or_gt_of_ne hij with hlt | hlt
  · have := hmul hlt
    omega
  · have := hmul hlt
    omega

section
variable {s : State} {m : MsgRun} {l : Nat} {random : List Byte} {e : Env}

theorem Going.nextBlock_lt (h : Going s m) (hl : l ∈ readyLanes s m) : nextBlock s m l < m.n :=
  (mem_eligible.1 (h.run.eligible_of_ready hl)).2

/-- Completing a block writes its own place alone. -/
theorem BlockTaken.writesOnly (ht : BlockTaken s m l random e) :
    WritesOnly (inBlock s (nextBlock s m l)) s.mem (blockDone m l random e s).mem := by
  rw [blockDone_mem]
  refine (writesOnly_writeBytes ..).mono fun x hx => ?_
  rwa [ht.output_length] at hx

theorem BlockTaken.readBytes_same (ht : BlockTaken s m l random e) (hs : memoryWf s.mem = true) :
    readBytes (blockDone m l random e s).mem (blockPlace s (nextBlock s m l)) (ctxB s) =
      runningOutput s m random (nextBlock s m l) := by
  have hread :=
    readBytes_writeBytes hs (blockPlace s (nextBlock s m l)) (runningOutput s m random (nextBlock s m l))
  rw [ht.output_length] at hread
  rw [blockDone_mem]
  exact hread

theorem BlockTaken.readBytes_other (ht : BlockTaken s m l random e) {i : Nat} (hi : i ≠ nextBlock s m l) :
    readBytes (blockDone m l random e s).mem (blockPlace s i) (ctxB s) = readBytes s.mem (blockPlace s i) (ctxB s) :=
  ht.writesOnly.readBytes fun _ hle hlt => not_inBlock_of_inBlock hi ⟨hle, hlt⟩

/-- The destination lies apart from the source, so that the source stays as it is. -/
theorem Going.sourceOf_blockDone (h : Going s m) (ht : BlockTaken s m l random e) :
    sourceOf (Machine.blockDone m l random e s) = sourceOf s := by
  rw [sourceOf, sourceOf, blockDone_latched]
  refine ht.writesOnly.readBytes fun x hle hlt hin => ?_
  have hi := h.nextBlock_lt ht.ready
  have hblock : nextBlock s m l * ctxB s + ctxB s ≤ m.n * ctxB s := by
    rw [← Nat.succ_mul]
    exact Nat.mul_le_mul_right _ hi
  unfold inBlock blockPlace at hin
  exact (intersect_eq_false_iff ..).1 h.running.disjoint ⟨x, hle, hlt, by omega, by omega⟩

end

/-! ### Lanes and their blocks (R126) -/

theorem nextBlock_mod {s : State} {m : MsgRun} {l : Nat} (hl : l < runWidth s m) :
    nextBlock s m l % runWidth s m = l := by
  rw [nextBlock, Nat.add_mul_mod_self_left, Nat.mod_eq_of_lt hl]

theorem nextBlock_ne {s : State} {m : MsgRun} {l k : Nat} (hl : l < runWidth s m) (hk : k < runWidth s m)
    (h : k ≠ l) : nextBlock s m k ≠ nextBlock s m l := fun heq =>
  h (by rw [← nextBlock_mod hl, ← nextBlock_mod hk, heq])

theorem nextBlock_blockDone {m : MsgRun} {l k : Nat} (h : k ≠ l) (random : List Byte) (e : Env) (s : State) :
    nextBlock (blockDone m l random e s) (advanceRun m l) k = nextBlock s m k := by
  rw [nextBlock, nextBlock, runWidth_blockDone, runWidth_advanceRun, laneDone_advanceRun_other m h]

/-- Two lanes run for a parallel pair alone. -/
theorem parallel_of_two_lanes {s : State} {m : MsgRun} {l k : Nat} (hl : l < runWidth s m) (hk : k < runWidth s m)
    (h : k ≠ l) : parallel s.ctx.mode m.dir = true := by
  by_contra hseq
  have hone : runWidth s m = 1 := by simp [runWidth, hseq]
  omega

/-- Beside a lane whose next block is a tail, every other lane's is whole. -/
theorem Going.whole_beside_tail {s : State} {m : MsgRun} (h : Going s m) {l k : Nat} (hl : l ∈ eligible s m)
    (hk : k ∈ eligible s m) (hkl : k ≠ l) (htail : ¬ WholeInput s m (nextBlock s m l)) :
    WholeInput s m (nextBlock s m k) := by
  obtain ⟨hlane, hnext⟩ := mem_eligible.1 hl
  obtain ⟨hlane', hnext'⟩ := mem_eligible.1 hk
  by_contra htail'
  refine nextBlock_ne hlane hlane' hkl ?_
  rw [h.eq_of_not_whole hnext' htail', h.eq_of_not_whole hnext htail]

/-- The blocks of a parallel pair leave CHAIN alone (R125). -/
theorem nextChain_of_parallel {mode : Mode} {dir : Direction} (h : parallel mode dir = true) (x c v y : List Byte) :
    nextChain mode dir x c v y = c := by
  cases mode with
  | ecb | ctr | rd => rfl
  | pcbc | ofb => cases h
  | cbc | cfb =>
    cases dir with
    | encrypt => cases h
    | decrypt => rfl

/-- The blocks of a parallel pair leave CHAINP alone: PCBC is sequential (R125). -/
theorem nextChainP_of_parallel {mode : Mode} {dir : Direction} (h : parallel mode dir = true) (x p y : List Byte) :
    nextChainP mode dir x p y = p := by
  cases mode with
  | pcbc => cases h
  | ecb | cbc | cfb | ofb | ctr | rd => rfl

/-! ### How a cancelled message ends -/

theorem readyLanes_of_inFlight {s : State} {m : MsgRun} {f : List Nat} (hf : m.inFlight = some f) :
    readyLanes s m = f := by
  rw [readyLanes, hf]

theorem finishMsg_of_inFlight {m : MsgRun} {f : List Nat} (hf : m.inFlight = some f) (s : State) :
    finishMsg m s = terminal .cancelled (setOutLen 0 s) := by
  rw [finishMsg, hf]

theorem inFlight_advanceRun {m : MsgRun} {f : List Nat} (hf : m.inFlight = some f) (l : Nat) :
    (advanceRun m l).inFlight = some (f.erase l) := by
  rw [advanceRun, hf]
  rfl

/-- `t` is where a cancelled message that ran in `s` ended: CANCELLED with `count` blocks more, or FAILED where one was in
flight and not every access completed. -/
structure CancelledEnd (s : State) (dir : Direction) (count : Nat) (t : State) : Prop where
  seq : t.seq = .idle
  cancelPending : t.status.cancelPending = false
  irqTerminal : t.irqTerminal = true
  outcome :
    (t.status.engine = .cancelled ∧ t.out.outLen = 0 ∧ t.error = s.error ∧
      t.out.doneBlocks = s.out.doneBlocks + BitVec.ofNat 32 count) ∨
    (t.status.engine = .failed ∧ t.error = some { code := .busError, op := opcode (msgInstr dir) } ∧
      0 < count ∧ ¬ Completes (3 * count) s)

/-- The end after one block more: its three accesses are among those that were to complete. -/
theorem CancelledEnd.of_block {s s' t : State} {dir : Direction} {count : Nat} (h : CancelledEnd s' dir count t)
    (herror : s'.error = s.error) (hdone : s'.out.doneBlocks = s.out.doneBlocks + 1)
    (hbus : ∀ k, Completes (k + 3) s → Completes k s') : CancelledEnd s dir (count + 1) t where
  seq := h.seq
  cancelPending := h.cancelPending
  irqTerminal := h.irqTerminal
  outcome := by
    refine h.outcome.imp (fun ⟨hengine, hlen, herr, hblocks⟩ => ?_) fun ⟨hengine, herr, _, hfails⟩ => ?_
    · refine ⟨hengine, hlen, herr.trans herror, ?_⟩
      rw [hblocks, hdone, BitVec.add_assoc, BitVec.add_comm 1, BitVec.ofNat_add]
      rfl
    · exact ⟨hengine, herr, Nat.succ_pos count, fun hall => hfails (hbus _ hall)⟩

/-- By the number of blocks in flight: each step completes one of them or fails. -/
theorem cancelled_ends {s : State} {m : MsgRun} {f : List Nat} (hseq : s.seq = .msg m) (hf : m.inFlight = some f) :
    ∃ k, k ≤ f.length + 1 ∧ CancelledEnd s m.dir f.length (engineSteps k s) := by
  generalize hcount : f.length = count
  induction count generalizing s m f with
  | zero =>
    obtain rfl : f = [] := List.eq_nil_of_length_eq_zero hcount
    refine ⟨1, le_rfl, ?_⟩
    rw [engineSteps_succ, engineSteps_zero, engineStep_of_msg hseq, msgStep_of_not_ready (readyLanes_of_inFlight hf),
      finishMsg_of_inFlight hf]
    exact ⟨rfl, rfl, rfl, .inl ⟨rfl, rfl, rfl, (BitVec.add_zero _).symm⟩⟩
  | succ count ih =>
    have hready := readyLanes_of_inFlight (s := s) hf
    have hne : f ≠ [] := List.ne_nil_of_length_eq_add_one hcount
    obtain ⟨l, e, hl, hbus, -, hstep⟩ := msgStep_of_ready (hready ▸ hne)
    have hblock (k : Nat) (hk : Completes (k + 3) s) := blockStep_of_completes (s := setEnv e s) (hk.congr hbus) m l
    rw [← engineStep_of_msg hseq] at hstep
    rw [hready] at hl
    rcases blockStep_cases m l (setEnv e s) with ⟨e', hfail⟩ | ⟨e', x, c, y, hdone, -⟩
    · refine ⟨1, by omega, ?_⟩
      rw [engineSteps_succ, engineSteps_zero, hstep, hfail]
      refine ⟨rfl, rfl, rfl, .inr ⟨rfl, rfl, Nat.succ_pos count, fun hall => ?_⟩⟩
      have hrunning := (hblock _ hall).1
      rw [hfail] at hrunning
      cases hrunning
    · have hcount' : (f.erase l).length = count := by rw [List.length_erase_of_mem hl, hcount, Nat.add_sub_cancel]
      obtain ⟨k, hk, hend⟩ := ih (s := engineStep s) (m := advanceRun m l) (by rw [hstep, hdone, completeBlock_seq])
        (inFlight_advanceRun hf l) hcount'
      refine ⟨k + 1, by omega, hend.of_block ?_ ?_ fun j hj => ?_⟩
      · rw [hstep, hdone, completeBlock_error]
        rfl
      · rw [hstep, hdone, completeBlock_out]
        rfl
      · rw [hstep]
        exact (hblock j hj).2

/-! ### The blocks in flight -/

/-- In `t` the blocks in flight of lanes `f` stand at their places, and every other byte is as in `s`. -/
structure FlightDone (s : State) (m : MsgRun) (f : List Nat) (random : List Byte) (t : State) : Prop where
  blocks : ∀ l ∈ f, readBytes t.mem (blockPlace s (nextBlock s m l)) (ctxB s) =
    runningOutput s m random (nextBlock s m l)
  frame : WritesOnly (fun x => ∃ l ∈ f, inBlock s (nextBlock s m l) x) s.mem t.mem

section
variable {s t : State} {m : MsgRun} {l : Nat} {random : List Byte} {e : Env}

theorem blockDone_chain :
    (blockDone m l random e s).dp.chain =
      nextChain s.ctx.mode m.dir (inputOf s m random (nextBlock s m l)) s.dp.chain
        (crypt s (cipherUse s.ctx.mode m.dir)
          (msgCipherInput s m (nextBlock s m l) (inputOf s m random (nextBlock s m l))
            (carriedOf s m random (nextBlock s m l))))
        (msgOutput s m (nextBlock s m l) (inputOf s m random (nextBlock s m l))
          (carriedOf s m random (nextBlock s m l))) := rfl

theorem blockDone_chainP :
    (blockDone m l random e s).dp.chainP =
      nextChainP s.ctx.mode m.dir (inputOf s m random (nextBlock s m l)) s.dp.chainP
        (msgOutput s m (nextBlock s m l) (inputOf s m random (nextBlock s m l))
          (carriedOf s m random (nextBlock s m l))) := rfl

/-- A block of a parallel pair changes no output of another one. -/
theorem Going.runningOutput_blockDone (h : Going s m) (ht : BlockTaken s m l random e)
    (hpar : parallel s.ctx.mode m.dir = true) (random' : List Byte) (i : Nat) :
    runningOutput (Machine.blockDone m l random e s) (advanceRun m l) random' i = runningOutput s m random' i := by
  have hchain : (Machine.blockDone m l random e s).dp.chain = s.dp.chain := by
    rw [blockDone_chain, nextChain_of_parallel hpar]
  have hchainP : (Machine.blockDone m l random e s).dp.chainP = s.dp.chainP := by
    rw [blockDone_chainP, nextChainP_of_parallel hpar]
  exact runningOutput_congr (blockDone_ctx ..) (blockDone_ftab ..) (h.sourceOf_blockDone ht) hchain hchainP rfl random' i

/-- The blocks in flight are those of the first step and those of the later ones; one of them at most is a tail, and it
is filled with the bytes drawn in its own step. -/
theorem FlightDone.of_block (h : Going s m) (ht : BlockTaken s m l random e) {f : List Nat}
    (hf : m.inFlight = some f) {random' : List Byte}
    (hend : FlightDone (blockDone m l random e s) (advanceRun m l) (f.erase l) random' t) {filled : List Byte}
    (hwhole : WholeInput s m (nextBlock s m l) → filled = random')
    (htail : ¬ WholeInput s m (nextBlock s m l) → filled = random) : FlightDone s m f filled t := by
  have hnodup := h.run.flight_nodup f hf
  have helig {k : Nat} (hk : k ∈ f) : k ∈ eligible s m := h.run.flight_eligible f hf k hk
  have hlane {k : Nat} (hk : k ∈ f) : k < runWidth s m := (mem_eligible.1 (helig hk)).1
  have hl : l ∈ f := readyLanes_of_inFlight (s := s) hf ▸ ht.ready
  have hne {k : Nat} (hk : k ∈ f.erase l) : k ≠ l ∧ k ∈ f := hnodup.mem_erase_iff.1 hk
  have hframe : WritesOnly (fun x => ∃ k ∈ f.erase l, inBlock s (nextBlock s m k) x)
      (blockDone m l random e s).mem t.mem := by
    refine hend.frame.mono fun x ⟨k, hk, hx⟩ => ⟨k, hk, ?_⟩
    rwa [inBlock_blockDone, nextBlock_blockDone (hne hk).1] at hx
  refine ⟨fun k hk => ?_, ?_⟩
  · by_cases hkl : k = l
    · subst hkl
      rw [hframe.readBytes fun x hle hlt ⟨j, hj, hx⟩ => ?apart, ht.readBytes_same h.canonical]
      case apart =>
        obtain ⟨hjk, hjf⟩ := hne hj
        exact not_inBlock_of_inBlock (nextBlock_ne (hlane hl) (hlane hjf) hjk).symm ⟨hle, hlt⟩ hx
      by_cases hw : WholeInput s m (nextBlock s m k)
      · exact runningOutput_of_whole hw _ _
      · rw [htail hw]
    · have hblock := hend.blocks k (hnodup.mem_erase_iff.2 ⟨hkl, hk⟩)
      rw [blockPlace_blockDone, ctxB_blockDone, nextBlock_blockDone hkl,
        h.runningOutput_blockDone ht (parallel_of_two_lanes (hlane hl) (hlane hk) hkl)] at hblock
      refine hblock.trans ?_
      by_cases hw : WholeInput s m (nextBlock s m l)
      · rw [hwhole hw]
      · exact runningOutput_of_whole (h.whole_beside_tail (helig hl) (helig hk) hkl hw) _ _
  · exact (ht.writesOnly.mono fun x hx => ⟨l, hl, hx⟩).trans
      (hframe.mono fun x ⟨k, hk, hx⟩ => ⟨k, (hne hk).2, hx⟩)

/-- On a platform that completes every access, the blocks in flight are completed one a step. -/
theorem Going.flightDone {f : List Nat} (h : Going s m) (hf : m.inFlight = some f)
    (hk : Completes (3 * f.length) s) :
    ∃ random, random.length = tailCount s ∧ FlightDone s m f random (engineSteps (f.length + 1) s) := by
  generalize hcount : f.length = count
  induction count generalizing s m f with
  | zero =>
    obtain rfl : f = [] := List.eq_nil_of_length_eq_zero hcount
    obtain ⟨random, hrandom⟩ := exists_tailDraw s
    refine ⟨random, hrandom.length_eq, by simp, ?_⟩
    rw [engineSteps_succ, engineSteps_zero, engineStep_of_msg h.seq, msgStep_of_not_ready (readyLanes_of_inFlight hf),
      finishMsg_of_inFlight hf]
    exact .refl _ _
  | succ count ih =>
    have hready := readyLanes_of_inFlight (s := s) hf
    have hne : f ≠ [] := List.ne_nil_of_length_eq_add_one hcount
    obtain ⟨l, random, e, hdraw, ht, hstep, hrest⟩ :=
      h.engineStep_eq (hready ▸ hne) (k := 3 * count) (hk.mono (by omega))
    have hl : l ∈ f := hready ▸ ht.ready
    have hcount' : (f.erase l).length = count := by rw [List.length_erase_of_mem hl, hcount, Nat.add_sub_cancel]
    obtain ⟨random', hlen', hend⟩ := ih (h.blockDone ht) (inFlight_advanceRun hf l) (hcount'.symm ▸ hrest) hcount'
    rw [engineSteps_succ, hstep]
    by_cases hwhole : WholeInput s m (nextBlock s m l)
    · exact ⟨random', hlen', .of_block h ht hf hend (fun _ => rfl) fun hw => absurd hwhole hw⟩
    · exact ⟨random, hdraw.length_eq, .of_block h ht hf hend (fun hw => absurd hw hwhole) fun _ => rfl⟩

end

theorem engineSteps_add (j k : Nat) (s : State) : engineSteps (j + k) s = engineSteps k (engineSteps j s) := by
  induction j generalizing s with
  | zero => rw [Nat.zero_add, engineSteps_zero]
  | succ j ih => rw [Nat.succ_add, engineSteps_succ, ih, engineSteps_succ]

theorem MachineInv.going {s : State} {m : MsgRun} (h : MachineInv s) (hseq : s.seq = .msg m) (hr : s.raced = []) :
    Going s m where
  seq := hseq
  context := h.contextOk hseq
  running := h.message.running hseq
  run := h.progress.run_ok m hseq
  raced := hr
  canonical := h.memory.1

/-- Settles O9: the end by the number of blocks in flight, and what they leave in data memory by the same induction from a
state that meets the invariants. -/
theorem cancelledMessageEnds : Obligations.CancelledMessageEnds := by
  intro s m f hseq hf
  obtain ⟨k, hk, hend⟩ := cancelled_ends hseq hf
  refine ⟨⟨k, hk, hend.seq, hend.cancelPending, hend.irqTerminal, ?_⟩, fun rest hinv hr hbus => ?_⟩
  · refine hend.outcome.imp_right fun ⟨hengine, herror, hpos, hfails⟩ => ⟨hengine, herror, ?_, not_exists.1 hfails⟩
    exact List.ne_nil_of_length_pos hpos
  · have hall : Completes (3 * f.length) s := ⟨rest, hbus⟩
    obtain ⟨random, hrandom, hblocks, hframe⟩ := (hinv.going hseq hr).flightDone hf hall
    have hlast : engineSteps (f.length + 1) s = engineSteps k s := by
      rw [← Nat.add_sub_cancel' hk, engineSteps_add, engineSteps_of_idle hend.seq]
    obtain ⟨hengine, hlen, herror, hdone⟩ := hend.outcome.resolve_right fun hfail => hfail.2.2.2 hall
    rw [hlast] at hblocks hframe
    refine ⟨random, hrandom, ?_⟩
    rw [hlast]
    refine ⟨hengine, hend.seq, hlen, herror, hdone, hblocks, fun a ha => hframe.frame a fun ⟨l, hl, hle, hlt⟩ => ?_⟩
    rcases ha l hl with hout | hout
    · exact Nat.not_lt.2 hle hout
    · exact Nat.not_lt.2 hout hlt

end Sys2Proof.Machine
end

section
/-! PROOFS. A message that starts and is left to run: what it has produced after each block, and that it ends when no lane
has a block left (46_modes.md R122..R128). -/

namespace Sys2Proof.Machine

open Sys2Proof.Claim

/-! ### The blocks that the lanes have completed (R126) -/

/-- Block `i` is among those that its lane, i mod P, has completed. -/
def IsCompleted (s : State) (m : MsgRun) (i : Nat) : Prop := i / runWidth s m < laneDone m (i % runWidth s m)

section
variable {s : State} {m : MsgRun} {l i : Nat}

/-- The completed blocks of lane `l` are its first ones. -/
theorem isCompleted_lane (hl : l < runWidth s m) (j : Nat) : IsCompleted s m (l + runWidth s m * j) ↔ j < laneDone m l := by
  rw [IsCompleted, Nat.add_mul_mod_self_left, Nat.mod_eq_of_lt hl, Nat.add_mul_div_left _ _ (runWidth_pos s m),
    Nat.div_eq_of_lt hl, Nat.zero_add]

theorem not_isCompleted_nextBlock (hl : l < runWidth s m) : ¬ IsCompleted s m (nextBlock s m l) := fun h =>
  Nat.lt_irrefl _ ((isCompleted_lane hl _).1 h)

theorem isCompleted_advanceRun (hl : l < runWidth s m) :
    IsCompleted s (advanceRun m l) i ↔ i = nextBlock s m l ∨ IsCompleted s m i := by
  have hdiv : i % runWidth s m + runWidth s m * (i / runWidth s m) = i := Nat.mod_add_div i _
  have hw : runWidth s (advanceRun m l) = runWidth s m := rfl
  unfold IsCompleted
  rw [hw]
  by_cases hlane : i % runWidth s m = l
  · rw [hlane] at hdiv ⊢
    have heq : i = nextBlock s m l ↔ i / runWidth s m = laneDone m l := by
      rw [nextBlock]
      constructor
      · intro h
        rw [h, Nat.add_mul_div_left _ _ (runWidth_pos s m), Nat.div_eq_of_lt hl, Nat.zero_add]
      · intro h
        rw [← h, hdiv]
    rw [laneDone_advanceRun_same, heq]
    omega
  · rw [laneDone_advanceRun_other m hlane]
    refine ⟨.inr, fun h => h.resolve_left fun heq => hlane ?_⟩
    rw [heq, nextBlock_mod hl]

theorem mem_counts_of_laneDone_pos {m : MsgRun} {l : Nat} (h : 0 < laneDone m l) : (l, laneDone m l) ∈ m.counts := by
  unfold laneDone at *
  generalize m.counts = counts at *
  induction counts with
  | nil => exact absurd h (Nat.lt_irrefl 0)
  | cons c rest ih =>
    obtain ⟨k, v⟩ := c
    by_cases hk : l = k
    · simp [lookupD, hk]
    · simp only [lookupD, if_neg hk] at h ⊢
      exact List.mem_cons_of_mem _ (ih h)

/-- What a lane has completed are blocks of the message. -/
theorem RunOk.lt_of_isCompleted (h : RunOk s m) (hi : IsCompleted s m i) : i < m.n := by
  have hmem := mem_counts_of_laneDone_pos (Nat.zero_lt_of_lt hi)
  rw [← Nat.mod_add_div i (runWidth s m)]
  exact h.laneBlocks_lt hmem hi

/-- Where no lane has a block left, every block is completed. -/
theorem isCompleted_of_eligible_nil (h : eligible s m = []) (hi : i < m.n) : IsCompleted s m i := by
  have hlane : i % runWidth s m < runWidth s m := Nat.mod_lt _ (runWidth_pos s m)
  have hnot : i % runWidth s m ∉ eligible s m := by simp [h]
  have hnext : m.n ≤ nextBlock s m (i % runWidth s m) := by
    by_contra hlt
    exact hnot (mem_eligible.2 ⟨hlane, Nat.lt_of_not_le hlt⟩)
  rw [nextBlock] at hnext
  refine Nat.lt_of_mul_lt_mul_left (a := runWidth s m) ?_
  have hdiv := Nat.mod_add_div i (runWidth s m)
  omega

/-- The lanes have completed every block exactly when none has one left. -/
theorem RunOk.eligible_eq_nil_iff (h : RunOk s m) (hf : m.inFlight = none) :
    eligible s m = [] ↔ blocksDone m = m.n := by
  constructor
  · intro hnil
    have hsub : List.range m.n ⊆ m.counts.flatMap (laneBlocks (runWidth s m)) := by
      intro i hi
      have hcompleted := isCompleted_of_eligible_nil hnil (List.mem_range.1 hi)
      refine List.mem_flatMap.2 ⟨_, mem_counts_of_laneDone_pos (Nat.zero_lt_of_lt hcompleted), ?_⟩
      exact mem_laneBlocks.2 ⟨i / runWidth s m, hcompleted, Nat.mod_add_div i _⟩
    have hlen := (List.nodup_range.subperm hsub).length_le
    refine Nat.le_antisymm h.blocksDone_le ?_
    simpa [List.length_flatMap, laneBlocks, blocksDone] using hlen
  · intro hall
    by_contra hne
    obtain ⟨l, hl⟩ := List.exists_mem_of_ne_nil _ hne
    have hready : l ∈ readyLanes s m := by
      rw [readyLanes, hf]
      exact hl
    have hmore := (h.advance hready).blocksDone_le
    rw [blocksDone_advanceRun h, hall] at hmore
    exact Nat.lt_irrefl _ hmore

end

/-! ### The recurrences of the modes (R124) -/

/-- Output block `i` of the message that starts in `s`. -/
def startOutput (s : State) (m : MsgRun) (random : List Byte) (i : Nat) : List Byte :=
  outputBlock m.dir (encryptBlock s.ftab s.ctx.rkt) (decryptBlock s.ftab s.ctx.rkt) s.ctx.mode (ctxB s)
    (s.ctx.iv.getD []) (s.ctx.delta.getD 0) (inputOf s m random) i

/-- O_(i-1) of OFB. -/
def streamBefore (s : State) : Nat → List Byte
  | 0 => s.ctx.iv.getD []
  | i + 1 => keystream (encryptBlock s.ftab s.ctx.rkt) (s.ctx.iv.getD []) i

/-- The one of two byte strings that a direction takes: the first to encrypt, the second to decrypt. -/
def byDirection : Direction → (enc dec : List Byte) → List Byte
  | .encrypt, enc, _ => enc
  | .decrypt, _, dec => dec

/-- C_(i-1): the ciphertext block before block `i`. -/
def cipherBefore (s : State) (m : MsgRun) (random : List Byte) : Nat → List Byte
  | 0 => s.ctx.iv.getD []
  | i + 1 => byDirection m.dir (startOutput s m random i) (inputOf s m random i)

/-- P_(i-1): the plaintext block before block `i`. -/
def plainBefore (s : State) (m : MsgRun) (random : List Byte) : Nat → List Byte
  | 0 => zeros (ctxB s)
  | i + 1 => byDirection m.dir (inputOf s m random i) (startOutput s m random i)

/-- What CHAIN holds before block `i` of a sequential pair. -/
def chainBefore (s : State) (m : MsgRun) (random : List Byte) (i : Nat) : List Byte :=
  if s.ctx.mode = .ofb then streamBefore s i else cipherBefore s m random i

theorem keystream_eq (s : State) (i : Nat) :
    keystream (encryptBlock s.ftab s.ctx.rkt) (s.ctx.iv.getD []) i =
      encryptBlock s.ftab s.ctx.rkt (streamBefore s i) := by
  cases i <;> rfl

section
variable {s : State} {m : MsgRun}

theorem startOutput_of_encrypt (hdir : m.dir = .encrypt) (random : List Byte) (i : Nat) :
    startOutput s m random i =
      encEquation (encryptBlock s.ftab s.ctx.rkt) s.ctx.mode (inputOf s m random i) (plainBefore s m random i)
        (cipherBefore s m random i) (encryptBlock s.ftab s.ctx.rkt (streamBefore s i))
        (counter (ctxB s) (s.ctx.iv.getD []) (s.ctx.delta.getD 0) i) := by
  rw [← keystream_eq]
  cases i with
  | zero => simp only [startOutput, outputBlock, hdir, plainBefore, cipherBefore]
  | succ i => simp only [startOutput, outputBlock, hdir, plainBefore, cipherBefore, byDirection]

theorem startOutput_of_decrypt (hdir : m.dir = .decrypt) (random : List Byte) (i : Nat) :
    startOutput s m random i =
      decEquation (encryptBlock s.ftab s.ctx.rkt) (decryptBlock s.ftab s.ctx.rkt) s.ctx.mode (inputOf s m random i)
        (plainBefore s m random i) (cipherBefore s m random i) (encryptBlock s.ftab s.ctx.rkt (streamBefore s i))
        (counter (ctxB s) (s.ctx.iv.getD []) (s.ctx.delta.getD 0) i) := by
  rw [← keystream_eq]
  cases i with
  | zero => simp only [startOutput, outputBlock, hdir, plainBefore, cipherBefore]
  | succ i => simp only [startOutput, outputBlock, hdir, plainBefore, cipherBefore, byDirection]

/-- The blocks before a whole block are whole. -/
theorem WholeInput.of_le {i j : Nat} (h : WholeInput s m i) (hji : j ≤ i) : WholeInput s m j := fun hdir =>
  hji.trans_lt (h hdir)

theorem inputOf_congr_random {i : Nat} (h : WholeInput s m i) (random random' : List Byte) :
    inputOf s m random i = inputOf s m random' i := by
  rw [inputOf_of_whole h, inputOf_of_whole h]

/-- Whole blocks do not go by the bytes that fill a tail after them. -/
theorem startOutput_congr_random {i : Nat} (h : WholeInput s m i) (random random' : List Byte) :
    startOutput s m random i = startOutput s m random' i := by
  induction i with
  | zero => simp only [startOutput, outputBlock, inputOf_congr_random h random random']
  | succ i ih =>
    have hbefore := h.of_le (Nat.le_succ i)
    have hout := ih hbefore
    simp only [startOutput] at hout
    simp only [startOutput, outputBlock, inputOf_congr_random h random random',
      inputOf_congr_random hbefore random random', hout]

theorem cipherBefore_congr_random {i : Nat} (h : ∀ j, i = j + 1 → WholeInput s m j) (random random' : List Byte) :
    cipherBefore s m random i = cipherBefore s m random' i := by
  cases i with
  | zero => rfl
  | succ i =>
    have hi := h i rfl
    simp only [cipherBefore, startOutput_congr_random hi random random', inputOf_congr_random hi random random']

theorem plainBefore_congr_random {i : Nat} (h : ∀ j, i = j + 1 → WholeInput s m j) (random random' : List Byte) :
    plainBefore s m random i = plainBefore s m random' i := by
  cases i with
  | zero => rfl
  | succ i =>
    have hi := h i rfl
    simp only [plainBefore, startOutput_congr_random hi random random', inputOf_congr_random hi random random']

end

end Sys2Proof.Machine
end

section
/-! PROOFS. A message from its start to its end: what it has produced after each block, for any choice of lanes
(46_modes.md R122..R130). -/

namespace Sys2Proof.Machine

open Sys2Proof.Claim

/-! ### A later state of the message -/

/-- The message that started in `s` as `m₀` runs on in `t`, as `m`, with what it goes by unchanged. -/
structure Follows (s : State) (m₀ : MsgRun) (t : State) (m : MsgRun) : Prop where
  going : Going t m
  dir : m.dir = m₀.dir
  n : m.n = m₀.n
  inFlight : m.inFlight = none
  params : t.params = s.params
  ctx : t.ctx = s.ctx
  ftab : t.ftab = s.ftab
  latched : t.latched = s.latched
  source : sourceOf t = sourceOf s
  status : t.status = s.status
  error : t.error = s.error
  totalBlocks : t.out.totalBlocks = s.out.totalBlocks
  doneBlocks : t.out.doneBlocks = BitVec.ofNat 32 (blocksDone m)

section
variable {s t : State} {m₀ m : MsgRun} {random : List Byte} {l i : Nat} {drawn : List Byte} {e : Env}

theorem Follows.blockDone (h : Follows s m₀ t m) (ht : BlockTaken t m l drawn e) :
    Follows s m₀ (blockDone m l drawn e t) (advanceRun m l) where
  going := h.going.blockDone ht
  dir := h.dir
  n := h.n
  inFlight := by rw [advanceRun, h.inFlight]; rfl
  params := h.params
  ctx := h.ctx
  ftab := h.ftab
  latched := h.latched
  source := (h.going.sourceOf_blockDone ht).trans h.source
  status := h.status
  error := h.error
  totalBlocks := h.totalBlocks
  doneBlocks := by
    rw [blocksDone_advanceRun h.going.run, BitVec.ofNat_add, ← h.doneBlocks]
    rfl

theorem Follows.ctxB (h : Follows s m₀ t m) : ctxB t = ctxB s := ctxB_congr h.ctx

theorem Follows.runWidth (h : Follows s m₀ t m) : runWidth t m = runWidth s m₀ := by
  rw [runWidth_congr h.params h.ctx, Machine.runWidth, Machine.runWidth, h.dir]

theorem Follows.blockPlace (h : Follows s m₀ t m) (i : Nat) : blockPlace t i = blockPlace s i := by
  rw [Machine.blockPlace, Machine.blockPlace, h.latched, h.ctxB]

theorem Follows.inputOf (h : Follows s m₀ t m) (random : List Byte) (i : Nat) :
    inputOf t m random i = inputOf s m₀ random i := by
  rw [Machine.inputOf, Machine.inputOf, h.dir, h.ctx, h.ctxB, h.source]

theorem Follows.wholeInput_iff (h : Follows s m₀ t m) (i : Nat) : WholeInput t m i ↔ WholeInput s m₀ i := by
  rw [WholeInput, WholeInput, h.dir, h.latched, h.ctxB]

end

/-! ### What the message has produced -/

/-- What the message that started in `s` as `m₀` has produced where it runs in `t` as `m`: the completed blocks stand at
their places and in the output registers of their lanes, and CHAIN and CHAINP hold what a mode that carries them takes
over. A tail is filled with `random`, which no block has drawn while all completed ones are whole. -/
structure Produced (s : State) (m₀ : MsgRun) (random : List Byte) (t : State) (m : MsgRun) : Prop where
  draw : TailDraw s random
  bytes : (∀ i, IsCompleted t m i → WholeInput s m₀ i) → t.env.bytes = s.env.bytes
  blocks : ∀ i, IsCompleted t m i → readBytes t.mem (blockPlace s i) (ctxB s) = startOutput s m₀ random i
  frame : WritesOnly (fun x => ∃ i < m₀.n, inBlock s i x) s.mem t.mem
  outputs : ∀ l j, l < runWidth t m → laneDone m l = j + 1 →
    (laneRegs t l).output = startOutput s m₀ random (l + runWidth t m * j)
  chain : parallel s.ctx.mode m₀.dir = false → t.dp.chain = chainBefore s m₀ random (laneDone m 0)
  chainP : s.ctx.mode = .pcbc → t.dp.chainP = plainBefore s m₀ random (laneDone m 0)

section
variable {s t : State} {m₀ m : MsgRun} {random : List Byte} {l i : Nat} {drawn : List Byte} {e : Env}

/-- The lane of a sequential pair has completed the blocks before its next one. -/
theorem isCompleted_before (hseq : parallel s.ctx.mode m.dir = false) {j : Nat} (hj : laneDone m 0 = j + 1) :
    IsCompleted s m j := by
  have hw : runWidth s m = 1 := by simp [runWidth, hseq]
  rw [IsCompleted, hw, Nat.div_one, Nat.mod_one, hj]
  exact Nat.lt_succ_self j

theorem parallel_pcbc {mode : Mode} (h : mode = .pcbc) (dir : Direction) : parallel mode dir = false := by
  rw [h, parallel]

/-- While every completed block is whole, any bytes fill the tail to come. -/
theorem Produced.congr_random (hp : Produced s m₀ random t m) (hf : Follows s m₀ t m)
    (hwhole : ∀ i, IsCompleted t m i → WholeInput s m₀ i) (hdrawn : TailDraw s drawn) :
    Produced s m₀ drawn t m := by
  have hbefore (hseq : parallel s.ctx.mode m₀.dir = false) (j : Nat) (hj : laneDone m 0 = j + 1) :
      WholeInput s m₀ j := hwhole j (isCompleted_before (by rw [hf.ctx, hf.dir, hseq]) hj)
  exact
    { draw := hdrawn
      bytes := hp.bytes
      blocks := fun i hi => (hp.blocks i hi).trans (startOutput_congr_random (hwhole i hi) _ _)
      frame := hp.frame
      outputs := fun l j hl hj => (hp.outputs l j hl hj).trans
        (startOutput_congr_random (hwhole _ ((isCompleted_lane hl j).2 (by omega))) _ _)
      chain := fun hseq => by
        rw [hp.chain hseq, chainBefore, chainBefore, cipherBefore_congr_random (hbefore hseq) random drawn]
      chainP := fun hmode => by
        rw [hp.chainP hmode, plainBefore_congr_random (hbefore (parallel_pcbc hmode _)) random drawn] }

/-- The next block of a sequential pair is the number of its blocks done. -/
theorem nextBlock_of_sequential (hseq : parallel s.ctx.mode m.dir = false) (hl : l < runWidth s m) :
    l = 0 ∧ nextBlock s m l = laneDone m 0 := by
  have hw : runWidth s m = 1 := by simp [runWidth, hseq]
  obtain rfl : l = 0 := by omega
  exact ⟨rfl, by rw [nextBlock, hw, Nat.zero_add, Nat.one_mul]⟩

/-- What a parallel pair takes over of the input block before is the ciphertext block before. -/
theorem Follows.carriedOf_of_readsPrevious (h : Follows s m₀ t m) (hprev : readsPrevious s.ctx.mode m₀.dir = true)
    (random : List Byte) (i : Nat) : carriedOf t m random i = cipherBefore s m₀ random i := by
  rw [carriedOf, h.ctx, h.dir, if_pos hprev]
  cases i with
  | zero => rfl
  | succ i =>
    rw [if_neg (Nat.succ_ne_zero i), h.inputOf, cipherBefore, readsPrevious_decrypt hprev]
    rfl

theorem Follows.carriedOf_of_not_readsPrevious (h : Follows s m₀ t m)
    (hprev : readsPrevious s.ctx.mode m₀.dir = false) (random : List Byte) (i : Nat) :
    carriedOf t m random i = t.dp.chain := by
  rw [carriedOf, h.ctx, h.dir, hprev]
  rfl

/-- The modes whose equations have a term C_(i-1) (R124). -/
def chained (mode : Mode) : Prop := mode = .cbc ∨ mode = .pcbc ∨ mode = .cfb

theorem encEquation_congr {f : List Byte → List Byte} {mode : Mode} {x p p' c c' o o' ctr : List Byte}
    (hp : mode = .pcbc → p = p') (hc : chained mode → c = c') (ho : mode = .ofb → o = o') :
    encEquation f mode x p c o ctr = encEquation f mode x p' c' o' ctr := by
  unfold chained at hc
  cases mode <;> simp_all [encEquation]

theorem decEquation_congr {f g : List Byte → List Byte} {mode : Mode} {x p p' c c' o o' ctr : List Byte}
    (hp : mode = .pcbc → p = p') (hc : chained mode → c = c') (ho : mode = .ofb → o = o') :
    decEquation f g mode x p c o ctr = decEquation f g mode x p' c' o' ctr := by
  unfold chained at hc
  cases mode <;> simp_all [decEquation]

/-- A mode with a term C_(i-1) carries it in CHAIN where it does not read it again. -/
theorem parallel_of_chained {mode : Mode} {dir : Direction} (h : chained mode)
    (hprev : readsPrevious mode dir = false) : parallel mode dir = false := by
  unfold chained at h
  cases mode <;> cases dir <;> simp_all [readsPrevious, parallel]

theorem ne_ofb_of_chained {mode : Mode} (h : chained mode) : mode ≠ .ofb := by
  rintro rfl
  simp [chained] at h

theorem Produced.chain_eq (hp : Produced s m₀ random t m) (hf : Follows s m₀ t m) (hl : l < runWidth t m)
    (hseq : parallel s.ctx.mode m₀.dir = false) : t.dp.chain = chainBefore s m₀ random (nextBlock t m l) := by
  rw [(nextBlock_of_sequential (by rw [hf.ctx, hf.dir, hseq]) hl).2, hp.chain hseq]

theorem Produced.chainP_eq (hp : Produced s m₀ random t m) (hf : Follows s m₀ t m) (hl : l < runWidth t m)
    (hmode : s.ctx.mode = .pcbc) : t.dp.chainP = plainBefore s m₀ random (nextBlock t m l) := by
  rw [(nextBlock_of_sequential (by rw [hf.ctx, hf.dir, parallel_pcbc hmode]) hl).2, hp.chainP hmode]

theorem Produced.chain_eq_streamBefore (hp : Produced s m₀ random t m) (hf : Follows s m₀ t m)
    (hl : l < runWidth t m) (hmode : s.ctx.mode = .ofb) : t.dp.chain = streamBefore s (nextBlock t m l) := by
  rw [hp.chain_eq hf hl (by rw [hmode, parallel]), chainBefore, if_pos hmode]

/-- What a block takes over of the ciphertext before it, from CHAIN or from the source. -/
theorem Produced.carriedOf_eq (hp : Produced s m₀ random t m) (hf : Follows s m₀ t m) (hl : l < runWidth t m)
    (hmode : chained s.ctx.mode) :
    carriedOf t m random (nextBlock t m l) = cipherBefore s m₀ random (nextBlock t m l) := by
  cases hprev : readsPrevious s.ctx.mode m₀.dir with
  | true => exact hf.carriedOf_of_readsPrevious hprev _ _
  | false =>
    rw [hf.carriedOf_of_not_readsPrevious hprev, hp.chain_eq hf hl (parallel_of_chained hmode hprev), chainBefore,
      if_neg (ne_ofb_of_chained hmode)]

/-- With what CHAIN and CHAINP hold, the equation of the next block is a step of the recurrences of its mode. -/
theorem Produced.runningOutput_eq (hp : Produced s m₀ random t m) (hf : Follows s m₀ t m) (hl : l < runWidth t m) :
    runningOutput t m random (nextBlock t m l) = startOutput s m₀ random (nextBlock t m l) := by
  have hstream (hmode : s.ctx.mode = .ofb) := hp.chain_eq_streamBefore hf hl hmode
  rw [Machine.runningOutput_eq, equation, hf.dir, hf.ctx, hf.ftab, hf.ctxB, hf.inputOf]
  cases hdir : m₀.dir with
  | encrypt =>
    rw [startOutput_of_encrypt hdir]
    exact encEquation_congr (hp.chainP_eq hf hl) (hp.carriedOf_eq hf hl) fun hmode => by rw [hstream hmode]
  | decrypt =>
    rw [startOutput_of_decrypt hdir]
    exact decEquation_congr (hp.chainP_eq hf hl) (hp.carriedOf_eq hf hl) fun hmode => by rw [hstream hmode]

/-! ### One block more -/

/-- CHAIN after a block of a sequential pair is the ciphertext block, but for OFB (R124). -/
theorem nextChain_of_sequential {mode : Mode} {dir : Direction} (hseq : parallel mode dir = false)
    (hmode : mode ≠ .ofb) (x c v y : List Byte) :
    nextChain mode dir x c v y = byDirection dir y x := by
  cases mode with
  | ecb | ctr | rd => cases hseq
  | ofb => exact absurd rfl hmode
  | pcbc => cases dir <;> rfl
  | cbc | cfb =>
    cases dir with
    | encrypt => rfl
    | decrypt => cases hseq

theorem nextChainP_pcbc (dir : Direction) (x p y : List Byte) :
    nextChainP .pcbc dir x p y = byDirection dir x y := by
  cases dir <;> rfl

theorem laneRegs_setLane_same (l : Nat) (r : LaneRegs) (s : State) : laneRegs (setLane l r s) l = r :=
  lookupD_setKey_same ..

theorem laneRegs_setLane_other {k l : Nat} (h : k ≠ l) (r : LaneRegs) (s : State) :
    laneRegs (setLane l r s) k = laneRegs s k := lookupD_setKey_other _ _ _ h

@[simp] theorem output_roundRegs (ftab : List Byte) (rkt : RoundKeys) (dir : Direction) (x : List Byte) (r : LaneRegs) :
    (roundRegs ftab rkt dir x r).output = r.output := by
  cases rkt <;> cases dir <;> rfl

/-- Completing a block of lane `l` sets the registers of that lane, its output to the block, and those of no other. -/
theorem laneRegs_blockDone (m : MsgRun) (l : Nat) (random : List Byte) (e : Env) (t : State) :
    ∃ r, r.output = runningOutput t m random (nextBlock t m l) ∧
      ∀ k, laneRegs (blockDone m l random e t) k = laneRegs (setLane l r t) k :=
  ⟨_, output_roundRegs .., fun _ => rfl⟩

/-- CHAIN goes on as the recurrences of a sequential pair say. -/
theorem Produced.chain_blockDone (hp : Produced s m₀ random t m) (hf : Follows s m₀ t m) (hl : l < runWidth t m)
    (hseq : parallel s.ctx.mode m₀.dir = false) :
    (blockDone m l random e t).dp.chain = chainBefore s m₀ random (nextBlock t m l + 1) := by
  have hout := hp.runningOutput_eq hf hl
  rw [← hf.going.msgOutput_eq_runningOutput] at hout
  rw [blockDone_chain, hout, hf.ctx, hf.dir, chainBefore]
  by_cases hmode : s.ctx.mode = .ofb
  · have hprev : readsPrevious s.ctx.mode m₀.dir = false := by rw [hmode, readsPrevious]
    have hcarried : carriedOf t m random (nextBlock t m l) = streamBefore s (nextBlock t m l) := by
      rw [hf.carriedOf_of_not_readsPrevious hprev, hp.chain_eq_streamBefore hf hl hmode]
    rw [if_pos hmode, streamBefore, keystream_eq, ← hcarried, msgCipherInput, hf.ctx, hmode, ← hf.ftab, ← hf.ctx]
    rfl
  · rw [if_neg hmode, nextChain_of_sequential hseq hmode, cipherBefore, hf.inputOf]

theorem Produced.chainP_blockDone (hp : Produced s m₀ random t m) (hf : Follows s m₀ t m) (hl : l < runWidth t m)
    (hmode : s.ctx.mode = .pcbc) :
    (blockDone m l random e t).dp.chainP = plainBefore s m₀ random (nextBlock t m l + 1) := by
  have hout := hp.runningOutput_eq hf hl
  rw [← hf.going.msgOutput_eq_runningOutput] at hout
  rw [blockDone_chainP, hout, hf.ctx, hf.dir, hmode, nextChainP_pcbc, plainBefore, hf.inputOf]

/-- A completed block adds its output to what the message has produced. -/
theorem Produced.blockDone (hp : Produced s m₀ random t m) (hf : Follows s m₀ t m) (ht : BlockTaken t m l random e) :
    Produced s m₀ random (Machine.blockDone m l random e t) (advanceRun m l) := by
  obtain ⟨hl, hnext⟩ := mem_eligible.1 (hf.going.run.eligible_of_ready ht.ready)
  have hw : runWidth (Machine.blockDone m l random e t) (advanceRun m l) = runWidth t m := rfl
  have hout := hp.runningOutput_eq hf hl
  have hcompleted (i : Nat) : IsCompleted (Machine.blockDone m l random e t) (advanceRun m l) i ↔
      i = nextBlock t m l ∨ IsCompleted t m i := isCompleted_advanceRun hl
  have hfirst (hseq : parallel s.ctx.mode m₀.dir = false) :
      laneDone (advanceRun m l) 0 = nextBlock t m l + 1 := by
    obtain ⟨rfl, hnext⟩ := nextBlock_of_sequential (by rw [hf.ctx, hf.dir, hseq]) hl
    rw [laneDone_advanceRun_same, hnext]
  exact
    { draw := hp.draw
      bytes := fun hwhole => by
        have hthis : WholeInput t m (nextBlock t m l) :=
          (hf.wholeInput_iff _).2 (hwhole _ ((hcompleted _).2 (.inl rfl)))
        exact (ht.bytes hthis).trans (hp.bytes fun i hi => hwhole i ((hcompleted i).2 (.inr hi)))
      blocks := fun i hi => by
        rw [← hf.blockPlace, ← hf.ctxB]
        by_cases heq : i = nextBlock t m l
        · rw [heq, ht.readBytes_same hf.going.canonical, hout]
        · rw [ht.readBytes_other heq, hf.blockPlace, hf.ctxB]
          exact hp.blocks i (((hcompleted i).1 hi).resolve_left heq)
      frame := hp.frame.trans (ht.writesOnly.mono fun x hx => by
        refine ⟨_, hnext.trans_eq hf.n, ?_⟩
        rwa [inBlock, hf.blockPlace, hf.ctxB] at hx)
      outputs := fun k j hk hj => by
        rw [hw] at hk ⊢
        obtain ⟨r, hr, hregs⟩ := laneRegs_blockDone m l random e t
        rw [hregs]
        by_cases hkl : k = l
        · subst hkl
          rw [laneDone_advanceRun_same, Nat.add_right_cancel_iff] at hj
          rw [laneRegs_setLane_same, hr, hout, nextBlock, hj]
        · rw [laneDone_advanceRun_other m hkl] at hj
          rw [laneRegs_setLane_other hkl]
          exact hp.outputs k j hk hj
      chain := fun hseq => by rw [hfirst hseq, hp.chain_blockDone hf hl hseq]
      chainP := fun hmode => by rw [hfirst (parallel_pcbc hmode _), hp.chainP_blockDone hf hl hmode] }

/-- A block that draws the bytes of the tail settles them: the blocks before it did not go by them. -/
theorem Produced.exists_blockDone (hp : Produced s m₀ random t m) (hf : Follows s m₀ t m) (hdrawn : TailDraw t drawn)
    (ht : BlockTaken t m l drawn e) :
    ∃ random', Produced s m₀ random' (Machine.blockDone m l drawn e t) (advanceRun m l) := by
  by_cases hwhole : WholeInput t m (nextBlock t m l)
  · obtain ⟨ht', heq⟩ := ht.congr_random hwhole random
    rw [heq]
    exact ⟨random, hp.blockDone hf ht'⟩
  · obtain ⟨hl, hnext⟩ := mem_eligible.1 (hf.going.run.eligible_of_ready ht.ready)
    have hbefore (i : Nat) (hi : IsCompleted t m i) : WholeInput s m₀ i := by
      rw [← hf.wholeInput_iff]
      by_contra htail
      refine not_isCompleted_nextBlock hl ?_
      rwa [hf.going.eq_of_not_whole hnext hwhole, ← hf.going.eq_of_not_whole (hf.going.run.lt_of_isCompleted hi) htail]
    have hdrawn' : TailDraw s drawn := hdrawn.congr hf.ctx.symm hf.latched.symm (hp.bytes hbefore).symm
    exact ⟨drawn, (hp.congr_random hf hbefore hdrawn').blockDone hf ht⟩

/-- On a platform that completes every access, the message runs on until no lane has a block left, one block a step. -/
theorem Produced.runs (hp : Produced s m₀ random t m) (hf : Follows s m₀ t m)
    (hk : Completes (3 * (m₀.n - blocksDone m)) t) :
    ∃ random' t' m', Follows s m₀ t' m' ∧ Produced s m₀ random' t' m' ∧ eligible t' m' = [] ∧
      engineSteps (m₀.n - blocksDone m) t = t' := by
  generalize hleft : m₀.n - blocksDone m = left at *
  induction left generalizing t m random with
  | zero =>
    have hle := hf.going.run.blocksDone_le
    have hnil : eligible t m = [] := (hf.going.run.eligible_eq_nil_iff hf.inFlight).2 (by
      have := hf.n
      omega)
    exact ⟨random, t, m, hf, hp, hnil, rfl⟩
  | succ left ih =>
    have hready : readyLanes t m ≠ [] := by
      rw [readyLanes, hf.inFlight]
      intro hnil
      have hall := (hf.going.run.eligible_eq_nil_iff hf.inFlight).1 hnil
      have := hf.n
      omega
    obtain ⟨l, drawn, e, hdrawn, ht, hstep, hrest⟩ := hf.going.engineStep_eq hready (k := 3 * left) (hk.mono (by omega))
    obtain ⟨random', hp'⟩ := hp.exists_blockDone hf hdrawn ht
    have hcount := blocksDone_advanceRun hf.going.run l
    obtain ⟨random'', t', m', hf', hp'', hnil, hend⟩ := ih hp' (hf.blockDone ht) (by omega) hrest
    exact ⟨random'', t', m', hf', hp'', hnil, by rw [engineSteps_succ, hstep, hend]⟩

end

end Sys2Proof.Machine
end

section
/-! PROOFS. A message command from its acceptance to its end on a platform that completes every access: the blocks of the
mode equations, OUTLEN and PAD_WARN, for any number of lanes and any choice of them (46_modes.md R122..R130). -/

namespace Sys2Proof.Machine

open Sys2Proof.Claim

/-! ### The start (R124, R127) -/

/-- The state in which a message command that was issued in `s` and passed its checks has started. -/
def msgStart (dir : Direction) (s : State) : State := loadMsg dir (issuedBlocks s dir) (issuedMsg dir s)

/-- The run of that message. -/
def issuedRun (dir : Direction) (s : State) : MsgRun := startRun dir (issuedBlocks s dir)

section
variable {s : State} {dir : Direction}

theorem checked_of_messageReady (h : MessageReady s dir) :
    MessageChecked dir (issuedBlocks s dir) (issuedMsg dir s) where
  configured := h.configured
  count_eq := by
    rw [issuedMsg_len]
    exact blockCount_of_not_badLength h.length_ok
  count_le := Nat.le_of_lt_succ (messageBlocks_lt _ _ (eight_le_ctxB s) _)
  src_fits := by
    rw [srcOk, issuedMsg_src, issuedMsg_len]
    exact (rangeOk_iff s _ _).2 h.src_ok
  dst_fits := by
    rw [dstOk, issuedMsg_dst]
    exact (rangeOk_iff s _ _).2 h.dst_ok
  disjoint := by
    rw [issuedMsg_src, issuedMsg_len, issuedMsg_dst]
    exact (intersect_eq_false_iff ..).2 h.apart

theorem going_of_messageReady (h : MessageReady s dir) (hctx : ContextOk s.params s.ctx) (hmem : memoryWf s.mem = true) :
    Going (msgStart dir s) (issuedRun dir s) where
  seq := rfl
  context := hctx
  running := (loadMsg_messageInv (checked_of_messageReady h) hctx).running rfl
  run := runOk_start _ dir _
  raced := rfl
  canonical := hmem

theorem follows_of_messageReady (h : MessageReady s dir) (hctx : ContextOk s.params s.ctx) (hmem : memoryWf s.mem = true) :
    Follows (msgStart dir s) (issuedRun dir s) (msgStart dir s) (issuedRun dir s) where
  going := going_of_messageReady h hctx hmem
  dir := rfl
  n := rfl
  inFlight := rfl
  params := rfl
  ctx := rfl
  ftab := rfl
  latched := rfl
  source := rfl
  status := rfl
  error := rfl
  totalBlocks := rfl
  doneBlocks := rfl

/-- At the start nothing is produced, and the chain is that of the first block. -/
theorem produced_start (hctx : ContextOk s.params s.ctx) {random : List Byte}
    (hdraw : TailDraw (msgStart dir s) random) :
    Produced (msgStart dir s) (issuedRun dir s) random (msgStart dir s) (issuedRun dir s) where
  draw := hdraw
  bytes _ := rfl
  blocks _ hi := absurd hi (Nat.not_lt_zero _)
  frame := .refl _ _
  outputs _ _ _ hj := absurd hj.symm (Nat.succ_ne_zero _)
  chain hseq := by
    have hmode : s.ctx.mode ≠ .ecb := by
      intro hmode
      rw [show (msgStart dir s).ctx = s.ctx from rfl, hmode, parallel] at hseq
      cases hseq
    obtain ⟨iv, hiv, -⟩ := hctx.iv_present hmode
    have hchain : (msgStart dir s).dp.chain = s.ctx.iv.getD s.dp.chain := rfl
    have hbefore : chainBefore (msgStart dir s) (issuedRun dir s) random 0 = s.ctx.iv.getD [] := ite_self _
    rw [hchain, hiv]
    refine Eq.trans ?_ hbefore.symm
    rw [hiv]
    rfl
  chainP _ := rfl

theorem blockPlace_msgStart (i : Nat) : blockPlace (msgStart dir s) i = s.ops.dst.toNat + i * ctxB s := by
  rw [blockPlace, show (msgStart dir s).latched = (issuedMsg dir s).latched from rfl, issuedMsg_dst]
  rfl

theorem sourceOf_msgStart : sourceOf (msgStart dir s) = source s := by
  rw [sourceOf, show (msgStart dir s).latched = (issuedMsg dir s).latched from rfl, issuedMsg_src, issuedMsg_len]
  rfl

theorem tailCount_msgStart :
    tailCount (msgStart dir s) = randomCount s.ctx.pad (ctxB s) (s.ops.len.toNat % ctxB s) := by
  rw [tailCount, show (msgStart dir s).latched = (issuedMsg dir s).latched from rfl, issuedMsg_len]
  rfl

theorem startOutput_msgStart (random : List Byte) (i : Nat) :
    startOutput (msgStart dir s) (issuedRun dir s) random i = messageOutput s dir random i := by
  have hinput : inputOf (msgStart dir s) (issuedRun dir s) random =
      inputBlock dir s.ctx.pad (ctxB s) (source s) random := by
    funext j
    rw [inputOf, sourceOf_msgStart]
    rfl
  rw [startOutput, hinput]
  rfl

end

/-! ### The join (R128) -/

/-- What the join strips of the last output block, and whether it warns. -/
def stripped (pad : Padding) (dir : Direction) (n : Nat) (last : List Byte) : Nat × Bool :=
  match dir with
  | .encrypt => (0, false)
  | .decrypt => if n = 0 then (0, false) else scan pad last

theorem joinMsg_eq (m : MsgRun) (s : State) :
    joinMsg m s =
      terminal .done
        (setOutLen (m.n * ctxB s - (stripped s.ctx.pad m.dir m.n (lastOutput s m)).1)
          { s with
            status :=
              { s.status with
                padWarn := s.status.padWarn || (stripped s.ctx.pad m.dir m.n (lastOutput s m)).2 } }) := by
  unfold joinMsg stripped
  cases m.dir with
  | encrypt => simp
  | decrypt => rfl

theorem Produced.lastOutput_eq {s t : State} {m₀ m : MsgRun} {random : List Byte} (hp : Produced s m₀ random t m)
    (hf : Follows s m₀ t m) (hnil : eligible t m = []) (hn : m.n ≠ 0) :
    lastOutput t m = startOutput s m₀ random (m₀.n - 1) := by
  have hlane : (m.n - 1) % runWidth t m < runWidth t m := Nat.mod_lt _ (runWidth_pos t m)
  have hlast : IsCompleted t m (m.n - 1) := isCompleted_of_eligible_nil hnil (by omega)
  have hdiv := Nat.mod_add_div (m.n - 1) (runWidth t m)
  have hdone : laneDone m ((m.n - 1) % runWidth t m) = (m.n - 1) / runWidth t m + 1 := by
    refine Nat.le_antisymm (Nat.le_of_not_lt fun hmore => ?_) hlast
    have hlt := hf.going.run.lt_of_isCompleted ((isCompleted_lane hlane _).2 hmore)
    rw [Nat.mul_succ] at hlt
    have hpos := runWidth_pos t m
    omega
  rw [lastOutput, hp.outputs _ _ hlane hdone, hdiv, hf.n]

/-! ### The end (R126..R130) -/

/-- `u` is where a message command issued in `s` ends on a platform that completes every access. -/
structure MessageEnd (s : State) (dir : Direction) (random : List Byte) (u : State) : Prop where
  engine : u.status.engine = .done
  error : u.error = none
  irqTerminal : u.irqTerminal = true
  seq : u.seq = .idle
  doneBlocks : u.out.doneBlocks = BitVec.ofNat 32 (issuedBlocks s dir)
  totalBlocks : u.out.totalBlocks = BitVec.ofNat 32 (issuedBlocks s dir)
  blocks : ∀ j, j < issuedBlocks s dir →
    readBytes u.mem (s.ops.dst.toNat + j * ctxB s) (ctxB s) = messageOutput s dir random j
  frame : ∀ a, a < s.ops.dst.toNat ∨ s.ops.dst.toNat + issuedBlocks s dir * ctxB s ≤ a →
    readByte u.mem a = readByte s.mem a
  outLen : u.out.outLen = BitVec.ofNat 32 (issuedBlocks s dir * ctxB s -
    (stripped s.ctx.pad dir (issuedBlocks s dir) (messageOutput s dir random (issuedBlocks s dir - 1))).1)
  padWarn : u.status.padWarn = (s.status.padWarn ||
    (stripped s.ctx.pad dir (issuedBlocks s dir) (messageOutput s dir random (issuedBlocks s dir - 1))).2)

section
variable {s : State} {dir : Direction}

/-- The join of a message whose lanes have no block left is its end. -/
theorem Produced.messageEnd {random : List Byte} {t : State} {m : MsgRun}
    (hp : Produced (msgStart dir s) (issuedRun dir s) random t m)
    (hf : Follows (msgStart dir s) (issuedRun dir s) t m) (hnil : eligible t m = []) :
    MessageEnd s dir random (joinMsg m t) := by
  have hn : m.n = issuedBlocks s dir := hf.n
  have hctx : t.ctx = s.ctx := hf.ctx
  have hdir : m.dir = dir := hf.dir
  have hB : ctxB t = ctxB s := hf.ctxB
  have hall : blocksDone m = issuedBlocks s dir :=
    ((hf.going.run.eligible_eq_nil_iff hf.inFlight).1 hnil).trans hn
  have hstrip : stripped t.ctx.pad m.dir m.n (lastOutput t m) =
      stripped s.ctx.pad dir (issuedBlocks s dir) (messageOutput s dir random (issuedBlocks s dir - 1)) := by
    by_cases hzero : m.n = 0
    · rw [← hn, hctx, hdir, hzero]
      cases dir <;> rfl
    · rw [hp.lastOutput_eq hf hnil hzero, startOutput_msgStart, hctx, hdir, hn]
      rfl
  rw [joinMsg_eq, hstrip, hn, hB]
  exact
    { engine := rfl
      error := hf.error
      irqTerminal := rfl
      seq := rfl
      doneBlocks := hf.doneBlocks.trans (congrArg _ hall)
      totalBlocks := hf.totalBlocks
      blocks := fun j hj => by
        have hblock := hp.blocks j (isCompleted_of_eligible_nil hnil (hj.trans_eq hn.symm))
        rw [blockPlace_msgStart, startOutput_msgStart] at hblock
        exact hblock
      frame := fun a ha => hp.frame.frame a fun ⟨i, hi, hle, hlt⟩ => by
        have hmul : i * ctxB s + ctxB s ≤ issuedBlocks s dir * ctxB s := by
          rw [← Nat.succ_mul]
          exact Nat.mul_le_mul_right _ hi
        rw [blockPlace_msgStart] at hle hlt
        have hlt : a < s.ops.dst.toNat + i * ctxB s + ctxB s := hlt
        omega
      outLen := rfl
      padWarn := by
        have hwarn : t.status.padWarn = s.status.padWarn := by rw [hf.status]; rfl
        rw [← hwarn]
        rfl }

/-- A message command of n blocks ends n + 1 engine steps after its acceptance. -/
theorem ends_of_messageReady (h : MessageReady s dir) (hctx : ContextOk s.params s.ctx) (hmem : memoryWf s.mem = true)
    (hk : Completes (3 * issuedBlocks s dir) s) :
    ∃ random, TailDraw (msgStart dir s) random ∧
      MessageEnd s dir random (engineSteps (issuedBlocks s dir + 1) (msgStart dir s)) := by
  obtain ⟨random₀, hdraw⟩ := exists_tailDraw (msgStart dir s)
  obtain ⟨random, t, m, hf, hp, hnil, hrun⟩ := (produced_start hctx hdraw).runs (follows_of_messageReady h hctx hmem) hk
  have hready : readyLanes t m = [] := by rw [readyLanes, hf.inFlight, hnil]
  have hjoin : engineSteps (issuedBlocks s dir + 1) (msgStart dir s) = joinMsg m t := by
    rw [engineSteps_add, show engineSteps (issuedBlocks s dir) (msgStart dir s) = t from hrun, engineSteps_succ,
      engineSteps_zero, engineStep_of_msg hf.going.seq, msgStep_of_not_ready hready, finishMsg, hf.inFlight]
  exact ⟨random, hp.draw, hjoin ▸ hp.messageEnd hf hnil⟩

end

/-- Settles O52: the message starts, and what it has produced when no lane has a block left is what the recurrences of its
mode give. -/
theorem messageComputesTheModeEquations : Obligations.MessageComputesTheModeEquations := by
  intro s dir rest hready hctx hmem b n i hbus
  obtain ⟨random, hdraw, hend⟩ := ends_of_messageReady hready hctx hmem ⟨rest, hbus⟩
  have hexec : exec (msgInstr dir) s = .next (msgStart dir s) := exec_msgInstr_of_ready hready
  have hlen : random.length = randomCount s.ctx.pad b (s.ops.len.toNat % b) :=
    hdraw.length_eq.trans tailCount_msgStart
  refine ⟨msgStart dir s, random, ?_, hlen, hend.engine, hend.error, hend.irqTerminal, hend.seq, hend.doneBlocks,
    hend.totalBlocks, hend.blocks, hend.frame, ?_⟩
  · cases dir <;> exact hexec
  · have houtLen := hend.outLen
    have hpadWarn := hend.padWarn
    cases dir with
    | encrypt => exact ⟨houtLen, hpadWarn.trans (Bool.or_false _)⟩
    | decrypt => exact ⟨houtLen, hpadWarn⟩

/-! ### Lanes in any number and order (R126) -/

/-- The engine of `s` with another number of lanes, and with other choices placed. -/
def arranged (choices : List Nat) (lanes : Nat) (s : State) : State :=
  { s with params := { s.params with lanes := lanes }, env := { s.env with choices := choices } }

section
variable {s : State} {dir : Direction} (choices : List Nat) (lanes : Nat)

theorem messageReady_arranged (h : MessageReady s dir) : MessageReady (arranged choices lanes s) dir where
  accepted := h.accepted
  configured := h.configured
  length_ok := h.length_ok
  src_ok := h.src_ok
  dst_ok := h.dst_ok
  apart := h.apart

/-- No key schedule goes by the number of lanes. -/
theorem schedule_lanes (p : Params) (alg : Cipher) (k : List Byte) :
    schedule { p with lanes := lanes } alg k = schedule p alg k := by
  cases alg <;> rfl

theorem contextOk_arranged (h : ContextOk s.params s.ctx) :
    ContextOk (arranged choices lanes s).params (arranged choices lanes s).ctx :=
  { h with rkt_eq := h.rkt_eq.trans (schedule_lanes lanes s.params _ _).symm }

theorem messageOutput_arranged (random : List Byte) (j : Nat) :
    messageOutput (arranged choices lanes s) dir random j = messageOutput s dir random j := rfl

theorem tailDraw_arranged {random : List Byte} (h : TailDraw (msgStart dir (arranged choices lanes s)) random) :
    TailDraw (msgStart dir s) random := ⟨h.length_eq, h.placed⟩

/-- The end of the message is said in terms of what the number of lanes and the choices leave as it is. -/
theorem MessageEnd.of_arranged {random : List Byte} {u : State}
    (h : MessageEnd (arranged choices lanes s) dir random u) : MessageEnd s dir random u where
  engine := h.engine
  error := h.error
  irqTerminal := h.irqTerminal
  seq := h.seq
  doneBlocks := h.doneBlocks
  totalBlocks := h.totalBlocks
  blocks := h.blocks
  frame := h.frame
  outLen := h.outLen
  padWarn := h.padWarn

end

/-- The bytes drawn for a tail are the same in two runs, where enough are placed or none is drawn. -/
theorem TailDraw.unique {s : State} {random random' : List Byte} (h : TailDraw s random) (h' : TailDraw s random')
    (hplaced : tailCount s ≤ s.env.bytes.length) : random = random' :=
  (h.placed hplaced).trans (h'.placed hplaced).symm

theorem randomCount_le {pad : Padding} {b u n : Nat} (hb : b ≤ 16) (h : pad ≠ .iso10126 ∨ 15 ≤ n) :
    randomCount pad b u ≤ n := by
  unfold randomCount
  split
  · rename_i hpad
    have := h.resolve_left (not_not.2 hpad)
    omega
  · exact Nat.zero_le n

/-- Two messages that end with the same blocks leave the same data memory. -/
theorem MessageEnd.readByte_eq {s u u' : State} {dir : Direction} {random : List Byte}
    (h : MessageEnd s dir random u) (h' : MessageEnd s dir random u') (a : Nat) : readByte u.mem a = readByte u'.mem a := by
  by_cases hout : a < s.ops.dst.toNat ∨ s.ops.dst.toNat + issuedBlocks s dir * ctxB s ≤ a
  · rw [h.frame a hout, h'.frame a hout]
  · obtain ⟨x, rfl⟩ := Nat.exists_eq_add_of_le (Nat.le_of_not_lt (not_or.1 hout).1)
    have hx : x < issuedBlocks s dir * ctxB s := by omega
    have hj : x / ctxB s < issuedBlocks s dir := Nat.div_lt_of_lt_mul (by rwa [Nat.mul_comm])
    have hblock := (h.blocks _ hj).trans (h'.blocks _ hj).symm
    have hbyte := List.map_inj_left.1 hblock (x % ctxB s) (List.mem_range.2 (Nat.mod_lt _ (ctxB_pos s)))
    rwa [Nat.add_assoc, Nat.mul_comm, Nat.div_add_mod] at hbyte

/-- Settles O53: both runs end with the blocks of the same recurrences, a tail filled with the same bytes. -/
theorem laneOrderDoesNotMatter : Obligations.LaneOrderDoesNotMatter := by
  intro s dir rest choices₁ choices₂ lanes₁ lanes₂ hready hctx hmem n i arr hbus hrandom
  have hk (choices : List Nat) (lanes : Nat) : Completes (3 * issuedBlocks s dir) (arranged choices lanes s) :=
    ⟨rest, hbus⟩
  have hexec (choices : List Nat) (lanes : Nat) :
      exec i (arr choices lanes) = .next (msgStart dir (arranged choices lanes s)) := by
    have := exec_msgInstr_of_ready (messageReady_arranged choices lanes hready)
    cases dir <;> exact this
  obtain ⟨random₁, hdraw₁, hend₁⟩ :=
    ends_of_messageReady (messageReady_arranged choices₁ lanes₁ hready) (contextOk_arranged choices₁ lanes₁ hctx) hmem
      (hk choices₁ lanes₁)
  obtain ⟨random₂, hdraw₂, hend₂⟩ :=
    ends_of_messageReady (messageReady_arranged choices₂ lanes₂ hready) (contextOk_arranged choices₂ lanes₂ hctx) hmem
      (hk choices₂ lanes₂)
  have hplaced : tailCount (msgStart dir s) ≤ s.env.bytes.length :=
    tailCount_msgStart.trans_le (randomCount_le (ctxB_le s) hrandom)
  obtain rfl : random₁ = random₂ :=
    (tailDraw_arranged choices₁ lanes₁ hdraw₁).unique (tailDraw_arranged choices₂ lanes₂ hdraw₂) hplaced
  refine ⟨_, _, hexec choices₁ lanes₁, hexec choices₂ lanes₂, fun a => ?_, ?_⟩
  · exact (hend₁.of_arranged choices₁ lanes₁).readByte_eq (hend₂.of_arranged choices₂ lanes₂) a
  · exact hend₁.outLen.trans hend₂.outLen.symm

end Sys2Proof.Machine
end

section
/-! PROOFS. Every end of a command raises IRQ_STATUS.TERMINAL and takes CANCEL_PENDING back, and the interrupt output
follows its two bits (60_exceptions.md R136, R139; 10_state.md R19). -/

namespace Sys2Proof.Machine

open Sys2Proof.Claim

/-! ### The end of a command, announced -/

/-- `t` shows the end of a command: a terminal STATE, TERMINAL raised and no CANCEL pending (R136). -/
structure EndShown (t : State) : Prop where
  engine : isTerminal t.status.engine = true
  irqTerminal : t.irqTerminal = true
  cancelPending : t.status.cancelPending = false

/-- `terminal`, the one way a command ends, shows the end for each of the three terminal states. -/
theorem endShown_terminal {st : EngineState} (hst : isTerminal st = true) (s : State) : EndShown (terminal st s) :=
  ⟨hst, rfl, rfl⟩

theorem Ends.endShown {u t : State} (h : Ends u t) : EndShown t := by
  cases h with
  | done _ => exact endShown_terminal rfl _
  | failed _ _ _ => exact endShown_terminal rfl _

theorem Rebuilds.endShown {u t : State} (h : Rebuilds u t) : EndShown t := by
  cases h with
  | configured _ _ => exact endShown_terminal rfl _
  | rekeyed _ _ _ => exact endShown_terminal rfl _

/-- A command that was accepted runs on, or has ended in its accepting step. -/
theorem Performed.busy_or_endShown {i : Instr} {u t : State} (h : Performed i u t) (hu : u.status.engine = .busy) :
    t.status.engine = .busy ∨ EndShown t := by
  cases h with
  | ended h => exact .inr h.endShown
  | rebuilt _ h => exact .inr h.endShown
  | slow _ _ hv _ => exact .inl (hv.engine.trans hu)
  | message _ hv _ _ => exact .inl (hv.engine.trans hu)

/-- A command other than NOP, ACK and CANCEL that can be accepted is performed. -/
theorem Executed.performed_of_canAccept {i : Instr} {s t : State} (h : Executed i s t) (hacc : CanAccept s)
    (hnop : i ≠ .nop) (hack : i ≠ .ack) (hcancel : i ≠ .cancel) : Performed i (accept i s) t := by
  cases h with
  | noEffect hi => exact (hi.elim hnop hcancel).elim
  | dropped hdrop => exact absurd hacc hdrop
  | acknowledged hi _ => exact absurd hi hack
  | cancelled hi _ _ => exact absurd hi hcancel
  | performed _ _ hp => exact hp

/-- After the engine's own step STATE is as it was or IDLE, or the step has ended a command. -/
theorem EngineStepped.engine_cases {s t : State} (h : EngineStepped s t) :
    t.status.engine = s.status.engine ∨ t.status.engine = .idle ∨ EndShown t := by
  cases h with
  | idle _ => exact .inl rfl
  | initialised _ => exact .inr (.inl rfl)
  | initialising _ _ => exact .inl rfl
  | slow _ _ _ => exact .inl rfl
  | ended _ _ h => exact .inr (.inr h.endShown)
  | rebuilt _ h => exact .inr (.inr h.endShown)
  | cancelled _ _ _ => exact .inr (.inr (endShown_terminal rfl _))
  | block _ _ _ _ hstatus _ => exact .inl (congrArg Status.engine hstatus)

/-- An engine step from BUSY to a terminal STATE has ended a command. -/
theorem EngineStepped.endShown {s t : State} (h : EngineStepped s t) (hbusy : s.status.engine = .busy)
    (hterm : isTerminal t.status.engine = true) : EndShown t := by
  rcases h.engine_cases with hkept | hidle | hshown
  · simp [hkept, hbusy, isTerminal] at hterm
  · simp [hidle, isTerminal] at hterm
  · exact hshown

/-- Settles O15: an accepted command runs on or ends, and every end, in the accepting step or in a later one, is
a use of `terminal`. -/
theorem everyEndRaisesTerminal : Obligations.EveryEndRaisesTerminal := by
  refine ⟨fun i s hnop hack hcancel hacc => ?_, fun s hterm hbusy => ?_⟩
  · obtain ⟨t, ht⟩ := exec_exists_next i s
    have hp := (exec_executed ht).performed_of_canAccept hacc hnop hack hcancel
    exact ⟨t, ht, (hp.busy_or_endShown rfl).imp_right fun h => ⟨h.engine, h.irqTerminal, h.cancelPending⟩⟩
  · have h := (engineStep_engineStepped s).endShown hbusy hterm
    exact ⟨h.irqTerminal, h.cancelPending⟩

/-! ### The interrupt output -/

/-- A write to CTRL gives the interrupt output the new IRQ_EN and leaves TERMINAL (R139). -/
theorem irqLine_writeReg_ctrl (v : Word) (s : State) :
    irqLine (writeReg .ctrl v s) = (v.getLsbD 0 && s.irqTerminal) := rfl

/-- A write to IRQ_STATUS leaves IRQ_EN and clears TERMINAL where bit 0 is written 1 (R19, R139). -/
theorem irqLine_writeReg_irqStatus (v : Word) (s : State) :
    irqLine (writeReg .irqStatus v s) = (s.irqEn && s.irqTerminal && !v.getLsbD 0) :=
  (Bool.and_assoc _ _ _).symm

/-- Settles O16: either access is a register write, and the output is that of the state it leaves. -/
theorem interruptFollowsItsBits : Obligations.InterruptFollowsItsBits := by
  refine fun s a rest v => ⟨fun ha hhost => ?_, fun ha hhost => ?_⟩
  · exact ⟨_, step_regWrite ha (by decide) (by decide) (by decide) hhost, irqLine_writeReg_ctrl v _⟩
  · exact ⟨_, step_regWrite ha (by decide) (by decide) (by decide) hhost, irqLine_writeReg_irqStatus v _⟩

end Sys2Proof.Machine
end

section
/-! PROOFS. Reset: the state right after it, the window there, and a reset in operation (70_reset_and_hazards.md R151,
R152; 00_scope.md R6). -/

namespace Sys2Proof.Machine

open Sys2Proof.Claim

/-! ### A reset in operation -/

/-- A reset asserted by the platform is the engine's reset, with a drawn length of the initialisation. -/
theorem hostReset_eq (s : State) : ∃ k e, hostReset s = resetEngine k (setEnv e s) := by
  obtain ⟨e, he⟩ := drawChoice_spec s
  exact ⟨(drawChoice s).1, e, congrArg (resetEngine _) he⟩

theorem step_reset {s : State} {rest : List HostOp} (hhost : s.host = .reset :: rest) :
    step s = .next (hostReset { s with host := rest }) := by
  rw [step, hhost]
  rfl

/-- Settles O22: the next step is the engine's reset, which is written from `State.reset`. -/
theorem resetInOperation : Obligations.ResetInOperation := by
  intro s rest hhost
  obtain ⟨k, e, hreset⟩ := hostReset_eq { s with host := rest }
  exact ⟨k, e, by rw [step_reset hhost, hreset]; rfl⟩

/-! ### The invariants -/

/-- A reset, in operation or at the start, leads to a state with every invariant wherever data memory has its own: no
message and no bit command runs, and no context is valid. -/
theorem resetEngine_machineInv (k : Nat) {s : State} (hmem : MemoryInv s) : MachineInv (resetEngine k s) where
  control := resetEngine_controlInv k s
  ftab hinit := Bool.noConfusion hinit
  context hkeyed := Bool.noConfusion hkeyed
  progress := resetEngine_progressInv k s
  message := messageInv_of_not_msg (by simp)
  bits := bitInv_of_not_slow (by simp)
  memory := hmem

/-- Right after reset data memory lists no byte (log 1). -/
theorem memoryInv_reset : MemoryInv State.reset := ⟨rfl, fun _ hc => absurd hc List.not_mem_nil⟩

/-- Settles O59: the state right after reset is what the engine's reset makes of it. -/
theorem resetMeetsTheInvariants : Obligations.ResetMeetsTheInvariants :=
  resetEngine_machineInv Config.initSteps memoryInv_reset

/-! ### The window -/

/-- A register that is not reserved stands at one offset. -/
theorem eq_regOffset_of_regAt {o : Nat} {r : Reg} (ho4 : o % 4 = 0) (ho : o < 256) (h : regAt o = r)
    (hr : r ≠ .reserved) : o = regOffset r := by
  rcases (windowMap_aligned ho4 ho).1 with hres | hoff
  · exact absurd (h.symm.trans hres) hr
  · rw [← h, hoff]

theorem arrWord_zero {n : Nat} (j : Nat) : arrWord (0 : BitVec n) j = 0 := BitVec.extractLsb'_zero

/-- Every register but ID, STATUS and LANES reads 0 right after reset (R151). -/
theorem readReg_reset_eq_zero {r : Reg} (hid : r ≠ .id) (hstatus : r ≠ .status) (hlanes : r ≠ .lanes) :
    readReg State.reset r = 0 := by
  cases r with
  | id => exact absurd rfl hid
  | status => exact absurd rfl hstatus
  | lanes => exact absurd rfl hlanes
  | key j | iv j | delta j | blkIn j | blkOut j => exact arrWord_zero j
  | cmd | error | ctrl | irqStatus | alg | mode | padding | keyLen | ivLen | deltaCtl | src | dst | len | outLen
  | doneBlocks | totalBlocks | bitIdx | ruleAddr | ruleLen | gfArg | padUsed | result | blkLen | reserved => rfl

/-- The ranges of the open parameters (R6; LANES below 2^32 is the model's, log 5). -/
theorem lanes_reset : 1 ≤ State.reset.params.lanes ∧ State.reset.params.lanes < 2 ^ 32 :=
  ⟨Nat.succ_pos _, Nat.succ_lt_succ Config.lanesLessOne.isLt⟩

theorem memSize_reset : 1 ≤ State.reset.params.memSize ∧ State.reset.params.memSize ≤ 2 ^ 32 :=
  ⟨Nat.succ_pos _, Config.memSizeLessOne.isLt⟩

theorem laneCount_reset : laneCount State.reset = State.reset.params.lanes := Nat.max_eq_right lanes_reset.1

/-- Settles O18: the three registers that read otherwise, and all the others together. -/
theorem windowAfterReset : Obligations.WindowAfterReset := by
  refine ⟨fun o ho4 ho => ?_, lanes_reset.1, lanes_reset.2, memSize_reset.1, memSize_reset.2⟩
  split_ifs with hid hstatus hlanes
  · rw [hid]
    rfl
  · rw [hstatus]
    rfl
  · rw [hlanes, ← laneCount_reset]
    rfl
  · exact readReg_reset_eq_zero (fun h => hid (eq_regOffset_of_regAt ho4 ho h (by decide)))
      (fun h => hstatus (eq_regOffset_of_regAt ho4 ho h (by decide)))
      (fun h => hlanes (eq_regOffset_of_regAt ho4 ho h (by decide)))

end Sys2Proof.Machine
end

section
/-! PROOFS. Every command ends: each step of the engine brings the end of what runs nearer, and the state in which
nothing runs any more is a terminal one (10_state.md R24; 60_exceptions.md R136; 70_reset_and_hazards.md R155). -/

namespace Sys2Proof.Machine

open Sys2Proof.Claim

/-! ### The blocks that a message has left -/

/-- The blocks of a message that its lanes have not completed. -/
def blocksLeft (s : State) (m : MsgRun) : Finset Nat :=
  {i ∈ Finset.range m.n | laneDone m (i % runWidth s m) ≤ i / runWidth s m}

theorem mem_blocksLeft {s : State} {m : MsgRun} {i : Nat} :
    i ∈ blocksLeft s m ↔ i < m.n ∧ ¬ IsCompleted s m i := by
  simp [blocksLeft, IsCompleted]

theorem card_blocksLeft_le (s : State) (m : MsgRun) : (blocksLeft s m).card ≤ m.n :=
  (Finset.card_filter_le _ _).trans_eq (Finset.card_range m.n)

theorem blocksLeft_congr {s t : State} (hp : t.params = s.params) (hc : t.ctx = s.ctx) (m : MsgRun) :
    blocksLeft t m = blocksLeft s m := by
  rw [blocksLeft, blocksLeft, runWidth_congr hp hc]

/-- Completing the next block of a lane takes it from those left, whatever the lanes have completed before. -/
theorem card_blocksLeft_advanceRun {s : State} {m : MsgRun} {l : Nat} (hl : l ∈ eligible s m) :
    (blocksLeft s (advanceRun m l)).card < (blocksLeft s m).card := by
  obtain ⟨hlane, hnext⟩ := mem_eligible.1 hl
  have hsub : blocksLeft s (advanceRun m l) ⊆ blocksLeft s m := fun i hi => by
    obtain ⟨hlt, hleft⟩ := mem_blocksLeft.1 hi
    exact mem_blocksLeft.2 ⟨hlt, fun h => hleft ((isCompleted_advanceRun hlane).2 (.inr h))⟩
  refine Finset.card_lt_card ((Finset.ssubset_iff_of_subset hsub).2 ⟨nextBlock s m l, ?_, fun hmem => ?_⟩)
  · exact mem_blocksLeft.2 ⟨hnext, not_isCompleted_nextBlock hlane⟩
  · exact (mem_blocksLeft.1 hmem).2 ((isCompleted_advanceRun hlane).2 (.inl rfl))

/-! ### The steps that a command has left -/

/-- How many blocks a message still completes when no access fails: after a CANCEL those in flight (R131). -/
def runBlocksLeft (s : State) (m : MsgRun) : Nat :=
  match m.inFlight with
  | none => (blocksLeft s m).card
  | some f => f.length

/-- How many engine steps what runs takes at most: a message has one for each block left and one for its end. -/
def stepsLeft (s : State) : Nat :=
  match s.seq with
  | .idle => 0
  | .init left | .slow _ left => left + 1
  | .msg m => runBlocksLeft s m + 1

theorem stepsLeft_of_idle {s : State} (hseq : s.seq = .idle) : stepsLeft s = 0 := by rw [stepsLeft, hseq]

theorem stepsLeft_of_init {s : State} {left : Nat} (hseq : s.seq = .init left) : stepsLeft s = left + 1 := by
  rw [stepsLeft, hseq]

theorem stepsLeft_of_slow {s : State} {cmd : SlowCmd} {left : Nat} (hseq : s.seq = .slow cmd left) :
    stepsLeft s = left + 1 := by
  rw [stepsLeft, hseq]

theorem stepsLeft_of_msg {s : State} {m : MsgRun} (hseq : s.seq = .msg m) : stepsLeft s = runBlocksLeft s m + 1 := by
  rw [stepsLeft, hseq]

theorem runBlocksLeft_of_running {s : State} {m : MsgRun} (hf : m.inFlight = none) :
    runBlocksLeft s m = (blocksLeft s m).card := by
  rw [runBlocksLeft, hf]

theorem runBlocksLeft_of_inFlight {s : State} {m : MsgRun} {f : List Nat} (hf : m.inFlight = some f) :
    runBlocksLeft s m = f.length := by
  rw [runBlocksLeft, hf]

theorem runBlocksLeft_congr {s t : State} (hp : t.params = s.params) (hc : t.ctx = s.ctx) (m : MsgRun) :
    runBlocksLeft t m = runBlocksLeft s m := by
  rw [runBlocksLeft, runBlocksLeft, blocksLeft_congr hp hc]

/-- A block that a ready lane completes is one less to complete, of a message left to run or cancelled. -/
theorem runBlocksLeft_advanceRun {s : State} {m : MsgRun} {l : Nat} (hl : l ∈ readyLanes s m) :
    runBlocksLeft s (advanceRun m l) < runBlocksLeft s m := by
  cases hf : m.inFlight with
  | none =>
    rw [readyLanes, hf] at hl
    rw [runBlocksLeft_of_running hf, runBlocksLeft_of_running (by rw [advanceRun, hf]; rfl)]
    exact card_blocksLeft_advanceRun hl
  | some f =>
    rw [readyLanes_of_inFlight hf] at hl
    rw [runBlocksLeft_of_inFlight hf, runBlocksLeft_of_inFlight (inFlight_advanceRun hf l),
      List.length_erase_of_mem hl]
    exact Nat.sub_one_lt_of_lt (List.length_pos_of_mem hl)

/-! ### Every engine step brings the end nearer -/

theorem finishMsg_seq (m : MsgRun) (s : State) : (finishMsg m s).seq = .idle := by
  rcases finishMsg_cases m s with ⟨-, n, w, h⟩ | ⟨-, h⟩
  · rw [h, terminal_seq]
  · rw [h, terminal_seq]

/-- A step of a message ends it or completes a block that was left. -/
theorem stepsLeft_msgStep {s : State} {m : MsgRun} (hseq : s.seq = .msg m) :
    stepsLeft (msgStep m s) < stepsLeft s := by
  rw [stepsLeft_of_msg hseq]
  rcases msgStep_cases m s with ⟨-, hstep⟩ | ⟨l, e, hl, hstep⟩
  · rw [hstep, stepsLeft_of_idle (finishMsg_seq m s)]
    exact Nat.succ_pos _
  · rw [hstep]
    rcases blockStep_cases_running m l (setEnv e s) with hend | ⟨v, hv, -, hblock⟩
    · rw [stepsLeft_of_idle hend.seq]
      exact Nat.succ_pos _
    · have hleft : runBlocksLeft { v with seq := .msg (advanceRun m l) } (advanceRun m l) =
          runBlocksLeft s (advanceRun m l) := runBlocksLeft_congr hv.params hv.ctx _
      rw [hblock, stepsLeft_of_msg rfl, hleft]
      exact Nat.succ_lt_succ (runBlocksLeft_advanceRun hl)

/-- Whatever runs, it has fewer steps left after the engine's next one. -/
theorem stepsLeft_engineStep {s : State} (hrun : s.seq ≠ .idle) : stepsLeft (engineStep s) < stepsLeft s := by
  unfold engineStep
  split
  next hseq => exact absurd hseq hrun
  next left hseq =>
    rw [stepsLeft_of_init hseq]
    cases left with
    | zero => exact (stepsLeft_of_idle (finishInit_seq s)).trans_lt (Nat.succ_pos 0)
    | succ k => exact (stepsLeft_of_init rfl).trans_lt (Nat.lt_succ_self _)
  next cmd left hseq =>
    rw [stepsLeft_of_slow hseq]
    cases left with
    | zero => exact (stepsLeft_of_idle (finishSlow_seq cmd s)).trans_lt (Nat.succ_pos 0)
    | succ k => exact (stepsLeft_of_slow rfl).trans_lt (Nat.lt_succ_self _)
  next m hseq => exact stepsLeft_msgStep hseq

/-- After as many steps as are left, nothing runs. -/
theorem engineSteps_seq_idle {k : Nat} {s : State} (hk : stepsLeft s ≤ k) : (engineSteps k s).seq = .idle := by
  induction k generalizing s with
  | zero =>
    by_contra hrun
    exact Nat.not_lt_zero _ ((stepsLeft_engineStep hrun).trans_le hk)
  | succ k ih =>
    by_cases hseq : s.seq = .idle
    · rw [engineSteps_of_idle hseq, hseq]
    · exact ih (Nat.le_of_lt_succ ((stepsLeft_engineStep hseq).trans_le hk))

/-! ### Where what runs ends -/

/-- What each engine step keeps, any number of them keeps. -/
theorem engineSteps_keep {P : State → Prop} (hstep : ∀ t, P t → P (engineStep t)) (k : Nat) {s : State} (hs : P s) :
    P (engineSteps k s) := by
  induction k generalizing s with
  | zero => exact hs
  | succ k ih => exact ih (hstep s hs)

theorem engineSteps_controlInv (k : Nat) {s : State} (hs : ControlInv s) : ControlInv (engineSteps k s) :=
  engineSteps_keep (fun t ht => (engineStep_engineStepped t).controlInv ht) k hs

/-- After initialisation a command runs, or it has ended in a terminal state (R136). -/
structure RunsOrEnded (s : State) : Prop where
  control : ControlInv s
  initDone : s.status.initDone = true
  engine : s.status.engine = .busy ∨ isTerminal s.status.engine = true

theorem RunsOrEnded.engineStep {s : State} (h : RunsOrEnded s) : RunsOrEnded (engineStep s) where
  control := (engineStep_engineStepped s).controlInv h.control
  initDone := by
    rcases (engineStep_engineStepped s).kept with hkept | ⟨-, hinit⟩
    · rw [hkept.initDone, h.initDone]
    · rw [hinit, finishInit_status]
  engine := by
    by_cases hsame : (Machine.engineStep s).status.engine = s.status.engine
    · rw [hsame]
      exact h.engine
    · have hend := ((engineStep_engineStepped s).engine_of_ne h.control hsame).2
      rw [if_pos h.initDone] at hend
      exact .inr hend

/-- Settles O10: by the steps left, of which a message of n blocks has at most n + 1; where nothing runs any more STATE
is no longer BUSY. -/
theorem everyCommandEnds : Obligations.EveryCommandEnds := by
  intro s hs hbusy
  have hidle : (engineSteps (stepsLeft s) s).seq = .idle := engineSteps_seq_idle le_rfl
  have hended : (engineSteps (stepsLeft s) s).status.engine ≠ .busy := fun h =>
    (engineSteps_controlInv _ hs).busy_iff_running.1 h hidle
  refine ⟨stepsLeft s, ?_, hended, fun hinit => ?_⟩
  · split
    next hseq => rw [stepsLeft_of_idle hseq]
    next left hseq => rw [stepsLeft_of_init hseq]
    next cmd left hseq => rw [stepsLeft_of_slow hseq]
    next m hseq =>
      rw [stepsLeft_of_msg hseq]
      split
      next hf =>
        rw [runBlocksLeft_of_running hf]
        exact Nat.succ_le_succ (card_blocksLeft_le s m)
      next f hf => rw [runBlocksLeft_of_inFlight hf]
  · have hruns : RunsOrEnded (engineSteps (stepsLeft s) s) :=
      engineSteps_keep (fun _ ht => ht.engineStep) _ ⟨hs, hinit, .inl hbusy⟩
    exact hruns.engine.resolve_left hended

end Sys2Proof.Machine
end
